-- ==== Sys2Proof/Word.lean ====
section
/-!
DEFINITION. The word types of the Nearis Celfer and their plainest arithmetic (00_scope R5, R10).
-/
namespace Sys2Proof

/-- One byte of any memory space. -/
abbrev Byte := BitVec 8

/-- A 64-bit word: a scalar register, an instruction word, an address as it is computed. -/
abbrev Word := BitVec 64

/-- One 32-bit slot of a vector register or word of an accumulator tile. -/
abbrev Slot := BitVec 32

/-- `fld w lo n` is bits `lo + n - 1 : lo` of the number `w` (00_scope R5). -/
def fld (w lo n : Nat) : Nat := w / 2 ^ lo % 2 ^ n

/-- One bit of the number `w` (00_scope R5). -/
def bitAt (w i : Nat) : Bool := w / 2 ^ i % 2 == 1

/-- 1 for true, 0 for false. -/
def bit1 (b : Bool) : Nat := if b then 1 else 0

end Sys2Proof
end

