-- ==== Sys2Proof/Syntax.lean ====
section
/-!
DEFINITION. The steps of the Nearis Celfer: one constructor of Instr per row of spec/opcode_table.json.
Instruction words carry their decoded fields (09_encoding R104 to R125), engine words their argument
(R128, R129), and events the choice of the agent that makes the step (which cell, which operation).
-/
namespace Sys2Proof

/-! ## Operands of instruction words -/

/-- The two cores of a cell (01 R11). -/
inductive Core where
  | ac | xc
  deriving DecidableEq, Repr, Inhabited

/-- The four engine streams of a job (01 R13). -/
inductive Eng where
  | ac | xc | ce0 | ce1
  deriving DecidableEq, Repr, Inhabited

/-- A scalar source field: a register, or on the XC a pop or a peek of lq0 to lq3 (09 R111 to R113). -/
inductive Src where
  | reg (n : BitVec 6)
  | pop (q : BitVec 2)
  | peek (q : BitVec 2)
  deriving DecidableEq, Repr, Inhabited

/-- A scalar destination field: a register, or on the XC a push to sq0 or sq1 (09 R111, R112). -/
inductive Dst where
  | reg (n : BitVec 6)
  | push (q : BitVec 1)
  deriving DecidableEq, Repr, Inhabited

/-- The sync field (09 R114). -/
structure Sync where
  wait : Bool
  post : Bool
  sem : BitVec 6
  deriving DecidableEq, Repr, Inhabited

/-- The kinds of ordering (07 R82). -/
inductive OrdKind where
  | plain | acq | rel | acqrel
  deriving DecidableEq, Repr, Inhabited

/-- The scopes (07 R82). -/
inductive Scope where
  | cell | die | package | fabric
  deriving DecidableEq, Repr, Inhabited

/-- The four ordering fields (07 R82). -/
structure OrdF where
  os : BitVec 3
  pm : BitVec 8
  ord : OrdKind
  scope : Scope
  deriving DecidableEq, Repr, Inhabited

/-- The rounding codes an instruction may name (03 R45). -/
inductive Rm where
  | rne | rtz | rup | rdn | sr | dyn
  deriving DecidableEq, Repr, Inhabited

/-- The element types, ET codes 0 to 9 of 05 R72. -/
inductive ET where
  | f32 | bf16 | f16 | e4m3 | e5m2 | e2m1 | i32 | i8 | u8 | i4
  deriving DecidableEq, Repr, Inhabited

/-- The types of FCVT: the ET codes and a signed 64-bit integer (09 R119). -/
inductive CvtTy where
  | et (t : ET)
  | i64
  deriving DecidableEq, Repr, Inhabited

/-- Access sizes of format M (09 R107). -/
inductive Sz where
  | b | h | w | d
  deriving DecidableEq, Repr, Inhabited

/-- The place field (05 R62): die, row and column; the low four bits are zero in a legal field. -/
structure Place where
  die : BitVec 1
  row : BitVec 3
  col : BitVec 4
  deriving DecidableEq, Repr, Inhabited

/-- Branch hints (09 R108). -/
inductive Hint where
  | none | likely | unlikely
  deriving DecidableEq, Repr, Inhabited

/-- The trip operand of LOOP (09 R118, 11 R159). -/
inductive Trip where
  | reg (n : BitVec 6)
  | pop (q : BitVec 2)
  | mbox (n : BitVec 3)
  deriving DecidableEq, Repr, Inhabited

/-- Source widths of EXTS and EXTZ (11 R144). -/
inductive ExtW where
  | b | h | w
  deriving DecidableEq, Repr, Inhabited

/-- rd, ra and a sync field. -/
structure OpRR where
  rd : Dst
  ra : Src
  sy : Sync
  deriving DecidableEq, Repr, Inhabited

/-- rd, ra, rb and a sync field. -/
structure OpRRR where
  rd : Dst
  ra : Src
  rb : Src
  sy : Sync
  deriving DecidableEq, Repr, Inhabited

/-- rd, ra, rb, rc and a sync field; a queue in rc is a pop (09 R113). -/
structure OpRRRR where
  rd : Dst
  ra : Src
  rb : Src
  rc : Src
  sy : Sync
  deriving DecidableEq, Repr, Inhabited

/-- EXTS and EXTZ. -/
structure OpExt where
  rd : Dst
  ra : Src
  w : ExtW
  sy : Sync
  deriving DecidableEq, Repr, Inhabited

/-- The immediate forms (11 R145). -/
structure OpRI where
  rd : Dst
  ra : Src
  imm : BitVec 32
  sy : Sync
  deriving DecidableEq, Repr, Inhabited

/-- SHLI, SHRI, SRAI (11 R145). -/
structure OpSh where
  rd : Dst
  ra : Src
  sh : BitVec 6
  sy : Sync
  deriving DecidableEq, Repr, Inhabited

/-- The conditional branches (11 R151). -/
structure OpBr where
  ra : Src
  rb : Src
  disp : BitVec 32
  hint : Hint
  deriving DecidableEq, Repr, Inhabited

/-- Scalar FP32 with rounding and saturation (11 R147). -/
structure OpF where
  rd : Dst
  ra : Src
  rb : Src
  rm : Rm
  sat : Bool
  sy : Sync
  deriving DecidableEq, Repr, Inhabited

/-- FFMA.S (11 R147). -/
structure OpF3 where
  rd : Dst
  ra : Src
  rb : Src
  rc : Src
  rm : Rm
  sat : Bool
  sy : Sync
  deriving DecidableEq, Repr, Inhabited

/-- FCVT (11 R150). -/
structure OpCvt where
  rd : Dst
  ra : Src
  dt : CvtTy
  st : CvtTy
  rm : Rm
  sat : Bool
  sy : Sync
  deriving DecidableEq, Repr, Inhabited

/-- The destination of a scalar load: an AC register or lq0 to lq3 (13 R177). -/
inductive LdDst where
  | reg (n : BitVec 6)
  | lq (q : BitVec 2)
  deriving DecidableEq, Repr, Inhabited

/-- The data of a scalar store: an AC register or sq0 to sq1 (13 R177). -/
inductive StSrc where
  | reg (n : BitVec 6)
  | sq (q : BitVec 1)
  deriving DecidableEq, Repr, Inhabited

/-- A scalar load with a 16-bit offset; `uns` is the zero-extended form (13 R177). -/
structure OpLd where
  dst : LdDst
  base : BitVec 6
  off : BitVec 16
  sz : Sz
  uns : Bool
  f : OrdF
  sy : Sync
  deriving DecidableEq, Repr, Inhabited

/-- A scalar load of the N variant (09 R107). -/
structure OpLdN where
  dst : LdDst
  base : BitVec 6
  place : Place
  nofs : BitVec 4
  sz : Sz
  uns : Bool
  f : OrdF
  sy : Sync
  deriving DecidableEq, Repr, Inhabited

/-- A row load into lq4 to lq7, `lq` counting from lq4 (13 R177). -/
structure OpLdRow where
  lq : BitVec 2
  base : BitVec 6
  off : BitVec 16
  f : OrdF
  sy : Sync
  deriving DecidableEq, Repr, Inhabited

/-- A row load of the N variant. -/
structure OpLdRowN where
  lq : BitVec 2
  base : BitVec 6
  place : Place
  nofs : BitVec 4
  f : OrdF
  sy : Sync
  deriving DecidableEq, Repr, Inhabited

/-- A scalar store. -/
structure OpSt where
  src : StSrc
  base : BitVec 6
  off : BitVec 16
  sz : Sz
  f : OrdF
  sy : Sync
  deriving DecidableEq, Repr, Inhabited

/-- A scalar store of the N variant. -/
structure OpStN where
  src : StSrc
  base : BitVec 6
  place : Place
  nofs : BitVec 4
  sz : Sz
  f : OrdF
  sy : Sync
  deriving DecidableEq, Repr, Inhabited

/-- A row store from sq2 to sq3, `sq` counting from sq2 (13 R177). -/
structure OpStRow where
  sq : BitVec 1
  base : BitVec 6
  off : BitVec 16
  f : OrdF
  sy : Sync
  deriving DecidableEq, Repr, Inhabited

/-- A row store of the N variant. -/
structure OpStRowN where
  sq : BitVec 1
  base : BitVec 6
  place : Place
  nofs : BitVec 4
  f : OrdF
  sy : Sync
  deriving DecidableEq, Repr, Inhabited

/-- LDC (13 R182): size word or double. -/
structure OpLdc where
  dst : LdDst
  base : BitVec 6
  off : BitVec 16
  dbl : Bool
  f : OrdF
  sy : Sync
  deriving DecidableEq, Repr, Inhabited

/-- STC (13 R182): size word or double. -/
structure OpStc where
  src : StSrc
  base : BitVec 6
  off : BitVec 16
  dbl : Bool
  f : OrdF
  sy : Sync
  deriving DecidableEq, Repr, Inhabited

/-- The five spaces (05 R61). -/
inductive Space where
  | s | n | g | f | c
  deriving DecidableEq, Repr, Inhabited

/-- An atomic (13 R183); `fo` is the failure order of ACAS. -/
structure OpAt where
  rd : BitVec 6
  base : BitVec 6
  rb : BitVec 6
  sp : Space
  dbl : Bool
  fo : Bool
  f : OrdF
  sy : Sync
  deriving DecidableEq, Repr, Inhabited

/-- Rime instructions with an address in ra (13 R186). -/
structure OpRime where
  ra : BitVec 6
  f : OrdF
  sy : Sync
  deriving DecidableEq, Repr, Inhabited

/-- RPOST. -/
structure OpRpost where
  ra : BitVec 6
  rb : BitVec 6
  f : OrdF
  sy : Sync
  deriving DecidableEq, Repr, Inhabited

/-- RSTAT. -/
structure OpRstat where
  rd : BitVec 6
  ra : BitVec 6
  f : OrdF
  sy : Sync
  deriving DecidableEq, Repr, Inhabited

/-- RNGA and RNGW: rd is a scalar register of the core (13 R188). -/
structure OpRngT where
  rd : BitVec 6
  ring : BitVec 4
  f : OrdF
  sy : Sync
  deriving DecidableEq, Repr, Inhabited

/-- RNGP (with `close`) and RNGF. -/
structure OpRngG where
  ra : Src
  ring : BitVec 4
  close : Bool
  f : OrdF
  sy : Sync
  deriving DecidableEq, Repr, Inhabited

/-- SEMW. -/
structure OpSemw where
  sem : BitVec 6
  f : OrdF
  sy : Sync
  deriving DecidableEq, Repr, Inhabited

/-- SEMP and SEMSET. -/
structure OpSemp where
  ra : Src
  sem : BitVec 6
  f : OrdF
  sy : Sync
  deriving DecidableEq, Repr, Inhabited

/-- SEMRD. -/
structure OpSemrd where
  rd : Dst
  sem : BitVec 6
  f : OrdF
  sy : Sync
  deriving DecidableEq, Repr, Inhabited

/-- A queue named by QEND or QFLUSH: lq0 to lq7 on the AC, sq0 to sq3 on the XC (13 R193). -/
inductive QName where
  | lq (n : BitVec 3)
  | sq (n : BitVec 2)
  deriving DecidableEq, Repr, Inhabited

/-- QEND and QFLUSH. -/
structure OpQ where
  q : QName
  f : OrdF
  sy : Sync
  deriving DecidableEq, Repr, Inhabited

/-- The order modes of an ME job (17 R239). -/
inductive OrderMode where
  | arrival | ordered | pairwise
  deriving DecidableEq, Repr, Inhabited

/-- MGO (09 R123): `order` none takes the LNT's; `lag` 0 takes the LNT's, else 2 to 16. -/
structure OpMgo where
  high : Bool
  order : Option OrderMode
  lag : BitVec 5
  f : OrdF
  sy : Sync
  deriving DecidableEq, Repr, Inhabited

/-- MTAB. -/
structure OpMtab where
  ra : BitVec 6
  slot : BitVec 4
  f : OrdF
  sy : Sync
  deriving DecidableEq, Repr, Inhabited

/-- MDRAIN to slabs at ra (17 R265). -/
structure OpMdrain where
  ra : BitVec 6
  ty : ET
  rm : Rm
  sat : Bool
  tile : BitVec 6
  f : OrdF
  sy : Sync
  deriving DecidableEq, Repr, Inhabited

/-- MDRAIN to a row queue, `lq` counting from lq4. -/
structure OpMdrainQ where
  lq : BitVec 2
  ty : ET
  rm : Rm
  sat : Bool
  tile : BitVec 6
  f : OrdF
  sy : Sync
  deriving DecidableEq, Repr, Inhabited

/-- MDRAIN.V to the aligned quad of XC registers v(4 quad) to v(4 quad + 3). -/
structure OpMdrainV where
  quad : BitVec 3
  ty : ET
  rm : Rm
  sat : Bool
  tile : BitVec 6
  f : OrdF
  sy : Sync
  deriving DecidableEq, Repr, Inhabited

/-- CKICK and CLINK: engine CE0 or CE1 and the chain pointer register (19 R296). -/
structure OpKick where
  eng : BitVec 1
  ra : BitVec 6
  f : OrdF
  sy : Sync
  deriving DecidableEq, Repr, Inhabited

/-- An E-format instruction with one AC register and the ordering fields. -/
structure OpE1 where
  ra : BitVec 6
  f : OrdF
  sy : Sync
  deriving DecidableEq, Repr, Inhabited

/-- The combining forms of CRBAR (21 R315). -/
structure OpCrbar where
  rd : BitVec 6
  ra : BitVec 6
  rb : BitVec 6
  f : OrdF
  sy : Sync
  deriving DecidableEq, Repr, Inhabited

/-- PQPUSH and PQFLUSH (21 R311); ra is 0 for PQFLUSH. -/
structure OpPq where
  shadow : BitVec 4
  ra : BitVec 6
  f : OrdF
  sy : Sync
  deriving DecidableEq, Repr, Inhabited

/-- TNOW. -/
structure OpTnow where
  rd : BitVec 6
  f : OrdF
  sy : Sync
  deriving DecidableEq, Repr, Inhabited

/-! ## Operands of vector instructions (09 R109, R113; 15 R198 to R201) -/

/-- The width codes of a vector operand: 1, 2, 4 or 8 registers. -/
inductive VW where
  | x1 | x2 | x4 | x8
  deriving DecidableEq, Repr, Inhabited

/-- A vector operand: the first register and the width. -/
structure VG where
  n : BitVec 5
  w : VW
  deriving DecidableEq, Repr, Inhabited

/-- rc as a mask: none, or one of m0 to m7. -/
abbrev MaskF := Option (BitVec 3)

/-- Two-source element-wise arithmetic. -/
structure VArith where
  rd : VG
  ra : VG
  rb : VG
  mask : MaskF
  ty : ET
  rm : Rm
  s : Bool
  z : Bool
  sy : Sync
  deriving DecidableEq, Repr, Inhabited

/-- One-source element-wise forms with a type. -/
structure VUnary where
  rd : VG
  ra : VG
  mask : MaskF
  ty : ET
  rm : Rm
  s : Bool
  z : Bool
  sy : Sync
  deriving DecidableEq, Repr, Inhabited

/-- Two-source untyped forms (VAND, VOR, VXOR, VPERMR). -/
structure VBit where
  rd : VG
  ra : VG
  rb : VG
  mask : MaskF
  z : Bool
  sy : Sync
  deriving DecidableEq, Repr, Inhabited

/-- One-source untyped forms (VNOT, VMOV). -/
structure VMove where
  rd : VG
  ra : VG
  mask : MaskF
  z : Bool
  sy : Sync
  deriving DecidableEq, Repr, Inhabited

/-- VCVT (15 R211). -/
structure VCvtOp where
  rd : VG
  ra : VG
  dt : ET
  st : ET
  rm : Rm
  s : Bool
  sy : Sync
  deriving DecidableEq, Repr, Inhabited

/-- VCMP (15 R214): a mask destination. -/
structure VCmpOp where
  rd : BitVec 3
  ra : BitVec 5
  rb : BitVec 5
  mask : MaskF
  ty : ET
  z : Bool
  sy : Sync
  deriving DecidableEq, Repr, Inhabited

/-- VSEL (15 R215). -/
structure VSelOp where
  rd : VG
  ra : VG
  rb : VG
  mask : BitVec 3
  sy : Sync
  deriving DecidableEq, Repr, Inhabited

/-- VMVX (15 R216). -/
structure VMvxOp where
  rd : Dst
  ra : BitVec 5
  rb : Src
  ty : ET
  sy : Sync
  deriving DecidableEq, Repr, Inhabited

/-- VMXV (15 R216). -/
structure VMxvOp where
  rd : VG
  ra : Src
  mask : MaskF
  ty : ET
  z : Bool
  sy : Sync
  deriving DecidableEq, Repr, Inhabited

/-- Rotations and broadcasts (15 R217): rb is scalar. -/
structure VRotOp where
  rd : VG
  ra : VG
  rb : Src
  mask : MaskF
  z : Bool
  sy : Sync
  deriving DecidableEq, Repr, Inhabited

/-- VIOTA (15 R220): ra is a mask or absent. -/
structure VIotaOp where
  rd : VG
  ra : Option (BitVec 3)
  mask : MaskF
  z : Bool
  sy : Sync
  deriving DecidableEq, Repr, Inhabited

/-- VCLMUL (15 R221): rd is the aligned pair v(2 pair), v(2 pair + 1). -/
structure VClmulOp where
  pair : BitVec 4
  ra : BitVec 5
  rb : BitVec 5
  mask : MaskF
  z : Bool
  sy : Sync
  deriving DecidableEq, Repr, Inhabited

/-- VTLI (15 R224). -/
structure VTliOp where
  rd : VG
  ra : VG
  tb : BitVec 2
  mask : MaskF
  ty : ET
  rm : Rm
  s : Bool
  z : Bool
  sy : Sync
  deriving DecidableEq, Repr, Inhabited

/-- VTLD (15 R223), `lq` counting from lq4. -/
structure VTldOp where
  tb : BitVec 2
  lq : BitVec 2
  sy : Sync
  deriving DecidableEq, Repr, Inhabited

/-- VPACK24 (15 R225). -/
structure VPackOp where
  rd : BitVec 5
  rb : BitVec 5
  ra : BitVec 5
  ty : ET
  sy : Sync
  deriving DecidableEq, Repr, Inhabited

/-- VUNPK24 (15 R226). -/
structure VUnpkOp where
  rd : BitVec 5
  ra : BitVec 5
  rb : BitVec 5
  sy : Sync
  deriving DecidableEq, Repr, Inhabited

/-- VLDQ (15 R227), `lq` counting from lq4; detached when the sync field posts. -/
structure VLdqOp where
  rd : VG
  lq : BitVec 2
  mask : MaskF
  z : Bool
  sy : Sync
  deriving DecidableEq, Repr, Inhabited

/-- VSTQ (15 R228), `sq` counting from sq2. -/
structure VStqOp where
  sq : BitVec 1
  ra : VG
  sy : Sync
  deriving DecidableEq, Repr, Inhabited

/-- Mask operations with two sources (15 R231). -/
structure MaskOp2 where
  rd : BitVec 3
  ra : BitVec 3
  rb : BitVec 3
  sy : Sync
  deriving DecidableEq, Repr, Inhabited

/-- MNOT. -/
structure MaskOp1 where
  rd : BitVec 3
  ra : BitVec 3
  sy : Sync
  deriving DecidableEq, Repr, Inhabited

/-- MPOPC. -/
structure MaskPop where
  rd : Dst
  ra : BitVec 3
  sy : Sync
  deriving DecidableEq, Repr, Inhabited

/-! ## What events name -/

/-- A cell of the domain: a package and the index die * 96 + row * 12 + col. -/
structure CellId where
  pkg : Nat
  cell : Nat
  deriving DecidableEq, Repr, Inhabited

/-- A host function: 0 is PF, 1 to 16 are VF1 to VF16 (25 R366). -/
abbrev Fn := Nat

/-- What answers an operation that has issued (13 R176). -/
inductive Response where
  | data          -- the access reached its target
  | synthesised   -- the target package, port or cell was lost
  | moved         -- the page has moved: the access is retried
  deriving DecidableEq, Repr, Inhabited

/-- Which wait on a rime tag a step concerns (05 R69, 13 R186). -/
inductive RimeWaiter where
  | stream (e : Eng)
  | me
  deriving DecidableEq, Repr, Inhabited

/-- The changes that the management core publishes on its own account (23 R347). -/
inductive FirnChange where
  | clockStep (die : Nat) (step : Nat)
  | cellLost (cell : Nat) (spare : Option Nat)
  | cellWorld (cell : Nat) (secure : Bool)
  | linkState (port link : Nat) (state : Nat)
  | peerLost (coord : Nat)
  | relabel (logical physical : Nat)
  deriving DecidableEq, Repr, Inhabited

/-- The trained result of bring-up (25 R373): the cells that trained, the port links that are up. -/
structure Trained where
  cells : List Nat
  links : List (Nat × Nat)
  ext : Nat × Nat × Nat
  deriving DecidableEq, Repr, Inhabited

/-- A flit as the receiver meets it, by its fields (21 R322): the payload is its bytes 16 to 247. -/
structure Flit where
  fseq : BitVec 12
  typ : BitVec 4
  srt : Vector (BitVec 12) 6
  ack : BitVec 12
  payload : List Byte
  crc : BitVec 64
  deriving DecidableEq, Repr

/-- What of a job ECC protects, in the units that an uncorrectable error marks (23 R343): a 64-byte granule of its carve-out, a
register, a row of a vector register or of a tile, a queue entry, a word of a bank. -/
inductive EccRow where
  | pad (granule : Nat)
  | scalar (k : Core) (n : BitVec 6)
  | vector (reg : BitVec 5) (row : BitVec 4)
  | mask (m : BitVec 3)
  | table (t : BitVec 2)
  | tile (tile row : BitVec 6)
  | queue (q : QName) (entry : Nat)
  | bank (prev : Bool) (word : BitVec 5)
  deriving DecidableEq, Repr

/-- Where an uncorrectable error stands: in HBM, or in what a cell holds of a job, its held image included. -/
inductive EccAt where
  | hbm (granule : Nat)
  | job (cell uid : Nat) (r : EccRow)
  deriving DecidableEq, Repr

/-- The causes of a device-fatal error (23 R355). -/
inductive FatalCause where
  | firmware | icequake | watchdog | stack | power | assertion
  deriving DecidableEq, Repr, Inhabited

/-- What makes a counting write arrive: an .arr store, a transfer of a copy engine, an MDRAIN (05 R67). -/
inductive Writer where
  | op (id : Nat)
  | transfer (e : BitVec 1) (id : Nat)
  | drain (id : Nat)
  deriving DecidableEq, Repr, Inhabited

/-- Where a page migrates to: an HBM frame of a package of the domain, or a host frame (05 R78). -/
inductive MigTarget where
  | hbm (pkg frame : Nat)
  | host (frame : Nat)
  deriving DecidableEq, Repr, Inhabited

/-! ## The steps -/

/-- The engine words (09 R128, 19 R275), as a chain's engine decodes them. Lean compiles no constructor with arguments
beyond the first 245 of a type, so a step of an engine runs an EWord; `EWord.instr` (Decode.lean) is its Instr. -/
inductive EWord where
  | lit (v : BitVec 15)
  | ext (v : BitVec 14)
  | nopw
  | dup
  | drop
  | xch
  | overW
  | shape (n : BitVec 2)
  | copy (c : BitVec 8)
  | walk (dd : Bool) (d s : BitVec 2)
  | halo (s : BitVec 2)
  | codecCopy
  | zbmDecode
  | zbmEncode
  | cb4PassThrough
  | lrfExpand
  | osqEncode
  | osqDecode
  | e8m0Requantise
  | pathLogSeal
  | transpose
  | codecCustom (r : BitVec 6)
  | foot (gated write : Bool)
  | waits (s : BitVec 6)
  | posts (s : BitVec 6)
  | waitr (n : BitVec 8)
  | postrPost
  | postrThaw
  | stagePair
  | stageIteration
  | stageSlot
  | rngaWord (q : BitVec 4)
  | rngpWord (close : Bool) (q : BitVec 4)
  | linkJump
  | linkBoundary
  | endW
  deriving DecidableEq, Repr


/-- One constructor per row of spec/opcode_table.json, in the table's order. An event's arguments are the choice of
the agent that makes the step; the meaning of an event whose condition does not hold leaves the state as it is. -/
inductive Instr where
  -- System, CSR and mailbox words (R116).
  | nop (sy : Sync)
  | trap (n : BitVec 16) (sy : Sync)
  | eret (sy : Sync)
  | firnack (ra : BitVec 6) (sy : Sync)
  | tlbinv (o : OpE1)
  | tlbinvAll (f : OrdF) (sy : Sync)
  | seal (ra rb : BitVec 6) (f : OrdF) (sy : Sync)
  | world (rd : Dst) (sy : Sync)
  | halt (sy : Sync)
  | csrr (rd : Dst) (csr : BitVec 12) (sy : Sync)
  | csrw (ra : Src) (csr : BitVec 12) (sy : Sync)
  | mbr (rd : Dst) (n : BitVec 3) (sy : Sync)
  | pchk (o : OpRR)
  -- Scalar integer and address words (R117).
  | add (o : OpRRR)
  | sub (o : OpRRR)
  | and (o : OpRRR)
  | or (o : OpRRR)
  | xor (o : OpRRR)
  | andn (o : OpRRR)
  | orn (o : OpRRR)
  | shl (o : OpRRR)
  | shr (o : OpRRR)
  | sra (o : OpRRR)
  | rol (o : OpRRR)
  | ror (o : OpRRR)
  | min (o : OpRRR)
  | max (o : OpRRR)
  | minu (o : OpRRR)
  | maxu (o : OpRRR)
  | seq (o : OpRRR)
  | sne (o : OpRRR)
  | slt (o : OpRRR)
  | sltu (o : OpRRR)
  | mul (o : OpRRR)
  | mulh (o : OpRRR)
  | mulhu (o : OpRRR)
  | div (o : OpRRR)
  | divu (o : OpRRR)
  | rem (o : OpRRR)
  | remu (o : OpRRR)
  | clmul (o : OpRRR)
  | clmulh (o : OpRRR)
  | clz (o : OpRR)
  | ctz (o : OpRR)
  | popc (o : OpRR)
  | exts (o : OpExt)
  | extz (o : OpExt)
  | bfx (o : OpRRR)
  | bfi (o : OpRRRR)
  | sel (o : OpRRRR)
  | addi (o : OpRI)
  | andi (o : OpRI)
  | ori (o : OpRI)
  | xori (o : OpRI)
  | shli (o : OpSh)
  | shri (o : OpSh)
  | srai (o : OpSh)
  | slti (o : OpRI)
  | sltui (o : OpRI)
  | seqi (o : OpRI)
  | li (rd : Dst) (imm : BitVec 32) (sy : Sync)
  | lihi (o : OpRI)
  | lea (rd ra rb : BitVec 6) (sh : BitVec 2) (sy : Sync)
  | place (rd ra : BitVec 6) (place : Place) (sy : Sync)
  | fadr (rd ra : BitVec 6) (coord : BitVec 10) (sy : Sync)
  -- Control flow (R118).
  | br (disp : BitVec 32) (hint : Hint)
  | beq (o : OpBr)
  | bne (o : OpBr)
  | blt (o : OpBr)
  | bge (o : OpBr)
  | bltu (o : OpBr)
  | bgeu (o : OpBr)
  | jmp (ra : Src) (sy : Sync)
  | call (disp : BitVec 32) (ss : BitVec 2)
  | callr (ra : Src) (ss : BitVec 2) (sy : Sync)
  | ret (sy : Sync)
  | loop (trip : Trip) (imm : BitVec 32) (sy : Sync)
  | kloop (s : BitVec 3) (sy : Sync)
  | rdv (n : BitVec 8) (sy : Sync)
  | tdone (sy : Sync)
  -- Scalar FP32 (R119).
  | faddS (o : OpF)
  | fmulS (o : OpF)
  | ffmaS (o : OpF3)
  | fminS (o : OpRRR)
  | fmaxS (o : OpRRR)
  | fcmpEq (o : OpRRR)
  | fcmpNe (o : OpRRR)
  | fcmpLt (o : OpRRR)
  | fcmpLe (o : OpRRR)
  | fcvt (o : OpCvt)
  -- Loads and stores (R120).
  | lds (o : OpLd)
  | ldsRow (o : OpLdRow)
  | sts (o : OpSt)
  | stsRow (o : OpStRow)
  | ldn (o : OpLdN)
  | ldnRow (o : OpLdRowN)
  | stn (o : OpStN)
  | stnArr (o : OpStN)
  | stnRow (o : OpStRowN)
  | stnRowArr (o : OpStRowN)
  | ldg (o : OpLd)
  | ldgRow (o : OpLdRow)
  | stg (o : OpSt)
  | stgRow (o : OpStRow)
  | ldf (o : OpLd)
  | ldfRow (o : OpLdRow)
  | stf (o : OpSt)
  | stfArr (o : OpSt)
  | stfRow (o : OpStRow)
  | stfRowArr (o : OpStRow)
  | ldc (o : OpLdc)
  | stc (o : OpStc)
  -- Atomics (R121).
  | aadd (o : OpAt)
  | aand (o : OpAt)
  | aor (o : OpAt)
  | axor (o : OpAt)
  | amin (o : OpAt)
  | amax (o : OpAt)
  | aminu (o : OpAt)
  | amaxu (o : OpAt)
  | aswap (o : OpAt)
  | acas (o : OpAt)
  -- Rime, ring, semaphore and queue control (R122).
  | rpost (o : OpRpost)
  | rwait (o : OpRime)
  | rthaw (o : OpRime)
  | rstat (o : OpRstat)
  | rnga (o : OpRngT)
  | rngp (o : OpRngG)
  | rngw (o : OpRngT)
  | rngf (o : OpRngG)
  | semw (o : OpSemw)
  | semp (o : OpSemp)
  | semset (o : OpSemp)
  | semrd (o : OpSemrd)
  | qend (o : OpQ)
  | qflush (o : OpQ)
  -- Matrix engine (R123).
  | mcfg (n : BitVec 5) (ra : BitVec 6) (sy : Sync)
  | mcfgs (o : OpE1)
  | mgo (o : OpMgo)
  | mtabCb (o : OpMtab)
  | mtabPt (o : OpMtab)
  | mzero (tile : BitVec 6) (sy : Sync)
  | mdrain (o : OpMdrain)
  | mdrainQ (o : OpMdrainQ)
  | mdrainV (o : OpMdrainV)
  | mabort (high : Bool) (sy : Sync)
  | mstat (rd : BitVec 6) (sy : Sync)
  -- Copy-engine launch and control (R123).
  | ckick (o : OpKick)
  | clink (o : OpKick)
  | cstage (e : BitVec 1) (ra rb : BitVec 6) (sy : Sync)
  | cabort (e : BitVec 1) (sy : Sync)
  -- Tasks, crews, proxy queues (R124).
  | tspawn (o : OpE1)
  | tjoin (o : OpE1)
  | crjoin (o : OpE1)
  | crleave (o : OpE1)
  | crbar (o : OpE1)
  | crbarAdd (o : OpCrbar)
  | crbarMin (o : OpCrbar)
  | crbarMax (o : OpCrbar)
  | crbarAnd (o : OpCrbar)
  | crbarOr (o : OpCrbar)
  | crbarXor (o : OpCrbar)
  | pqpush (o : OpPq)
  | pqflush (o : OpPq)
  | tnow (o : OpTnow)
  | tprio (o : OpE1)
  -- Vector words (R125).
  | vadd (o : VArith)
  | vsub (o : VArith)
  | vmul (o : VArith)
  | vfma (o : VArith)
  | vfms (o : VArith)
  | vmin (o : VArith)
  | vmax (o : VArith)
  | vabs (o : VUnary)
  | vneg (o : VUnary)
  | vrcp (o : VUnary)
  | vrsq (o : VUnary)
  | vnot (o : VMove)
  | vpopc (o : VUnary)
  | vclz (o : VUnary)
  | vmov (o : VMove)
  | vcvt (o : VCvtOp)
  | vand (o : VBit)
  | vor (o : VBit)
  | vxor (o : VBit)
  | vshl (o : VArith)
  | vshr (o : VArith)
  | vsra (o : VArith)
  | vcmpEq (o : VCmpOp)
  | vcmpNe (o : VCmpOp)
  | vcmpLt (o : VCmpOp)
  | vcmpLe (o : VCmpOp)
  | vcmpGt (o : VCmpOp)
  | vcmpGe (o : VCmpOp)
  | vsel (o : VSelOp)
  | vmvx (o : VMvxOp)
  | vmxv (o : VMxvOp)
  | vrotr (o : VRotOp)
  | vbcr (o : VRotOp)
  | vrotc (o : VRotOp)
  | vbcc (o : VRotOp)
  | vredrAdd (o : VUnary)
  | vredrMin (o : VUnary)
  | vredrMax (o : VUnary)
  | vredrAnd (o : VUnary)
  | vredrOr (o : VUnary)
  | vredrXor (o : VUnary)
  | vscanrAdd (o : VUnary)
  | vscanrMin (o : VUnary)
  | vscanrMax (o : VUnary)
  | vscanrAnd (o : VUnary)
  | vscanrOr (o : VUnary)
  | vscanrXor (o : VUnary)
  | vredcAdd (o : VUnary)
  | vredcMin (o : VUnary)
  | vredcMax (o : VUnary)
  | vredcAnd (o : VUnary)
  | vredcOr (o : VUnary)
  | vredcXor (o : VUnary)
  | vscancAdd (o : VUnary)
  | vscancMin (o : VUnary)
  | vscancMax (o : VUnary)
  | vscancAnd (o : VUnary)
  | vscancOr (o : VUnary)
  | vscancXor (o : VUnary)
  | vpermr (o : VBit)
  | viota (o : VIotaOp)
  | vclmul (o : VClmulOp)
  | vtli (o : VTliOp)
  | vtld (o : VTldOp)
  | vpack24 (o : VPackOp)
  | vunpk24 (o : VUnpkOp)
  | vldq (o : VLdqOp)
  | vstq (o : VStqOp)
  | mand (o : MaskOp2)
  | mor (o : MaskOp2)
  | mxor (o : MaskOp2)
  | mnot (o : MaskOp1)
  | mpopc (o : MaskPop)
  -- Engine words (R128, R129).
  | wLit (v : BitVec 15)
  | wExt (v : BitVec 14)
  | wNopw
  | wDup
  | wDrop
  | wXch
  | wOver
  | wShape (n : BitVec 2)
  | wCopy (c : BitVec 8)
  | wWalk (dd : Bool) (d s : BitVec 2)
  | wHalo (s : BitVec 2)
  | wCodecCopy
  | wZbmDecode
  | wZbmEncode
  | wCb4PassThrough
  | wLrfExpand
  | wOsqEncode
  | wOsqDecode
  | wE8m0Requantise
  | wPathLogSeal
  | wTranspose
  | wCodecCustom (r : BitVec 6)
  | wFoot (gated write : Bool)
  | wWaits (s : BitVec 6)
  | wPosts (s : BitVec 6)
  | wWaitr (n : BitVec 8)
  | wPostrPost
  | wPostrThaw
  | wStagePair
  | wStageIteration
  | wStageSlot
  | wRngaWord (q : BitVec 4)
  | wRngpWord (close : Bool) (q : BitVec 4)
  | wLinkJump
  | wLinkBoundary
  | wEnd
  -- Events: steps of the engines, the memory system, the scheduler, the management core, the host and nature.
  | transferComplete (c : CellId) (e : BitVec 1) (id : Nat)
  | kickedChainStart (c : CellId) (e : BitVec 1)
  | chainBegin (c : CellId) (e : BitVec 1)
  | ceStarvation (c : CellId) (e : BitVec 1)
  | hostBar2Read (p : Nat) (fn : Fn) (addr n : Nat)
  | hostBar2Write (p : Nat) (fn : Fn) (addr : Nat) (bytes : List Byte)
  | ldoor (p : Nat) (fn : Fn) (cell : Nat) (v : Word)
  | launchCopyComplete (p : Nat) (fn : Fn) (cell : Nat)
  | mbox (p : Nat) (fn : Fn) (cell : Nat) (n : BitVec 3) (v : Word)
  | registerWrite (p : Nat) (fn : Fn) (off : Nat) (bytes : List Byte)
  | ctxnew (p : Nat) (fn : Fn)
  | ctxkill (p : Nat) (fn : Fn)
  | resume (p : Nat) (fn : Fn)
  | preempt (p : Nat) (fn : Fn)
  | routine (p : Nat) (fn : Fn)
  | attest (p : Nat) (fn : Fn)
  | dumprd (p : Nat) (fn : Fn)
  | unknownCommand (p : Nat) (fn : Fn)
  | powerOn (p : Nat) (imageGood : Bool)
  | fullService (p : Nat) (t : Trained)
  | budgetPublish (p : Nat) (die : BitVec 1) (units : Nat)
  | powerStepDown (p : Nat) (die : BitVec 1)
  | powerTrip (p : Nat)
  | deviceFatal (p : Nat) (cause : FatalCause) (die : Nat) (place : Nat)
  | taskSelect (c : CellId)
  | stepRaise (p : Nat) (die : BitVec 1)
  | steal (c : CellId)
  | preemptionRequest (c : CellId)
  | preemption (c : CellId)
  | regionCommit (c : CellId)
  | deferredEffect (c : CellId) (job : Nat)
  | storeDeparture (c : CellId) (id : Nat)
  | memoryPerformed (c : CellId) (id : Nat)
  | memoryResponse (c : CellId) (id : Nat) (r : Response)
  | countingWriteArrival (c : CellId) (w : Writer)
  | stampedWriteApply (c : CellId) (id : Nat)
  | semaphoreWaitProceed (c : CellId) (e : Eng)
  | rimeWaitProceed (c : CellId) (w : RimeWaiter)
  | ringWaitProceed (c : CellId) (e : Eng)
  | queueWaitProceed (c : CellId) (e : Eng)
  | queueEndEffect (c : CellId) (q : QName)
  | rendezvousRelease (c : CellId)
  | crewBarrierComplete (p : Nat) (ctx crew : Nat)
  | joinObserved (c : CellId)
  | elasticIteration (c : CellId) (k : Core)
  | spillFrame (c : CellId) (k : Core)
  | fillFrame (c : CellId) (k : Core)
  | asyncWriteComplete (c : CellId) (id : Nat)
  | meJobStart (c : CellId)
  | passEnd (c : CellId)
  | elasticLevelIteration (c : CellId)
  | partialArrival (c : CellId) (job : Nat) (buf : BitVec 2)
  | meJobComplete (c : CellId) (job : Nat)
  | pathLogPublish (c : CellId) (job : Nat)
  | metadataFault (c : CellId)
  | meStarvation (c : CellId)
  | mdrainComplete (c : CellId) (id : Nat)
  | tlbinvComplete (c : CellId) (id : Nat)
  | sealComplete (c : CellId) (id : Nat)
  | batchClose (c : CellId) (shadow : BitVec 4)
  | batchSend (c : CellId) (shadow : BitVec 4)
  | batchComplete (c : CellId) (shadow : BitVec 4)
  | icequakeReport (p : Nat) (cells : List Nat) (ago : Nat)
  | recoverableTrap (c : CellId)
  | trapFrameWrite (c : CellId)
  | contextLost (p : Nat)
  | watchdog (c : CellId)
  | firnPublish (p : Nat) (ch : FirnChange)
  | firnackDeadline (p : Nat) (ctx : Nat)
  | flitReceive (p : Nat) (port link : Nat) (f : Flit)
  | flitReplay (p : Nat) (port link : Nat)
  | linkRetrain (p : Nat) (port link : Nat)
  | linkDead (p : Nat) (port link : Nat)
  | bankFailed (p : Nat) (stack bank : Nat)
  | restripeStep (p : Nat) (stack : Nat)
  | migrationSwitch (p : Nat) (id : Nat)
  | forwardingLapse (p : Nat) (id : Nat)
  | scrubUncorrectable (p : Nat) (place : EccAt)
  | powerRemoval (p : Nat)
  | hostSuspendRequest (p : Nat) (ctx : Nat)
  | migrationStart (p : Nat) (ctx : Nat) (va : Nat) (target : MigTarget)
  | linkRetrainDone (p : Nat) (port link : Nat)
  deriving DecidableEq, Repr

end Sys2Proof
end

