-- ==== Sys2Proof/Config.lean ====
section
/-!
DEFINITION. What an implementation or its surroundings fix, and the free values: opaque constants with no body, so that
no statement can rest on what they are (notes/assumptions 1, 3, 6, 17, 21, 26, 76, 80).
-/
namespace Sys2Proof

/-- Who moves in one step: the stream of an engine of a cell, or an event of the opcode table. -/
inductive Act where
  | stream (c : CellId) (e : Eng)
  | event (i : Instr)
  deriving DecidableEq, Repr

/-- One entry of the agenda: the time that passes before the step, in ticks of 1/252 ns, and who moves. -/
structure Turn where
  dt : Nat
  act : Act
  deriving DecidableEq, Repr

namespace Config

/-- The schedule's default, used only to show the type inhabited. -/
def someTurn : Turn := ⟨0, .event .wNopw⟩

theorem turn_inhabited : Nonempty Turn := ⟨someTurn⟩

/-- FREE VALUE. Which agent moves when the agenda is empty, as a function of the number of turns taken
(DESIGN CHOICE, notes/assumptions/1.md). -/
opaque schedule : Nat → Option Turn

/-- FREE VALUE. What a custom codec routine does: its bytes, its parameter and its source bytes give a status and its
output (19 R294; DESIGN CHOICE, notes/assumptions/17.md). -/
opaque customRoutine : List Byte → Word → List Byte → Nat × List Byte

/-- FREE VALUE. How many source bytes a custom routine takes, from its bytes and its parameter (19 R294;
DESIGN CHOICE, notes/assumptions/17.md). -/
opaque customInput : List Byte → Word → Nat

/-- FREE VALUE. The addresses of the words that an engine has fetched ahead when chain `n` is launched or dispatched (19 R272;
DESIGN CHOICE, notes/assumptions/21.md): of these it runs the form of then. -/
opaque fetchedAhead : Nat → List Nat

/-- FREE VALUE. How many bytes of a block's output a decode that ends short of its declared size has written (05 R72, 19 R292;
DESIGN CHOICE, notes/assumptions/26.md), from the bytes of its payload. -/
opaque shortOutput : List Byte → Nat

/-- FREE VALUE. Byte `i` of what a block that does not decode becomes in host memory, from its payload (05 R78; DESIGN CHOICE,
notes/assumptions/80.md). -/
opaque undecodedByte : List Byte → Nat → Byte

/-- FREE VALUE. Byte `i` of the ECDSA signature of a message by the identity key of package `p` (25 R372, R375;
DESIGN CHOICE, notes/assumptions/6.md). -/
opaque signatureByte : Nat → List Byte → Nat → Byte

/-- FREE VALUE. Byte `i` of the measurement of package `p` once the Valmor image and routines 0 to 9 are in the chain
(25 R372; DESIGN CHOICE, notes/assumptions/6.md): the spec gives neither their bytes nor the chain's start. -/
opaque bootMeasurementByte : Nat → Nat → Byte

/-- FREE VALUE. Byte `i` of what firmware puts after the header of the fatal dump that precedes reset `n` of package `p` (23
R354, which gives the header alone; DESIGN CHOICE, notes/assumptions/6.md). -/
opaque dumpByte : Nat → Nat → Nat → Byte

/-- FREE VALUE. How many bytes follow that header, how many sections they hold, and the offset of their table. -/
opaque dumpShape : Nat → Nat → Nat × Nat × Nat

/-- How many packages the domain holds (DESIGN CHOICE, notes/assumptions/3.md). -/
def packages : Nat := 2

/-- Ticks of one nanosecond: the least common multiple that makes every clk of 21 R306 a whole number of ticks. -/
def ticksPerNs : Nat := 252

/-- Ticks of one clk at a clock step (21 R306): 2.4, 2.1, 1.8, 1.5 and 1.2 GHz. -/
def clkTicks (step : Nat) : Nat :=
  match step with
  | 0 => 105
  | 1 => 120
  | 2 => 140
  | 3 => 168
  | _ => 210

/-- FREE VALUE. Whether a copy of a launch packet at a tick takes word `a` of its slot, written meanwhile, in its old form
(25 R368; DESIGN CHOICE, notes/assumptions/76.md). -/
opaque slotOld : Nat → Nat → Bool

/-- The world of a host function, which the signed configuration fixes: VF1 is secure, the others are not
(25 R366; DESIGN CHOICE, notes/assumptions/5.md). -/
def fnSecure (fn : Nat) : Bool := fn == 1

/-- Save areas that firmware can give out on one package (25 R370; DESIGN CHOICE, notes/assumptions/11.md). -/
def saveAreas : Nat := 4096

end Config
end Sys2Proof
end

