-- ==== Sys2Proof/Machine/State.lean ====
section
/-!
DEFINITION. The state of the Nearis Celfer, as plain data, and its value at reset. The rule of spec/ that names a piece of
state stands in its docstring; INVENTORY.md lists the same fields with their reset values.
-/
namespace Sys2Proof.Machine
open Sys2Proof

/-! ## Outcomes -/

/-- Why the machine stops. -/
inductive Fault where
  /-- Raised by an access whose translated frame lies outside the 384 GiB of HBM (00 R2), to which the spec gives no
  outcome. Safe: the model stops where the hardware does something unknown. -/
  | noSuchFrame
  deriving DecidableEq, Repr

/-- Why an instruction has no meaning here. -/
inductive Refusal where
  /-- Raised by an arm of exec whose instruction is not modelled. Safe: the model stops. -/
  | notModelled (mnemonic : String)
  deriving DecidableEq, Repr

/-! ## Values that carry poison -/

/-- The poison kinds in order of severity (07 R97), coded as in 11 R156. -/
inductive Poison where
  | none | race | peer | data
  deriving DecidableEq, Repr, Inhabited

/-- A scalar value: its 64 bits, its poison kind, and the memory operations of its own stream that produced it,
directly or through register operations (07 R86, item 3). -/
structure PVal where
  v : Word
  p : Poison
  dep : List Nat
  deriving DecidableEq, Repr, Inhabited

/-- One 2,048-bit row: 64 slots of 32 bits (15 R198). -/
abbrev Row := Vector Slot 64

/-- A row-queue entry: 256 bytes and a poison kind for each 8-byte word (13 R175). -/
structure RowVal where
  w : Row
  p : Vector Poison 32
  deriving DecidableEq, Repr, Inhabited

/-- A vector register: 16 rows, each with its poison kind (15 R198). -/
structure VReg where
  rows : Vector Row 16
  p : Vector Poison 16
  deriving DecidableEq, Repr, Inhabited

/-- A mask register (15 R200). -/
structure MReg where
  bits : BitVec 1024
  p : Poison
  deriving DecidableEq, Repr, Inhabited

/-- A table register: nine row entries and a poison kind (15 R222). -/
structure TReg where
  ents : Vector Row 9
  p : Poison
  deriving DecidableEq, Repr, Inhabited

/-- A tile of the accumulator bank: 64 rows of 64 words, the kind (INT32 or FP32) and a poison kind per row (17 R233). -/
structure Tile where
  rows : Vector Row 64
  int : Bool
  p : Vector Poison 64
  deriving DecidableEq, Repr, Inhabited

/-! ## Queues -/

/-- One entry of a queue: an id for reservations, the operation that will fill it, and its data once it has arrived
(13 R181). -/
structure Entry (α : Type) where
  id : Nat
  data : Option α
  deriving DecidableEq, Repr

/-- An architectural queue: the oldest entry first; whether the producing side's QEND has issued and whether its effect
has been made (13 R193). -/
structure Queue (α : Type) where
  ents : List (Entry α)
  ending : Bool
  ended : Bool
  deriving DecidableEq, Repr

/-! ## Waits -/

/-- Where a stream stands blocked; each is ended by the event named. -/
inductive Wait where
  | sem (s : BitVec 6) (sync : Bool)  -- SEMW, WAITS or a sync-field wait: SEMAPHORE_WAIT_PROCEED
  | rime (slab : Nat) (last : Nat)    -- RWAIT, WAITR: RIME_WAIT_PROCEED
  | ringFree (r : BitVec 4)           -- RNGA: RING_WAIT_PROCEED
  | ringFill (r : BitVec 4)           -- RNGW: RING_WAIT_PROCEED
  | popLq (q : BitVec 2)              -- a pop or peek of lq0 to lq3 by the XC: QUEUE_WAIT_PROCEED
  | popRow (q : BitVec 2)             -- a pop of lq4 to lq7 by the XC
  | pushSq (q : BitVec 1)             -- a push to sq0 or sq1 by the XC
  | pushRow (q : BitVec 1)            -- a push to sq2 or sq3 by the XC
  | popSq (q : BitVec 1)              -- a store draining sq0 or sq1
  | popSqRow (q : BitVec 1)           -- a row store draining sq2 or sq3
  | reserve (q : BitVec 2)            -- a load reserving in lq0 to lq3
  | reserveRow (q : BitVec 2)         -- a row load or MDRAIN reserving in lq4 to lq7
  | flush (q : QName)                 -- QFLUSH
  | rdv (n : BitVec 8)                -- RENDEZVOUS_RELEASE
  | crew (id gen : Nat)               -- CREW_BARRIER_COMPLETE
  | join (addr : Nat)                 -- JOIN_OBSERVED
  | elastic                           -- ELASTIC_ITERATION
  | stage                             -- STAGE 0 on an empty stage queue: QUEUE_WAIT_PROCEED
  deriving DecidableEq, Repr

/-! ## Memory operations -/

/-- How far an operation has come (07 R94, 13 R173). -/
inductive OpStatus where
  | waiting     -- issued, not yet sent: a load, an instant or a launch
  | held        -- a store or atomic in its cell (01 R24)
  | left        -- it has left its cell
  | applied     -- performed at its target; its response has not returned
  | complete    -- performed and returned; kept while a later operation is ordered after it
  deriving DecidableEq, Repr, Inhabited

/-- Where the value of a load or an atomic goes. -/
inductive OpDst where
  | none
  | reg (n : BitVec 6)
  | lq (q : BitVec 2) (ent : Nat)
  | row (q : BitVec 2) (ent : Nat)
  deriving DecidableEq, Repr, Inhabited

/-- The atomics (13 R183). -/
inductive AtOp where
  | add | and | or | xor | min | max | minu | maxu | swap | cas
  deriving DecidableEq, Repr, Inhabited

/-- What an operation does. -/
inductive OpWhat where
  | load (bytes : Nat) (signed : Bool) (dst : OpDst)
  | store (data : List Byte) (arr : Bool)
  | atomic (op : AtOp) (dbl : Bool) (b cmp : Word) (fo : Bool) (dst : OpDst)
  | launchChain (e : BitVec 1) (chain : Nat)
  | launchMe (job : Nat)
  | launchDrain (id : Nat)
  | point                              -- an operation with no access: TNOW, a wait, a post (07 R84)
  deriving DecidableEq, Repr

/-- Where an operation acts, after the checks of 05 R380 at issue. -/
inductive Target where
  | nowhere
  | carve (off : Nat)                       -- the job's own carve-out
  | cell (cell off : Nat)                   -- the carve-out of the resident job on a cell of the package
  | hbm (addr va : Nat) (cm : Bool)         -- HBM of this package, the virtual address it came from, and the leaf's CM
  | hostMem (fn addr : Nat)                 -- a KIND 1 page of the owner's host memory
  | firn (off : Nat)                        -- the firn map page (25 R371)
  | peer (pkg addr va : Nat) (cm : Bool)    -- HBM of another package, to which a page has moved (05 R78)
  | fabric (coord va : Nat)                 -- a logical package coordinate and a virtual address there
  | sem (cell : Nat) (n : BitVec 6)         -- C space
  | mbox (cell : Nat) (n : BitVec 3)
  | csr (cell : Nat) (n : Nat)
  deriving DecidableEq, Repr, Inhabited

/-- Page-fault kinds (23 R331). -/
inductive PfKind where
  | bounds | alignment | place | absent | world | notPresent | readOnly | compressed | malformed | hostAtomic | sealLimit
  deriving DecidableEq, Repr

/-- The outcome of a failing check of an access (05 R78, R380): a page fault, a sealed-write fault, consumption of data
poison, or a frame outside HBM. -/
inductive AccFail where
  | page (k : PfKind)
  | sealedWrite
  | poisoned
  | noFrame
  deriving DecidableEq, Repr

/-- Why an operation that has issued does not end as it should (13 R176, R192): a failing check at the target, an error
response in place of a lost target, a semaphore count refused. -/
inductive OpFail where
  | acc (f : AccFail)
  | lost
  | overflow (n : BitVec 6) (v : Nat)
  deriving DecidableEq, Repr

/-- A dependency stamp (07 R99, 21 R323): source die, sequence number, and the writes it names. -/
structure Stamp where
  die : Nat
  seq : Nat
  deps : List (Nat × Nat)
  deriving DecidableEq, Repr, Inhabited

/-- An operation in flight. `preds` are the operations locally ordered before it, closed under 07 R86. -/
structure MemOp where
  id : Nat
  job : Nat
  eng : Eng
  region : Nat
  os : BitVec 3
  num : Nat                 -- sequence number in its ordering stream (23 R335)
  ord : OrdKind
  scope : Scope
  what : OpWhat
  target : Target
  preds : List Nat
  status : OpStatus
  issued : Nat              -- clk of issue
  stamp : Option Stamp
  value : Option PVal       -- the old value of an atomic once performed
  fail : Option OpFail      -- what its response will say instead
  dropped : Bool            -- its region has rolled back since it left (14 R197)
  pc : Word
  va : Word                 -- the address that a fault names
  ctx : Nat
  secure : Bool
  deriving DecidableEq, Repr

/-! ## Traps -/

/-- The recoverable causes with their kind-specific record (23 R330), SUB (R331), fault address and flags. -/
structure Trap where
  code : Nat
  sub : Nat
  faddr : Word
  krec : List Byte          -- 32 bytes
  dlv : Eng                 -- delivery stream
  psn : Nat                 -- CAUSE bits 19:18
  rmt : Bool
  region : Nat              -- region of the faulting operation
  pc : Word
  deriving DecidableEq, Repr

/-! ## Rime tags and rings -/

/-- The tag states (05 R66). -/
inductive TagSt where
  | empty | filling | full | error
  deriving DecidableEq, Repr, Inhabited

/-- A rime tag (05 R66). -/
structure Tag where
  st : TagSt
  psn : Bool
  pst : Bool
  kind : BitVec 4
  exp : BitVec 12
  cnt : BitVec 12
  deriving DecidableEq, Repr, Inhabited

/-- A ring descriptor (05 R71). -/
structure Ring where
  cls : Bool
  cix : BitVec 8
  pix : BitVec 8
  fill : BitVec 8
  free : BitVec 8
  cnt : BitVec 8
  ssz : BitVec 4
  base : BitVec 10
  deriving DecidableEq, Repr, Inhabited

/-! ## Task records -/

/-- The fields of a task record that a writer sets (21 R303, R304). -/
structure TaskRec where
  hdr : Word
  frame : Word
  join : Word
  nbt : Word
  trip : BitVec 32
  ofsp : BitVec 16
  ofsk : BitVec 16
  ofse : BitVec 16
  crew : Option (BitVec 12)
  xs : Bool
  wld : Bool
  pin : Bool
  ecls : BitVec 2
  prio : BitVec 2
  tsel : BitVec 4
  tsrc : BitVec 2
  deriving DecidableEq, Repr, Inhabited

/-- A record in a queue: the record, the fields the device writes, and the times of select (21 R303, R305, R307). -/
structure QRec where
  task : TaskRec
  seq : Nat
  ctx : Nat
  origin : Option (BitVec 10)
  save : Option Nat             -- CONT and SAVE: the save area of a continuation record
  await : Bool
  handlerOf : Option Nat        -- the faulted job, when this is its handler record (23 R332)
  frameIx : Option Nat          -- the trap frame the handler names
  notBefore : Nat               -- ns
  ready : Option Nat            -- tick at which it first became ready
  lastFit : Option Nat          -- tick at which its class last fitted
  deriving DecidableEq, Repr

/-- What an ERET has read of its frame: the live-ins of both cores (23 R358). -/
structure EretRead where
  regsA : Vector PVal 64
  regsX : Vector PVal 64
  deriving DecidableEq, Repr

/-! ## Commit-deferred effects (01 R23, 07 R382) -/

/-- The effects that take place at or after the commit of their region. -/
inductive Effect where
  | thaw (slab : Nat)
  | semPost (s : BitVec 6) (a : Nat)
  | semSet (s : BitVec 6) (v : Nat)
  | ringPublish (r : BitVec 4) (close : Bool)
  | ringFree (r : BitVec 4)
  | spawn (t : TaskRec)
  | pqPush (shadow : BitVec 4) (entry : List Byte)
  | pqFlush (shadow : BitVec 4) (op : Nat)
  | joinDec (addr : Word) (origin : Option (BitVec 10))
  deriving DecidableEq, Repr

/-- A deferred effect: the region and stream that issued it, its place in issue order, the word and, where that is an operation
of an ordering stream, the stream (23 R335); its predecessors; `src` is the operation whose completion it posts. -/
structure Deferred where
  seq : Nat
  region : Nat
  eng : Eng
  pc : Word
  os : Option (BitVec 3)
  preds : List Nat
  src : Option Nat
  eff : Effect
  deriving DecidableEq, Repr

/-- A semaphore: the signed count C and the decrements not yet settled, each with its region (none once committed) and
its place in issue order (13 R190). -/
structure Sem where
  c : Int
  decs : List (Option Nat × Nat)
  deriving DecidableEq, Repr, Inhabited

/-! ## Core streams -/

/-- A call record with the hidden registers of its frame (11 R154 to R156). -/
structure CallRec where
  ret : Word
  ss : BitVec 2
  hidden : List PVal
  spilled : Bool
  deriving DecidableEq, Repr

/-- An entry of the loop stack (11 R159). -/
structure LoopRec where
  first : Word
  last : Word
  count : Word
  depth : Nat
  deriving DecidableEq, Repr

/-- The kps CSR (11 R162). -/
structure Kps where
  iter : BitVec 32
  slot : BitVec 8
  stg : BitVec 3
  ps : BitVec 8
  deriving DecidableEq, Repr, Inhabited

/-- The LNT banks (17 R238, R262): words with their poison kinds. -/
structure Banks where
  shadow : Vector PVal 32
  prev : Vector PVal 32
  deriving DecidableEq, Repr, Inhabited

/-- The vector state of the XC. -/
structure VecState where
  v : Vector VReg 32            -- physical registers; the names v24 to v31 rotate (11 R164)
  m : Vector MReg 8
  tb : Vector TReg 4
  deriving DecidableEq, Repr, Inhabited

/-- What a core stream saves at the start of a region (01 R26 and the rules that say 'saved at the start of each
region'). Live-in registers only: the others hold zero. -/
structure CoreSave where
  region : Nat
  regs : Vector PVal 64
  vec : VecState
  kps : Kps
  nmctl : BitVec 10
  srs : Word
  rrb : BitVec 3
  rdv : List (Nat × Nat)
  ending : BitVec 8             -- QEND issued: lq0 to lq7 (AC), sq0 to sq3 (XC)
  ended : BitVec 8
  banks : Banks
  mgos : Nat
  prio : BitVec 2
  crews : List Nat
  deriving DecidableEq, Repr

/-- A core stream. -/
structure CoreState where
  pc : Word
  live : Bool
  region : Nat                  -- the region it is in: it has passed the end of every lower one
  regs : Vector PVal 64
  busy : BitVec 64              -- registers that a load or an atomic in flight will write
  kps : Kps
  nmctl : BitVec 10             -- XC
  srs : Word                    -- srsx on the XC, srsm on the AC
  rrb : BitVec 3                -- XC
  calls : List CallRec          -- newest first
  spilling : Bool               -- the last call came after the last return (11 R155)
  loops : List LoopRec          -- innermost first
  rdv : List (Nat × Nat)        -- completed rendezvous of each n
  wait : Option Wait
  syncTaken : Bool              -- the sync-field wait of the word at pc has been made
  granted : Bool                -- the wait that the word at pc itself makes has proceeded
  latch : List PVal             -- operands that the word at pc has already popped, in order
  part : Nat                    -- how many entries an attached VLDQ or VSTQ, or a row MDRAIN, has moved
  rows : List RowVal            -- the entries an attached VLDQ has popped
  started : Bool                -- the kernel iteration at pc has been started (11 R163)
  saves : List CoreSave         -- of each uncommitted region it has entered, oldest first
  deriving DecidableEq, Repr

/-- An asynchronous write to vector registers (15 R229). -/
structure AsyncWrite where
  id : Nat
  drain : Option Nat            -- the MDRAIN.V it belongs to; otherwise a detached VLDQ
  region : Nat
  regs : List Nat               -- physical registers, in order
  mask : Option (BitVec 1024)
  maskP : Poison
  z : Bool
  pc : Word
  seq : Nat                     -- place of its sync post in issue order
  lq : BitVec 2
  got : List RowVal
  sem : Option (BitVec 6)
  complete : Bool
  endedBy : Option Nat          -- the region of the wait that ended the pending state
  deriving DecidableEq, Repr

/-! ## Copy engines -/

/-- A region of a footprint (19 R281). -/
structure Foot where
  space : Nat                   -- 0 for G, 1 for S
  base : Nat
  len : Nat
  write : Bool
  gated : Bool
  deriving DecidableEq, Repr, Inhabited

/-- Why a chain runs (19 R271). -/
inductive Role where
  | stream
  | kicked (op : Nat) (link : Bool)
  deriving DecidableEq, Repr

/-- A chain (19 R271 to R284, 09 R128). -/
structure Chain where
  id : Nat
  role : Role
  ptr : Word
  region : Nat
  stack : List Word             -- top first
  shapes : Vector (Option (List Byte)) 4
  foot : List Foot
  ahead : List Foot             -- a kicked chain: the regions of its leading FOOT words, read at its launch
  old : List (Nat × Nat)        -- words that the engine had fetched ahead by the launch or dispatch, by G address (19 R272)
  begun : Bool
  halted : Bool
  live : Bool
  wait : Option Wait
  deriving DecidableEq, Repr

/-- The transfers (19 R280, R285, R286, R295). -/
inductive Xfer where
  | copy (count : Nat)
  | walk (src : List Byte) (dst : Option (List Byte))
  | halo (src : List Byte)
  | codec (r : Nat) (par : Word)
  deriving DecidableEq, Repr

/-- What a transfer has formed and not yet written, each byte with its poison: a piece of it by number, a run of bytes, the tag of a
compressed block, the ERROR of the slabs of a block's output. A run starts at `lo`; what is left of it starts at `off`. -/
inductive XOut where
  | piece (k : Nat) (bs : List (Byte × Bool))
  | bytes (lo off : Int) (bs : List (Byte × Bool))
  | tag (off : Int) (t : BitVec 16)
  | halt (off n : Nat) (kind : BitVec 4)
  deriving DecidableEq, Repr

/-- A source slab that a HALO has reached (19 R286, 20 R301): cell, slab, the job resolved, whether the wait has ended. -/
structure HaloSlab where
  cell : Nat
  slab : Nat
  uid : Nat
  passed : Bool
  deriving DecidableEq, Repr

/-- A transfer in flight, with how much of it has been formed and how much of that has been written. -/
structure Transfer where
  id : Nat
  chain : Nat
  region : Nat
  ptr : Word
  kind : Xfer
  src : Word
  dst : Word
  at_ : Nat                     -- pieces formed; a codec routine is one
  formed : List XOut            -- formed and not yet written (19 R287)
  formedAt : Nat                -- clk at which data was formed last
  halted : Bool                 -- its output has entered ERROR (19 R292)
  blocked : Bool                -- HALO: it stands at a slab that is not FULL
  slabs : List HaloSlab
  marked : List Nat             -- engine addresses of destination granules it has marked, first one last
  deriving DecidableEq, Repr

/-- A copy engine (19 R271, R273). -/
structure EngState where
  chain : Option Chain
  kicks : List Chain            -- kicked chains not yet started
  stage : List (Word × Word)
  left : List (Nat × List Word)   -- per region of launch, the stack that the last chain left, for CLINK; newest last
  xfers : List Transfer
  starve : Option Nat           -- clk at which its present stall began
  deriving DecidableEq, Repr

/-! ## Matrix engine -/

/-- A partial tile. -/
structure Part where
  rows : Vector Row 64
  p : Vector Poison 64
  deriving DecidableEq, Repr, Inhabited

/-- The merges of one job into one tile (03 R57, R58). -/
structure TileProg where
  tile : Nat
  issued : Nat                  -- passes issued to it
  next : Nat                    -- e of ORDERED; merges made
  held : List (Nat × Part)      -- ORDERED: by pass; PAIRWISE: every partial or subtotal by its lowest pass
  spans : List (Nat × Nat)      -- PAIRWISE: lowest pass and count of each held subtotal
  deriving DecidableEq, Repr

/-- Where an ME job stands (17 R234). -/
inductive MePhase where
  | queued | running | suspended | drained   -- drained: every pass issued, merges outstanding
  deriving DecidableEq, Repr, Inhabited

/-- An ME job (17 R234, R245, R253). -/
structure MeJob where
  id : Nat
  high : Bool
  op : Nat                      -- its launch
  region : Nat
  lnt : Vector Word 32
  order : OrderMode
  lag : Nat
  ord : Nat                     -- ordinal of its MGO (R257 SEQ)
  pc : Word
  phase : MePhase
  ix : List Nat                 -- i1 to i5 of the next pass
  slot : Option (BitVec 8)      -- the elastic level's slot
  more : Bool                   -- passes remain
  buffers : Vector (Option (Nat × Nat × Part)) 4   -- tile, pass of that tile, partial (18 R269)
  count : Nat                   -- passes ended
  tiles : List TileProg
  logGot : List (BitVec 8)      -- path-log slots acquired for the block of the next pass
  toFree : List (Nat × BitVec 4)  -- elastic slots to release: passes that must have been delivered, ring
  logPub : List (BitVec 4)      -- path-log slots whose folds are written and which are not yet published
  stall : Option Nat            -- clk at which its present stall began
  deriving DecidableEq, Repr

/-- A table slot (17 R263): empty, codebook bytes, or product table. -/
inductive SlotKind where
  | codebook | product
  deriving DecidableEq, Repr

structure TabSlot where
  kind : SlotKind
  bytes : List Byte
  p : Poison
  deriving DecidableEq, Repr

/-- Where an MDRAIN goes (17 R265). -/
inductive DrainDst where
  | slabs (addr : Nat)
  | queue (q : BitVec 2) (ents : List Nat)
  | regs (async : Nat)
  deriving DecidableEq, Repr

/-- An ME instruction that waits its turn on a tile or a table slot (17 R235). -/
inductive MeWork where
  | drain (ty : ET) (rm : Rm) (sat : Bool) (seed : Word) (dst : DrainDst)
  | zero
  | table (bytes : List Byte) (kind : SlotKind) (p : Poison)
  deriving DecidableEq, Repr

structure MeTask where
  id : Nat
  op : Nat
  region : Nat
  tile : Nat                    -- tile, or table slot for `table`
  work : MeWork
  at_ : Nat                     -- bytes written
  pc : Word
  deriving DecidableEq, Repr

/-- The matrix engine's state of a job (17 R233 to R238). -/
structure MeState where
  tiles : Vector Tile 64
  slots : Vector (Option TabSlot) 16
  tileSaves : List (Nat × Nat × Tile)              -- region, tile, shadow image (R236)
  slotSaves : List (Nat × Nat × Option TabSlot)
  banks : Banks
  jobs : List MeJob                                -- in launch order
  tasks : List MeTask                              -- in program order
  mgos : Nat
  passes : BitVec 24
  strv : Bool
  deriving DecidableEq, Repr

/-! ## Jobs -/

/-- A job header (09 R133). -/
structure Header where
  ac : Vector Word 3            -- effective entries: prologue, kernel, epilogue
  xc : Vector Word 3
  ce0 : Vector Word 3           -- 0 for absent
  ce1 : Vector Word 3
  liveA : BitVec 64
  liveX : BitVec 64
  liveV : BitVec 32
  liveM : BitVec 8
  slabs : Nat
  wsa : Nat
  wsx : Nat
  deriving DecidableEq, Repr

/-- The trip of a job (01 R20). -/
inductive TripSrc where
  | counted (t : Nat)
  | elastic (ring : BitVec 4)
  deriving DecidableEq, Repr

/-- The elastic decision for an iteration (12 R172). -/
inductive Decision where
  | take (slot : BitVec 8)
  | drain
  | stop
  deriving DecidableEq, Repr

/-- Where a trap-held job stands (23 R332, R339). -/
structure Held where
  trap : Trap
  frame : Option Nat            -- the frame index once taken
  filled : Bool                 -- the frame is written
  written : Bool                -- the handler record is entered
  pcs : Vector Word 4           -- at the trap
  qocc : Word
  last : Vector Word 8          -- OSA at the trap
  lastX : Vector Word 8
  released : Bool               -- the handler's ERET has committed: an ordinary held job (23 R339)
  deriving DecidableEq, Repr

/-- The state that has an in-use and a dirty flag (23 R337): a physical vector register, a mask register, a table register, an
accumulator tile, a table slot, an LNT bank (0 the shadow bank, 1 the previous one). -/
inductive Kept where
  | v (n : Nat)
  | m (n : Nat)
  | tb (n : Nat)
  | tile (n : Nat)
  | slot (n : Nat)
  | bank (n : Nat)
  deriving DecidableEq, Repr

/-- A job: every piece of per-job state (01 R13, 23 R338). -/
structure Job where
  uid : Nat
  ctx : Nat
  qrec : QRec
  hdr : Header
  trip : TripSrc
  prio : BitVec 2
  committed : Nat               -- the oldest uncommitted region
  decisions : List (Nat × Decision)   -- by iteration
  mem : List Host.Cell          -- carve-out bytes
  marks : List Nat              -- data-poisoned 64-byte granules of the carve-out
  tags : List (Nat × Tag)       -- slabs whose tag is not EMPTY and zero
  posts : List (Nat × Nat)      -- slab, clk of its last RPOST (05 R68)
  tagSaves : List (Nat × Nat × Tag)   -- region, slab, pre-image
  copySaves : List (Nat × Nat × Byte)  -- region, offset, old byte under a copy or a drain (19 R287)
  markSaves : List (Nat × Nat × Bool)  -- region, granule, whether it was marked
  rings : Vector Ring 16
  ringSaves : List (Nat × BitVec 4 × Ring)
  sems : Vector Sem 64
  lq : Vector (Queue PVal) 4
  lqRow : Vector (Queue RowVal) 4
  sq : Vector (Queue PVal) 2
  sqRow : Vector (Queue RowVal) 2
  ac : CoreState
  xc : CoreState
  vec : VecState
  async : List AsyncWrite
  me : MeState
  ce0 : EngState
  ce1 : EngState
  deferred : List Deferred
  seq : Nat                     -- issue order of deferred effects and decrements
  crews : List Nat
  results : List (Nat × Nat)    -- region, clk of its last result (01 R21)
  traps : List Trap             -- raised and not yet taken (23 R336)
  held : Option Held            -- trap-held
  eretOf : Option Nat           -- for a handler: the faulted job
  eretAt : Option Nat           -- the region of the ERET that has issued
  eretRead : Option EretRead    -- what that ERET has read of its frame
  osNums : Vector (Vector Nat 8) 2    -- next sequence number of each ordering stream of the AC and the XC
  osErr : Vector (BitVec 8) 2
  inUse : List Kept             -- written since dispatch (23 R337)
  dirty : List Kept             -- written since the last save
  progress : Nat                -- clk of the last progress, for the watchdog (01 R36)
  readySince : Nat              -- ready time while held (21 R307)
  fitSince : Nat
  deriving DecidableEq, Repr

/-! ## Cells -/

/-- The binding of a proxy shadow (21 R319). -/
structure Binding where
  ctx : Nat
  qbase : Word
  taila : Word
  cap : Nat
  secure : Bool
  deriving DecidableEq, Repr

/-- A closed batch and how far it has been sent (21 R320). -/
structure Batch where
  bind : Binding
  entries : List (List Byte)
  sent : Option Nat             -- the tail value its AADD returned
  sentAt : Nat                  -- clk of closing
  flush : List Nat              -- PQFLUSH operations that wait for it
  lost : Bool                   -- its writes were to cross a port that died (21 R324)
  deriving DecidableEq, Repr

/-- A proxy shadow (21 R319, R320). -/
structure Shadow where
  bind : Option Binding
  opened : List (List Byte)
  openedAt : Nat                -- tick of the first entry
  batches : List Batch          -- closed, oldest first
  deriving DecidableEq, Repr

/-- A cached translation (05 R79). -/
structure TlbEnt where
  ctx : Nat
  vpn : Nat                     -- 4 KiB page number
  level : Nat                   -- level of the leaf: 2, 3 or 4
  leaf : Word
  deriving DecidableEq, Repr

/-- A TLBINV or a SEAL in progress (07 R100, 23 R361). -/
structure Inval where
  id : Nat
  isSeal : Bool
  all : Bool                    -- TLBINV with sub 1
  job : Nat
  op : Nat
  waits : List (Nat × Nat × Nat)     -- package, cell and id of each operation it waits for
  deriving DecidableEq, Repr

/-- A deferred effect that is due (07 R382). -/
structure Due where
  job : Nat
  ctx : Nat
  d : Deferred
  deriving DecidableEq, Repr

/-- A cell (01 R11, R13). -/
structure CellState where
  secure : Bool
  mb : Vector Word 8
  queue : List QRec
  nextSeq : Nat
  job : Option Job              -- the running job
  heldJob : Option Job
  trapped : Option Job          -- the trap-held job that keeps the running place (23 R339, step 3)
  preempt : Bool                -- a pre-emption request is pending (01 R28)
  shadows : Vector Shadow 16
  due : List Due
  ops : List MemOp
  tlb : List TlbEnt             -- oldest first
  invals : List Inval
  deriving DecidableEq, Repr

/-! ## Contexts -/

/-- The states of a context (01 R16). -/
inductive CtxSt where
  | running | suspended | lost
  deriving DecidableEq, Repr, Inhabited

/-- A member that has left a crew in an uncommitted region: the generation that was pending, if one was, and its
contributions once it has completed (21 R314). -/
structure CrewLeave where
  job : Nat
  region : Nat
  first : Nat
  gen : Option Nat
  done : Option (List Word)
  deriving DecidableEq, Repr

/-- A completed generation that a member has not yet committed: the region whose CRBAR took it, none once that region has
rolled back and the CRBAR is to pass again (01 R31). -/
structure CrewPass where
  job : Nat
  region : Option Nat
  made : Nat                    -- the region in which it was first passed, or left
  gen : Nat
  contribs : List Word
  deriving DecidableEq, Repr

/-- A crew (01 R29 to R31, 21 R314, R315): members by job with the first generation each takes part in, the pending
generation, who has arrived at it in which region with what contribution, and what the rollbacks need. -/
structure Crew where
  id : Nat
  members : List (Nat × Nat)
  gen : Nat
  arrived : List (Nat × Nat × Option Word)
  leaves : List CrewLeave
  passed : List CrewPass
  last : List Word              -- contributions of the last completed generation
  deriving DecidableEq, Repr

/-- A range of a seal list with its frames (23 R352). -/
structure SealRange where
  base : Nat
  len : Nat
  frames : List (Nat × Nat)     -- virtual page, its 4 KiB leaf with SL = 1 and WR = 0
  deriving DecidableEq, Repr

/-- A record queue in G: fault records or events (25 R371). -/
structure RecQueue where
  base : Word
  count : Nat
  written : Nat
  dropped : Nat
  deriving DecidableEq, Repr

/-- A context's instance on a package (01 R16, 25 R370, R383). -/
structure Context where
  id : Nat
  secure : Bool
  st : CtxSt
  owner : Fn
  ptBase : Nat                  -- 40-bit frame; 0 selects `table`
  table : List (Nat × Word)     -- the tables that the MC built: 2 MiB page number, leaf (26 R377)
  handler : Word
  faults : RecQueue
  events : RecQueue
  frameBase : Word
  frameCount : Nat
  framesUsed : List Nat
  saves : Nat                   -- save areas reserved
  saved : List (Nat × Job)      -- written-out jobs by save area
  proxy : Word
  lostRing : Word
  ack : BitVec 32
  deadlines : List (Nat × Nat)  -- version, tick
  pendingVers : List Nat        -- versions whose deadline starts at the next dispatch (23 R349)
  seals : List SealRange
  stale : List ((Nat × Nat) × List Byte)   -- by place (0 HBM, 1 host memory, 2 + name of a job) and address: code words that its stores changed, as fetches see them until TLBINV with sub 1 (11 R153)
  crews : List Crew
  deriving DecidableEq, Repr

/-! ## Packages -/

/-- What BAR0 holds for one host function (25 R366). -/
structure FnState where
  bar2 : Nat                    -- the size to which the host has set BAR2
  w2ctx : Byte
  cmd : Vector Byte 256
  resp : Vector Byte 256
  result : Byte
  busy : Bool                   -- DOOR has been written and its command has not run (25 R369)
  mem : List Host.Cell          -- host memory of this function (05 R77, 25 R371)
  slots : List Host.Cell        -- launch slots: 1,024 * cell + byte
  slotOld : List (Nat × List Byte)    -- words of them written during a copy, as they stood before (25 R368)
  lstat : List (Nat × Word)     -- launch status by cell, where not zero
  scratch : List Byte           -- what the last BAR2 read returned
  lostWritten : Nat
  lostDropped : Nat
  msix : Nat                    -- MSI-X vector 0 messages sent
  deriving DecidableEq, Repr

/-- The firn map's fields for a die (23 R348). -/
structure DieMap where
  step : BitVec 3
  live : BitVec 96
  secure : BitVec 96
  deriving DecidableEq, Repr, Inhabited

/-- The firn map's fields for a stack. -/
structure StackMap where
  banks : BitVec 68
  restriping : Bool
  wmark : BitVec 4
  full : Bool
  deriving DecidableEq, Repr, Inhabited

/-- The firn map (23 R348). -/
structure Firn where
  version : BitVec 32
  level : Byte
  mefmt : Byte
  ext : Byte × Byte × Byte
  self : BitVec 10
  change : BitVec 32
  time : Word
  dies : Vector DieMap 2
  stackMaps : Vector StackMap 8
  ports : Vector Byte 6
  lost : List Nat               -- indices of lost logical packages
  relabel : List (Nat × BitVec 10)   -- entries that differ from the valid identity: DESIGN CHOICE, notes/assumptions/8.md
  places : Vector (Option (BitVec 12)) 192
  deriving DecidableEq, Repr

/-- A die (21 R306, 07 R99). -/
structure Die where
  clk : Nat
  frac : Nat                    -- ticks of the clk in progress
  budget : Nat
  nextSeq : Nat
  unapplied : List Nat          -- sequence numbers not yet applied
  lastDown : Nat                -- tick of the last power step-down
  since : Nat                   -- tick at which its clock step began (25 R374)
  deriving DecidableEq, Repr

/-- The states of a link (21 R324, 23 R348). -/
inductive LinkSt where
  | up | retraining | dead
  deriving DecidableEq, Repr, Inhabited

/-- A link of a port (21 R322, R324, 22 R328). -/
structure Link where
  st : LinkSt
  replays : Nat
  fails : Nat
  txSeq : BitVec 12             -- next FSEQ to send
  rxSeq : BitVec 12             -- last FSEQ received in order
  unacked : List Flit
  srtIn : Vector (BitVec 12) 6  -- slot returns that the other end reported
  sent : Vector (BitVec 12) 6
  freed : Vector (BitVec 12) 6
  deriving DecidableEq, Repr

/-- A page migration, and the forwarding entry it leaves (05 R78, R81). -/
structure Migration where
  id : Nat
  ctx : Nat
  va : Nat                      -- its first address
  level : Nat                   -- the level of its leaf
  source : Nat                  -- source frame (4 KiB)
  target : MigTarget
  switched : Option Nat         -- tick of the switch
  leaf : Nat                    -- its leaf as the switch found it
  deriving DecidableEq, Repr

/-- A consumption that step answers before anything else (23 R344). -/
structure Loss where
  ctx : Nat
  reason : Nat
  place : Nat
  vaddr : Word
  src : Nat
  deriving DecidableEq, Repr

/-- A loaded custom routine (19 R294). -/
structure Routine where
  num : Nat
  secure : Bool
  bytes : List Byte
  deriving DecidableEq, Repr

/-- A package. -/
structure Package where
  coord : BitVec 10             -- physical coordinate, PKG10 layout
  ready : Bool
  level : BitVec 2
  fatal : Bool
  boots : Nat
  fns : Vector FnState 17
  firn : Firn
  cells : Vector CellState 192
  dies : Vector Die 2
  ctxs : List Context
  hbm : List Host.Cell
  marks : List Nat              -- data-poisoned granules of HBM
  ctags : List (Nat × BitVec 16)     -- compression tags that are not 0x0000, by 4 KiB frame
  retired : List Nat
  nextFrame : Nat               -- next fresh 2 MiB run of frames the MC hands out
  routines : List Routine
  firmware : Bool               -- routines 0 to 9 are loaded
  meas : Vector Byte 48
  links : Vector (Vector Link 2) 6
  migrations : List Migration
  losses : List Loss
  savesUsed : Nat
  deriving DecidableEq, Repr

/-- The domain: every package, the time base, and who moves next. -/
structure State where
  now : Nat                     -- ticks of 1/252 ns
  pkgs : List Package
  cur : CellId × Eng            -- the stream that is moving
  agenda : List Turn
  turns : Nat
  nextId : Nat                  -- names of operations, jobs, chains, transfers
  deriving DecidableEq, Repr

/-! ## Reset values -/

def PVal.zero : PVal := ⟨0, .none, []⟩
def Row.zero : Row := Vector.replicate 64 0
def RowVal.zero : RowVal := ⟨Row.zero, Vector.replicate 32 .none⟩
def VReg.zero : VReg := ⟨Vector.replicate 16 Row.zero, Vector.replicate 16 .none⟩
def MReg.zero : MReg := ⟨0, .none⟩
def TReg.zero : TReg := ⟨Vector.replicate 9 Row.zero, .none⟩
def Tile.zero : Tile := ⟨Vector.replicate 64 Row.zero, false, Vector.replicate 64 .none⟩
def Tag.zero : Tag := ⟨.empty, false, false, 0, 0, 0⟩
def Ring.zero : Ring := ⟨false, 0, 0, 0, 0, 0, 0, 0⟩
def Queue.none {α : Type} : Queue α := ⟨[], false, false⟩
def Shadow.none : Shadow := ⟨.none, [], 0, []⟩

/-- The reset of a cell: no job, empty queue (11 R171 for the mailboxes; DESIGN CHOICE, notes/assumptions/8.md). -/
def CellState.reset : CellState where
  secure := false
  mb := Vector.replicate 8 0
  queue := []
  nextSeq := 0
  job := none
  heldJob := none
  trapped := none
  preempt := false
  shadows := Vector.replicate 16 Shadow.none
  due := []
  ops := []
  tlb := []
  invals := []

def FnState.reset : FnState where
  bar2 := 2 ^ 28
  w2ctx := 0
  cmd := Vector.replicate 256 0
  resp := Vector.replicate 256 0
  result := 0
  busy := false
  mem := []
  slots := []
  slotOld := []
  lstat := []
  scratch := []
  lostWritten := 0
  lostDropped := 0
  msix := 0

def Link.reset : Link where
  st := .dead
  replays := 0
  fails := 0
  txSeq := 0
  rxSeq := 0xFFF#12
  unacked := []
  srtIn := Vector.replicate 6 0
  sent := Vector.replicate 6 0
  freed := Vector.replicate 6 0

/-- All 64 banks of a stack and its 4 spares (23 R350). -/
def allBanks : BitVec 68 := BitVec.allOnes 68

/-- The firn map before version 1 (25 R367: FIRNV is 0; DESIGN CHOICE, notes/assumptions/8.md for the other fields). -/
def Firn.reset (self : BitVec 10) : Firn where
  version := 0
  level := 0
  mefmt := 0
  ext := (1, 1, 1)
  self := self
  change := 0
  time := 0
  dies := Vector.replicate 2 ⟨4, 0, 0⟩
  stackMaps := Vector.replicate 8 ⟨allBanks, false, 0, false⟩
  ports := Vector.replicate 6 0x1A
  lost := []
  relabel := []
  places := Vector.replicate 192 none

def Die.reset : Die := ⟨0, 0, 0, 0, [], 0, 0⟩

/-- The coordinate of package `i` of the domain: (i, 0, 0) (DESIGN CHOICE, notes/assumptions/3.md). -/
def coordOf (i : Nat) : BitVec 10 := BitVec.ofNat 10 (i * 64)

/-- A package right after reset: booting, nothing published (25 R367, R372). -/
def Package.reset (i : Nat) : Package where
  coord := coordOf i
  ready := false
  level := 0
  fatal := false
  boots := 0
  fns := Vector.replicate 17 FnState.reset
  firn := Firn.reset (coordOf i)
  cells := Vector.replicate 192 CellState.reset
  dies := Vector.replicate 2 Die.reset
  ctxs := []
  hbm := []
  marks := []
  ctags := []
  retired := []
  nextFrame := 256
  routines := []
  firmware := false
  meas := Vector.replicate 48 0
  links := Vector.replicate 6 (Vector.replicate 2 Link.reset)
  migrations := []
  losses := []
  savesUsed := 0

/-- The machine right after reset. How a program comes to run from here is DESIGN CHOICE, notes/assumptions/18.md. -/
def State.reset : State where
  now := 0
  pkgs := (List.range Config.packages).map Package.reset
  cur := (⟨0, 0⟩, .ac)
  agenda := []
  turns := 0
  nextId := 1

end Sys2Proof.Machine
end

