-- ==== Sys2Proof/Machine/Bytes.lean ====
section
/-!
DEFINITION. Bytes, little-endian numbers (00 R5) and memory as a list of listed bytes in one canonical form: addresses strictly
rising, no byte listed that equals what an unlisted address reads as, which is 0 (DESIGN CHOICE, notes/assumptions/10.md).
-/
namespace Sys2Proof.Machine
open Sys2Proof

/-- The three outcomes of a step of this machine. -/
abbrev Out := Host.Outcome State Fault Refusal

/-! ## Little-endian numbers -/

/-- The number that bytes stand for, the first byte lowest (00 R5). -/
def leNat : List Byte → Nat
  | [] => 0
  | b :: bs => b.toNat + 256 * leNat bs

/-- The `k` low bytes of a number. -/
def natLe (n : Nat) : Nat → List Byte
  | 0 => []
  | k + 1 => BitVec.ofNat 8 (n % 256) :: natLe (n / 256) k

def wordLe (w : Word) : List Byte := natLe w.toNat 8

/-- A list cut or padded with zero bytes to a length. -/
def padTo (n : Nat) (bs : List Byte) : List Byte := (bs.take n) ++ List.replicate (n - bs.length) 0

/-- Sign extension of the low `n` bits of a number to 64 bits (00 R10), `n` from 1 to 64. -/
def sext (n w : Nat) : Word :=
  if bitAt w (n - 1) then BitVec.ofNat 64 (w % 2 ^ n + (2 ^ 64 - 2 ^ n)) else BitVec.ofNat 64 (w % 2 ^ n)

def zext (n w : Nat) : Word := BitVec.ofNat 64 (w % 2 ^ n)

/-- The signed value of the low `n` bits. -/
def sint (n w : Nat) : Int := if bitAt w (n - 1) then (w % 2 ^ n : Nat) - (2 ^ n : Nat) else (w % 2 ^ n : Nat)

/-! ## Memory -/

/-- The byte at an address: 0 where nothing is listed. -/
def memGet (m : List Host.Cell) (a : Nat) : Byte :=
  match m with
  | [] => 0
  | (k, b) :: m => if k = a then b else if a < k then 0 else memGet m a

/-- Write one byte, keeping the canonical form. -/
def memSet (m : List Host.Cell) (a : Nat) (b : Byte) : List Host.Cell :=
  match m with
  | [] => if b = 0 then [] else [(a, b)]
  | (k, c) :: m =>
    if a < k then (if b = 0 then (k, c) :: m else (a, b) :: (k, c) :: m)
    else if a = k then (if b = 0 then m else (a, b) :: m)
    else (k, c) :: memSet m a b

/-- `n` bytes from an address on. -/
def memRead (m : List Host.Cell) (a : Nat) : Nat → List Byte
  | 0 => []
  | n + 1 => memGet m a :: memRead m (a + 1) n

/-- Write bytes from an address on, in ascending order. -/
def memWrite (m : List Host.Cell) (a : Nat) (bs : List Byte) : List Host.Cell :=
  match bs with
  | [] => m
  | b :: bs => memWrite (memSet m a b) (a + 1) bs

/-- The canonical form: addresses strictly rising, no listed byte 0. -/
def Memory.wf (m : List Host.Cell) : Bool :=
  match m with
  | [] => true
  | (_, b) :: [] => b != 0
  | (k, b) :: (k', b') :: m => b != 0 && k < k' && Memory.wf ((k', b') :: m)

/-! ## Association lists -/

/-- The value of a key. -/
def look {κ α : Type} [DecidableEq κ] (l : List (κ × α)) (k : κ) : Option α :=
  match l with
  | [] => none
  | (i, x) :: l => if i = k then some x else look l k

/-- Set the value of a key, at its place or at the end. -/
def put {α : Type} (l : List (Nat × α)) (k : Nat) (x : α) : List (Nat × α) :=
  match l with
  | [] => [(k, x)]
  | (i, y) :: l => if i = k then (k, x) :: l else (i, y) :: put l k x

def dropKey {α : Type} (l : List (Nat × α)) (k : Nat) : List (Nat × α) := l.filter (fun e => e.1 != k)

/-- A number listed once. -/
def addOnce {α : Type} [BEq α] (l : List α) (k : α) : List α := if l.contains k then l else l ++ [k]

def unionOnce (l m : List Nat) : List Nat := m.foldl addOnce l

/-! ## Poison (07 R97) -/

/-- The severity of a poison kind, its code in 11 R156. -/
def Poison.code (p : Poison) : Nat :=
  match p with
  | .none => 0
  | .race => 1
  | .peer => 2
  | .data => 3

def Poison.ofCode (n : Nat) : Poison :=
  match n with
  | 0 => .none
  | 1 => .race
  | 2 => .peer
  | _ => .data

/-- The more severe of two kinds. -/
def Poison.max (p q : Poison) : Poison := if p.code < q.code then q else p

def worst (l : List Poison) : Poison := l.foldl Poison.max .none

/-! ## Rows -/

/-- The bytes of a row, and the row of bytes: slot `col` is bytes 4 col to 4 col + 3 (15 R198). -/
def rowBytes (r : Row) : List Byte := r.toList.flatMap (fun w => natLe w.toNat 4)

def bytesRow (bs : List Byte) : Row := Vector.ofFn (fun i => BitVec.ofNat 32 (leNat ((bs.drop (4 * i.val)).take 4)))

/-- Poison of each 8-byte word of a row. -/
def rowPoison (f : Nat → Poison) : Vector Poison 32 := Vector.ofFn (fun i => f i.val)

end Sys2Proof.Machine
end

