-- ==== Sys2Proof/WellFormed.lean ====
section
/-!
DEFINITION. Which terms of Instr stand for a legal word (09 R126 and the rules it names), and which core may run a word.
-/
namespace Sys2Proof

/-! ## Ordering fields (07 R84, R85) -/

/-- The classes of 07 R84. -/
inductive OrdClass where
  | load | store | atomic | wait | post | launch | barrier | control
  deriving DecidableEq, Repr

/-- The ord values that a class permits (07 R84). -/
def OrdClass.permits (c : OrdClass) (o : OrdKind) : Bool :=
  match c, o with
  | .load, .plain | .load, .acq => true
  | .store, .plain | .store, .rel => true
  | .atomic, _ => true
  | .wait, .acq => true
  | .post, .rel => true
  | .launch, .rel => true
  | .barrier, .acqrel => true
  | .control, .plain => true
  | _, _ => false

/-- The scopes that an opcode of a space permits (07 R85). -/
def Space.permits (sp : Space) (sc : Scope) : Bool :=
  match sp, sc with
  | .s, .package | .s, .fabric | .n, .package | .n, .fabric | .c, .fabric => false
  | _, _ => true

/-- ord by class, any scope. -/
def OrdF.okAny (f : OrdF) (c : OrdClass) : Bool := c.permits f.ord

/-- ord by class, scope by space. -/
def OrdF.okIn (f : OrdF) (c : OrdClass) (sp : Space) : Bool := c.permits f.ord && sp.permits f.scope

/-- TLBINV and SEAL: ord plain, scope package (09 R110, 23 R356). -/
def OrdF.okSystem (f : OrdF) : Bool := f.ord == .plain && f.scope == .package

/-! ## Operands -/

/-- A queue operand that its field can name only as a pop (09 R113; 11 R142: every width code of opcodes 0x10 to 0x12 is 0b00). -/
def Src.noPeek (s : Src) : Bool :=
  match s with
  | .peek _ => false
  | _ => true

/-- A place field that is no reserved encoding (05 R62). -/
def Place.ok (p : Place) : Bool := p.col.toNat < 12

/-- The registers of a width code. -/
def VW.count (w : VW) : Nat :=
  match w with
  | .x1 => 1
  | .x2 => 2
  | .x4 => 4
  | .x8 => 8

/-- An aligned group (09 R113). -/
def VG.ok (g : VG) : Bool := g.n.toNat % g.w.count == 0

/-- A source of an element-wise instruction: the width of rd, or single (15 R201). -/
def VG.srcOf (g d : VG) : Bool := g.ok && (g.w == d.w || g.w == .x1)

/-- The classes of element types (15 R199). -/
inductive ETClass where
  | f | n | i
  deriving DecidableEq, Repr

/-- The class of an element type; E2M1 counts with N, and no vector form takes it. -/
def ET.cls (t : ET) : ETClass :=
  match t with
  | .f32 | .bf16 | .f16 => .f
  | .e4m3 | .e5m2 | .e2m1 => .n
  | .i32 | .i8 | .u8 | .i4 => .i

/-- A type that a vector word may carry (09 R109). -/
def ET.vec (t : ET) : Bool := t != .e2m1

/-- The rounding codes of an FP instruction that is no conversion (03 R45). -/
def Rm.arith (r : Rm) : Bool := r != .sr

/-- Whether the saturation field may be 1 for a conversion to a type (03 R46). -/
def ET.satOk (t : ET) (s : Bool) : Bool := !s || (t.cls != .i && t != .e2m1)

/-- FCVT's target and saturation field: i64 counts as an integer (11 R150). -/
def CvtTy.satOk (t : CvtTy) (s : Bool) : Bool :=
  match t with
  | .et t => t.satOk s
  | .i64 => !s

/-- Whether a type of FCVT is an integer type. -/
def CvtTy.isInt (t : CvtTy) : Bool :=
  match t with
  | .et t => t.cls == .i
  | .i64 => true

/-- Rounding and saturation of a vector arithmetic word (15 R206, R208). -/
def vRound (t : ET) (rm : Rm) (_s : Bool) : Bool := t.vec && rm.arith && (t.cls != .i || rm == .rne)

/-- A word whose RM and S must be zero. -/
def vPlain (t : ET) (rm : Rm) (s : Bool) : Bool := t.vec && rm == .rne && !s

/-- Z without a mask is reserved (09 R109). -/
def maskZ (m : MaskF) (z : Bool) : Bool := m.isSome || !z

/-- A two-source element-wise group. -/
def VArith.shape (o : VArith) : Bool := o.rd.ok && o.ra.srcOf o.rd && o.rb.srcOf o.rd && maskZ o.mask o.z

def VUnary.shape (o : VUnary) : Bool := o.rd.ok && o.ra.srcOf o.rd && maskZ o.mask o.z

def VArith.arithOk (o : VArith) : Bool := o.shape && vRound o.ty o.rm o.s
def VArith.minMaxOk (o : VArith) : Bool := o.shape && vPlain o.ty o.rm o.s
def VArith.shiftOk (o : VArith) : Bool := o.shape && vPlain o.ty o.rm o.s && o.ty.cls == .i

/-- VABS and VNEG (15 R209): RM and S zero for F and N; RM zero for I. -/
def VUnary.signOk (o : VUnary) : Bool :=
  o.shape && o.ty.vec && o.rm == .rne && (o.ty.cls == .i || !o.s)
/-- VRCP and VRSQ. -/
def VUnary.recipOk (o : VUnary) : Bool := o.shape && vRound o.ty o.rm o.s && o.ty.cls == .f
/-- VPOPC and VCLZ. -/
def VUnary.countOk (o : VUnary) : Bool := o.shape && vPlain o.ty o.rm o.s && o.ty.cls == .i
/-- Add reductions and scans (15 R218). -/
def VUnary.addOk (o : VUnary) : Bool := o.shape && vRound o.ty o.rm o.s
/-- Min and max reductions and scans. -/
def VUnary.minMaxOk (o : VUnary) : Bool := o.shape && vPlain o.ty o.rm o.s

def VBit.ok (o : VBit) : Bool := o.rd.ok && o.ra.srcOf o.rd && o.rb.srcOf o.rd && maskZ o.mask o.z
/-- VPERMR (15 R219): rb is single or as wide as ra. -/
def VBit.permOk (o : VBit) : Bool := o.rd.ok && o.ra.srcOf o.rd && o.rb.srcOf o.ra && maskZ o.mask o.z
def VMove.ok (o : VMove) : Bool := o.rd.ok && o.ra.srcOf o.rd && maskZ o.mask o.z

/-- VCVT (15 R211). -/
def VCvtOp.ok (o : VCvtOp) : Bool :=
  o.rd.ok && o.ra.ok && o.ra.w == o.rd.w && o.dt.vec && o.st.vec && o.dt != o.st &&
  !(o.dt.cls == .i && o.st.cls == .i) && o.dt.satOk o.s

def VRotOp.ok (o : VRotOp) : Bool := o.rd.ok && o.ra.srcOf o.rd && maskZ o.mask o.z

/-- A load of a zero-extended double is reserved (09 R120). -/
def OpLd.ok (o : OpLd) (sp : Space) : Bool := o.f.okIn .load sp && !(o.uns && o.sz == .d)
def OpLdN.ok (o : OpLdN) : Bool := o.f.okIn .load .n && !(o.uns && o.sz == .d) && o.place.ok
def OpLdRow.ok (o : OpLdRow) (sp : Space) : Bool := o.f.okIn .load sp
def OpLdRowN.ok (o : OpLdRowN) : Bool := o.f.okIn .load .n && o.place.ok
def OpSt.ok (o : OpSt) (sp : Space) : Bool := o.f.okIn .store sp
def OpStN.ok (o : OpStN) : Bool := o.f.okIn .store .n && o.place.ok
def OpStRow.ok (o : OpStRow) (sp : Space) : Bool := o.f.okIn .store sp
def OpStRowN.ok (o : OpStRowN) : Bool := o.f.okIn .store .n && o.place.ok

/-- An atomic other than ACAS (09 R107, R121; 13 R184). -/
def OpAt.ok (o : OpAt) : Bool := o.f.okIn .atomic o.sp && !o.fo && o.sp != .c
/-- AADD, which alone has a C form, of size word. -/
def OpAt.addOk (o : OpAt) : Bool := o.f.okIn .atomic o.sp && !o.fo && (o.sp != .c || !o.dbl)
/-- ACAS. -/
def OpAt.casOk (o : OpAt) : Bool := o.f.okIn .atomic o.sp && o.sp != .c

/-- MGO and MDRAIN: rel, scope cell or die (17 R259). -/
def OrdF.okMe (f : OrdF) (c : OrdClass) : Bool := c.permits f.ord && (f.scope == .cell || f.scope == .die)

/-- MDRAIN's type, rounding and saturation (17 R265). -/
def drainOk (ty : ET) (rm : Rm) (sat : Bool) : Bool := rm != .dyn && ty.satOk sat

/-- LOOP's trip operand and length (11 R159). -/
def Trip.ok (t : Trip) : Bool :=
  match t with
  | .reg n => n != 0
  | _ => true

/-- The words that no reserved field, code or combination excludes (09 R126). Events and engine words are always
well-formed: an engine word's argument has no reserved value (09 R128, 19 R275). -/
def Instr.wf (i : Instr) : Bool :=
  match i with
  | .tlbinv o => o.f.okSystem
  | .tlbinvAll f _ | .seal _ _ f _ => f.okSystem
  | .csrw ra _ _ => ra.noPeek
  | .add o | .sub o | .and o | .or o | .xor o | .andn o | .orn o | .shl o | .shr o | .sra o | .rol o | .ror o
  | .min o | .max o | .minu o | .maxu o | .seq o | .sne o | .slt o | .sltu o | .mul o | .mulh o | .mulhu o
  | .div o | .divu o | .rem o | .remu o | .clmul o | .clmulh o | .bfx o => o.ra.noPeek && o.rb.noPeek
  | .clz o | .ctz o | .popc o => o.ra.noPeek
  | .exts o | .extz o => o.ra.noPeek
  | .bfi o | .sel o => o.ra.noPeek && o.rb.noPeek && o.rc.noPeek
  | .addi o | .andi o | .ori o | .xori o | .slti o | .sltui o | .seqi o | .lihi o => o.ra.noPeek
  | .shli o | .shri o | .srai o => o.ra.noPeek
  | .place _ _ p _ => p.ok
  | .beq o | .bne o | .blt o | .bge o | .bltu o | .bgeu o => o.ra.noPeek && o.rb.noPeek
  | .loop t imm _ => t.ok && imm != 0 && !imm.msb
  | .faddS o | .fmulS o => o.rm.arith
  | .ffmaS o => o.rm.arith && o.rc.noPeek
  | .fcvt o => o.dt != o.st && !(o.dt.isInt && o.st.isInt) && o.dt.satOk o.sat
  | .lds o => o.ok .s
  | .ldg o => o.ok .g
  | .ldf o => o.ok .f
  | .ldn o => o.ok
  | .ldsRow o => o.ok .s
  | .ldgRow o => o.ok .g
  | .ldfRow o => o.ok .f
  | .ldnRow o => o.ok
  | .sts o => o.ok .s
  | .stg o => o.ok .g
  | .stf o | .stfArr o => o.ok .f
  | .stn o | .stnArr o => o.ok
  | .stsRow o => o.ok .s
  | .stgRow o => o.ok .g
  | .stfRow o | .stfRowArr o => o.ok .f
  | .stnRow o | .stnRowArr o => o.ok
  | .ldc o => o.f.okIn .load .c
  | .stc o => o.f.okIn .store .c
  | .aadd o => o.addOk
  | .aand o | .aor o | .axor o | .amin o | .amax o | .aminu o | .amaxu o | .aswap o => o.ok
  | .acas o => o.casOk
  | .rpost o => o.f.okAny .post
  | .rwait o => o.f.okAny .wait
  | .rthaw o => o.f.okAny .post
  | .rstat o => o.f.okAny .load
  | .rnga o | .rngw o => o.f.okAny .wait
  | .rngp o => o.f.okAny .post && o.ra.noPeek
  | .rngf o => o.f.okAny .post && o.ra.noPeek && !o.close
  | .semw o => o.f.okAny .wait
  | .semp o => o.f.okAny .post && o.ra.noPeek
  | .semset o => o.f.okAny .store && o.ra.noPeek
  | .semrd o => o.f.okAny .load
  | .qend o | .qflush o => o.f.okAny .control
  | .mcfgs o => o.f.okMe .load
  | .mgo o => o.f.okMe .launch && (o.lag == 0 || (2 ≤ o.lag.toNat && o.lag.toNat ≤ 16))
  | .mtabCb o | .mtabPt o => o.f.okMe .load
  | .mdrain o => o.f.okMe .launch && drainOk o.ty o.rm o.sat
  | .mdrainQ o => o.f.okMe .launch && drainOk o.ty o.rm o.sat
  | .mdrainV o => o.f.okMe .launch && drainOk o.ty o.rm o.sat
  | .ckick o | .clink o => o.f.okAny .launch
  | .tspawn o => o.f.okAny .post
  | .tjoin o => o.f.okAny .wait
  | .crjoin o | .crleave o | .tprio o => o.f.okAny .control
  | .crbar o => o.f.okAny .barrier
  | .crbarAdd o | .crbarMin o | .crbarMax o | .crbarAnd o | .crbarOr o | .crbarXor o => o.f.okAny .barrier
  | .pqpush o => o.f.okAny .post
  | .pqflush o => o.f.okAny .post && o.ra == 0
  | .tnow o => o.f.okAny .control
  | .vadd o | .vsub o | .vmul o => o.arithOk
  | .vfma o | .vfms o => o.arithOk
  | .vmin o | .vmax o => o.minMaxOk
  | .vshl o | .vshr o => o.shiftOk
  | .vsra o => o.shiftOk && o.ty != .u8
  | .vabs o | .vneg o => o.signOk
  | .vrcp o | .vrsq o => o.recipOk
  | .vpopc o | .vclz o => o.countOk
  | .vnot o | .vmov o => o.ok
  | .vcvt o => o.ok
  | .vand o | .vor o | .vxor o => o.ok
  | .vpermr o => o.permOk
  | .vcmpEq o | .vcmpNe o | .vcmpLt o | .vcmpLe o | .vcmpGt o | .vcmpGe o => o.ty.vec && maskZ o.mask o.z
  | .vsel o => o.rd.ok && o.ra.srcOf o.rd && o.rb.srcOf o.rd
  | .vmvx o => o.ty.vec
  | .vmxv o => o.rd.ok && o.ty.vec && maskZ o.mask o.z
  | .vrotr o | .vbcr o | .vrotc o | .vbcc o => o.ok
  | .vredrAdd o | .vscanrAdd o | .vredcAdd o | .vscancAdd o => o.addOk
  | .vredrMin o | .vredrMax o | .vscanrMin o | .vscanrMax o
  | .vredcMin o | .vredcMax o | .vscancMin o | .vscancMax o => o.minMaxOk
  | .vredrAnd o | .vredrOr o | .vredrXor o | .vscanrAnd o | .vscanrOr o | .vscanrXor o
  | .vredcAnd o | .vredcOr o | .vredcXor o | .vscancAnd o | .vscancOr o | .vscancXor o => o.countOk
  | .viota o => o.rd.ok && maskZ o.mask o.z
  | .vclmul o => maskZ o.mask o.z
  | .vtli o => o.rd.ok && o.ra.srcOf o.rd && maskZ o.mask o.z && o.ty.cls == .f && o.rm.arith
  | .vpack24 o => o.ty.vec && o.rd != o.rb
  | .vldq o => o.rd.ok && maskZ o.mask o.z
  | .vstq o => o.ra.ok
  | _ => true

/-! ## Which core may run a word (09 R111, R112, R115 to R125) -/

/-- A scalar source that the AC accepts: a register (09 R112). -/
def Src.isReg (s : Src) : Bool :=
  match s with
  | .reg _ => true
  | _ => false

def Dst.isReg (d : Dst) : Bool :=
  match d with
  | .reg _ => true
  | _ => false

/-- On the XC any scalar operand; on the AC registers only. -/
def Core.src (k : Core) (s : Src) : Bool := k == .xc || s.isReg
def Core.dst (k : Core) (d : Dst) : Bool := k == .xc || d.isReg

/-- The CSR numbers a core may name (03 R50, 11 R168, 23 R349). -/
def Core.csr (k : Core) (n : Nat) : Bool :=
  n == 0x044 || n == 0x045 || n == 0x046 || n == 0x050 ||
  (match k with
   | .xc => n == 0x040 || n == 0x041
   | .ac => n == 0x042 || (0x080 ≤ n && n ≤ 0x08F))

/-- The queues that QEND and QFLUSH may name on a core (13 R193). -/
def Core.queue (k : Core) (q : QName) : Bool :=
  match k, q with
  | .ac, .lq _ => true
  | .xc, .sq _ => true
  | _, _ => false

/-- The core instructions that a core may run; a word assigned to the other core raises Illegal Instruction
(09 R126). Engine words and events are no core instructions. -/
def Instr.allowedOn (i : Instr) (k : Core) : Bool :=
  match i with
  | .nop _ | .trap _ _ | .eret _ | .br _ _ | .call _ _ | .ret _ | .kloop _ _ | .rdv _ _ | .tdone _ => true
  | .world rd _ | .mbr rd _ _ | .li rd _ _ => k.dst rd
  | .csrr rd n _ => k.dst rd && k.csr n.toNat
  | .csrw ra n _ => k.src ra && k.csr n.toNat
  | .pchk o | .clz o | .ctz o | .popc o => k.dst o.rd && k.src o.ra
  | .add o | .sub o | .and o | .or o | .xor o | .andn o | .orn o | .shl o | .shr o | .sra o | .rol o | .ror o
  | .min o | .max o | .minu o | .maxu o | .seq o | .sne o | .slt o | .sltu o | .mul o | .mulh o | .mulhu o
  | .div o | .divu o | .rem o | .remu o | .clmul o | .clmulh o => k.dst o.rd && k.src o.ra && k.src o.rb
  | .exts o | .extz o => k.dst o.rd && k.src o.ra
  | .bfx o => k.dst o.rd && k.src o.ra && k.src o.rb
  | .bfi o | .sel o => k.dst o.rd && k.src o.ra && k.src o.rb && k.src o.rc
  | .addi o | .andi o | .ori o | .xori o | .slti o | .sltui o | .seqi o | .lihi o => k.dst o.rd && k.src o.ra
  | .shli o | .shri o | .srai o => k.dst o.rd && k.src o.ra
  | .beq o | .bne o | .blt o | .bge o | .bltu o | .bgeu o => k.src o.ra && k.src o.rb
  | .jmp ra _ | .callr ra _ _ => k.src ra
  | .loop t _ _ => (match t with | .pop _ => k == .xc | _ => true)
  | .rnga _ | .rngw _ | .semw _ | .tnow _ => true
  | .rngp o | .rngf o => k.src o.ra
  | .semp o | .semset o => k.src o.ra
  | .semrd o => k.dst o.rd
  | .qend o | .qflush o => k.queue o.q
  | .faddS _ | .fmulS _ | .ffmaS _ | .fminS _ | .fmaxS _ | .fcmpEq _ | .fcmpNe _ | .fcmpLt _ | .fcmpLe _
  | .fcvt _ => k == .xc
  | .vadd _ | .vsub _ | .vmul _ | .vfma _ | .vfms _ | .vmin _ | .vmax _ | .vabs _ | .vneg _ | .vrcp _ | .vrsq _
  | .vnot _ | .vpopc _ | .vclz _ | .vmov _ | .vcvt _ | .vand _ | .vor _ | .vxor _ | .vshl _ | .vshr _ | .vsra _
  | .vcmpEq _ | .vcmpNe _ | .vcmpLt _ | .vcmpLe _ | .vcmpGt _ | .vcmpGe _ | .vsel _ | .vmvx _ | .vmxv _
  | .vrotr _ | .vbcr _ | .vrotc _ | .vbcc _ | .vredrAdd _ | .vredrMin _ | .vredrMax _ | .vredrAnd _ | .vredrOr _
  | .vredrXor _ | .vscanrAdd _ | .vscanrMin _ | .vscanrMax _ | .vscanrAnd _ | .vscanrOr _ | .vscanrXor _
  | .vredcAdd _ | .vredcMin _ | .vredcMax _ | .vredcAnd _ | .vredcOr _ | .vredcXor _ | .vscancAdd _
  | .vscancMin _ | .vscancMax _ | .vscancAnd _ | .vscancOr _ | .vscancXor _ | .vpermr _ | .viota _ | .vclmul _
  | .vtli _ | .vtld _ | .vpack24 _ | .vunpk24 _ | .vldq _ | .vstq _ | .mand _ | .mor _ | .mxor _ | .mnot _
  | .mpopc _ => k == .xc
  | .firnack _ _ | .tlbinv _ | .tlbinvAll _ _ | .seal _ _ _ _ | .halt _ | .lea _ _ _ _ _ | .place _ _ _ _
  | .fadr _ _ _ _ => k == .ac
  | .lds _ | .ldsRow _ | .sts _ | .stsRow _ | .ldn _ | .ldnRow _ | .stn _ | .stnArr _ | .stnRow _ | .stnRowArr _
  | .ldg _ | .ldgRow _ | .stg _ | .stgRow _ | .ldf _ | .ldfRow _ | .stf _ | .stfArr _ | .stfRow _ | .stfRowArr _
  | .ldc _ | .stc _ => k == .ac
  | .aadd _ | .aand _ | .aor _ | .axor _ | .amin _ | .amax _ | .aminu _ | .amaxu _ | .aswap _ | .acas _ => k == .ac
  | .rpost _ | .rwait _ | .rthaw _ | .rstat _ => k == .ac
  | .mcfg _ _ _ | .mcfgs _ | .mgo _ | .mtabCb _ | .mtabPt _ | .mzero _ _ | .mdrain _ | .mdrainQ _ | .mdrainV _
  | .mabort _ _ | .mstat _ _ => k == .ac
  | .ckick _ | .clink _ | .cstage _ _ _ _ | .cabort _ _ => k == .ac
  | .tspawn _ | .tjoin _ | .crjoin _ | .crleave _ | .crbar _ | .crbarAdd _ | .crbarMin _ | .crbarMax _
  | .crbarAnd _ | .crbarOr _ | .crbarXor _ | .pqpush _ | .pqflush _ | .tprio _ => k == .ac
  | _ => false

end Sys2Proof
end

