-- ==== Sys2Proof/Decode.lean ====
section
/-!
DEFINITION. The decoder of core words (09 R104 to R126) and of engine words (09 R128, 19 R275 to R286, R295), total and
rejecting by name; after it the encoder, from the same tables; then the host's decodeTableWord.
-/
namespace Sys2Proof

/-- Why a word is no instruction (09 R126, 19 R291). -/
inductive Reject where
  | opcode        -- an opcode or sub-function that the tables leave unassigned
  | field         -- a nonzero reserved or unused field
  | register      -- a register number outside the classes its field accepts
  | width         -- a reserved width code
  | code          -- a reserved value of a coded field
  | combination   -- a combination that R85, R45, R46 or the instruction reserves
  | engineOpcode  -- an engine word with a reserved operation opcode
  | engineArg     -- an engine word with a reserved argument
  | engineRoutine -- CODEC with a reserved routine number
  deriving DecidableEq, Repr

/-! ## Fields -/

/-- Go on when a condition holds. -/
def need (b : Bool) (r : Reject) : Except Reject Unit :=
  match b with
  | true => .ok ()
  | false => .error r

/-- A reserved field. -/
def zeroF (w lo n : Nat) : Except Reject Unit := need (fld w lo n == 0) .field

/-- A value or the reason that its code is reserved. -/
def orElse' {α : Type} (x : Option α) (r : Reject) : Except Reject α :=
  match x with
  | some a => .ok a
  | none => .error r

def opcodeOf (w : Nat) : Nat := fld w 56 8

/-- The sync field (09 R114). -/
def syncOf (w : Nat) : Except Reject Sync := do
  need (fld w 0 1 == 0) .field
  .ok ⟨bitAt w 8, bitAt w 7, BitVec.ofNat 6 (fld w 1 6)⟩

/-- A scalar source field and its width code (09 R111, R113). -/
def srcOf (n wc : Nat) : Except Reject Src :=
  if n < 64 then (if wc = 0 then .ok (.reg (BitVec.ofNat 6 n)) else .error .width)
  else if 104 ≤ n ∧ n < 108 then
    (if wc = 0 then .ok (.pop (BitVec.ofNat 2 (n - 104)))
     else if wc = 1 then .ok (.peek (BitVec.ofNat 2 (n - 104)))
     else .error .width)
  else .error .register

/-- A scalar destination field and its width code. -/
def dstOf (n wc : Nat) : Except Reject Dst :=
  if n < 64 then (if wc = 0 then .ok (.reg (BitVec.ofNat 6 n)) else .error .width)
  else if 112 ≤ n ∧ n < 114 then (if wc = 0 then .ok (.push (BitVec.ofNat 1 (n - 112))) else .error .width)
  else .error .register

/-- A scalar register. -/
def regOf (n : Nat) : Except Reject (BitVec 6) :=
  if n < 64 then .ok (BitVec.ofNat 6 n) else .error .register

/-- A numbered register of a class that starts at `lo` and holds `2 ^ k` registers, of width code 0. -/
def clsOf (k lo n wc : Nat) : Except Reject (BitVec k) :=
  if lo ≤ n ∧ n < lo + 2 ^ k then (if wc = 0 then .ok (BitVec.ofNat k (n - lo)) else .error .width)
  else .error .register

/-- A width code. -/
def vwOf (c : Nat) : VW :=
  match c with
  | 0 => .x1
  | 1 => .x2
  | 2 => .x4
  | _ => .x8

/-- A vector operand and its width code. -/
def vgOf (n wc : Nat) : Except Reject VG :=
  if 64 ≤ n ∧ n < 96 then .ok ⟨BitVec.ofNat 5 (n - 64), vwOf wc⟩ else .error .register

/-- rc as a mask (09 R109). -/
def maskOf (n : Nat) : Except Reject MaskF :=
  if n = 0 then .ok none
  else if 96 ≤ n ∧ n < 104 then .ok (some (BitVec.ofNat 3 (n - 96)))
  else .error .register

def ordKindOf (n : Nat) : OrdKind :=
  match n with
  | 0 => .plain
  | 1 => .acq
  | 2 => .rel
  | _ => .acqrel

def scopeOf (n : Nat) : Scope :=
  match n with
  | 0 => .cell
  | 1 => .die
  | 2 => .package
  | _ => .fabric

/-- The rounding codes (03 R45). -/
def rmOf (n : Nat) : Option Rm :=
  match n with
  | 0 => some .rne
  | 1 => some .rtz
  | 2 => some .rup
  | 3 => some .rdn
  | 4 => some .sr
  | 5 => some .dyn
  | _ => none

/-- The ET codes (05 R72). -/
def etOf (n : Nat) : Option ET :=
  match n with
  | 0 => some .f32
  | 1 => some .bf16
  | 2 => some .f16
  | 3 => some .e4m3
  | 4 => some .e5m2
  | 5 => some .e2m1
  | 6 => some .i32
  | 7 => some .i8
  | 8 => some .u8
  | 9 => some .i4
  | _ => none

/-- The type codes of FCVT (09 R119). -/
def cvtOf (n : Nat) : Option CvtTy :=
  match n with
  | 10 => some .i64
  | k => (etOf k).map .et

def szOf (n : Nat) : Sz :=
  match n with
  | 0 => .b
  | 1 => .h
  | 2 => .w
  | _ => .d

def hintOf (n : Nat) : Option Hint :=
  match n with
  | 0 => some .none
  | 1 => some .likely
  | 2 => some .unlikely
  | _ => none

def orderOf (n : Nat) : Option OrderMode :=
  match n with
  | 0 => some .arrival
  | 1 => some .ordered
  | 2 => some .pairwise
  | _ => none

/-- A place field; its low four bits are reserved (05 R62). -/
def placeOf (n : Nat) : Except Reject Place := do
  need (fld n 0 4 == 0) .field
  .ok ⟨BitVec.ofNat 1 (fld n 11 1), BitVec.ofNat 3 (fld n 8 3), BitVec.ofNat 4 (fld n 4 4)⟩

/-- The ordering fields of format M (09 R107). -/
def ordM (w : Nat) : OrdF :=
  ⟨BitVec.ofNat 3 (fld w 23 3), BitVec.ofNat 8 (fld w 15 8), ordKindOf (fld w 13 2), scopeOf (fld w 11 2)⟩

/-- The ordering fields of format E (09 R110). -/
def ordE (w : Nat) : OrdF :=
  ⟨BitVec.ofNat 3 (fld w 28 3), BitVec.ofNat 8 (fld w 20 8), ordKindOf (fld w 18 2), scopeOf (fld w 16 2)⟩

def bv (k w lo : Nat) : BitVec k := BitVec.ofNat k (fld w lo k)

/-! ## Operands by format -/

/-- Format A with rd, ra. -/
def parseRR (w : Nat) : Except Reject OpRR := do
  let sy ← syncOf w
  zeroF w 28 14
  zeroF w 9 7
  let rd ← dstOf (fld w 49 7) (fld w 18 2)
  let ra ← srcOf (fld w 42 7) (fld w 16 2)
  .ok ⟨rd, ra, sy⟩

/-- Format A with rd, ra, rb. -/
def parseRRR (w : Nat) : Except Reject OpRRR := do
  let sy ← syncOf w
  zeroF w 28 7
  zeroF w 9 5
  let rd ← dstOf (fld w 49 7) (fld w 18 2)
  let ra ← srcOf (fld w 42 7) (fld w 16 2)
  let rb ← srcOf (fld w 35 7) (fld w 14 2)
  .ok ⟨rd, ra, rb, sy⟩

/-- Format A with rd, ra, rb, rc. -/
def parseRRRR (w : Nat) : Except Reject OpRRRR := do
  let sy ← syncOf w
  zeroF w 9 5
  let rd ← dstOf (fld w 49 7) (fld w 18 2)
  let ra ← srcOf (fld w 42 7) (fld w 16 2)
  let rb ← srcOf (fld w 35 7) (fld w 14 2)
  let rc ← srcOf (fld w 28 7) 0
  .ok ⟨rd, ra, rb, rc, sy⟩

/-- EXTS and EXTZ (09 R117). -/
def parseExt (w : Nat) : Except Reject OpExt := do
  let sy ← syncOf w
  zeroF w 28 14
  zeroF w 11 5
  let rd ← dstOf (fld w 49 7) (fld w 18 2)
  let ra ← srcOf (fld w 42 7) (fld w 16 2)
  let k ← (match fld w 9 2 with
    | 0 => .ok .b
    | 1 => .ok .h
    | 2 => .ok .w
    | _ => .error .code : Except Reject ExtW)
  .ok ⟨rd, ra, k, sy⟩

/-- Format I with rd, ra, imm (09 R106). -/
def parseRI (w : Nat) : Except Reject OpRI := do
  let sy ← syncOf w
  zeroF w 9 1
  let rd ← dstOf (fld w 49 7) 0
  let ra ← srcOf (fld w 42 7) 0
  .ok ⟨rd, ra, bv 32 w 10, sy⟩

def parseSh (w : Nat) : Except Reject OpSh := do
  let sy ← syncOf w
  zeroF w 9 1
  zeroF w 16 26
  let rd ← dstOf (fld w 49 7) 0
  let ra ← srcOf (fld w 42 7) 0
  .ok ⟨rd, ra, bv 6 w 10, sy⟩

/-- Format B with two registers (09 R108). -/
def parseBr (w : Nat) : Except Reject OpBr := do
  zeroF w 0 4
  let h ← orElse' (hintOf (fld w 4 2)) .code
  let ra ← srcOf (fld w 49 7) 0
  let rb ← srcOf (fld w 42 7) 0
  .ok ⟨ra, rb, bv 32 w 10, h⟩

def parseF (w : Nat) : Except Reject OpF := do
  let sy ← syncOf w
  zeroF w 20 15
  zeroF w 9 1
  let rd ← dstOf (fld w 49 7) (fld w 18 2)
  let ra ← srcOf (fld w 42 7) (fld w 16 2)
  let rb ← srcOf (fld w 35 7) (fld w 14 2)
  let rm ← orElse' (rmOf (fld w 11 3)) .code
  .ok ⟨rd, ra, rb, rm, bitAt w 10, sy⟩

def parseF3 (w : Nat) : Except Reject OpF3 := do
  let sy ← syncOf w
  zeroF w 20 8
  zeroF w 9 1
  let rd ← dstOf (fld w 49 7) (fld w 18 2)
  let ra ← srcOf (fld w 42 7) (fld w 16 2)
  let rb ← srcOf (fld w 35 7) (fld w 14 2)
  let rc ← srcOf (fld w 28 7) 0
  let rm ← orElse' (rmOf (fld w 11 3)) .code
  .ok ⟨rd, ra, rb, rc, rm, bitAt w 10, sy⟩

def parseCvt (w : Nat) : Except Reject OpCvt := do
  let sy ← syncOf w
  zeroF w 28 14
  zeroF w 14 2
  zeroF w 9 1
  let rd ← dstOf (fld w 49 7) (fld w 18 2)
  let ra ← srcOf (fld w 42 7) (fld w 16 2)
  let dt ← orElse' (cvtOf (fld w 24 4)) .code
  let st ← orElse' (cvtOf (fld w 20 4)) .code
  let rm ← orElse' (rmOf (fld w 11 3)) .code
  .ok ⟨rd, ra, dt, st, rm, bitAt w 10, sy⟩

/-- The data register of a scalar load (13 R177). -/
def ldDstOf (n : Nat) : Except Reject LdDst :=
  if n < 64 then .ok (.reg (BitVec.ofNat 6 n))
  else if 104 ≤ n ∧ n < 108 then .ok (.lq (BitVec.ofNat 2 (n - 104)))
  else .error .register

/-- The data register of a scalar store (13 R177). -/
def stSrcOf (n : Nat) : Except Reject StSrc :=
  if n < 64 then .ok (.reg (BitVec.ofNat 6 n))
  else if 112 ≤ n ∧ n < 114 then .ok (.sq (BitVec.ofNat 1 (n - 112)))
  else .error .register

def parseLd (uns : Bool) (w : Nat) : Except Reject OpLd := do
  let sy ← syncOf w
  let d ← ldDstOf (fld w 49 7)
  let b ← regOf (fld w 42 7)
  .ok ⟨d, b, bv 16 w 26, szOf (fld w 9 2), uns, ordM w, sy⟩

def parseLdN (uns : Bool) (w : Nat) : Except Reject OpLdN := do
  let sy ← syncOf w
  let d ← ldDstOf (fld w 49 7)
  let b ← regOf (fld w 42 7)
  let p ← placeOf (fld w 30 12)
  .ok ⟨d, b, p, bv 4 w 26, szOf (fld w 9 2), uns, ordM w, sy⟩

def parseLdRow (w : Nat) : Except Reject OpLdRow := do
  let sy ← syncOf w
  zeroF w 9 2
  let q ← clsOf 2 108 (fld w 49 7) 0
  let b ← regOf (fld w 42 7)
  .ok ⟨q, b, bv 16 w 26, ordM w, sy⟩

def parseLdRowN (w : Nat) : Except Reject OpLdRowN := do
  let sy ← syncOf w
  zeroF w 9 2
  let q ← clsOf 2 108 (fld w 49 7) 0
  let b ← regOf (fld w 42 7)
  let p ← placeOf (fld w 30 12)
  .ok ⟨q, b, p, bv 4 w 26, ordM w, sy⟩

def parseSt (w : Nat) : Except Reject OpSt := do
  let sy ← syncOf w
  let d ← stSrcOf (fld w 49 7)
  let b ← regOf (fld w 42 7)
  .ok ⟨d, b, bv 16 w 26, szOf (fld w 9 2), ordM w, sy⟩

def parseStN (w : Nat) : Except Reject OpStN := do
  let sy ← syncOf w
  let d ← stSrcOf (fld w 49 7)
  let b ← regOf (fld w 42 7)
  let p ← placeOf (fld w 30 12)
  .ok ⟨d, b, p, bv 4 w 26, szOf (fld w 9 2), ordM w, sy⟩

def parseStRow (w : Nat) : Except Reject OpStRow := do
  let sy ← syncOf w
  zeroF w 9 2
  let q ← clsOf 1 114 (fld w 49 7) 0
  let b ← regOf (fld w 42 7)
  .ok ⟨q, b, bv 16 w 26, ordM w, sy⟩

def parseStRowN (w : Nat) : Except Reject OpStRowN := do
  let sy ← syncOf w
  zeroF w 9 2
  let q ← clsOf 1 114 (fld w 49 7) 0
  let b ← regOf (fld w 42 7)
  let p ← placeOf (fld w 30 12)
  .ok ⟨q, b, p, bv 4 w 26, ordM w, sy⟩

def parseLdc (w : Nat) : Except Reject OpLdc := do
  let sy ← syncOf w
  need (bitAt w 10) .code
  let d ← ldDstOf (fld w 49 7)
  let b ← regOf (fld w 42 7)
  .ok ⟨d, b, bv 16 w 26, bitAt w 9, ordM w, sy⟩

def parseStc (w : Nat) : Except Reject OpStc := do
  let sy ← syncOf w
  need (bitAt w 10) .code
  let d ← stSrcOf (fld w 49 7)
  let b ← regOf (fld w 42 7)
  .ok ⟨d, b, bv 16 w 26, bitAt w 9, ordM w, sy⟩

def spaceOf (n : Nat) : Option Space :=
  match n with
  | 0 => some .s
  | 1 => some .n
  | 2 => some .g
  | 3 => some .f
  | 4 => some .c
  | _ => none

/-- The atomic variant of format M (09 R107). -/
def parseAt (w : Nat) : Except Reject OpAt := do
  let sy ← syncOf w
  zeroF w 26 5
  need (bitAt w 10) .code
  let d ← regOf (fld w 49 7)
  let b ← regOf (fld w 42 7)
  let rb ← regOf (fld w 35 7)
  let sp ← orElse' (spaceOf (fld w 32 3)) .code
  .ok ⟨d, b, rb, sp, bitAt w 9, bitAt w 31, ordM w, sy⟩

/-- Which fields of format E an instruction leaves at zero: rd, ra, rb, sub, the ordering fields, imm (09 R110). -/
def zeroE (w : Nat) (rd ra rb sub f imm : Bool) : Except Reject Unit := do
  need (rd || fld w 49 7 == 0) .field
  need (ra || fld w 42 7 == 0) .field
  need (rb || fld w 35 7 == 0) .field
  need (sub || fld w 31 4 == 0) .field
  need (f || fld w 16 15 == 0) .field
  need (imm || fld w 9 7 == 0) .field

/-- An immediate of format E that must lie below `2 ^ k`. -/
def immE (k w : Nat) : Except Reject (BitVec k) :=
  if fld w 9 7 < 2 ^ k then .ok (BitVec.ofNat k (fld w 9 7)) else .error .code

def parseE1 (w : Nat) : Except Reject OpE1 := do
  let sy ← syncOf w
  zeroE w false true false false true false
  let ra ← regOf (fld w 42 7)
  .ok ⟨ra, ordE w, sy⟩

def parseRime (w : Nat) : Except Reject OpRime := do
  let sy ← syncOf w
  zeroE w false true false false true false
  let ra ← regOf (fld w 42 7)
  .ok ⟨ra, ordE w, sy⟩

def parseRngT (w : Nat) : Except Reject OpRngT := do
  let sy ← syncOf w
  zeroE w true false false false true true
  let rd ← regOf (fld w 49 7)
  let k ← immE 4 w
  .ok ⟨rd, k, ordE w, sy⟩

def parseRngG (w : Nat) : Except Reject OpRngG := do
  let sy ← syncOf w
  zeroE w false true false true true true
  need (fld w 32 3 == 0) .code
  let ra ← srcOf (fld w 42 7) 0
  let k ← immE 4 w
  .ok ⟨ra, k, bitAt w 31, ordE w, sy⟩

def parseSemp (w : Nat) : Except Reject OpSemp := do
  let sy ← syncOf w
  zeroE w false true false false true true
  let ra ← srcOf (fld w 42 7) 0
  let k ← immE 6 w
  .ok ⟨ra, k, ordE w, sy⟩

def parseQ (w : Nat) : Except Reject OpQ := do
  let sy ← syncOf w
  zeroE w false true false false true false
  let q ← (if 104 ≤ fld w 42 7 ∧ fld w 42 7 < 112 then .ok (.lq (BitVec.ofNat 3 (fld w 42 7 - 104)))
    else if 112 ≤ fld w 42 7 ∧ fld w 42 7 < 116 then .ok (.sq (BitVec.ofNat 2 (fld w 42 7 - 112)))
    else .error .register : Except Reject QName)
  .ok ⟨q, ordE w, sy⟩

def parseMgo (w : Nat) : Except Reject OpMgo := do
  let sy ← syncOf w
  zeroE w false false false true true true
  need (fld w 31 1 == 0) .field
  let lag ← immE 5 w
  .ok ⟨bitAt w 34, orderOf (fld w 32 2), lag, ordE w, sy⟩

def parseMtab (w : Nat) : Except Reject OpMtab := do
  let sy ← syncOf w
  zeroE w false true false true true true
  let ra ← regOf (fld w 42 7)
  let k ← immE 4 w
  .ok ⟨ra, k, ordE w, sy⟩

/-- MDRAIN's type and conversion fields (09 R123). -/
def parseDrain (w : Nat) : Except Reject (ET × Rm × Bool × BitVec 6) := do
  zeroF w 39 3
  let t ← orElse' (etOf (fld w 31 4)) .code
  let rm ← orElse' (rmOf (fld w 35 3)) .code
  let k ← immE 6 w
  .ok (t, rm, bitAt w 38, k)

def parseKick (w : Nat) : Except Reject OpKick := do
  let sy ← syncOf w
  zeroE w false true false false true true
  let ra ← regOf (fld w 42 7)
  let e ← immE 1 w
  .ok ⟨e, ra, ordE w, sy⟩

def parseCrbar (w : Nat) : Except Reject OpCrbar := do
  let sy ← syncOf w
  zeroE w true true true true true false
  let rd ← regOf (fld w 49 7)
  let ra ← regOf (fld w 42 7)
  let rb ← regOf (fld w 35 7)
  .ok ⟨rd, ra, rb, ordE w, sy⟩

def parsePq (w : Nat) : Except Reject OpPq := do
  let sy ← syncOf w
  zeroE w false true false false true true
  let ra ← regOf (fld w 42 7)
  let k ← immE 4 w
  .ok ⟨k, ra, ordE w, sy⟩

/-! ## Operands of format V (09 R109, R125) -/

/-- The mask, type, rounding, saturation, Z and sync fields. -/
structure VTail where
  mask : MaskF
  ty : ET
  rm : Rm
  s : Bool
  z : Bool
  sy : Sync
  deriving DecidableEq, Repr

def parseVTail (w : Nat) : Except Reject VTail := do
  let sy ← syncOf w
  let m ← maskOf (fld w 28 7)
  let t ← orElse' (etOf (fld w 14 4)) .code
  let rm ← orElse' (rmOf (fld w 11 3)) .code
  .ok ⟨m, t, rm, bitAt w 10, bitAt w 9, sy⟩

/-- An untyped word: type, RM and S zero. -/
def untyped (w : Nat) : Except Reject Unit := zeroF w 10 8

/-- A word with a type whose RM and S are unused. -/
def noRound (w : Nat) : Except Reject Unit := zeroF w 10 4

def parseVArith (w : Nat) : Except Reject VArith := do
  let t ← parseVTail w
  let rd ← vgOf (fld w 49 7) (fld w 22 2)
  let ra ← vgOf (fld w 42 7) (fld w 20 2)
  let rb ← vgOf (fld w 35 7) (fld w 18 2)
  .ok ⟨rd, ra, rb, t.mask, t.ty, t.rm, t.s, t.z, t.sy⟩

def parseVUnary (w : Nat) : Except Reject VUnary := do
  let t ← parseVTail w
  zeroF w 35 7
  zeroF w 18 2
  let rd ← vgOf (fld w 49 7) (fld w 22 2)
  let ra ← vgOf (fld w 42 7) (fld w 20 2)
  .ok ⟨rd, ra, t.mask, t.ty, t.rm, t.s, t.z, t.sy⟩

def parseVBit (w : Nat) : Except Reject VBit := do
  let t ← parseVTail w
  untyped w
  let rd ← vgOf (fld w 49 7) (fld w 22 2)
  let ra ← vgOf (fld w 42 7) (fld w 20 2)
  let rb ← vgOf (fld w 35 7) (fld w 18 2)
  .ok ⟨rd, ra, rb, t.mask, t.z, t.sy⟩

def parseVMove (w : Nat) : Except Reject VMove := do
  let t ← parseVTail w
  untyped w
  zeroF w 35 7
  zeroF w 18 2
  let rd ← vgOf (fld w 49 7) (fld w 22 2)
  let ra ← vgOf (fld w 42 7) (fld w 20 2)
  .ok ⟨rd, ra, t.mask, t.z, t.sy⟩

def parseVCvt (w : Nat) : Except Reject VCvtOp := do
  let sy ← syncOf w
  zeroF w 32 10
  zeroF w 18 2
  zeroF w 9 1
  let rd ← vgOf (fld w 49 7) (fld w 22 2)
  let ra ← vgOf (fld w 42 7) (fld w 20 2)
  let dt ← orElse' (etOf (fld w 14 4)) .code
  let st ← orElse' (etOf (fld w 28 4)) .code
  let rm ← orElse' (rmOf (fld w 11 3)) .code
  .ok ⟨rd, ra, dt, st, rm, bitAt w 10, sy⟩

def parseVCmp (w : Nat) : Except Reject VCmpOp := do
  let t ← parseVTail w
  noRound w
  let rd ← clsOf 3 96 (fld w 49 7) (fld w 22 2)
  let ra ← clsOf 5 64 (fld w 42 7) (fld w 20 2)
  let rb ← clsOf 5 64 (fld w 35 7) (fld w 18 2)
  .ok ⟨rd, ra, rb, t.mask, t.ty, t.z, t.sy⟩

def parseVSel (w : Nat) : Except Reject VSelOp := do
  let t ← parseVTail w
  untyped w
  zeroF w 9 1
  let rd ← vgOf (fld w 49 7) (fld w 22 2)
  let ra ← vgOf (fld w 42 7) (fld w 20 2)
  let rb ← vgOf (fld w 35 7) (fld w 18 2)
  let m ← orElse' t.mask .register
  .ok ⟨rd, ra, rb, m, t.sy⟩

def parseVMvx (w : Nat) : Except Reject VMvxOp := do
  let t ← parseVTail w
  noRound w
  zeroF w 28 7
  zeroF w 9 1
  let rd ← dstOf (fld w 49 7) (fld w 22 2)
  let ra ← clsOf 5 64 (fld w 42 7) (fld w 20 2)
  let rb ← srcOf (fld w 35 7) (fld w 18 2)
  .ok ⟨rd, ra, rb, t.ty, t.sy⟩

def parseVMxv (w : Nat) : Except Reject VMxvOp := do
  let t ← parseVTail w
  noRound w
  zeroF w 35 7
  zeroF w 18 2
  let rd ← vgOf (fld w 49 7) (fld w 22 2)
  let ra ← srcOf (fld w 42 7) (fld w 20 2)
  .ok ⟨rd, ra, t.mask, t.ty, t.z, t.sy⟩

def parseVRot (w : Nat) : Except Reject VRotOp := do
  let t ← parseVTail w
  untyped w
  let rd ← vgOf (fld w 49 7) (fld w 22 2)
  let ra ← vgOf (fld w 42 7) (fld w 20 2)
  let rb ← srcOf (fld w 35 7) (fld w 18 2)
  .ok ⟨rd, ra, rb, t.mask, t.z, t.sy⟩

def parseVIota (w : Nat) : Except Reject VIotaOp := do
  let t ← parseVTail w
  noRound w
  zeroF w 35 7
  zeroF w 18 4
  need (t.ty == .i32) .code
  let rd ← vgOf (fld w 49 7) (fld w 22 2)
  let ra ← maskOf (fld w 42 7)
  .ok ⟨rd, ra, t.mask, t.z, t.sy⟩

def parseVClmul (w : Nat) : Except Reject VClmulOp := do
  let t ← parseVTail w
  noRound w
  need (t.ty == .i32) .code
  need (fld w 22 2 == 1) .width
  need (64 ≤ fld w 49 7 && fld w 49 7 < 96 && fld w 49 1 == 0) .register
  let ra ← clsOf 5 64 (fld w 42 7) (fld w 20 2)
  let rb ← clsOf 5 64 (fld w 35 7) (fld w 18 2)
  .ok ⟨BitVec.ofNat 4 (fld w 50 4), ra, rb, t.mask, t.z, t.sy⟩

def parseVTli (w : Nat) : Except Reject VTliOp := do
  let t ← parseVTail w
  let rd ← vgOf (fld w 49 7) (fld w 22 2)
  let ra ← vgOf (fld w 42 7) (fld w 20 2)
  let tb ← clsOf 2 116 (fld w 35 7) (fld w 18 2)
  .ok ⟨rd, ra, tb, t.mask, t.ty, t.rm, t.s, t.z, t.sy⟩

def parseVTld (w : Nat) : Except Reject VTldOp := do
  let sy ← syncOf w
  zeroF w 28 14
  zeroF w 9 11
  let tb ← clsOf 2 116 (fld w 49 7) (fld w 22 2)
  let q ← clsOf 2 108 (fld w 42 7) (fld w 20 2)
  .ok ⟨tb, q, sy⟩

def parseVPack (w : Nat) : Except Reject VPackOp := do
  let t ← parseVTail w
  noRound w
  zeroF w 28 7
  zeroF w 9 1
  let rd ← clsOf 5 64 (fld w 49 7) (fld w 22 2)
  let ra ← clsOf 5 64 (fld w 42 7) (fld w 20 2)
  let rb ← clsOf 5 64 (fld w 35 7) (fld w 18 2)
  .ok ⟨rd, rb, ra, t.ty, t.sy⟩

def parseVUnpk (w : Nat) : Except Reject VUnpkOp := do
  let sy ← syncOf w
  zeroF w 28 7
  zeroF w 9 9
  let rd ← clsOf 5 64 (fld w 49 7) (fld w 22 2)
  let ra ← clsOf 5 64 (fld w 42 7) (fld w 20 2)
  let rb ← clsOf 5 64 (fld w 35 7) (fld w 18 2)
  .ok ⟨rd, ra, rb, sy⟩

def parseVLdq (w : Nat) : Except Reject VLdqOp := do
  let t ← parseVTail w
  untyped w
  zeroF w 35 7
  zeroF w 18 2
  let rd ← vgOf (fld w 49 7) (fld w 22 2)
  let q ← clsOf 2 108 (fld w 42 7) (fld w 20 2)
  .ok ⟨rd, q, t.mask, t.z, t.sy⟩

def parseVStq (w : Nat) : Except Reject VStqOp := do
  let sy ← syncOf w
  zeroF w 28 14
  zeroF w 9 11
  let q ← clsOf 1 114 (fld w 49 7) (fld w 22 2)
  let ra ← vgOf (fld w 42 7) (fld w 20 2)
  .ok ⟨q, ra, sy⟩

/-- Mask operations (15 R231): every field but rd, ra, rb, funct and sync is zero. -/
def parseMask2 (w : Nat) : Except Reject MaskOp2 := do
  let sy ← syncOf w
  zeroF w 28 7
  zeroF w 9 9
  let rd ← clsOf 3 96 (fld w 49 7) (fld w 22 2)
  let ra ← clsOf 3 96 (fld w 42 7) (fld w 20 2)
  let rb ← clsOf 3 96 (fld w 35 7) (fld w 18 2)
  .ok ⟨rd, ra, rb, sy⟩

def parseMask1 (w : Nat) : Except Reject MaskOp1 := do
  let sy ← syncOf w
  zeroF w 28 14
  zeroF w 9 11
  let rd ← clsOf 3 96 (fld w 49 7) (fld w 22 2)
  let ra ← clsOf 3 96 (fld w 42 7) (fld w 20 2)
  .ok ⟨rd, ra, sy⟩

def parseMaskPop (w : Nat) : Except Reject MaskPop := do
  let sy ← syncOf w
  zeroF w 28 14
  zeroF w 9 11
  let rd ← dstOf (fld w 49 7) (fld w 22 2)
  let ra ← clsOf 3 96 (fld w 42 7) (fld w 20 2)
  .ok ⟨rd, ra, sy⟩

/-! ## The opcode tables -/

/-- Opcode 0x10 (09 R117). -/
def decode10 (w : Nat) : Except Reject Instr :=
  match fld w 20 8 with
  | 0 => .add <$> parseRRR w
  | 1 => .sub <$> parseRRR w
  | 2 => .and <$> parseRRR w
  | 3 => .or <$> parseRRR w
  | 4 => .xor <$> parseRRR w
  | 5 => .andn <$> parseRRR w
  | 6 => .orn <$> parseRRR w
  | 7 => .shl <$> parseRRR w
  | 8 => .shr <$> parseRRR w
  | 9 => .sra <$> parseRRR w
  | 10 => .rol <$> parseRRR w
  | 11 => .ror <$> parseRRR w
  | 12 => .min <$> parseRRR w
  | 13 => .max <$> parseRRR w
  | 14 => .minu <$> parseRRR w
  | 15 => .maxu <$> parseRRR w
  | 16 => .seq <$> parseRRR w
  | 17 => .sne <$> parseRRR w
  | 18 => .slt <$> parseRRR w
  | 19 => .sltu <$> parseRRR w
  | _ => .error .opcode

/-- Opcode 0x11. -/
def decode11 (w : Nat) : Except Reject Instr :=
  match fld w 20 8 with
  | 0 => .mul <$> parseRRR w
  | 1 => .mulh <$> parseRRR w
  | 2 => .mulhu <$> parseRRR w
  | 3 => .div <$> parseRRR w
  | 4 => .divu <$> parseRRR w
  | 5 => .rem <$> parseRRR w
  | 6 => .remu <$> parseRRR w
  | 7 => .clmul <$> parseRRR w
  | 8 => .clmulh <$> parseRRR w
  | _ => .error .opcode

/-- Opcode 0x12. -/
def decode12 (w : Nat) : Except Reject Instr :=
  match fld w 20 8 with
  | 0 => .clz <$> parseRR w
  | 1 => .ctz <$> parseRR w
  | 2 => .popc <$> parseRR w
  | 3 => .exts <$> parseExt w
  | 4 => .extz <$> parseExt w
  | 5 => .bfx <$> parseRRR w
  | 6 => .bfi <$> parseRRRR w
  | 7 => .sel <$> parseRRRR w
  | _ => .error .opcode

/-- Opcodes 0x01 to 0x0F (09 R116). -/
def decodeSys (w : Nat) : Except Reject Instr :=
  match opcodeOf w with
  | 0x01 => do
    zeroF w 9 47
    .nop <$> syncOf w
  | 0x02 => do
    zeroF w 42 14
    zeroF w 26 16
    zeroF w 9 1
    .trap (bv 16 w 10) <$> syncOf w
  | 0x03 => do
    zeroF w 9 47
    .eret <$> syncOf w
  | 0x04 => do
    zeroE w false true false false false false
    let ra ← regOf (fld w 42 7)
    .firnack ra <$> syncOf w
  | 0x05 => do
    zeroE w false true false true true false
    match fld w 31 4 with
    | 0 => do
      let sy ← syncOf w
      let ra ← regOf (fld w 42 7)
      .ok (.tlbinv ⟨ra, ordE w, sy⟩)
    | 1 => do
      zeroF w 42 7
      .tlbinvAll (ordE w) <$> syncOf w
    | _ => .error .code
  | 0x06 => do
    zeroE w false true true false true false
    let ra ← regOf (fld w 42 7)
    let rb ← regOf (fld w 35 7)
    .seal ra rb (ordE w) <$> syncOf w
  | 0x07 => do
    zeroE w true false false false false false
    let rd ← dstOf (fld w 49 7) 0
    .world rd <$> syncOf w
  | 0x08 => do
    zeroF w 9 47
    .halt <$> syncOf w
  | 0x09 => do
    zeroF w 42 7
    zeroF w 22 20
    zeroF w 9 1
    let rd ← dstOf (fld w 49 7) 0
    .csrr rd (bv 12 w 10) <$> syncOf w
  | 0x0A => do
    zeroF w 49 7
    zeroF w 22 20
    zeroF w 9 1
    let ra ← srcOf (fld w 42 7) 0
    .csrw ra (bv 12 w 10) <$> syncOf w
  | 0x0B => do
    zeroF w 42 7
    zeroF w 13 29
    zeroF w 9 1
    let rd ← dstOf (fld w 49 7) 0
    .mbr rd (bv 3 w 10) <$> syncOf w
  | 0x0C => do
    zeroF w 20 8
    .pchk <$> parseRR w
  | _ => .error .opcode

/-- Opcodes 0x10 to 0x3F (09 R117). -/
def decodeInt (w : Nat) : Except Reject Instr :=
  match opcodeOf w with
  | 0x10 => decode10 w
  | 0x11 => decode11 w
  | 0x12 => decode12 w
  | 0x18 => .addi <$> parseRI w
  | 0x19 => .andi <$> parseRI w
  | 0x1A => .ori <$> parseRI w
  | 0x1B => .xori <$> parseRI w
  | 0x1C => .shli <$> parseSh w
  | 0x1D => .shri <$> parseSh w
  | 0x1E => .srai <$> parseSh w
  | 0x1F => .slti <$> parseRI w
  | 0x20 => .sltui <$> parseRI w
  | 0x21 => .seqi <$> parseRI w
  | 0x22 => do
    zeroF w 42 7
    zeroF w 9 1
    let rd ← dstOf (fld w 49 7) 0
    .li rd (bv 32 w 10) <$> syncOf w
  | 0x23 => .lihi <$> parseRI w
  | 0x24 => do
    zeroF w 11 24
    let rd ← regOf (fld w 49 7)
    let ra ← regOf (fld w 42 7)
    let rb ← regOf (fld w 35 7)
    .lea rd ra rb (bv 2 w 9) <$> syncOf w
  | 0x25 => do
    zeroF w 22 20
    zeroF w 9 1
    let rd ← regOf (fld w 49 7)
    let ra ← regOf (fld w 42 7)
    let p ← placeOf (fld w 10 12)
    .place rd ra p <$> syncOf w
  | 0x26 => do
    zeroF w 20 22
    zeroF w 9 1
    let rd ← regOf (fld w 49 7)
    let ra ← regOf (fld w 42 7)
    .fadr rd ra (bv 10 w 10) <$> syncOf w
  | _ => .error .opcode

/-- Opcode 0x40 by condition (09 R118). -/
def decodeBr (w : Nat) : Except Reject Instr :=
  match fld w 6 4 with
  | 0 => do
    zeroF w 42 14
    zeroF w 0 4
    let h ← orElse' (hintOf (fld w 4 2)) .code
    .ok (.br (bv 32 w 10) h)
  | 1 => .beq <$> parseBr w
  | 2 => .bne <$> parseBr w
  | 3 => .blt <$> parseBr w
  | 4 => .bge <$> parseBr w
  | 5 => .bltu <$> parseBr w
  | 6 => .bgeu <$> parseBr w
  | _ => .error .opcode

/-- LOOP's trip operand (09 R118). -/
def tripOf (n : Nat) : Except Reject Trip :=
  if n < 64 then .ok (.reg (BitVec.ofNat 6 n))
  else if 104 ≤ n ∧ n < 108 then .ok (.pop (BitVec.ofNat 2 (n - 104)))
  else if 120 ≤ n ∧ n < 128 then .ok (.mbox (BitVec.ofNat 3 (n - 120)))
  else .error .register

/-- Opcodes 0x40 to 0x4F (09 R118). -/
def decodeFlow (w : Nat) : Except Reject Instr :=
  match opcodeOf w with
  | 0x40 => decodeBr w
  | 0x41 => do
    zeroF w 49 7
    zeroF w 18 24
    zeroF w 9 7
    let ra ← srcOf (fld w 42 7) (fld w 16 2)
    .jmp ra <$> syncOf w
  | 0x42 => do
    zeroF w 42 14
    zeroF w 8 2
    zeroF w 0 6
    .ok (.call (bv 32 w 10) (bv 2 w 6))
  | 0x43 => do
    zeroF w 49 7
    zeroF w 18 24
    zeroF w 11 5
    let ra ← srcOf (fld w 42 7) (fld w 16 2)
    .callr ra (bv 2 w 9) <$> syncOf w
  | 0x44 => do
    zeroF w 9 47
    .ret <$> syncOf w
  | 0x45 => do
    zeroF w 49 7
    zeroF w 9 1
    let t ← tripOf (fld w 42 7)
    .loop t (bv 32 w 10) <$> syncOf w
  | 0x46 => do
    zeroF w 13 43
    zeroF w 9 1
    .kloop (bv 3 w 10) <$> syncOf w
  | 0x47 => do
    zeroF w 18 38
    zeroF w 9 1
    .rdv (bv 8 w 10) <$> syncOf w
  | 0x48 => do
    zeroF w 9 47
    .tdone <$> syncOf w
  | _ => .error .opcode

/-- FCMP by funct (09 R119); RM and S are zero. -/
def decodeFcmp (w : Nat) : Except Reject Instr :=
  match fld w 20 8 with
  | 0 => .fcmpEq <$> parseRRR w
  | 1 => .fcmpNe <$> parseRRR w
  | 2 => .fcmpLt <$> parseRRR w
  | 3 => .fcmpLe <$> parseRRR w
  | _ => .error .opcode

/-- Opcodes 0x50 to 0x5F (09 R119). -/
def decodeFp (w : Nat) : Except Reject Instr :=
  match opcodeOf w with
  | 0x50 => .faddS <$> parseF w
  | 0x51 => .fmulS <$> parseF w
  | 0x52 => .ffmaS <$> parseF3 w
  | 0x53 => do
    zeroF w 20 8
    .fminS <$> parseRRR w
  | 0x54 => do
    zeroF w 20 8
    .fmaxS <$> parseRRR w
  | 0x55 => decodeFcmp w
  | 0x56 => .fcvt <$> parseCvt w
  | _ => .error .opcode

/-- Opcodes 0x60 to 0x7F (09 R120). -/
def decodeMem (w : Nat) : Except Reject Instr :=
  match opcodeOf w with
  | 0x60 => .lds <$> parseLd false w
  | 0x61 => .lds <$> parseLd true w
  | 0x62 => .sts <$> parseSt w
  | 0x64 => .ldsRow <$> parseLdRow w
  | 0x65 => .stsRow <$> parseStRow w
  | 0x68 => .ldn <$> parseLdN false w
  | 0x69 => .ldn <$> parseLdN true w
  | 0x6a => .stn <$> parseStN w
  | 0x6b => .stnArr <$> parseStN w
  | 0x6c => .ldnRow <$> parseLdRowN w
  | 0x6d => .stnRow <$> parseStRowN w
  | 0x6e => .stnRowArr <$> parseStRowN w
  | 0x70 => .ldg <$> parseLd false w
  | 0x71 => .ldg <$> parseLd true w
  | 0x72 => .stg <$> parseSt w
  | 0x74 => .ldgRow <$> parseLdRow w
  | 0x75 => .stgRow <$> parseStRow w
  | 0x78 => .ldf <$> parseLd false w
  | 0x79 => .ldf <$> parseLd true w
  | 0x7a => .stf <$> parseSt w
  | 0x7b => .stfArr <$> parseSt w
  | 0x7c => .ldfRow <$> parseLdRow w
  | 0x7d => .stfRow <$> parseStRow w
  | 0x7e => .stfRowArr <$> parseStRow w
  | _ => .error .opcode

/-- Opcodes 0x80 to 0x8F (09 R121). -/
def decodeAt (w : Nat) : Except Reject Instr :=
  match opcodeOf w with
  | 0x80 => .aadd <$> parseAt w
  | 0x81 => .aand <$> parseAt w
  | 0x82 => .aor <$> parseAt w
  | 0x83 => .axor <$> parseAt w
  | 0x84 => .amin <$> parseAt w
  | 0x85 => .amax <$> parseAt w
  | 0x86 => .aminu <$> parseAt w
  | 0x87 => .amaxu <$> parseAt w
  | 0x88 => .aswap <$> parseAt w
  | 0x89 => .acas <$> parseAt w
  | _ => .error .opcode

/-- Opcodes 0x90 to 0x9F (09 R122). -/
def decodeRime (w : Nat) : Except Reject Instr :=
  match opcodeOf w with
  | 0x90 => do
    let sy ← syncOf w
    zeroE w false true true false true false
    let ra ← regOf (fld w 42 7)
    let rb ← regOf (fld w 35 7)
    .ok (.rpost ⟨ra, rb, ordE w, sy⟩)
  | 0x91 => .rwait <$> parseRime w
  | 0x92 => .rthaw <$> parseRime w
  | 0x93 => do
    let sy ← syncOf w
    zeroE w true true false false true false
    let rd ← regOf (fld w 49 7)
    let ra ← regOf (fld w 42 7)
    .ok (.rstat ⟨rd, ra, ordE w, sy⟩)
  | 0x94 => .rnga <$> parseRngT w
  | 0x95 => .rngp <$> parseRngG w
  | 0x96 => .rngw <$> parseRngT w
  | 0x97 => .rngf <$> parseRngG w
  | 0x98 => do
    let sy ← syncOf w
    zeroE w false false false false true true
    let k ← immE 6 w
    .ok (.semw ⟨k, ordE w, sy⟩)
  | 0x99 => .semp <$> parseSemp w
  | 0x9A => .semset <$> parseSemp w
  | 0x9B => do
    let sy ← syncOf w
    zeroE w true false false false true true
    let rd ← dstOf (fld w 49 7) 0
    let k ← immE 6 w
    .ok (.semrd ⟨rd, k, ordE w, sy⟩)
  | 0x9C => .qend <$> parseQ w
  | 0x9D => .qflush <$> parseQ w
  | 0x9E => .ldc <$> parseLdc w
  | 0x9F => .stc <$> parseStc w
  | _ => .error .opcode

/-- MDRAIN by its rd (09 R123, 17 R265). -/
def decodeDrain (w : Nat) : Except Reject Instr := do
  let sy ← syncOf w
  let (t, rm, s, k) ← parseDrain w
  let rd := fld w 49 7
  if rd = 0 then do
    let ra ← regOf (fld w 42 7)
    .ok (.mdrain ⟨ra, t, rm, s, k, ordE w, sy⟩)
  else if 108 ≤ rd ∧ rd < 112 then do
    zeroF w 42 7
    .ok (.mdrainQ ⟨BitVec.ofNat 2 (rd - 108), t, rm, s, k, ordE w, sy⟩)
  else if 64 ≤ rd ∧ rd < 96 ∧ rd % 4 = 0 then do
    zeroF w 42 7
    .ok (.mdrainV ⟨BitVec.ofNat 3 ((rd - 64) / 4), t, rm, s, k, ordE w, sy⟩)
  else .error .register

/-- Opcodes 0xA0 to 0xAF (09 R123). -/
def decodeEng (w : Nat) : Except Reject Instr :=
  match opcodeOf w with
  | 0xA0 => do
    let sy ← syncOf w
    zeroE w false true false false false true
    let ra ← regOf (fld w 42 7)
    let k ← immE 5 w
    .ok (.mcfg k ra sy)
  | 0xA1 => .mcfgs <$> parseE1 w
  | 0xA2 => .mgo <$> parseMgo w
  | 0xA3 =>
    match fld w 31 4 with
    | 0 => .mtabCb <$> parseMtab w
    | 1 => .mtabPt <$> parseMtab w
    | _ => .error .code
  | 0xA4 => do
    let sy ← syncOf w
    zeroE w false false false false false true
    let k ← immE 6 w
    .ok (.mzero k sy)
  | 0xA5 => decodeDrain w
  | 0xA6 => do
    let sy ← syncOf w
    zeroE w false false false true false false
    zeroF w 31 3
    .ok (.mabort (bitAt w 34) sy)
  | 0xA7 => do
    let sy ← syncOf w
    zeroE w true false false false false false
    let rd ← regOf (fld w 49 7)
    .ok (.mstat rd sy)
  | 0xA8 => .ckick <$> parseKick w
  | 0xA9 => .clink <$> parseKick w
  | 0xAA => do
    let sy ← syncOf w
    zeroE w false true true false false true
    let ra ← regOf (fld w 42 7)
    let rb ← regOf (fld w 35 7)
    let e ← immE 1 w
    .ok (.cstage e ra rb sy)
  | 0xAB => do
    let sy ← syncOf w
    zeroE w false false false false false true
    let e ← immE 1 w
    .ok (.cabort e sy)
  | _ => .error .opcode

/-- CRBAR by sub (21 R315). -/
def decodeCrbar (w : Nat) : Except Reject Instr :=
  match fld w 31 4 with
  | 0 => .crbar <$> parseE1 w
  | 1 => .crbarAdd <$> parseCrbar w
  | 2 => .crbarMin <$> parseCrbar w
  | 3 => .crbarMax <$> parseCrbar w
  | 4 => .crbarAnd <$> parseCrbar w
  | 5 => .crbarOr <$> parseCrbar w
  | 6 => .crbarXor <$> parseCrbar w
  | _ => .error .code

/-- Opcodes 0xB0 to 0xBF (09 R124). -/
def decodeTask (w : Nat) : Except Reject Instr :=
  match opcodeOf w with
  | 0xB0 => .tspawn <$> parseE1 w
  | 0xB1 => .tjoin <$> parseE1 w
  | 0xB2 => .crjoin <$> parseE1 w
  | 0xB3 => .crleave <$> parseE1 w
  | 0xB4 => decodeCrbar w
  | 0xB5 => .pqpush <$> parsePq w
  | 0xB6 => .pqflush <$> parsePq w
  | 0xB7 => do
    let sy ← syncOf w
    zeroE w true false false false true false
    let rd ← regOf (fld w 49 7)
    .ok (.tnow ⟨rd, ordE w, sy⟩)
  | 0xB8 => .tprio <$> parseE1 w
  | _ => .error .opcode

/-- Opcode 0xC7 by funct (09 R125). -/
def decodeC7 (w : Nat) : Except Reject Instr :=
  match fld w 24 4 with
  | 0 => .vabs <$> parseVUnary w
  | 1 => .vneg <$> parseVUnary w
  | 2 => .vrcp <$> parseVUnary w
  | 3 => .vrsq <$> parseVUnary w
  | 4 => .vnot <$> parseVMove w
  | 5 => .vpopc <$> parseVUnary w
  | 6 => .vclz <$> parseVUnary w
  | 7 => .vmov <$> parseVMove w
  | _ => .error .opcode

/-- Opcode 0xC9 by funct (09 R125). -/
def decodeC9 (w : Nat) : Except Reject Instr :=
  match fld w 24 4 with
  | 0 => .vand <$> parseVBit w
  | 1 => .vor <$> parseVBit w
  | 2 => .vxor <$> parseVBit w
  | _ => .error .opcode

/-- Opcode 0xCA by funct (09 R125). -/
def decodeCA (w : Nat) : Except Reject Instr :=
  match fld w 24 4 with
  | 0 => .vshl <$> parseVArith w
  | 1 => .vshr <$> parseVArith w
  | 2 => .vsra <$> parseVArith w
  | _ => .error .opcode

/-- Opcode 0xCB by funct (09 R125). -/
def decodeCB (w : Nat) : Except Reject Instr :=
  match fld w 24 4 with
  | 0 => .vcmpEq <$> parseVCmp w
  | 1 => .vcmpNe <$> parseVCmp w
  | 2 => .vcmpLt <$> parseVCmp w
  | 3 => .vcmpLe <$> parseVCmp w
  | 4 => .vcmpGt <$> parseVCmp w
  | 5 => .vcmpGe <$> parseVCmp w
  | _ => .error .opcode

/-- Opcode 0xD2 by funct (09 R125). -/
def decodeD2 (w : Nat) : Except Reject Instr :=
  match fld w 24 4 with
  | 0 => .vredrAdd <$> parseVUnary w
  | 1 => .vredrMin <$> parseVUnary w
  | 2 => .vredrMax <$> parseVUnary w
  | 3 => .vredrAnd <$> parseVUnary w
  | 4 => .vredrOr <$> parseVUnary w
  | 5 => .vredrXor <$> parseVUnary w
  | _ => .error .opcode

/-- Opcode 0xD3 by funct (09 R125). -/
def decodeD3 (w : Nat) : Except Reject Instr :=
  match fld w 24 4 with
  | 0 => .vscanrAdd <$> parseVUnary w
  | 1 => .vscanrMin <$> parseVUnary w
  | 2 => .vscanrMax <$> parseVUnary w
  | 3 => .vscanrAnd <$> parseVUnary w
  | 4 => .vscanrOr <$> parseVUnary w
  | 5 => .vscanrXor <$> parseVUnary w
  | _ => .error .opcode

/-- Opcode 0xD6 by funct (09 R125). -/
def decodeD6 (w : Nat) : Except Reject Instr :=
  match fld w 24 4 with
  | 0 => .vredcAdd <$> parseVUnary w
  | 1 => .vredcMin <$> parseVUnary w
  | 2 => .vredcMax <$> parseVUnary w
  | 3 => .vredcAnd <$> parseVUnary w
  | 4 => .vredcOr <$> parseVUnary w
  | 5 => .vredcXor <$> parseVUnary w
  | _ => .error .opcode

/-- Opcode 0xD7 by funct (09 R125). -/
def decodeD7 (w : Nat) : Except Reject Instr :=
  match fld w 24 4 with
  | 0 => .vscancAdd <$> parseVUnary w
  | 1 => .vscancMin <$> parseVUnary w
  | 2 => .vscancMax <$> parseVUnary w
  | 3 => .vscancAnd <$> parseVUnary w
  | 4 => .vscancOr <$> parseVUnary w
  | 5 => .vscancXor <$> parseVUnary w
  | _ => .error .opcode

/-- Opcode 0xE8 by funct (09 R125). -/
def decodeE8 (w : Nat) : Except Reject Instr :=
  match fld w 24 4 with
  | 0 => .mand <$> parseMask2 w
  | 1 => .mor <$> parseMask2 w
  | 2 => .mxor <$> parseMask2 w
  | 3 => .mnot <$> parseMask1 w
  | 4 => .mpopc <$> parseMaskPop w
  | _ => .error .opcode

/-- An opcode whose funct must be 0. -/
def funct0 (w : Nat) (k : Except Reject Instr) : Except Reject Instr :=
  if fld w 24 4 = 0 then k else .error .opcode

/-- Opcodes 0xC0 to 0xEF (09 R125). -/
def decodeVec (w : Nat) : Except Reject Instr :=
  match opcodeOf w with
  | 0xc0 => funct0 w (.vadd <$> parseVArith w)
  | 0xc1 => funct0 w (.vsub <$> parseVArith w)
  | 0xc2 => funct0 w (.vmul <$> parseVArith w)
  | 0xc3 => funct0 w (.vfma <$> parseVArith w)
  | 0xc4 => funct0 w (.vfms <$> parseVArith w)
  | 0xc5 => funct0 w (.vmin <$> parseVArith w)
  | 0xc6 => funct0 w (.vmax <$> parseVArith w)
  | 0xc7 => decodeC7 w
  | 0xc8 => funct0 w (.vcvt <$> parseVCvt w)
  | 0xc9 => decodeC9 w
  | 0xca => decodeCA w
  | 0xcb => decodeCB w
  | 0xcc => funct0 w (.vsel <$> parseVSel w)
  | 0xcd => funct0 w (.vmvx <$> parseVMvx w)
  | 0xce => funct0 w (.vmxv <$> parseVMxv w)
  | 0xd0 => funct0 w (.vrotr <$> parseVRot w)
  | 0xd1 => funct0 w (.vbcr <$> parseVRot w)
  | 0xd2 => decodeD2 w
  | 0xd3 => decodeD3 w
  | 0xd4 => funct0 w (.vrotc <$> parseVRot w)
  | 0xd5 => funct0 w (.vbcc <$> parseVRot w)
  | 0xd6 => decodeD6 w
  | 0xd7 => decodeD7 w
  | 0xd8 => funct0 w (.vtli <$> parseVTli w)
  | 0xd9 => funct0 w (.vtld <$> parseVTld w)
  | 0xda => funct0 w (.vpack24 <$> parseVPack w)
  | 0xdb => funct0 w (.vunpk24 <$> parseVUnpk w)
  | 0xdc => funct0 w (.vclmul <$> parseVClmul w)
  | 0xdd => funct0 w (.viota <$> parseVIota w)
  | 0xde => funct0 w (.vpermr <$> parseVBit w)
  | 0xe0 => funct0 w (.vldq <$> parseVLdq w)
  | 0xe1 => funct0 w (.vstq <$> parseVStq w)
  | 0xe8 => decodeE8 w
  | _ => .error .opcode

/-- A word by its opcode group (09 R115). -/
def decodeRaw (w : Nat) : Except Reject Instr :=
  if opcodeOf w < 0x10 then decodeSys w
  else if opcodeOf w < 0x40 then decodeInt w
  else if opcodeOf w < 0x50 then decodeFlow w
  else if opcodeOf w < 0x60 then decodeFp w
  else if opcodeOf w < 0x80 then decodeMem w
  else if opcodeOf w < 0x90 then decodeAt w
  else if opcodeOf w < 0xA0 then decodeRime w
  else if opcodeOf w < 0xB0 then decodeEng w
  else if opcodeOf w < 0xC0 then decodeTask w
  else decodeVec w

/-- The decoder of 64-bit core words (09 R126, the causes that both cores share). -/
def decodeCore (w : Nat) : Except Reject Instr := do
  let i ← decodeRaw w
  need i.wf .combination
  .ok i

/-! ## Engine words -/

/-- An operation that takes no argument. -/
def noArg (w : Nat) (i : EWord) : Except Reject EWord :=
  if fld w 0 8 = 0 then .ok i else .error .engineArg

/-- CODEC by routine number (19 R294, R295); the loaded-routine check is the machine's. -/
def decodeCodec (w : Nat) : Except Reject EWord :=
  match fld w 0 8 with
  | 0 => .ok .codecCopy
  | 1 => .ok .zbmDecode
  | 2 => .ok .zbmEncode
  | 3 => .ok .cb4PassThrough
  | 4 => .ok .lrfExpand
  | 5 => .ok .osqEncode
  | 6 => .ok .osqDecode
  | 7 => .ok .e8m0Requantise
  | 8 => .ok .pathLogSeal
  | 9 => .ok .transpose
  | k => if 64 ≤ k ∧ k < 128 then .ok (.codecCustom (BitVec.ofNat 6 (k - 64))) else .error .engineRoutine

/-- An operation word (bits 15:14 zero) by its opcode. -/
def decodeOp (w : Nat) : Except Reject EWord :=
  match fld w 8 6 with
  | 0x01 => noArg w .nopw
  | 0x02 => noArg w .dup
  | 0x03 => noArg w .drop
  | 0x04 => noArg w .xch
  | 0x05 => noArg w .overW
  | 0x08 => if fld w 2 6 = 0 then .ok (.shape (bv 2 w 0)) else .error .engineArg
  | 0x09 => .ok (.copy (bv 8 w 0))
  | 0x0A => if fld w 5 3 = 0 then .ok (.walk (bitAt w 4) (bv 2 w 2) (bv 2 w 0)) else .error .engineArg
  | 0x0B => if fld w 2 6 = 0 then .ok (.halo (bv 2 w 0)) else .error .engineArg
  | 0x0C => decodeCodec w
  | 0x0D => if fld w 2 6 = 0 then .ok (.foot (bitAt w 1) (bitAt w 0)) else .error .engineArg
  | 0x10 => if fld w 6 2 = 0 then .ok (.waits (bv 6 w 0)) else .error .engineArg
  | 0x11 => if fld w 6 2 = 0 then .ok (.posts (bv 6 w 0)) else .error .engineArg
  | 0x12 => .ok (.waitr (bv 8 w 0))
  | 0x13 =>
    match fld w 0 8 with
    | 0 => .ok .postrPost
    | 1 => .ok .postrThaw
    | _ => .error .engineArg
  | 0x14 =>
    match fld w 0 8 with
    | 0 => .ok .stagePair
    | 1 => .ok .stageIteration
    | 2 => .ok .stageSlot
    | _ => .error .engineArg
  | 0x15 => if fld w 4 4 = 0 then .ok (.rngaWord (bv 4 w 0)) else .error .engineArg
  | 0x16 => if fld w 5 3 = 0 then .ok (.rngpWord (bitAt w 4) (bv 4 w 0)) else .error .engineArg
  | 0x18 =>
    match fld w 0 8 with
    | 0 => .ok .linkJump
    | 1 => .ok .linkBoundary
    | _ => .error .engineArg
  | 0x19 => noArg w .endW
  | _ => .error .engineOpcode

/-- The decoder of 16-bit engine words (09 R128). -/
def decodeWord (w : Nat) : Except Reject EWord :=
  if bitAt w 15 then .ok (.lit (bv 15 w 0))
  else if bitAt w 14 then .ok (.ext (bv 14 w 0))
  else decodeOp w

/-! ## The encoder -/

def Sync.enc (s : Sync) : Nat := bit1 s.wait * 2 ^ 8 + bit1 s.post * 2 ^ 7 + s.sem.toNat * 2
def Src.num (s : Src) : Nat :=
  match s with
  | .reg n => n.toNat
  | .pop q => 104 + q.toNat
  | .peek q => 104 + q.toNat
def Src.wc (s : Src) : Nat :=
  match s with
  | .peek _ => 1
  | _ => 0
def Dst.num (d : Dst) : Nat :=
  match d with
  | .reg n => n.toNat
  | .push q => 112 + q.toNat
def VW.enc (w : VW) : Nat :=
  match w with
  | .x1 => 0
  | .x2 => 1
  | .x4 => 2
  | .x8 => 3
def VG.num (g : VG) : Nat := 64 + g.n.toNat
def encMask (m : MaskF) : Nat :=
  match m with
  | none => 0
  | some k => 96 + k.toNat
def OrdKind.enc (o : OrdKind) : Nat :=
  match o with
  | .plain => 0
  | .acq => 1
  | .rel => 2
  | .acqrel => 3
def Scope.enc (s : Scope) : Nat :=
  match s with
  | .cell => 0
  | .die => 1
  | .package => 2
  | .fabric => 3
def Rm.enc (r : Rm) : Nat :=
  match r with
  | .rne => 0
  | .rtz => 1
  | .rup => 2
  | .rdn => 3
  | .sr => 4
  | .dyn => 5
def ET.enc (t : ET) : Nat :=
  match t with
  | .f32 => 0
  | .bf16 => 1
  | .f16 => 2
  | .e4m3 => 3
  | .e5m2 => 4
  | .e2m1 => 5
  | .i32 => 6
  | .i8 => 7
  | .u8 => 8
  | .i4 => 9
def CvtTy.enc (t : CvtTy) : Nat :=
  match t with
  | .et t => t.enc
  | .i64 => 10
def Sz.enc (s : Sz) : Nat :=
  match s with
  | .b => 0
  | .h => 1
  | .w => 2
  | .d => 3
def ExtW.enc (s : ExtW) : Nat :=
  match s with
  | .b => 0
  | .h => 1
  | .w => 2
def Hint.enc (h : Hint) : Nat :=
  match h with
  | .none => 0
  | .likely => 1
  | .unlikely => 2
def Space.enc (s : Space) : Nat :=
  match s with
  | .s => 0
  | .n => 1
  | .g => 2
  | .f => 3
  | .c => 4
def encOrder (o : Option OrderMode) : Nat :=
  match o with
  | some .arrival => 0
  | some .ordered => 1
  | some .pairwise => 2
  | none => 3
def Place.enc (p : Place) : Nat := p.die.toNat * 2 ^ 11 + p.row.toNat * 2 ^ 8 + p.col.toNat * 2 ^ 4
def LdDst.num (d : LdDst) : Nat :=
  match d with
  | .reg n => n.toNat
  | .lq q => 104 + q.toNat
def StSrc.num (d : StSrc) : Nat :=
  match d with
  | .reg n => n.toNat
  | .sq q => 112 + q.toNat
def QName.num (q : QName) : Nat :=
  match q with
  | .lq n => 104 + n.toNat
  | .sq n => 112 + n.toNat
def Trip.num (t : Trip) : Nat :=
  match t with
  | .reg n => n.toNat
  | .pop q => 104 + q.toNat
  | .mbox n => 120 + n.toNat

/-- Format A (09 R105). -/
def encA (op rd ra rb rc fn wd wa wb md sy : Nat) : Nat :=
  op * 2 ^ 56 + rd * 2 ^ 49 + ra * 2 ^ 42 + rb * 2 ^ 35 + rc * 2 ^ 28 + fn * 2 ^ 20 + wd * 2 ^ 18 + wa * 2 ^ 16 +
    wb * 2 ^ 14 + md * 2 ^ 9 + sy
/-- Format I (09 R106). -/
def encI (op rd ra imm sy : Nat) : Nat := op * 2 ^ 56 + rd * 2 ^ 49 + ra * 2 ^ 42 + imm * 2 ^ 10 + sy
/-- Format M (09 R107), `mid` the 16 bits 41:26. -/
def encM (op rd base mid : Nat) (f : OrdF) (sz sy : Nat) : Nat :=
  op * 2 ^ 56 + rd * 2 ^ 49 + base * 2 ^ 42 + mid * 2 ^ 26 + f.os.toNat * 2 ^ 23 + f.pm.toNat * 2 ^ 15 +
    f.ord.enc * 2 ^ 13 + f.scope.enc * 2 ^ 11 + sz * 2 ^ 9 + sy
/-- Format B (09 R108). -/
def encB (op ra rb disp cond hint : Nat) : Nat :=
  op * 2 ^ 56 + ra * 2 ^ 49 + rb * 2 ^ 42 + disp * 2 ^ 10 + cond * 2 ^ 6 + hint * 2 ^ 4
/-- The ordering fields of format E. -/
def encOrdE (f : OrdF) : Nat :=
  f.os.toNat * 2 ^ 28 + f.pm.toNat * 2 ^ 20 + f.ord.enc * 2 ^ 18 + f.scope.enc * 2 ^ 16
/-- Format E (09 R110), `o` the ordering fields in place. -/
def encE (op rd ra rb sub o imm sy : Nat) : Nat :=
  op * 2 ^ 56 + rd * 2 ^ 49 + ra * 2 ^ 42 + rb * 2 ^ 35 + sub * 2 ^ 31 + o + imm * 2 ^ 9 + sy
/-- Format V (09 R109). -/
def encV (op rd ra rb rc fn wd wa wb ty rm s z sy : Nat) : Nat :=
  op * 2 ^ 56 + rd * 2 ^ 49 + ra * 2 ^ 42 + rb * 2 ^ 35 + rc * 2 ^ 28 + fn * 2 ^ 24 + wd * 2 ^ 22 + wa * 2 ^ 20 +
    wb * 2 ^ 18 + ty * 2 ^ 14 + rm * 2 ^ 11 + s * 2 ^ 10 + z * 2 ^ 9 + sy

def OpRR.enc (op fn : Nat) (o : OpRR) : Nat := encA op o.rd.num o.ra.num 0 0 fn 0 o.ra.wc 0 0 o.sy.enc
def OpRRR.enc (op fn : Nat) (o : OpRRR) : Nat := encA op o.rd.num o.ra.num o.rb.num 0 fn 0 o.ra.wc o.rb.wc 0 o.sy.enc
def OpRRRR.enc (op fn : Nat) (o : OpRRRR) : Nat :=
  encA op o.rd.num o.ra.num o.rb.num o.rc.num fn 0 o.ra.wc o.rb.wc 0 o.sy.enc
def OpExt.enc (op fn : Nat) (o : OpExt) : Nat := encA op o.rd.num o.ra.num 0 0 fn 0 o.ra.wc 0 o.w.enc o.sy.enc
def OpRI.enc (op : Nat) (o : OpRI) : Nat := encI op o.rd.num o.ra.num o.imm.toNat o.sy.enc
def OpSh.enc (op : Nat) (o : OpSh) : Nat := encI op o.rd.num o.ra.num o.sh.toNat o.sy.enc
def OpBr.enc (cond : Nat) (o : OpBr) : Nat := encB 0x40 o.ra.num o.rb.num o.disp.toNat cond o.hint.enc
def OpF.enc (op : Nat) (o : OpF) : Nat :=
  encA op o.rd.num o.ra.num o.rb.num 0 0 0 o.ra.wc o.rb.wc (o.rm.enc * 4 + bit1 o.sat * 2) o.sy.enc
def OpF3.enc (op : Nat) (o : OpF3) : Nat :=
  encA op o.rd.num o.ra.num o.rb.num o.rc.num 0 0 o.ra.wc o.rb.wc (o.rm.enc * 4 + bit1 o.sat * 2) o.sy.enc
def OpCvt.enc (o : OpCvt) : Nat :=
  encA 0x56 o.rd.num o.ra.num 0 0 (o.dt.enc * 16 + o.st.enc) 0 o.ra.wc 0 (o.rm.enc * 4 + bit1 o.sat * 2) o.sy.enc
def OpLd.enc (op : Nat) (o : OpLd) : Nat :=
  encM (op + bit1 o.uns) o.dst.num o.base.toNat o.off.toNat o.f o.sz.enc o.sy.enc
def OpLdN.enc (o : OpLdN) : Nat :=
  encM (0x68 + bit1 o.uns) o.dst.num o.base.toNat (o.place.enc * 16 + o.nofs.toNat) o.f o.sz.enc o.sy.enc
def OpLdRow.enc (op : Nat) (o : OpLdRow) : Nat := encM op (108 + o.lq.toNat) o.base.toNat o.off.toNat o.f 0 o.sy.enc
def OpLdRowN.enc (o : OpLdRowN) : Nat :=
  encM 0x6C (108 + o.lq.toNat) o.base.toNat (o.place.enc * 16 + o.nofs.toNat) o.f 0 o.sy.enc
def OpSt.enc (op : Nat) (o : OpSt) : Nat := encM op o.src.num o.base.toNat o.off.toNat o.f o.sz.enc o.sy.enc
def OpStN.enc (op : Nat) (o : OpStN) : Nat :=
  encM op o.src.num o.base.toNat (o.place.enc * 16 + o.nofs.toNat) o.f o.sz.enc o.sy.enc
def OpStRow.enc (op : Nat) (o : OpStRow) : Nat := encM op (114 + o.sq.toNat) o.base.toNat o.off.toNat o.f 0 o.sy.enc
def OpStRowN.enc (op : Nat) (o : OpStRowN) : Nat :=
  encM op (114 + o.sq.toNat) o.base.toNat (o.place.enc * 16 + o.nofs.toNat) o.f 0 o.sy.enc
def OpLdc.enc (o : OpLdc) : Nat := encM 0x9E o.dst.num o.base.toNat o.off.toNat o.f (2 + bit1 o.dbl) o.sy.enc
def OpStc.enc (o : OpStc) : Nat := encM 0x9F o.src.num o.base.toNat o.off.toNat o.f (2 + bit1 o.dbl) o.sy.enc
def OpAt.enc (op : Nat) (o : OpAt) : Nat :=
  encM op o.rd.toNat o.base.toNat (o.rb.toNat * 2 ^ 9 + o.sp.enc * 2 ^ 6 + bit1 o.fo * 2 ^ 5) o.f (2 + bit1 o.dbl) o.sy.enc
def OpE1.enc (op sub : Nat) (o : OpE1) : Nat := encE op 0 o.ra.toNat 0 sub (encOrdE o.f) 0 o.sy.enc
def OpRime.enc (op : Nat) (o : OpRime) : Nat := encE op 0 o.ra.toNat 0 0 (encOrdE o.f) 0 o.sy.enc
def OpRngT.enc (op : Nat) (o : OpRngT) : Nat := encE op o.rd.toNat 0 0 0 (encOrdE o.f) o.ring.toNat o.sy.enc
def OpRngG.enc (op : Nat) (o : OpRngG) : Nat := encE op 0 o.ra.num 0 (bit1 o.close) (encOrdE o.f) o.ring.toNat o.sy.enc
def OpSemp.enc (op : Nat) (o : OpSemp) : Nat := encE op 0 o.ra.num 0 0 (encOrdE o.f) o.sem.toNat o.sy.enc
def OpQ.enc (op : Nat) (o : OpQ) : Nat := encE op 0 o.q.num 0 0 (encOrdE o.f) 0 o.sy.enc
def OpMtab.enc (sub : Nat) (o : OpMtab) : Nat := encE 0xA3 0 o.ra.toNat 0 sub (encOrdE o.f) o.slot.toNat o.sy.enc
def encDrain (rd ra : Nat) (t : ET) (rm : Rm) (s : Bool) (k : BitVec 6) (f : OrdF) (sy : Sync) : Nat :=
  encE 0xA5 rd ra (rm.enc + bit1 s * 8) t.enc (encOrdE f) k.toNat sy.enc
def OpKick.enc (op : Nat) (o : OpKick) : Nat := encE op 0 o.ra.toNat 0 0 (encOrdE o.f) o.eng.toNat o.sy.enc
def OpCrbar.enc (sub : Nat) (o : OpCrbar) : Nat :=
  encE 0xB4 o.rd.toNat o.ra.toNat o.rb.toNat sub (encOrdE o.f) 0 o.sy.enc
def OpPq.enc (op : Nat) (o : OpPq) : Nat := encE op 0 o.ra.toNat 0 0 (encOrdE o.f) o.shadow.toNat o.sy.enc
def VArith.enc (op fn : Nat) (o : VArith) : Nat :=
  encV op o.rd.num o.ra.num o.rb.num (encMask o.mask) fn o.rd.w.enc o.ra.w.enc o.rb.w.enc o.ty.enc o.rm.enc (bit1 o.s)
    (bit1 o.z) o.sy.enc
def VUnary.enc (op fn : Nat) (o : VUnary) : Nat :=
  encV op o.rd.num o.ra.num 0 (encMask o.mask) fn o.rd.w.enc o.ra.w.enc 0 o.ty.enc o.rm.enc (bit1 o.s) (bit1 o.z) o.sy.enc
def VBit.enc (op fn : Nat) (o : VBit) : Nat :=
  encV op o.rd.num o.ra.num o.rb.num (encMask o.mask) fn o.rd.w.enc o.ra.w.enc o.rb.w.enc 0 0 0 (bit1 o.z) o.sy.enc
def VMove.enc (op fn : Nat) (o : VMove) : Nat :=
  encV op o.rd.num o.ra.num 0 (encMask o.mask) fn o.rd.w.enc o.ra.w.enc 0 0 0 0 (bit1 o.z) o.sy.enc
def VCvtOp.enc (o : VCvtOp) : Nat :=
  encV 0xC8 o.rd.num o.ra.num 0 o.st.enc 0 o.rd.w.enc o.ra.w.enc 0 o.dt.enc o.rm.enc (bit1 o.s) 0 o.sy.enc
def VCmpOp.enc (fn : Nat) (o : VCmpOp) : Nat :=
  encV 0xCB (96 + o.rd.toNat) (64 + o.ra.toNat) (64 + o.rb.toNat) (encMask o.mask) fn 0 0 0 o.ty.enc 0 0 (bit1 o.z) o.sy.enc
def VSelOp.enc (o : VSelOp) : Nat :=
  encV 0xCC o.rd.num o.ra.num o.rb.num (96 + o.mask.toNat) 0 o.rd.w.enc o.ra.w.enc o.rb.w.enc 0 0 0 0 o.sy.enc
def VMvxOp.enc (o : VMvxOp) : Nat :=
  encV 0xCD o.rd.num (64 + o.ra.toNat) o.rb.num 0 0 0 0 o.rb.wc o.ty.enc 0 0 0 o.sy.enc
def VMxvOp.enc (o : VMxvOp) : Nat :=
  encV 0xCE o.rd.num o.ra.num 0 (encMask o.mask) 0 o.rd.w.enc o.ra.wc 0 o.ty.enc 0 0 (bit1 o.z) o.sy.enc
def VRotOp.enc (op : Nat) (o : VRotOp) : Nat :=
  encV op o.rd.num o.ra.num o.rb.num (encMask o.mask) 0 o.rd.w.enc o.ra.w.enc o.rb.wc 0 0 0 (bit1 o.z) o.sy.enc
def VIotaOp.enc (o : VIotaOp) : Nat :=
  encV 0xDD o.rd.num (encMask o.ra) 0 (encMask o.mask) 0 o.rd.w.enc 0 0 6 0 0 (bit1 o.z) o.sy.enc
def VClmulOp.enc (o : VClmulOp) : Nat :=
  encV 0xDC (64 + 2 * o.pair.toNat) (64 + o.ra.toNat) (64 + o.rb.toNat) (encMask o.mask) 0 1 0 0 6 0 0 (bit1 o.z) o.sy.enc
def VTliOp.enc (o : VTliOp) : Nat :=
  encV 0xD8 o.rd.num o.ra.num (116 + o.tb.toNat) (encMask o.mask) 0 o.rd.w.enc o.ra.w.enc 0 o.ty.enc o.rm.enc (bit1 o.s)
    (bit1 o.z) o.sy.enc
def VTldOp.enc (o : VTldOp) : Nat := encV 0xD9 (116 + o.tb.toNat) (108 + o.lq.toNat) 0 0 0 0 0 0 0 0 0 0 o.sy.enc
def VPackOp.enc (o : VPackOp) : Nat :=
  encV 0xDA (64 + o.rd.toNat) (64 + o.ra.toNat) (64 + o.rb.toNat) 0 0 0 0 0 o.ty.enc 0 0 0 o.sy.enc
def VUnpkOp.enc (o : VUnpkOp) : Nat :=
  encV 0xDB (64 + o.rd.toNat) (64 + o.ra.toNat) (64 + o.rb.toNat) 0 0 0 0 0 0 0 0 0 o.sy.enc
def VLdqOp.enc (o : VLdqOp) : Nat :=
  encV 0xE0 o.rd.num (108 + o.lq.toNat) 0 (encMask o.mask) 0 o.rd.w.enc 0 0 0 0 0 (bit1 o.z) o.sy.enc
def VStqOp.enc (o : VStqOp) : Nat := encV 0xE1 (114 + o.sq.toNat) o.ra.num 0 0 0 0 o.ra.w.enc 0 0 0 0 0 o.sy.enc
def MaskOp2.enc (fn : Nat) (o : MaskOp2) : Nat :=
  encV 0xE8 (96 + o.rd.toNat) (96 + o.ra.toNat) (96 + o.rb.toNat) 0 fn 0 0 0 0 0 0 0 o.sy.enc
def MaskOp1.enc (o : MaskOp1) : Nat := encV 0xE8 (96 + o.rd.toNat) (96 + o.ra.toNat) 0 0 3 0 0 0 0 0 0 0 o.sy.enc
def MaskPop.enc (o : MaskPop) : Nat := encV 0xE8 o.rd.num (96 + o.ra.toNat) 0 0 4 0 0 0 0 0 0 0 o.sy.enc
/-- An engine operation word (09 R128). -/
def encW (op arg : Nat) : Nat := op * 2 ^ 8 + arg

/-- The bits of an instruction's word: 64 for a core instruction, 16 for an engine word, 0 for an event. -/
def Instr.bits (i : Instr) : Nat :=
  match i with
  | .wLit _ => 16
  | .wExt _ => 16
  | .wNopw => 16
  | .wDup => 16
  | .wDrop => 16
  | .wXch => 16
  | .wOver => 16
  | .wShape _ => 16
  | .wCopy _ => 16
  | .wWalk _ _ _ => 16
  | .wHalo _ => 16
  | .wCodecCopy => 16
  | .wZbmDecode => 16
  | .wZbmEncode => 16
  | .wCb4PassThrough => 16
  | .wLrfExpand => 16
  | .wOsqEncode => 16
  | .wOsqDecode => 16
  | .wE8m0Requantise => 16
  | .wPathLogSeal => 16
  | .wTranspose => 16
  | .wCodecCustom _ => 16
  | .wFoot _ _ => 16
  | .wWaits _ => 16
  | .wPosts _ => 16
  | .wWaitr _ => 16
  | .wPostrPost => 16
  | .wPostrThaw => 16
  | .wStagePair => 16
  | .wStageIteration => 16
  | .wStageSlot => 16
  | .wRngaWord _ => 16
  | .wRngpWord _ _ => 16
  | .wLinkJump => 16
  | .wLinkBoundary => 16
  | .wEnd => 16
  | .transferComplete _ _ _ => 0
  | .kickedChainStart _ _ => 0
  | .chainBegin _ _ => 0
  | .ceStarvation _ _ => 0
  | .hostBar2Read _ _ _ _ => 0
  | .hostBar2Write _ _ _ _ => 0
  | .ldoor _ _ _ _ => 0
  | .launchCopyComplete _ _ _ => 0
  | .mbox _ _ _ _ _ => 0
  | .registerWrite _ _ _ _ => 0
  | .ctxnew _ _ => 0
  | .ctxkill _ _ => 0
  | .resume _ _ => 0
  | .preempt _ _ => 0
  | .routine _ _ => 0
  | .attest _ _ => 0
  | .dumprd _ _ => 0
  | .unknownCommand _ _ => 0
  | .powerOn _ _ => 0
  | .fullService _ _ => 0
  | .budgetPublish _ _ _ => 0
  | .powerStepDown _ _ => 0
  | .powerTrip _ => 0
  | .deviceFatal _ _ _ _ => 0
  | .taskSelect _ => 0
  | .stepRaise _ _ => 0
  | .steal _ => 0
  | .preemptionRequest _ => 0
  | .preemption _ => 0
  | .regionCommit _ => 0
  | .deferredEffect _ _ => 0
  | .storeDeparture _ _ => 0
  | .memoryPerformed _ _ => 0
  | .memoryResponse _ _ _ => 0
  | .countingWriteArrival _ _ => 0
  | .stampedWriteApply _ _ => 0
  | .semaphoreWaitProceed _ _ => 0
  | .rimeWaitProceed _ _ => 0
  | .ringWaitProceed _ _ => 0
  | .queueWaitProceed _ _ => 0
  | .queueEndEffect _ _ => 0
  | .rendezvousRelease _ => 0
  | .crewBarrierComplete _ _ _ => 0
  | .joinObserved _ => 0
  | .elasticIteration _ _ => 0
  | .spillFrame _ _ => 0
  | .fillFrame _ _ => 0
  | .asyncWriteComplete _ _ => 0
  | .meJobStart _ => 0
  | .passEnd _ => 0
  | .elasticLevelIteration _ => 0
  | .partialArrival _ _ _ => 0
  | .meJobComplete _ _ => 0
  | .pathLogPublish _ _ => 0
  | .metadataFault _ => 0
  | .meStarvation _ => 0
  | .mdrainComplete _ _ => 0
  | .tlbinvComplete _ _ => 0
  | .sealComplete _ _ => 0
  | .batchClose _ _ => 0
  | .batchSend _ _ => 0
  | .batchComplete _ _ => 0
  | .icequakeReport _ _ _ => 0
  | .recoverableTrap _ => 0
  | .trapFrameWrite _ => 0
  | .contextLost _ => 0
  | .watchdog _ => 0
  | .firnPublish _ _ => 0
  | .firnackDeadline _ _ => 0
  | .flitReceive _ _ _ _ => 0
  | .flitReplay _ _ _ => 0
  | .linkRetrain _ _ _ => 0
  | .linkDead _ _ _ => 0
  | .bankFailed _ _ _ => 0
  | .restripeStep _ _ => 0
  | .migrationSwitch _ _ => 0
  | .forwardingLapse _ _ => 0
  | .scrubUncorrectable _ _ => 0
  | .powerRemoval _ => 0
  | .hostSuspendRequest _ _ => 0
  | .migrationStart _ _ _ _ => 0
  | .linkRetrainDone _ _ _ => 0
  | _ => 64

/-- The word of a well-formed instruction; 0 for an event, which has no word. -/
def encode (i : Instr) : Nat :=
  match i with
  | .nop sy => encI 0x01 0 0 0 sy.enc
  | .trap n sy => encI 0x02 0 0 n.toNat sy.enc
  | .eret sy => encE 0x03 0 0 0 0 0 0 sy.enc
  | .firnack ra sy => encE 0x04 0 ra.toNat 0 0 0 0 sy.enc
  | .tlbinv o => o.enc 0x05 0
  | .tlbinvAll f sy => encE 0x05 0 0 0 1 (encOrdE f) 0 sy.enc
  | .seal ra rb f sy => encE 0x06 0 ra.toNat rb.toNat 0 (encOrdE f) 0 sy.enc
  | .world rd sy => encE 0x07 rd.num 0 0 0 0 0 sy.enc
  | .halt sy => encE 0x08 0 0 0 0 0 0 sy.enc
  | .csrr rd csr sy => encI 0x09 rd.num 0 csr.toNat sy.enc
  | .csrw ra csr sy => encI 0x0A 0 ra.num csr.toNat sy.enc
  | .mbr rd n sy => encI 0x0B rd.num 0 n.toNat sy.enc
  | .pchk o => o.enc 0x0C 0
  | .add o => o.enc 0x10 0
  | .sub o => o.enc 0x10 1
  | .and o => o.enc 0x10 2
  | .or o => o.enc 0x10 3
  | .xor o => o.enc 0x10 4
  | .andn o => o.enc 0x10 5
  | .orn o => o.enc 0x10 6
  | .shl o => o.enc 0x10 7
  | .shr o => o.enc 0x10 8
  | .sra o => o.enc 0x10 9
  | .rol o => o.enc 0x10 10
  | .ror o => o.enc 0x10 11
  | .min o => o.enc 0x10 12
  | .max o => o.enc 0x10 13
  | .minu o => o.enc 0x10 14
  | .maxu o => o.enc 0x10 15
  | .seq o => o.enc 0x10 16
  | .sne o => o.enc 0x10 17
  | .slt o => o.enc 0x10 18
  | .sltu o => o.enc 0x10 19
  | .mul o => o.enc 0x11 0
  | .mulh o => o.enc 0x11 1
  | .mulhu o => o.enc 0x11 2
  | .div o => o.enc 0x11 3
  | .divu o => o.enc 0x11 4
  | .rem o => o.enc 0x11 5
  | .remu o => o.enc 0x11 6
  | .clmul o => o.enc 0x11 7
  | .clmulh o => o.enc 0x11 8
  | .clz o => o.enc 0x12 0
  | .ctz o => o.enc 0x12 1
  | .popc o => o.enc 0x12 2
  | .exts o => o.enc 0x12 3
  | .extz o => o.enc 0x12 4
  | .bfx o => o.enc 0x12 5
  | .bfi o => o.enc 0x12 6
  | .sel o => o.enc 0x12 7
  | .addi o => o.enc 0x18
  | .andi o => o.enc 0x19
  | .ori o => o.enc 0x1A
  | .xori o => o.enc 0x1B
  | .shli o => o.enc 0x1C
  | .shri o => o.enc 0x1D
  | .srai o => o.enc 0x1E
  | .slti o => o.enc 0x1F
  | .sltui o => o.enc 0x20
  | .seqi o => o.enc 0x21
  | .li rd imm sy => encI 0x22 rd.num 0 imm.toNat sy.enc
  | .lihi o => o.enc 0x23
  | .lea rd ra rb sh sy => encA 0x24 rd.toNat ra.toNat rb.toNat 0 0 0 0 0 sh.toNat sy.enc
  | .place rd ra place sy => encI 0x25 rd.toNat ra.toNat place.enc sy.enc
  | .fadr rd ra coord sy => encI 0x26 rd.toNat ra.toNat coord.toNat sy.enc
  | .br disp hint => encB 0x40 0 0 disp.toNat 0 hint.enc
  | .beq o => o.enc 1
  | .bne o => o.enc 2
  | .blt o => o.enc 3
  | .bge o => o.enc 4
  | .bltu o => o.enc 5
  | .bgeu o => o.enc 6
  | .jmp ra sy => encA 0x41 0 ra.num 0 0 0 0 ra.wc 0 0 sy.enc
  | .call disp ss => encB 0x42 0 0 disp.toNat ss.toNat 0
  | .callr ra ss sy => encA 0x43 0 ra.num 0 0 0 0 ra.wc 0 ss.toNat sy.enc
  | .ret sy => encA 0x44 0 0 0 0 0 0 0 0 0 sy.enc
  | .loop trip imm sy => encI 0x45 0 trip.num imm.toNat sy.enc
  | .kloop s sy => encI 0x46 0 0 s.toNat sy.enc
  | .rdv n sy => encI 0x47 0 0 n.toNat sy.enc
  | .tdone sy => encI 0x48 0 0 0 sy.enc
  | .faddS o => o.enc 0x50
  | .fmulS o => o.enc 0x51
  | .ffmaS o => o.enc 0x52
  | .fminS o => o.enc 0x53 0
  | .fmaxS o => o.enc 0x54 0
  | .fcmpEq o => o.enc 0x55 0
  | .fcmpNe o => o.enc 0x55 1
  | .fcmpLt o => o.enc 0x55 2
  | .fcmpLe o => o.enc 0x55 3
  | .fcvt o => o.enc
  | .lds o => o.enc 0x60
  | .ldsRow o => o.enc 0x64
  | .sts o => o.enc 0x62
  | .stsRow o => o.enc 0x65
  | .ldn o => o.enc
  | .ldnRow o => o.enc
  | .stn o => o.enc 0x6A
  | .stnArr o => o.enc 0x6B
  | .stnRow o => o.enc 0x6D
  | .stnRowArr o => o.enc 0x6E
  | .ldg o => o.enc 0x70
  | .ldgRow o => o.enc 0x74
  | .stg o => o.enc 0x72
  | .stgRow o => o.enc 0x75
  | .ldf o => o.enc 0x78
  | .ldfRow o => o.enc 0x7C
  | .stf o => o.enc 0x7A
  | .stfArr o => o.enc 0x7B
  | .stfRow o => o.enc 0x7D
  | .stfRowArr o => o.enc 0x7E
  | .ldc o => o.enc
  | .stc o => o.enc
  | .aadd o => o.enc 0x80
  | .aand o => o.enc 0x81
  | .aor o => o.enc 0x82
  | .axor o => o.enc 0x83
  | .amin o => o.enc 0x84
  | .amax o => o.enc 0x85
  | .aminu o => o.enc 0x86
  | .amaxu o => o.enc 0x87
  | .aswap o => o.enc 0x88
  | .acas o => o.enc 0x89
  | .rpost o => encE 0x90 0 o.ra.toNat o.rb.toNat 0 (encOrdE o.f) 0 o.sy.enc
  | .rwait o => o.enc 0x91
  | .rthaw o => o.enc 0x92
  | .rstat o => encE 0x93 o.rd.toNat o.ra.toNat 0 0 (encOrdE o.f) 0 o.sy.enc
  | .rnga o => o.enc 0x94
  | .rngp o => o.enc 0x95
  | .rngw o => o.enc 0x96
  | .rngf o => o.enc 0x97
  | .semw o => encE 0x98 0 0 0 0 (encOrdE o.f) o.sem.toNat o.sy.enc
  | .semp o => o.enc 0x99
  | .semset o => o.enc 0x9A
  | .semrd o => encE 0x9B o.rd.num 0 0 0 (encOrdE o.f) o.sem.toNat o.sy.enc
  | .qend o => o.enc 0x9C
  | .qflush o => o.enc 0x9D
  | .mcfg n ra sy => encE 0xA0 0 ra.toNat 0 0 0 n.toNat sy.enc
  | .mcfgs o => o.enc 0xA1 0
  | .mgo o => encE 0xA2 0 0 0 (bit1 o.high * 8 + encOrder o.order * 2) (encOrdE o.f) o.lag.toNat o.sy.enc
  | .mtabCb o => o.enc 0
  | .mtabPt o => o.enc 1
  | .mzero tile sy => encE 0xA4 0 0 0 0 0 tile.toNat sy.enc
  | .mdrain o => encDrain 0 o.ra.toNat o.ty o.rm o.sat o.tile o.f o.sy
  | .mdrainQ o => encDrain (108 + o.lq.toNat) 0 o.ty o.rm o.sat o.tile o.f o.sy
  | .mdrainV o => encDrain (64 + 4 * o.quad.toNat) 0 o.ty o.rm o.sat o.tile o.f o.sy
  | .mabort high sy => encE 0xA6 0 0 0 (bit1 high * 8) 0 0 sy.enc
  | .mstat rd sy => encE 0xA7 rd.toNat 0 0 0 0 0 sy.enc
  | .ckick o => o.enc 0xA8
  | .clink o => o.enc 0xA9
  | .cstage e ra rb sy => encE 0xAA 0 ra.toNat rb.toNat 0 0 e.toNat sy.enc
  | .cabort e sy => encE 0xAB 0 0 0 0 0 e.toNat sy.enc
  | .tspawn o => o.enc 0xB0 0
  | .tjoin o => o.enc 0xB1 0
  | .crjoin o => o.enc 0xB2 0
  | .crleave o => o.enc 0xB3 0
  | .crbar o => o.enc 0xB4 0
  | .crbarAdd o => o.enc 1
  | .crbarMin o => o.enc 2
  | .crbarMax o => o.enc 3
  | .crbarAnd o => o.enc 4
  | .crbarOr o => o.enc 5
  | .crbarXor o => o.enc 6
  | .pqpush o => o.enc 0xB5
  | .pqflush o => o.enc 0xB6
  | .tnow o => encE 0xB7 o.rd.toNat 0 0 0 (encOrdE o.f) 0 o.sy.enc
  | .tprio o => o.enc 0xB8 0
  | .vadd o => o.enc 0xC0 0
  | .vsub o => o.enc 0xC1 0
  | .vmul o => o.enc 0xC2 0
  | .vfma o => o.enc 0xC3 0
  | .vfms o => o.enc 0xC4 0
  | .vmin o => o.enc 0xC5 0
  | .vmax o => o.enc 0xC6 0
  | .vabs o => o.enc 0xC7 0
  | .vneg o => o.enc 0xC7 1
  | .vrcp o => o.enc 0xC7 2
  | .vrsq o => o.enc 0xC7 3
  | .vnot o => o.enc 0xC7 4
  | .vpopc o => o.enc 0xC7 5
  | .vclz o => o.enc 0xC7 6
  | .vmov o => o.enc 0xC7 7
  | .vcvt o => o.enc
  | .vand o => o.enc 0xC9 0
  | .vor o => o.enc 0xC9 1
  | .vxor o => o.enc 0xC9 2
  | .vshl o => o.enc 0xCA 0
  | .vshr o => o.enc 0xCA 1
  | .vsra o => o.enc 0xCA 2
  | .vcmpEq o => o.enc 0
  | .vcmpNe o => o.enc 1
  | .vcmpLt o => o.enc 2
  | .vcmpLe o => o.enc 3
  | .vcmpGt o => o.enc 4
  | .vcmpGe o => o.enc 5
  | .vsel o => o.enc
  | .vmvx o => o.enc
  | .vmxv o => o.enc
  | .vrotr o => o.enc 0xD0
  | .vbcr o => o.enc 0xD1
  | .vrotc o => o.enc 0xD4
  | .vbcc o => o.enc 0xD5
  | .vredrAdd o => o.enc 0xD2 0
  | .vredrMin o => o.enc 0xD2 1
  | .vredrMax o => o.enc 0xD2 2
  | .vredrAnd o => o.enc 0xD2 3
  | .vredrOr o => o.enc 0xD2 4
  | .vredrXor o => o.enc 0xD2 5
  | .vscanrAdd o => o.enc 0xD3 0
  | .vscanrMin o => o.enc 0xD3 1
  | .vscanrMax o => o.enc 0xD3 2
  | .vscanrAnd o => o.enc 0xD3 3
  | .vscanrOr o => o.enc 0xD3 4
  | .vscanrXor o => o.enc 0xD3 5
  | .vredcAdd o => o.enc 0xD6 0
  | .vredcMin o => o.enc 0xD6 1
  | .vredcMax o => o.enc 0xD6 2
  | .vredcAnd o => o.enc 0xD6 3
  | .vredcOr o => o.enc 0xD6 4
  | .vredcXor o => o.enc 0xD6 5
  | .vscancAdd o => o.enc 0xD7 0
  | .vscancMin o => o.enc 0xD7 1
  | .vscancMax o => o.enc 0xD7 2
  | .vscancAnd o => o.enc 0xD7 3
  | .vscancOr o => o.enc 0xD7 4
  | .vscancXor o => o.enc 0xD7 5
  | .vpermr o => o.enc 0xDE 0
  | .viota o => o.enc
  | .vclmul o => o.enc
  | .vtli o => o.enc
  | .vtld o => o.enc
  | .vpack24 o => o.enc
  | .vunpk24 o => o.enc
  | .vldq o => o.enc
  | .vstq o => o.enc
  | .mand o => o.enc 0
  | .mor o => o.enc 1
  | .mxor o => o.enc 2
  | .mnot o => o.enc
  | .mpopc o => o.enc
  | .wLit v => 2 ^ 15 + v.toNat
  | .wExt v => 2 ^ 14 + v.toNat
  | .wNopw => encW 1 0
  | .wDup => encW 2 0
  | .wDrop => encW 3 0
  | .wXch => encW 4 0
  | .wOver => encW 5 0
  | .wShape n => encW 8 n.toNat
  | .wCopy c => encW 9 c.toNat
  | .wWalk dd d s => encW 0xA (bit1 dd * 16 + d.toNat * 4 + s.toNat)
  | .wHalo s => encW 0xB s.toNat
  | .wCodecCopy => encW 0xC 0
  | .wZbmDecode => encW 0xC 1
  | .wZbmEncode => encW 0xC 2
  | .wCb4PassThrough => encW 0xC 3
  | .wLrfExpand => encW 0xC 4
  | .wOsqEncode => encW 0xC 5
  | .wOsqDecode => encW 0xC 6
  | .wE8m0Requantise => encW 0xC 7
  | .wPathLogSeal => encW 0xC 8
  | .wTranspose => encW 0xC 9
  | .wCodecCustom r => encW 0xC (64 + r.toNat)
  | .wFoot gated write => encW 0xD (bit1 gated * 2 + bit1 write)
  | .wWaits s => encW 0x10 s.toNat
  | .wPosts s => encW 0x11 s.toNat
  | .wWaitr n => encW 0x12 n.toNat
  | .wPostrPost => encW 0x13 0
  | .wPostrThaw => encW 0x13 1
  | .wStagePair => encW 0x14 0
  | .wStageIteration => encW 0x14 1
  | .wStageSlot => encW 0x14 2
  | .wRngaWord q => encW 0x15 q.toNat
  | .wRngpWord close q => encW 0x16 (bit1 close * 16 + q.toNat)
  | .wLinkJump => encW 0x18 0
  | .wLinkBoundary => encW 0x18 1
  | .wEnd => encW 0x19 0
  | .transferComplete _ _ _ => 0
  | .kickedChainStart _ _ => 0
  | .chainBegin _ _ => 0
  | .ceStarvation _ _ => 0
  | .hostBar2Read _ _ _ _ => 0
  | .hostBar2Write _ _ _ _ => 0
  | .ldoor _ _ _ _ => 0
  | .launchCopyComplete _ _ _ => 0
  | .mbox _ _ _ _ _ => 0
  | .registerWrite _ _ _ _ => 0
  | .ctxnew _ _ => 0
  | .ctxkill _ _ => 0
  | .resume _ _ => 0
  | .preempt _ _ => 0
  | .routine _ _ => 0
  | .attest _ _ => 0
  | .dumprd _ _ => 0
  | .unknownCommand _ _ => 0
  | .powerOn _ _ => 0
  | .fullService _ _ => 0
  | .budgetPublish _ _ _ => 0
  | .powerStepDown _ _ => 0
  | .powerTrip _ => 0
  | .deviceFatal _ _ _ _ => 0
  | .taskSelect _ => 0
  | .stepRaise _ _ => 0
  | .steal _ => 0
  | .preemptionRequest _ => 0
  | .preemption _ => 0
  | .regionCommit _ => 0
  | .deferredEffect _ _ => 0
  | .storeDeparture _ _ => 0
  | .memoryPerformed _ _ => 0
  | .memoryResponse _ _ _ => 0
  | .countingWriteArrival _ _ => 0
  | .stampedWriteApply _ _ => 0
  | .semaphoreWaitProceed _ _ => 0
  | .rimeWaitProceed _ _ => 0
  | .ringWaitProceed _ _ => 0
  | .queueWaitProceed _ _ => 0
  | .queueEndEffect _ _ => 0
  | .rendezvousRelease _ => 0
  | .crewBarrierComplete _ _ _ => 0
  | .joinObserved _ => 0
  | .elasticIteration _ _ => 0
  | .spillFrame _ _ => 0
  | .fillFrame _ _ => 0
  | .asyncWriteComplete _ _ => 0
  | .meJobStart _ => 0
  | .passEnd _ => 0
  | .elasticLevelIteration _ => 0
  | .partialArrival _ _ _ => 0
  | .meJobComplete _ _ => 0
  | .pathLogPublish _ _ => 0
  | .metadataFault _ => 0
  | .meStarvation _ => 0
  | .mdrainComplete _ _ => 0
  | .tlbinvComplete _ _ => 0
  | .sealComplete _ _ => 0
  | .batchClose _ _ => 0
  | .batchSend _ _ => 0
  | .batchComplete _ _ => 0
  | .icequakeReport _ _ _ => 0
  | .recoverableTrap _ => 0
  | .trapFrameWrite _ => 0
  | .contextLost _ => 0
  | .watchdog _ => 0
  | .firnPublish _ _ => 0
  | .firnackDeadline _ _ => 0
  | .flitReceive _ _ _ _ => 0
  | .flitReplay _ _ _ => 0
  | .linkRetrain _ _ _ => 0
  | .linkDead _ _ _ => 0
  | .bankFailed _ _ _ => 0
  | .restripeStep _ _ => 0
  | .migrationSwitch _ _ => 0
  | .forwardingLapse _ _ => 0
  | .scrubUncorrectable _ _ => 0
  | .powerRemoval _ => 0
  | .hostSuspendRequest _ _ => 0
  | .migrationStart _ _ _ _ => 0
  | .linkRetrainDone _ _ _ => 0

/-- The instruction that an engine word is. -/
noncomputable def EWord.instr (e : EWord) : Instr :=
  match e with
  | .lit v => .wLit v
  | .ext v => .wExt v
  | .nopw => .wNopw
  | .dup => .wDup
  | .drop => .wDrop
  | .xch => .wXch
  | .overW => .wOver
  | .shape n => .wShape n
  | .copy c => .wCopy c
  | .walk dd d s => .wWalk dd d s
  | .halo s => .wHalo s
  | .codecCopy => .wCodecCopy
  | .zbmDecode => .wZbmDecode
  | .zbmEncode => .wZbmEncode
  | .cb4PassThrough => .wCb4PassThrough
  | .lrfExpand => .wLrfExpand
  | .osqEncode => .wOsqEncode
  | .osqDecode => .wOsqDecode
  | .e8m0Requantise => .wE8m0Requantise
  | .pathLogSeal => .wPathLogSeal
  | .transpose => .wTranspose
  | .codecCustom r => .wCodecCustom r
  | .foot gated write => .wFoot gated write
  | .waits s => .wWaits s
  | .posts s => .wPosts s
  | .waitr n => .wWaitr n
  | .postrPost => .wPostrPost
  | .postrThaw => .wPostrThaw
  | .stagePair => .wStagePair
  | .stageIteration => .wStageIteration
  | .stageSlot => .wStageSlot
  | .rngaWord q => .wRngaWord q
  | .rngpWord close q => .wRngpWord close q
  | .linkJump => .wLinkJump
  | .linkBoundary => .wLinkBoundary
  | .endW => .wEnd

/-- The decoder of 16-bit engine words (09 R128). -/
noncomputable def decodeEngine (w : Nat) : Except Reject Instr := EWord.instr <$> decodeWord w


/-! ## The host's question -/

/-- The instruction that the decoder reads from a word whose bits are `w`: an engine word when the table gives it 16 bits
or fewer, otherwise a 64-bit core word. A core word shorter than 64 bits has zeros above. -/
noncomputable def decodeTableWord (nbits w : Nat) : Option Instr :=
  if nbits ≤ 16 then (decodeEngine (w % 2 ^ 16)).toOption else (decodeCore (w % 2 ^ 64)).toOption

end Sys2Proof
end

