-- ==== Sys2Proof/Machine/Ops.lean ====
section
/-!
DEFINITION. The named operations over the state: packages, cells and jobs by name; time; records and events; traps (one shared
operation that raises one, one that takes it is in Machine/Recovery.lean); semaphores, deferred effects and results.
-/
namespace Sys2Proof

/-- The cell of a place (05 R62). -/
def Place.cell (p : Place) : Nat := p.die.toNat * 96 + p.row.toNat * 12 + p.col.toNat

def Core.eng (k : Core) : Eng :=
  match k with
  | .ac => .ac
  | .xc => .xc

/-- The other core of a cell. -/
def Core.other (k : Core) : Core :=
  match k with
  | .ac => .xc
  | .xc => .ac

/-- The core stream of an engine, where it is one. -/
def Eng.core? (e : Eng) : Option Core :=
  match e with
  | .ac => some .ac
  | .xc => some .xc
  | _ => none

def Eng.code (e : Eng) : Nat :=
  match e with
  | .ac => 0
  | .xc => 1
  | .ce0 => 2
  | .ce1 => 3

/-- SRC of a fault record (23 R340). -/
def Eng.src (e : Eng) : Nat :=
  match e with
  | .ac => 2
  | .xc => 3
  | .ce0 => 0
  | .ce1 => 1

end Sys2Proof

namespace Sys2Proof.Machine
open Sys2Proof

/-! ## Parts of the state by name -/

def State.pkg (s : State) (p : Nat) : Option Package := s.pkgs[p]?
def State.setPkg (s : State) (p : Nat) (x : Package) : State := { s with pkgs := s.pkgs.set p x }
def State.modPkg (s : State) (p : Nat) (f : Package → Package) : State := { s with pkgs := s.pkgs.modify p f }

def Package.cell (p : Package) (i : Nat) : Option CellState := p.cells[i]?
def Package.setCell (p : Package) (i : Nat) (x : CellState) : Package := { p with cells := p.cells.setIfInBounds i x }
def Package.modCell (p : Package) (i : Nat) (f : CellState → CellState) : Package :=
  match p.cell i with
  | some c => p.setCell i (f c)
  | none => p

def State.cell (s : State) (c : CellId) : Option CellState :=
  match s.pkg c.pkg with
  | some p => p.cell c.cell
  | none => none
def State.modCell (s : State) (c : CellId) (f : CellState → CellState) : State :=
  s.modPkg c.pkg (fun p => p.modCell c.cell f)

/-- The jobs that stand on a cell: running, held, trap-held in the running place. -/
def CellState.jobs (c : CellState) : List Job := c.job.toList ++ c.heldJob.toList ++ c.trapped.toList

/-- Change the job of a name on a cell, wherever it stands. -/
def CellState.modJob (c : CellState) (uid : Nat) (f : Job → Job) : CellState :=
  { c with
    job := c.job.map (fun j => if j.uid = uid then f j else j)
    heldJob := c.heldJob.map (fun j => if j.uid = uid then f j else j)
    trapped := c.trapped.map (fun j => if j.uid = uid then f j else j) }

def CellState.jobBy (c : CellState) (uid : Nat) : Option Job := c.jobs.find? (fun j => j.uid == uid)

def Package.ctx (p : Package) (id : Nat) : Option Context := p.ctxs.find? (fun x => x.id == id)
def Package.modCtx (p : Package) (id : Nat) (f : Context → Context) : Package :=
  { p with ctxs := p.ctxs.map (fun x => if x.id = id then f x else x) }

/-- The die of a cell index, and its place (05 R62). -/
def dieOf (cell : Nat) : Nat := cell / 96
def placeOfCell (cell : Nat) : Nat := (cell / 96) * 2 ^ 11 + (cell % 96 / 12) * 2 ^ 8 + (cell % 12) * 2 ^ 4
/-- The cell index of a place whose COL is below 12 (05 R62). -/
def cellOfPlace (pl : Nat) : Nat := fld pl 11 1 * 96 + fld pl 8 3 * 12 + fld pl 4 4
def placeReserved (pl : Nat) : Bool := 12 ≤ fld pl 4 4 || fld pl 0 4 != 0
/-- Whether the firn map lists a cell as live (23 R348). -/
def Package.live (p : Package) (cell : Nat) : Bool :=
  (p.firn.dies[dieOf cell]?.map (fun d => d.live.getLsbD (cell % 96))).getD false

/-! ## Time -/

/-- The package time base in ns (21 R318). Every package has the same one, with no skew (DESIGN CHOICE, notes/assumptions/83.md). -/
def State.ns (s : State) : Nat := s.now / Config.ticksPerNs

/-- The clk count of the die of a cell. -/
def Package.clkOf (p : Package) (cell : Nat) : Nat := (p.dies[dieOf cell]?.map (·.clk)).getD 0

/-- The quake window (01 R21, R24). -/
def quake : Nat := 160

/-- Let a die's clk run for some ticks at its clock step (00 R3). -/
def Die.advance (d : Die) (step : Nat) (dt : Nat) : Die :=
  { d with clk := d.clk + (d.frac + dt) / Config.clkTicks step, frac := (d.frac + dt) % Config.clkTicks step }

def Package.advance (p : Package) (dt : Nat) : Package :=
  { p with dies := Vector.ofFn (fun i => p.dies[i].advance p.firn.dies[i].step.toNat dt) }

def State.advance (s : State) (dt : Nat) : State :=
  { s with now := s.now + dt, pkgs := s.pkgs.map (·.advance dt) }

/-! ## A running core stream -/

/-- What a core instruction works on: the package, the cell and the job it runs in, taken out of the state. -/
structure Here where
  s : State
  id : CellId
  k : Core
  pk : Package
  ce : CellState
  jb : Job
  bad : Option Fault            -- the access met a frame outside HBM

def Job.core (j : Job) (k : Core) : CoreState :=
  match k with
  | .ac => j.ac
  | .xc => j.xc
def Job.setCore (j : Job) (k : Core) (x : CoreState) : Job :=
  match k with
  | .ac => { j with ac := x }
  | .xc => { j with xc := x }
def Job.eng (j : Job) (e : BitVec 1) : EngState := if e = 0 then j.ce0 else j.ce1
def Job.setEng (j : Job) (e : BitVec 1) (x : EngState) : Job := if e = 0 then { j with ce0 := x } else { j with ce1 := x }

def Here.st (h : Here) : CoreState := h.jb.core h.k
def Here.setSt (h : Here) (x : CoreState) : Here := { h with jb := h.jb.setCore h.k x }
def Here.clk (h : Here) : Nat := h.pk.clkOf h.id.cell
def Here.ctx (h : Here) : Option Context := h.pk.ctx h.jb.ctx
/-- The region in which the stream is. -/
def Here.region (h : Here) : Nat := h.st.region

/-- The state with the package, cell and job put back. -/
def Here.close (h : Here) : State :=
  h.s.setPkg h.id.pkg (h.pk.setCell h.id.cell { h.ce with job := some h.jb })

/-- The stream that is moving, when it is a core stream of a job. -/
def State.here (s : State) : Option Here :=
  match s.cur.2.core?, s.pkg s.cur.1.pkg with
  | some k, some p =>
    match p.cell s.cur.1.cell with
    | some c =>
      match c.job with
      | some j => some ⟨s, s.cur.1, k, p, c, j, none⟩
      | none => none
    | none => none
  | _, _ => none

/-- The outcome of a stream's step: the next state, or the fault that an access met. -/
def Here.outcome (h : Here) : Out :=
  match h.bad with
  | none => .next h.close
  | some e => .fault e

/-- A core instruction's meaning from what it does here. A stream that does not exist makes no step
(DESIGN CHOICE, notes/assumptions/15.md). -/
def onCore (s : State) (f : Here → Here) : Out :=
  match s.here with
  | some h => (f h).outcome
  | none => .next s

/-- A fresh name for an operation, a chain, a transfer. -/
def Here.fresh (h : Here) : Nat × Here := (h.s.nextId, { h with s := { h.s with nextId := h.s.nextId + 1 } })

/-! ## Traps -/

/-- The record of 32 bytes of 23 R330, from its first bytes. -/
def krec (bs : List Byte) : List Byte := padTo 32 bs

def trapOf (code : Nat) (e : Eng) (region : Nat) (pc : Word) (kr : List Byte) : Trap :=
  ⟨code, 0, 0, krec kr, e, 0, false, region, pc⟩

/-- Raise a recoverable trap: it is recorded with the job and taken by RECOVERABLE_TRAP (23 R332, R336). The stream stands
at the word, whose effect is not made. -/
def Here.raise (h : Here) (t : Trap) : Here := { h with jb := { h.jb with traps := h.jb.traps ++ [t] } }

/-- The trap codes (23 R330). -/
def Here.illegalWord (h : Here) (w : Word) : Here :=
  h.raise (trapOf 0x01 h.k.eng h.region h.st.pc (wordLe w ++ natLe h.k.eng.code 1))

def PfKind.code (k : PfKind) : Nat :=
  match k with
  | .bounds => 1
  | .alignment => 2
  | .place => 3
  | .absent => 4
  | .world => 5
  | .notPresent => 6
  | .readOnly => 7
  | .compressed => 8
  | .malformed => 9
  | .hostAtomic => 10
  | .sealLimit => 11

/-- Access codes of a page fault's record (23 R330, code 0x0D). -/
inductive Acc where
  | load | store | atomic | fetch | engRead | engWrite | system
  deriving DecidableEq, Repr

def Acc.code (a : Acc) : Nat :=
  match a with
  | .load => 0
  | .store => 1
  | .atomic => 2
  | .fetch => 3
  | .engRead => 4
  | .engWrite => 5
  | .system => 6

def Acc.writes (a : Acc) : Bool :=
  match a with
  | .store | .atomic | .engWrite => true
  | _ => false

/-- The trap of a failing check. -/
def failTrap (f : AccFail) (a : Acc) (e dlv : Eng) (addr : Word) (region : Nat) (pc : Word) (rmt : Bool) : Trap :=
  match f with
  | .sealedWrite => ⟨0x0A, 0, addr, krec (wordLe addr ++ natLe e.code 1), dlv, 0, rmt, region, pc⟩
  | .page k => ⟨0x0D, k.code, addr, krec (natLe a.code 1 ++ natLe e.code 1), dlv, 0, rmt, region, pc⟩
  | _ => ⟨0x0D, 0, addr, krec [], dlv, 0, rmt, region, pc⟩

/-- Consumption of data poison by a job's context (23 R342, R344); step answers it before anything else. -/
def Package.lose (p : Package) (l : Loss) : Package := { p with losses := p.losses ++ [l] }

def Here.consume (h : Here) (vaddr : Word) : Here :=
  { h with pk := h.pk.lose ⟨h.jb.ctx, 1, placeOfCell h.id.cell, vaddr, h.k.eng.src⟩ }

/-- A failing check of an access of the running stream. -/
def Here.accFail (h : Here) (f : AccFail) (a : Acc) (addr : Word) : Here :=
  match f with
  | .noFrame => { h with bad := some .noSuchFrame }
  | .poisoned => h.consume addr
  | f => h.raise (failTrap f a h.k.eng h.k.eng addr h.region h.st.pc false)

/-- The use of a poisoned value (07 R97): register number and operand field go to the record (23 R330, codes 0x04, 0x05);
data poison is consumption. -/
def Here.useTrap (h : Here) (p : Poison) (reg field : Nat) : Here :=
  match p with
  | .none => h
  | .data => h.consume 0
  | p => h.raise { trapOf (if p = .race then 0x04 else 0x05) h.k.eng h.region h.st.pc (natLe reg 1 ++ natLe field 1) with
      psn := p.code }

/-- Semaphore overflow (23 R330, code 0x0C): what, which, the value refused. -/
def Here.overflow (h : Here) (what ix : Nat) (v : Nat) : Here :=
  h.raise (trapOf 0x0C h.k.eng h.region h.st.pc (natLe what 1 ++ natLe ix 1 ++ natLe 0 6 ++ natLe v 8))

/-- Queue underflow and overflow name the queue by its register number (23 R330). -/
def Here.queueTrap (h : Here) (full : Bool) (reg : Nat) : Here :=
  h.raise (trapOf (if full then 0x03 else 0x02) h.k.eng h.region h.st.pc (natLe reg 1))

/-- Whether a stream has raised a trap that has not been taken: it does not move. -/
def Job.trapPending (j : Job) (e : Eng) : Bool := j.traps.any (fun t => t.dlv == e)

/-! ## Results and progress (01 R21, R36) -/

/-- A result of a region is written now. -/
def Job.result (j : Job) (region clk : Nat) : Job := { j with results := put j.results region clk }

def Here.note (h : Here) : Here := { h with jb := { h.jb.result h.region h.clk with progress := h.clk } }

/-- A write of state that has flags (23 R337): both are set. -/
def Job.touch (j : Job) (k : Kept) : Job := { j with inUse := addOnce j.inUse k, dirty := addOnce j.dirty k }

/-! ## What an operation is -/

/-- Its bytes at the target. -/
def MemOp.bytes (o : MemOp) : Nat :=
  match o.what with
  | .load n _ _ => n
  | .store d _ => d.length
  | .atomic _ dbl .. => if dbl then 8 else 4
  | _ => 0

def MemOp.acc (o : MemOp) : Acc :=
  match o.what with
  | .store _ _ => .store
  | .atomic .. => .atomic
  | _ => .load

def MemOp.isStore (o : MemOp) : Bool :=
  match o.what with
  | .store _ _ => true
  | _ => false
def MemOp.isAtomic (o : MemOp) : Bool :=
  match o.what with
  | .atomic .. => true
  | _ => false
def MemOp.isLoad (o : MemOp) : Bool :=
  match o.what with
  | .load .. => true
  | _ => false
def MemOp.writes (o : MemOp) : Bool := o.isStore || o.isAtomic

/-- An .arr store (13 R179). -/
def MemOp.arr (o : MemOp) : Bool :=
  match o.what with
  | .store _ a => a
  | _ => false

/-- Whether it waits for every operation ordered before it: rel, and every .arr store (07 R98, R382). -/
def MemOp.isRel (o : MemOp) : Bool := o.ord == .rel || o.ord == .acqrel || o.arr

/-- An operation that has not completed (07 R94). -/
def MemOp.incomplete (o : MemOp) : Bool := o.status != .complete

/-! ## Semaphores and deferred effects (01 R23, 13 R190) -/

/-- Whether an operation is performed: it is not in the list, or it has come that far. -/
def opPerformed (ops : List MemOp) (id : Nat) : Bool :=
  ops.all (fun o => o.id != id || o.status == .applied || o.status == .complete)

def predsDone (ops : List MemOp) (preds : List Nat) : Bool := preds.all (opPerformed ops)

/-- Whether a deferred effect may be made: its predecessors are performed, and the operation whose completion it posts has
completed (07 R382, 09 R114). -/
def Deferred.ready (ops : List MemOp) (d : Deferred) : Bool := predsDone ops d.preds && predsDone ops d.src.toList

/-- The decrements of a semaphore made after a place in issue order. -/
def Sem.decsAfter (m : Sem) (seq : Nat) : Nat := (m.decs.filter (fun d => seq < d.2)).length

/-- The pending list of a semaphore, in issue order: due effects of the job first. -/
def semPending (due : List Due) (j : Job) : List Deferred := (due.filter (fun d => d.job == j.uid)).map (·.d) ++ j.deferred

/-- One pending change applied to a count. -/
def semApply (m : Sem) (s : BitVec 6) (c : Int) (d : Deferred) : Int :=
  match d.eff with
  | .semPost s' a => if s' = s then c + a else c
  | .semSet s' v => if s' = s then (v : Int) - m.decsAfter d.seq else c
  | _ => c

/-- The view V: C with the pending list applied in issue order, a post counting once its predecessors have been performed
(13 R190, 07 R382). -/
def semView (ops : List MemOp) (due : List Due) (j : Job) (s : BitVec 6) : Int :=
  ((semPending due j).filter (fun d => d.ready ops && !j.me.tasks.any (fun t => d.src == some t.id))).foldl (semApply j.sems[s.toFin] s) j.sems[s.toFin].c

def Here.semView (h : Here) (s : BitVec 6) : Int := Machine.semView h.ce.ops h.ce.due h.jb s

/-- A wait's decrement (13 R190): at once, noted with its region so that a rollback restores it. It also ends the pending
state of asynchronous writes that have completed and post this semaphore, for the XC (15 R229), again until a rollback (DEDUCED, notes/assumptions/39.md). -/
def Job.semTake (j : Job) (s : BitVec 6) (region : Nat) (xc : Bool) : Job :=
  { j with
    sems := j.sems.set s.toFin { j.sems[s.toFin] with
      c := j.sems[s.toFin].c - 1, decs := j.sems[s.toFin].decs ++ [(some region, j.seq)] }
    seq := j.seq + 1
    async := if xc then j.async.map (fun w =>
      if w.complete && w.endedBy.isNone && w.sem == some s then { w with endedBy := some region } else w) else j.async }

/-- Record a deferred effect of the word at `pc`. -/
def Job.defer (j : Job) (region : Nat) (e : Eng) (pc : Word) (os : Option (BitVec 3)) (preds : List Nat) (src : Option Nat)
    (eff : Effect) : Job :=
  { j with deferred := j.deferred ++ [⟨j.seq, region, e, pc, os, preds, src, eff⟩], seq := j.seq + 1 }

/-- Record a deferred effect of the word at the pc of the running stream. -/
def Here.defer (h : Here) (os : Option (BitVec 3)) (preds : List Nat) (src : Option Nat) (eff : Effect) : Here :=
  { h with jb := h.jb.defer h.region h.k.eng h.st.pc os preds src eff }

/-- The two cores by index. -/
def coreIx (k : Core) : Fin 2 :=
  match k with
  | .ac => 0
  | .xc => 1

/-- The ERR bit of an ordering stream of an engine stream (23 R335). -/
def Job.setErr (j : Job) (e : Eng) (os : BitVec 3) : Job :=
  match e.core? with
  | some k => { j with osErr := j.osErr.set (coreIx k) (j.osErr[coreIx k] ||| (1#8 <<< os.toNat)) }
  | none => j

/-- The largest count of a semaphore (13 R191). -/
def semMax : Nat := 2 ^ 32 - 1

end Sys2Proof.Machine
end

