-- ==== Sys2Proof/Machine/Flags.lean ====
section
/-!
DEFINITION. The flags and fields of nmctl (03 R51) and every flag computation: which flag an operation sets is decided where its
result is (Machine/Float.lean) and accumulated here.
-/
namespace Sys2Proof.Machine
open Sys2Proof

/-- The flags of one result, in nmctl's layout. -/
abbrev Fl := BitVec 10

def flNone : Fl := 0
def flNV : Fl := 0x020
def flOF : Fl := 0x040
def flUF : Fl := 0x080
def flNX : Fl := 0x100
def flSAT : Fl := 0x200

/-- A flag where a condition holds. -/
def flIf (b : Bool) (f : Fl) : Fl := if b then f else 0

/-- FTZ, DAZ and RM of nmctl. -/
def nmFtz (n : BitVec 10) : Bool := n.getLsbD 4
def nmDaz (n : BitVec 10) : Bool := n.getLsbD 3
def nmRm (n : BitVec 10) : Nat := n.toNat % 8

/-- The flags are sticky. -/
def Here.setFlags (h : Here) (f : Fl) : Here := h.setSt { h.st with nmctl := h.st.nmctl ||| f }

end Sys2Proof.Machine
end

