-- ==== Sys2Proof/Machine/Float.lean ====
section
/-!
DEFINITION. Number formats and arithmetic (03 R39 to R54): every value is held exactly, as a sign, a natural number and a power
of two, and rounded once.
-/
namespace Sys2Proof.Machine
open Sys2Proof

/-! ## Formats (R39) -/

/-- How a format uses its top exponent: infinity and NaN, the one NaN of E4M3, or neither. -/
inductive FKind where
  | ieee | e4m3 | e2m1
  deriving DecidableEq, Repr

/-- A floating-point format: exponent bits, mantissa bits, bias. -/
structure Fmt where
  eb : Nat
  mb : Nat
  bias : Nat
  kind : FKind
  deriving DecidableEq, Repr

def fmtF32 : Fmt := ⟨8, 23, 127, .ieee⟩
def fmtBF16 : Fmt := ⟨8, 7, 127, .ieee⟩
def fmtF16 : Fmt := ⟨5, 10, 15, .ieee⟩
def fmtE4M3 : Fmt := ⟨4, 3, 7, .e4m3⟩
def fmtE5M2 : Fmt := ⟨5, 2, 15, .ieee⟩
def fmtE2M1 : Fmt := ⟨2, 1, 1, .e2m1⟩

/-- The bits below the sign. -/
def Fmt.magBits (f : Fmt) : Nat := f.eb + f.mb

/-- An exact number. -/
inductive Num where
  | nan
  | inf (neg : Bool)
  | fin (neg : Bool) (m : Nat) (e : Int)     -- m * 2^e
  deriving DecidableEq, Repr

def Num.zero : Num := .fin false 0 0

/-- The value of a code. -/
def Fmt.decode (f : Fmt) (w : Nat) : Num :=
  let neg := bitAt w f.magBits
  let x := fld w f.mb f.eb
  let m := fld w 0 f.mb
  if f.kind = .ieee ∧ x = 2 ^ f.eb - 1 then (if m = 0 then .inf neg else .nan)
  else if f.kind = .e4m3 ∧ x = 2 ^ f.eb - 1 ∧ m = 2 ^ f.mb - 1 then .nan
  else if x = 0 then .fin neg m (1 - (f.bias : Int) - f.mb)
  else .fin neg (m + 2 ^ f.mb) ((x : Int) - f.bias - f.mb)

/-- The code of the canonical NaN (R47); E2M1 has none and gives +0. -/
def Fmt.nanCode (f : Fmt) : Nat :=
  match f.kind with
  | .ieee => (2 ^ f.eb - 1) * 2 ^ f.mb + 2 ^ (f.mb - 1)
  | .e4m3 => 2 ^ f.magBits - 1
  | .e2m1 => 0

def Fmt.signed (f : Fmt) (neg : Bool) (mag : Nat) : Nat := bit1 neg * 2 ^ f.magBits + mag

def Fmt.infCode (f : Fmt) (neg : Bool) : Nat := f.signed neg ((2 ^ f.eb - 1) * 2 ^ f.mb)

/-- The code of the largest finite magnitude. -/
def Fmt.maxCode (f : Fmt) : Nat :=
  match f.kind with
  | .ieee => (2 ^ f.eb - 1) * 2 ^ f.mb - 1
  | .e4m3 => 2 ^ f.magBits - 2
  | .e2m1 => 2 ^ f.magBits - 1

/-- The largest finite magnitude as a natural number and an exponent. -/
def Fmt.maxFin (f : Fmt) : Nat × Int :=
  match f.decode f.maxCode with
  | .fin _ m e => (m, e)
  | _ => (0, 0)

/-- The exponent of the smallest step, and of the smallest normal number. -/
def Fmt.qMin (f : Fmt) : Int := 1 - (f.bias : Int) - f.mb
def Fmt.eMin (f : Fmt) : Int := 1 - (f.bias : Int)

/-! ## Magnitudes -/

/-- m * 2^e against n * 2^d. -/
def magLt (m : Nat) (e : Int) (n : Nat) (d : Int) : Bool :=
  if e ≤ d then m < n * 2 ^ (d - e).toNat else m * 2 ^ (e - d).toNat < n

/-- Whether a nonzero magnitude lies below the smallest normal number. -/
def Fmt.tiny (f : Fmt) (m : Nat) (e : Int) : Bool := magLt m e 1 f.eMin

/-! ## Rounding (R45) -/

inductive Mode where
  | rne | rtz | rup | rdn
  deriving DecidableEq, Repr

/-- How a rounding is made: in a mode, or stochastically with the 32 bits u of a draw (R49). -/
inductive Rnd where
  | mode (m : Mode)
  | sr (u : Nat)
  deriving DecidableEq, Repr

/-- Whether the magnitude `lo + rem / 2^sh` is rounded up to `lo + 1`; `rem` is not 0. -/
def roundUp (r : Rnd) (neg : Bool) (lo rem sh : Nat) : Bool :=
  match r with
  | .mode .rtz => false
  | .mode .rup => !neg
  | .mode .rdn => neg
  | .mode .rne =>
    if 2 * rem = 2 ^ sh then lo % 2 == 1 else 2 ^ sh < 2 * rem
  | .sr u =>
    if neg then !(u < (2 ^ sh - rem) * 2 ^ 32 / 2 ^ sh)
    else u < rem * 2 ^ 32 / 2 ^ sh

/-- A nonzero magnitude rounded to multiples of 2^q: the multiple, and whether it is inexact. -/
def roundAt (r : Rnd) (neg : Bool) (m : Nat) (e q : Int) : Nat × Bool :=
  if q ≤ e then (m * 2 ^ (e - q).toNat, false)
  else
    let sh := (q - e).toNat
    if m % 2 ^ sh = 0 then (m / 2 ^ sh, false)
    else (m / 2 ^ sh + bit1 (roundUp r neg (m / 2 ^ sh) (m % 2 ^ sh) sh), true)

/-- The step of a magnitude in a format, with an unbounded exponent range. -/
def Fmt.step (f : Fmt) (m : Nat) (e : Int) : Int := max (e + m.log2 - f.mb) f.qMin

/-- The code of a representable magnitude r * 2^q, with r at most 2^(mb + 1). -/
def Fmt.magCode (f : Fmt) (r : Nat) (q : Int) : Nat :=
  if r < 2 ^ f.mb then r
  else if r = 2 ^ (f.mb + 1) then (q + 1 + f.mb + f.bias).toNat * 2 ^ f.mb
  else (q + f.mb + f.bias).toNat * 2 ^ f.mb + (r - 2 ^ f.mb)

/-- Whether a mode sends an overflowing value of a sign to the largest finite value (R46). -/
def towardZero (r : Rnd) (neg : Bool) : Bool :=
  match r with
  | .mode .rtz => true
  | .mode .rup => neg
  | .mode .rdn => !neg
  | _ => false

/-- Whether S means saturation for a target (R46). -/
def Fmt.saturates (f : Fmt) (s : Bool) : Bool :=
  match f.kind with
  | .e2m1 => true
  | .e4m3 => !s
  | .ieee => if f = fmtE5M2 then !s else s

/-- An overflow (R46). -/
def Fmt.overflow (f : Fmt) (r : Rnd) (s neg : Bool) : Nat × Fl :=
  if towardZero r neg then (f.signed neg f.maxCode, flOF ||| flNX)
  else if f.saturates s then (f.signed neg f.maxCode, flOF ||| flNX ||| flSAT)
  else if f.kind = .e4m3 then (f.nanCode, flOF ||| flNX)
  else (f.infCode neg, flOF ||| flNX)

/-- Round a finite number once (R45, R46, R51), flushing a subnormal result where `ftz` asks (R52, 11 R147). -/
def Fmt.roundFin (f : Fmt) (r : Rnd) (s ftz neg : Bool) (m : Nat) (e : Int) : Nat × Fl :=
  if m = 0 then (f.signed neg 0, 0)
  else
    let q := f.step m e
    let x := roundAt r neg m e q
    if magLt f.maxFin.1 f.maxFin.2 x.1 q then f.overflow r s neg
    else
      let fl := flIf x.2 flNX ||| flIf (x.2 && f.tiny m e) flUF
      if ftz && x.1 != 0 && f.tiny x.1 q then (f.signed neg 0, flUF ||| flNX)
      else (f.signed neg (f.magCode x.1 q), fl)

/-- The result of an arithmetic operation (R46, R53): exact infinities stay. -/
def Fmt.result (f : Fmt) (r : Rnd) (s ftz : Bool) (x : Num) : Nat × Fl :=
  match x with
  | .nan => (f.nanCode, 0)
  | .inf neg => (f.infCode neg, 0)
  | .fin neg m e => f.roundFin r s ftz neg m e

/-- A conversion to a floating format (R46 to R49). -/
def Fmt.convert (f : Fmt) (r : Rnd) (s ftz : Bool) (x : Num) : Nat × Fl :=
  match x with
  | .nan => (f.nanCode, flIf (f.kind == .e2m1) flNV)
  | .inf neg =>
    if f.saturates s then (f.signed neg f.maxCode, flSAT)
    else if f.kind = .e4m3 then (f.nanCode, flNV)
    else (f.infCode neg, 0)
  | .fin neg m e => f.roundFin r s ftz neg m e

/-! ## Integers (R43, R48) -/

/-- An integer type: width and whether it is signed. -/
structure IFmt where
  w : Nat
  signed : Bool
  deriving DecidableEq, Repr

def IFmt.min (f : IFmt) : Int := if f.signed then -(2 ^ (f.w - 1) : Int) else 0
def IFmt.max (f : IFmt) : Int := if f.signed then (2 ^ (f.w - 1) : Int) - 1 else (2 ^ f.w : Int) - 1

/-- The number that the low bits stand for. -/
def IFmt.decode (f : IFmt) (x : Nat) : Int := if f.signed then sint f.w x else (x % 2 ^ f.w : Nat)

/-- The low bits of a number. -/
def IFmt.encode (f : IFmt) (i : Int) : Nat := (i % (2 ^ f.w : Int)).toNat

/-- An integer as an exact number. -/
def numOfInt (i : Int) : Num := .fin (i < 0) i.natAbs 0

/-- A conversion to an integer: round, then saturate; SAT as of every target in R46 (R46 to R48, R51; DEDUCED,
notes/assumptions/40.md). -/
def IFmt.convert (f : IFmt) (r : Rnd) (x : Num) : Int × Fl :=
  match x with
  | .nan => (0, flNV)
  | .inf neg => (if neg then f.min else f.max, flSAT)
  | .fin neg m e =>
    let y := roundAt r neg m e 0
    let i : Int := if neg then -(y.1 : Int) else y.1
    let fl := flOF ||| flNX ||| flIf (!towardZero r neg) flSAT
    if i < f.min then (f.min, fl)
    else if f.max < i then (f.max, fl)
    else (i, flIf y.2 flNX)

/-- I-class arithmetic (15 R208): wrap, or saturate with SAT. -/
def IFmt.arith (f : IFmt) (s : Bool) (i : Int) : Nat × Fl :=
  if s && i < f.min then (f.encode f.min, flSAT)
  else if s && f.max < i then (f.encode f.max, flSAT)
  else (f.encode i, 0)

/-! ## Exact operations (R53) -/

def Num.isNan (x : Num) : Bool :=
  match x with
  | .nan => true
  | _ => false

/-- The sign of an exact zero sum: that of two zeros of one sign, else minus only under rdn. -/
def zeroSign (r : Rnd) (a b : Bool) : Bool := if a = b then a else r == .mode .rdn

/-- The signed integer m * 2^(e - d). -/
def scaled (neg : Bool) (m : Nat) (e d : Int) : Int :=
  if neg then -((m * 2 ^ (e - d).toNat : Nat) : Int) else ((m * 2 ^ (e - d).toNat : Nat) : Int)

def Num.add (r : Rnd) (x y : Num) : Num :=
  match x, y with
  | .nan, _ | _, .nan => .nan
  | .inf a, .inf b => if a = b then .inf a else .nan
  | .inf a, _ => .inf a
  | _, .inf b => .inf b
  | .fin a m e, .fin b n d =>
    if m = 0 ∧ n = 0 then .fin (zeroSign r a b) 0 0
    else
      let i := scaled a m e (min e d) + scaled b n d (min e d)
      if i = 0 then .fin (r == .mode .rdn) 0 0 else .fin (i < 0) i.natAbs (min e d)

def Num.neg (x : Num) : Num :=
  match x with
  | .nan => .nan
  | .inf a => .inf (!a)
  | .fin a m e => .fin (!a) m e

def Num.abs (x : Num) : Num :=
  match x with
  | .nan => .nan
  | .inf _ => .inf false
  | .fin _ m e => .fin false m e

def Num.mul (x y : Num) : Num :=
  match x, y with
  | .nan, _ | _, .nan => .nan
  | .inf a, .inf b => .inf (a != b)
  | .inf a, .fin b n _ => if n = 0 then .nan else .inf (a != b)
  | .fin a m _, .inf b => if m = 0 then .nan else .inf (a != b)
  | .fin a m e, .fin b n d => .fin (a != b) (m * n) (e + d)

/-- a * b + c with one rounding to come. -/
def Num.fma (r : Rnd) (a b c : Num) : Num := (a.mul b).add r c

/-- Ordered comparison (R53): none with a NaN; -0 equals +0. -/
def Num.cmp (x y : Num) : Option Ordering :=
  match x, y with
  | .nan, _ | _, .nan => none
  | .inf a, .inf b => some (compare (bit1 b) (bit1 a))
  | .inf a, _ => some (if a then .lt else .gt)
  | _, .inf b => some (if b then .gt else .lt)
  | .fin a m e, .fin b n d => some (compare (scaled a m e (min e d)) (scaled b n d (min e d)))

def Num.isNeg (x : Num) : Bool :=
  match x with
  | .nan => false
  | .inf a => a
  | .fin a _ _ => a

/-- MIN and MAX (R53): -0 lies below +0; a NaN makes the result NaN. -/
def Num.min (x y : Num) : Num :=
  match x.cmp y with
  | none => .nan
  | some .lt => x
  | some .gt => y
  | some .eq => if x.isNeg then x else y
def Num.max (x y : Num) : Num :=
  match x.cmp y with
  | none => .nan
  | some .lt => y
  | some .gt => x
  | some .eq => if x.isNeg then y else x

/-! ## Reciprocals (15 R210): the quotient with a sticky bit below its 64 leading bits -/

/-- The integer square root, one bit at a time from bit `k - 1` down. -/
def isqrtFrom (n k r : Nat) : Nat :=
  match k with
  | 0 => r
  | k + 1 => isqrtFrom n k (if (r + 2 ^ k) * (r + 2 ^ k) ≤ n then r + 2 ^ k else r)

def isqrt (n : Nat) : Nat := isqrtFrom n (n.log2 / 2 + 1) 0

def Num.rcp (x : Num) : Num :=
  match x with
  | .nan => .nan
  | .inf a => .fin a 0 0
  | .fin a m e =>
    if m = 0 then .inf a
    else
      let k := m.log2 + 64
      .fin a (2 * (2 ^ k / m) + bit1 (2 ^ k % m != 0)) (-e - k - 1)

def Num.rsq (x : Num) : Num :=
  match x with
  | .nan => .nan
  | .inf a => if a then .nan else .fin false 0 0
  | .fin a m e =>
    if m = 0 then .inf a
    else if a then .nan
    else
      let m' := if e % 2 = 0 then m else 2 * m
      let h := e / 2
      let k := m'.log2 + 64
      let q := isqrt (2 ^ (2 * k) / m')
      .fin false (2 * q + bit1 (q * q * m' != 2 ^ (2 * k))) (-h - k - 1)

/-! ## Inputs (R52) -/

/-- DAZ: a subnormal input is read as zero of its sign. -/
def Fmt.input (f : Fmt) (daz : Bool) (w : Nat) : Num :=
  match f.decode w with
  | .fin a m e => if daz && m != 0 && f.tiny m e then .fin a 0 0 else .fin a m e
  | x => x

/-- NV of an operation: a NaN made from inputs that are none (R51). -/
def invalid (ins : List Num) (x : Num) : Fl := flIf (x.isNan && !ins.any Num.isNan) flNV

/-! ## Draws (R49) -/

/-- The next state of a generator, which is the draw. -/
def nextDraw (s : Word) : Word :=
  let a := s ^^^ (s <<< 13)
  let b := a ^^^ (a >>> 7)
  b ^^^ (b <<< 17)

/-- Bits 63:32 of a draw. -/
def drawU (s : Word) : Nat := s.toNat / 2 ^ 32

/-! ## Element types -/

def etFmt (t : ET) : Option Fmt :=
  match t with
  | .f32 => some fmtF32
  | .bf16 => some fmtBF16
  | .f16 => some fmtF16
  | .e4m3 => some fmtE4M3
  | .e5m2 => some fmtE5M2
  | .e2m1 => some fmtE2M1
  | _ => none

def etIfmt (t : ET) : IFmt :=
  match t with
  | .i8 => ⟨8, true⟩
  | .u8 => ⟨8, false⟩
  | .i4 => ⟨4, true⟩
  | _ => ⟨32, true⟩

/-! ## Element types -/

/-- The bits of an element. -/
def etBits (t : ET) : Nat :=
  match t with
  | .f32 | .i32 => 32
  | .bf16 | .f16 => 16
  | .e4m3 | .e5m2 | .i8 | .u8 => 8
  | .e2m1 | .i4 => 4

end Sys2Proof.Machine
end

