-- ==== Sys2Proof/Machine/Firn.lean ====
section
/-!
DEFINITION. The firn map as a page of bytes (23 R348), versions and their publication (R347), coordinates (05 R63, 21 R321).
-/
namespace Sys2Proof.Machine
open Sys2Proof

/-- The G address of the firn map page (25 R371). -/
def firnBase : Nat := 0xFFFFF000

/-! ## Coordinates (05 R63): X in bits 9:6, Y in bits 5:3, Z in bits 2:0 -/

def coordX (c : BitVec 10) : Nat := fld c.toNat 6 4
def coordY (c : BitVec 10) : Nat := fld c.toNat 3 3
def coordZ (c : BitVec 10) : Nat := fld c.toNat 0 3

/-- The index x + 16 y + 128 z of a logical package (23 R348). -/
def coordIndex (c : BitVec 10) : Nat := coordX c + 16 * coordY c + 128 * coordZ c

def coordOfIndex (i : Nat) : BitVec 10 := BitVec.ofNat 10 (i % 16 * 64 + i / 16 % 8 * 8 + i / 128 % 8)

/-- Whether a coordinate lies in the domain's extents (05 R63). -/
def Firn.inExtent (f : Firn) (c : BitVec 10) : Bool :=
  coordX c < f.ext.1.toNat && coordY c < f.ext.2.1.toNat && coordZ c < f.ext.2.2.toNat

/-- The physical coordinate of a logical one (05 R63); the identity where no relabelling has changed it. -/
def Firn.physical (f : Firn) (c : BitVec 10) : BitVec 10 := (look f.relabel (coordIndex c)).getD c

def Firn.isLost (f : Firn) (c : BitVec 10) : Bool := f.lost.contains (coordIndex c)

/-- The package of the domain at a physical coordinate. -/
def State.pkgAt (s : State) (c : BitVec 10) : Option Nat := s.pkgs.findIdx? (fun p => p.coord == c)

/-! ## The page -/

def DieMap.bytes (d : DieMap) : List Byte :=
  natLe d.step.toNat 8 ++ natLe d.live.toNat 12 ++ natLe d.secure.toNat 12 ++ natLe 0 8

def StackMap.bytes (t : StackMap) : List Byte :=
  natLe t.banks.toNat 16 ++ natLe (bit1 t.restriping) 1 ++ natLe t.wmark.toNat 1 ++ natLe (bit1 t.full) 1 ++ natLe 0 13

/-- Entry `i` of RELABEL: valid for a logical package of the domain, zero elsewhere (DEDUCED, notes/assumptions/68.md). -/
def Firn.relabelEntry (f : Firn) (i : Nat) : Nat :=
  if f.inExtent (coordOfIndex i) then (f.physical (coordOfIndex i)).toNat + 2 ^ 15 else 0

/-- The 4,096 bytes of the page (23 R348). -/
def Firn.bytes (f : Firn) : List Byte :=
  natLe f.version.toNat 4 ++ [f.level, f.mefmt, f.ext.1, f.ext.2.1, f.ext.2.2, 0] ++ natLe f.self.toNat 2 ++
  natLe f.change.toNat 4 ++ wordLe f.time ++
  f.dies.toList.flatMap DieMap.bytes ++ f.stackMaps.toList.flatMap StackMap.bytes ++
  f.ports.toList ++ natLe 0 146 ++
  (List.range 128).map (fun b => BitVec.ofNat 8 ((List.range 8).foldl
    (fun n i => n + bit1 (f.lost.contains (8 * b + i)) * 2 ^ i) 0)) ++
  (List.range 1024).flatMap (fun i => natLe (f.relabelEntry i) 2) ++
  f.places.toList.flatMap (fun p => natLe (match p with | some x => x.toNat + 2 ^ 15 | none => 0) 2) ++
  natLe 0 1024

/-- The bytes at an offset of the page: the part of the word the access reads. -/
def Firn.read (f : Firn) (off n : Nat) : List Byte := padTo n (f.bytes.drop off)

/-! ## Publication (23 R347, R349) -/

/-- The bits of CHANGE. -/
def chLevel : Nat := 1
def chClock : Nat := 2
def chCells : Nat := 4
def chHbm : Nat := 8
def chLinks : Nat := 16
def chPeers : Nat := 32

/-- The contexts that have a resident job on the package. -/
def Package.residents (p : Package) : List Nat :=
  p.cells.toList.foldl (fun l c => unionOnce l (c.jobs.map (·.ctx))) []

/-- A new version of the map: the change is made, VERSION increments, and the deadlines of R349 are set: one ms after
publication for every context with a resident job, else one ms after its next dispatch. `publish` (Rime.lean) adds the
events. -/
def Package.newVersion (p : Package) (now : Nat) (change : Nat) (f : Firn → Firn) : Package :=
  { p with
    firn := { f p.firn with
      version := p.firn.version + 1, change := BitVec.ofNat 32 change, time := BitVec.ofNat 64 (now / Config.ticksPerNs) }
    ctxs := p.ctxs.map (fun c =>
      if p.residents.contains c.id then
        { c with deadlines := c.deadlines ++ [((p.firn.version + 1).toNat, now + 1000000 * Config.ticksPerNs)] }
      else { c with pendingVers := c.pendingVers ++ [(p.firn.version + 1).toNat] }) }

end Sys2Proof.Machine
end

