-- ==== Sys2Proof/Machine/Access.lean ====
section
/-!
DEFINITION. Addresses: the checks of an access in the order of 05 R380, translation (05 R77 to R79), sealed frames (23 R352), and
the bytes that a target holds, with their poison (05 R70, R72; 23 R343).
-/
namespace Sys2Proof.Machine
open Sys2Proof

/-! ## Carve-outs and residents (05 R61, R62) -/

/-- The bytes that a program may address: the carve-out below the window stacks (11 R156). -/
def Job.limit (j : Job) : Nat := (j.hdr.slabs - j.hdr.wsa - j.hdr.wsx) * 2048

/-- The resident job of a context on a cell: the job in the running place, else the held one (05 R62). -/
def CellState.resident (c : CellState) (ctx : Nat) : Option Job :=
  (c.job.toList ++ c.trapped.toList ++ c.heldJob.toList).find? (fun j => j.ctx == ctx)

/-- Change the job of a name on a cell of a package. -/
def Package.modJob (p : Package) (cell uid : Nat) (f : Job → Job) : Package :=
  p.modCell cell (fun c => c.modJob uid f)

/-! ## Granules (23 R343) -/

/-- The granules that `n` bytes at an address touch. -/
def granules (a n : Nat) : List Nat := if n = 0 then [] else List.range' (a / 64) ((a + n - 1) / 64 + 1 - a / 64)

def marked (marks : List Nat) (a n : Nat) : Bool := (granules a n).any marks.contains

/-- A write without poison clears the marks of the granules that it covers whole. -/
def clearMarks (marks : List Nat) (a n : Nat) : List Nat :=
  marks.filter (fun g => !(a ≤ 64 * g && 64 * g + 64 ≤ a + n))

/-! ## Rime tags of a job by slab -/

def Job.tag (j : Job) (slab : Nat) : Tag := (look j.tags slab).getD Tag.zero

/-- Race poison of a slab (05 R70). -/
def Job.slabRace (j : Job) (slab : Nat) : Bool := (j.tag slab).st == .filling || (j.tag slab).st == .error

def slabsOf (off n : Nat) : List Nat := if n = 0 then [] else List.range' (off / 2048) ((off + n - 1) / 2048 + 1 - off / 2048)

/-! ## The page tables (05 R77, R78) -/

/-- 384 GiB of HBM (00 R2). -/
def hbmBytes : Nat := 384 * 2 ^ 30

/-- The fatal dump occupies its last 64 MiB, outside every context (25 R376): what a context may map ends there. -/
def dumpBytes : Nat := 64 * 2 ^ 20
def dumpBase : Nat := hbmBytes - dumpBytes

/-- An 8-byte table entry read from HBM. Reading a marked granule is consumption (23 R342). -/
def Package.pte (p : Package) (frame ix : Nat) : Except AccFail Nat :=
  if dumpBase ≤ frame * 4096 + 8 * ix then .error .noFrame
  else if marked p.marks (frame * 4096 + 8 * ix) 8 then .error .poisoned
  else .ok (leNat (memRead p.hbm (frame * 4096 + 8 * ix) 8))

/-- The malformed entries of 05 R77; `level` counts from 1. -/
def pteBad (level e : Nat) : Bool :=
  fld e 52 12 != 0 || bitAt e 2 || bitAt e 11 ||
  (if bitAt e 1 then
    level == 1 || fld e 9 2 == 3 || (bitAt e 6 && fld e 9 2 != 0) || (bitAt e 8 && level != 4) ||
    (level == 2 && fld e 12 18 != 0) || (level == 3 && fld e 12 9 != 0) ||
    (fld e 9 2 == 2 && (level != 4 || fld e 33 19 != 0 || placeReserved (fld e 12 12)))
  else level == 4 || fld e 3 9 != 0)

/-- The walk from a table on, with `left` levels left: the leaf and its level. -/
def Package.walkFrom (p : Package) (va : Nat) (left frame : Nat) : Except AccFail (Nat × Nat) :=
  match left with
  | 0 => .error (.page .malformed)
  | left + 1 =>
    match p.pte frame (fld va (12 + 9 * left) 9) with
    | .error f => .error f
    | .ok e =>
      if !bitAt e 0 then .error (.page .notPresent)
      else if pteBad (4 - left) e then .error (.page .malformed)
      else if bitAt e 1 then .ok (e, 4 - left)
      else p.walkFrom va left (fld e 12 40)

/-- The leaf that a context's tables hold for an address; a base of 0 selects the tables that the management core built
(26 R377). -/
def Package.walk (p : Package) (cx : Context) (va : Nat) : Except AccFail (Nat × Nat) :=
  if cx.ptBase = 0 then
    match look cx.table (va / 2 ^ 21) with
    | some e => if bitAt e.toNat 0 then .ok (e.toNat, 3) else .error (.page .notPresent)
    | none => .error (.page .notPresent)
  else p.walkFrom va 4 cx.ptBase

/-- The bytes of a leaf's page. -/
def pageBytes (level : Nat) : Nat :=
  match level with
  | 2 => 2 ^ 30
  | 3 => 2 ^ 21
  | _ => 2 ^ 12

/-- The listed leaf of a sealed page (23 R352). -/
def Context.sealLeaf (c : Context) (vpn : Nat) : Option Nat := look (c.seals.flatMap (·.frames)) vpn

/-- Whether a frame is listed by any context (23 R352). -/
def Package.frameSealed (p : Package) (frame : Nat) : Bool :=
  p.ctxs.any (fun c => c.seals.any (fun r => r.frames.any (fun f => fld f.2 12 40 == frame)))

/-- Who makes an access: a context and the cell from which it comes (none for a request that comes from outside). -/
structure Who where
  ctx : Nat
  secure : Bool
  cell : Option Nat
  deriving DecidableEq, Repr

/-- The translation cache of the accessor's cell (05 R79). -/
def Package.tlbHit (p : Package) (w : Who) (va : Nat) : Option TlbEnt :=
  match w.cell with
  | some i => (p.cell i).bind (fun c => c.tlb.find? (fun t => t.ctx == w.ctx && t.vpn == va / 4096))
  | none => none

/-- The leaf that an access uses: the seal list first (23 R352), then the cache, then a walk (05 R79). -/
def Package.leafOf (p : Package) (w : Who) (va : Nat) : Except AccFail (Nat × Nat) :=
  match p.ctx w.ctx with
  | none => .error (.page .notPresent)
  | some cx =>
    match cx.sealLeaf (va / 4096) with
    | some e => .ok (e, 4)
    | none =>
      match p.tlbHit w va with
      | some t => .ok (t.leaf.toNat, t.level)
      | none => p.walk cx va

/-- The word of code that a target names, for its context's fetches: where it lies and its address (11 R153). -/
def Package.codePlace (p : Package) (ctx uid : Nat) (t : Target) : Option (Nat × Nat) :=
  match t with
  | .hbm a _ _ => some (0, a)
  | .hostMem _ a => some (1, a)
  | .carve off => some (2 + uid, off)
  | .cell c off => ((p.cell c).bind (fun x => x.resident ctx)).map (fun j => (2 + j.uid, off))
  | _ => none

/-- The cache takes the leaf of an access; the oldest of 1,024 entries leaves (DESIGN CHOICE, notes/assumptions/14.md). -/
def Package.fillTlb (p : Package) (w : Who) (va : Nat) : Package :=
  match w.cell, p.tlbHit w va, p.leafOf w va with
  | some i, none, .ok (e, l) =>
    if va / 2 ^ 48 != 0 || (p.ctx w.ctx).any (fun c => (c.sealLeaf (va / 4096)).isSome) then p
    else p.modCell i (fun c => { c with
      tlb := (if 1024 ≤ c.tlb.length then c.tlb.drop 1 else c.tlb) ++ [⟨w.ctx, va / 4096, l, BitVec.ofNat 64 e⟩] })
  | _, _, _ => p

/-! ## Compression tags (05 R72) -/

def Package.ctag (p : Package) (frame : Nat) : BitVec 16 := (look p.ctags frame).getD 0
def Package.setCtag (p : Package) (frame : Nat) (t : BitVec 16) : Package :=
  { p with ctags := if t = 0 then dropKey p.ctags frame else put p.ctags frame t }

/-- FMT of a tag: 0 is RAW. -/
def ctagFmt (t : BitVec 16) : Nat := fld t.toNat 12 4
def ctagLen (t : BitVec 16) : Nat := fld t.toNat 5 7
def ctagEt (t : BitVec 16) : Nat := fld t.toNat 0 4

/-! ## G translation (05 R77, R78, R380 step 7) -/

/-- A window leaf: place, resident job, slab pair (05 R77). -/
def Package.window (p : Package) (w : Who) (e va bytes : Nat) : Except AccFail Target :=
  if !p.live (cellOfPlace (fld e 12 12)) then .error (.page .place)
  else match (p.cell (cellOfPlace (fld e 12 12))).bind (fun c => c.resident w.ctx) with
    | none => .error (.page .absent)
    | some j =>
      if fld e 24 9 * 4096 + va % 4096 + bytes ≤ j.limit then
        .ok (.cell (cellOfPlace (fld e 12 12)) (fld e 24 9 * 4096 + va % 4096))
      else .error (.page .bounds)

/-- What a leaf refuses to an accessor, in the order of R78; `sealed` and `coded` say whether its frame is listed and whether its
block is compressed. -/
def leafFail (e : Nat) (w : Who) (acc : Acc) (sealed coded : Bool) : Option AccFail :=
  if bitAt e 4 && !w.secure then some (.page .world)
  else if acc.writes && (bitAt e 5 || sealed) then some .sealedWrite
  else if acc.writes && !bitAt e 3 then some (.page .readOnly)
  else if (acc == .store || acc == .atomic) && bitAt e 6 && coded then some (.page .compressed)
  else none

/-- The translation checks of R78 in their order; a host-backed page refuses an atomic after them (13 R185). -/
def Package.translate (p : Package) (w : Who) (va bytes : Nat) (acc : Acc) : Except AccFail Target :=
  if firnBase ≤ va && va < firnBase + 4096 then
    (if acc.writes then .error (.page .readOnly) else .ok (.firn (va - firnBase)))
  else match p.leafOf w va with
    | .error f => .error f
    | .ok (e, level) =>
      let pa := fld e 12 40 * 4096 + va % pageBytes level
      let kind := fld e 9 2
      match leafFail e w acc (kind == 0 && p.frameSealed (pa / 4096)) (ctagFmt (p.ctag (pa / 4096)) != 0) with
      | some f => .error f
      | none => match kind with
        | 0 => if dumpBase ≤ pa then .error .noFrame else .ok (.hbm pa va (bitAt e 6))
        | 1 => if acc == .atomic then .error (.page .hostAtomic)
               else .ok (.hostMem (((p.ctx w.ctx).map (·.owner)).getD 0) pa)
        | _ => p.window w e va bytes

/-- Whether the page of an address is migrating (05 R77, R78), and the frame that it has: the leaf's MG bit. -/
def Package.migrating (p : Package) (w : Who) (va : Nat) : Bool :=
  match (p.ctx w.ctx).bind (fun cx => (p.walk cx va).toOption) with
  | some (e, _) => bitAt e 7 && fld e 9 2 == 0
  | none => false

/-! ## Checks of an access at issue (05 R380, steps 1 to 6) -/

def needPage (b : Bool) (k : PfKind) : Except AccFail Unit :=
  match b with
  | true => .ok ()
  | false => .error (.page k)

/-- An S access of the issuing job. -/
def checkS (j : Job) (a bytes : Nat) : Except AccFail Target := do
  needPage (a % bytes == 0) .alignment
  needPage (a / 2 ^ 21 == 0) .bounds
  needPage (a + bytes ≤ j.limit) .bounds
  .ok (.carve a)

/-- An N access: `pl` is the twelve-bit place. Naming the issuing cell makes it the S access (05 R62). -/
def checkN (p : Package) (cell ctx : Nat) (j : Job) (pl a bytes : Nat) : Except AccFail Target := do
  needPage (a % bytes == 0) .alignment
  needPage (a / 2 ^ 21 == 0) .bounds
  needPage (!placeReserved pl && fld pl 11 1 == dieOf cell && p.live (cellOfPlace pl)) .place
  if cellOfPlace pl = cell then
    needPage (a + bytes ≤ j.limit) .bounds
    .ok (.carve a)
  else
    match (p.cell (cellOfPlace pl)).bind (fun c => c.resident ctx) with
    | none => .error (.page .absent)
    | some t => do
      needPage (a + bytes ≤ t.limit) .bounds
      .ok (.cell (cellOfPlace pl) a)

/-- The form of a G access, before translation. -/
def checkG (p : Package) (w : Who) (a bytes : Nat) (acc : Acc) : Except AccFail Target := do
  needPage (a % bytes == 0) .alignment
  needPage (a / 2 ^ 48 == 0) .bounds
  p.translate w a bytes acc

/-- An F access: the coordinate alone is checked at issue (05 R63, 23 R348); its target translates (07 R103). -/
def checkF (p : Package) (a bytes : Nat) : Except AccFail Target := do
  needPage (a % bytes == 0) .alignment
  needPage (a / 2 ^ 58 == 0 && p.firn.inExtent (BitVec.ofNat 10 (a / 2 ^ 48)) &&
    (p.firn.level != 0 || BitVec.ofNat 10 (a / 2 ^ 48) == p.firn.self)) .bounds
  .ok (.fabric (a / 2 ^ 48) (a % 2 ^ 48))

/-- A C access (05 R64). -/
def checkC (p : Package) (w : Who) (a bytes : Nat) (acc : Acc) : Except AccFail Target := do
  needPage (a % bytes == 0) .alignment
  needPage (a / 2 ^ 32 == 0) .bounds
  let blk := fld a 16 4
  let ofs := fld a 0 16
  let cell := cellOfPlace (fld a 20 12)
  needPage ((blk == 0 && bytes == 4 && ofs < 256) ||
    (blk == 1 && bytes == 8 && ofs < 64 && acc == .store) ||
    (blk == 3 && bytes == 8 && ofs < 32768 && acc == .load)) .bounds
  needPage (!placeReserved (fld a 20 12) && p.live cell) .place
  needPage (w.secure || !((p.cell cell).map (·.secure)).getD false) .world
  needPage ((p.cell cell).bind (fun c => c.resident w.ctx)).isSome .absent
  .ok (if blk = 0 then .sem cell (BitVec.ofNat 6 (ofs / 4))
    else if blk = 1 then .mbox cell (BitVec.ofNat 3 (ofs / 8)) else .csr cell (ofs / 8))

/-! ## The bytes of a target -/

/-- Bytes of a job's carve-out with their poison: data for a marked granule, race for a slab in FILLING or ERROR
(05 R70). -/
def Job.read (j : Job) (off n : Nat) : List Byte × Poison :=
  (memRead j.mem off n,
   if marked j.marks off n then .data else if (slabsOf off n).any j.slabRace then .race else .none)

/-- A write of bytes that carry no mark. -/
def Job.write (j : Job) (off : Nat) (bs : List Byte) : Job :=
  { j with mem := memWrite j.mem off bs, marks := clearMarks j.marks off bs.length }

/-- Bytes of HBM. A non-RAW block shows its payload, then zeros (05 R72). -/
def Package.readHbm (p : Package) (a n : Nat) (cm : Bool) : List Byte × Poison :=
  if cm && ctagFmt (p.ctag (a / 4096)) != 0 then
    let keep := ctagLen (p.ctag (a / 4096)) * 64 - a % 4096
    (padTo n ((memRead p.hbm a n).take keep),
      if marked p.marks a (min n keep) then .data else .none)
  else (memRead p.hbm a n, if marked p.marks a n then .data else .none)

def Package.writeHbm (p : Package) (a : Nat) (bs : List Byte) : Package :=
  { p with hbm := memWrite p.hbm a bs, marks := clearMarks p.marks a bs.length }

/-- Host memory of a function (05 R77). -/
def Package.hostMem (p : Package) (fn : Nat) : List Host.Cell := (p.fns[fn]?.map (·.mem)).getD []
def Package.modFn (p : Package) (fn : Nat) (f : FnState → FnState) : Package :=
  match p.fns[fn]? with
  | some x => { p with fns := p.fns.setIfInBounds fn (f x) }
  | none => p
def Package.writeHost (p : Package) (fn a : Nat) (bs : List Byte) : Package :=
  p.modFn fn (fun x => { x with mem := memWrite x.mem a bs })

/-- The bytes of a target on this package, of the job `uid` of cell `cell` where the target is its own carve-out. -/
def Package.readTarget (p : Package) (ctx cell uid : Nat) (t : Target) (n : Nat) : List Byte × Poison :=
  match t with
  | .carve off => (((p.cell cell).bind (fun c => c.jobBy uid)).map (fun j => j.read off n)).getD (List.replicate n 0, .none)
  | .cell c off => (((p.cell c).bind (fun c => c.resident ctx)).map (fun j => j.read off n)).getD (List.replicate n 0, .none)
  | .hbm a _ cm => p.readHbm a n cm
  | .hostMem fn a => (memRead (p.hostMem fn) a n, .none)
  | .firn off => (p.firn.read off n, .none)
  | _ => (List.replicate n 0, .none)

/-- Change the job whose carve-out a target names. -/
def Package.modTargetJob (p : Package) (ctx cell uid : Nat) (t : Target) (f : Job → Job) : Package :=
  match t with
  | .carve _ => p.modJob cell uid f
  | .cell c _ =>
    match (p.cell c).bind (fun x => x.resident ctx) with
    | some j => p.modJob c j.uid f
    | none => p
  | _ => p

/-- Write bytes without poison to a target on this package. -/
def Package.writeTarget (p : Package) (ctx cell uid : Nat) (t : Target) (bs : List Byte) : Package :=
  match t with
  | .carve off | .cell _ off => p.modTargetJob ctx cell uid t (fun j => j.write off bs)
  | .hbm a _ _ => p.writeHbm a bs
  | .hostMem fn a => p.writeHost fn a bs
  | _ => p

/-- A run of bytes cut at the 4 KiB pages, each piece with its length. -/
def pagePieces (k va n : Nat) : List (Nat × Nat) :=
  match k with
  | 0 => []
  | k + 1 =>
    if n = 0 then []
    else (va, min n (4096 - va % 4096)) :: pagePieces k (va + min n (4096 - va % 4096)) (n - min n (4096 - va % 4096))

def pages (va n : Nat) : List (Nat × Nat) := pagePieces (n / 4096 + 2) va n

/-- The target of an access of the device itself within one page: G ends at 2^48 (05 R380, check 2). -/
def Package.deviceAt (p : Package) (w : Who) (va n : Nat) (acc : Acc) : Except AccFail Target := do
  needPage (va / 2 ^ 48 == 0) .bounds
  p.translate w va n acc

/-- The first failing check of an access of the device to `n` bytes of G. -/
def Package.gFail (p : Package) (w : Who) (va n : Nat) (acc : Acc) : Option AccFail :=
  (pages va n).foldl (fun r pc => match r, p.deviceAt w pc.1 pc.2 acc with
    | some f, _ => some f
    | none, .error f => some f
    | none, .ok _ => none) none

/-- Bytes of G read by the device itself for a context, page by page: the first failing check with its address, or the
bytes and the most severe poison met. -/
def Package.readG (p : Package) (w : Who) (va n : Nat) (acc : Acc) : Except (AccFail × Nat) (List Byte × Poison) :=
  (pages va n).foldr (fun pc r =>
    match p.deviceAt w pc.1 pc.2 acc with
    | .error f => .error (f, pc.1)
    | .ok t =>
      match r with
      | .error f => .error f
      | .ok (bs, q) =>
        match p.readTarget w.ctx 0 0 t pc.2 with
        | (b, q') => .ok (b ++ bs, q'.max q)) (.ok ([], .none))

/-- Whether the device may write its own records at an address: a writable, unsealed leaf of KIND 0 or 1 (25 R371). -/
def Package.canWriteG (p : Package) (w : Who) (va n : Nat) : Bool :=
  (pages va n).all (fun pc =>
    match p.deviceAt w pc.1 pc.2 .store with
    | .ok (.hbm ..) | .ok (.hostMem ..) => true
    | _ => false)

/-- Write bytes that canWriteG admits. -/
def Package.writeG (p : Package) (w : Who) (va : Nat) (bs : List Byte) : Package :=
  (pages va bs.length).foldl (fun q pc =>
    match q.deviceAt w pc.1 pc.2 .store with
    | .ok t => q.writeTarget w.ctx 0 0 t ((bs.drop (pc.1 - va)).take pc.2)
    | .error _ => q) p

/-- The device itself, acting for a context. -/
def Context.who (c : Context) : Who := ⟨c.id, c.secure, none⟩

end Sys2Proof.Machine
end

