-- ==== Sys2Proof/Machine/Ring.lean ====
section
/-!
DEFINITION. Images that a rollback restores (01 R26), and ring descriptors (05 R71).
-/
namespace Sys2Proof.Machine
open Sys2Proof

/-! ## Images for a rollback (01 R26, 05 R71): by region and key, the value at the start of the region -/

/-- The image of a key that a rollback to region `r` or an older one restores: that of its lowest region from `r` on. -/
def imageFrom {κ α : Type} [DecidableEq κ] (l : List (Nat × κ × α)) (key : κ) (r : Nat) : Option (Nat × κ × α) :=
  (l.filter (fun e => e.2.1 = key && r ≤ e.1)).foldl (fun b e => match b with
    | some x => if e.1 < x.1 then some e else b
    | none => some e) none

/-- Keep the value that a key has at the start of region `r`, before the region's first change to it: what the next later region
found, if one has changed it already, else the current value. -/
def keepImage {κ α : Type} [DecidableEq κ] (l : List (Nat × κ × α)) (key : κ) (r : Nat) (cur : α) : List (Nat × κ × α) :=
  if l.any (fun e => e.1 = r && e.2.1 = key) then l
  else l ++ [(r, key, ((imageFrom l key r).map (·.2.2)).getD cur)]

/-- A change by an operation of region `own`, or by one that no rollback takes back (none), as the images that hold it see it. -/
def changeImages {κ α : Type} [DecidableEq κ] (l : List (Nat × κ × α)) (key : κ) (own : Option Nat) (f : α → α) :
    List (Nat × κ × α) :=
  l.map (fun e => if e.2.1 = key && own.all (fun r => r < e.1) then (e.1, e.2.1, f e.2.2) else e)

/-- The images kept and changed by one change of an operation. -/
def noteImage {κ α : Type} [DecidableEq κ] (l : List (Nat × κ × α)) (key : κ) (own : Option Nat) (cur : α) (f : α → α) :
    List (Nat × κ × α) :=
  match own with
  | some r => changeImages (keepImage l key r cur) key own f
  | none => changeImages l key own f

/-- Bytes written into the carve-out by a copy engine or a drain of region `own`, which a rollback takes back (19 R287), or for
another job (none): `marks` are the marks after the write. -/
def Job.copyWrite (j : Job) (own : Option Nat) (off : Nat) (bs : List Byte) (marks : List Nat) : Job :=
  { j with
    mem := memWrite j.mem off bs
    marks := marks
    copySaves := (bs.zipIdx).foldl (fun l e =>
      noteImage l (off + e.2) own ((memRead j.mem (off + e.2) 1).headD 0) (fun _ => e.1)) j.copySaves
    markSaves := (granules off bs.length).foldl (fun l g =>
      noteImage l g own (j.marks.contains g) (fun _ => marks.contains g)) j.markSaves }

/-- What a rollback restores from the images of a kind: for each key the image of its lowest region. -/
def oldImages {κ α : Type} [DecidableEq κ] (l : List (Nat × κ × α)) : List (κ × α) :=
  l.map (fun e => (e.2.1, ((imageFrom l e.2.1 0).map (·.2.2)).getD e.2.2))

/-- The bytes and marks under copies at the start of the oldest uncommitted region (19 R287). -/
def Job.undoCopies (j : Job) : Job :=
  { j with
    mem := (oldImages j.copySaves).foldl (fun m e => memSet m e.1 e.2) j.mem
    marks := (oldImages j.markSaves).foldl (fun m e => if e.2 then addOnce m e.1 else m.filter (· != e.1)) j.marks }

/-! ## Rings (05 R71) -/

/-- The CSR form of a descriptor. -/
def Ring.word (r : Ring) : Word :=
  BitVec.ofNat 64 (bit1 r.cls * 2 ^ 55 + r.cix.toNat * 2 ^ 47 + r.pix.toNat * 2 ^ 39 + r.fill.toNat * 2 ^ 31 +
    r.free.toNat * 2 ^ 23 + r.cnt.toNat * 2 ^ 15 + r.ssz.toNat * 2 ^ 11 + r.base.toNat * 2)

def Ring.ofWord (w : Word) : Ring :=
  ⟨bitAt w.toNat 55, BitVec.ofNat 8 (fld w.toNat 47 8), BitVec.ofNat 8 (fld w.toNat 39 8), BitVec.ofNat 8 (fld w.toNat 31 8),
    BitVec.ofNat 8 (fld w.toNat 23 8), BitVec.ofNat 8 (fld w.toNat 15 8), BitVec.ofNat 4 (fld w.toNat 11 4),
    BitVec.ofNat 10 (fld w.toNat 1 10)⟩

/-- Whether the slots lie in the program part of a carve-out of `slabs` slabs. -/
def Ring.fits (r : Ring) (slabs : Nat) : Bool := r.base.toNat + r.cnt.toNat * (r.ssz.toNat + 1) ≤ slabs

/-- The first slab of a slot. -/
def Ring.slotSlab (r : Ring) (i : Nat) : Nat := r.base.toNat + i * (r.ssz.toNat + 1)

def Job.ring (j : Job) (r : BitVec 4) : Ring := j.rings[r.toFin]

/-- An immediate change to a descriptor by an operation of region `own`, or a publish, close or release that takes effect (none):
on the descriptor, and on every image that a rollback restores and that holds it (05 R71). -/
def Job.changeRing (j : Job) (r : BitVec 4) (own : Option Nat) (f : Ring → Ring) : Job :=
  { j with rings := j.rings.set r.toFin (f (j.ring r)), ringSaves := noteImage j.ringSaves r own (j.ring r) f }

/-- Producer acquire and consumer wait, where the counter is positive. -/
def Ring.acquire (r : Ring) : Ring :=
  { r with free := r.free - 1, pix := BitVec.ofNat 8 ((r.pix.toNat + 1) % r.cnt.toNat) }
def Ring.take (r : Ring) : Ring :=
  { r with fill := r.fill - 1, cix := BitVec.ofNat 8 ((r.cix.toNat + 1) % r.cnt.toNat) }

/-- A counter that would pass 255 stays there. -/
def incr8 (x : BitVec 8) : BitVec 8 := if x = 255 then 255 else x + 1

def Ring.publish (r : Ring) (close : Bool) : Ring := { r with fill := incr8 r.fill, cls := r.cls || close }
def Ring.release (r : Ring) : Ring := { r with free := incr8 r.free }

/-- The uncommitted increments of a job on FILL or on FREE of a ring (13 R188), those due included. -/
def ringPending (due : List Due) (j : Job) (r : BitVec 4) (fill : Bool) : Nat :=
  ((semPending due j).filter (fun d => match d.eff with
    | .ringPublish q _ => fill && q == r
    | .ringFree q => !fill && q == r
    | _ => false)).length

end Sys2Proof.Machine
end

