-- ==== Sys2Proof/Machine/MatrixWalk.lean ====
section
/-!
DEFINITION. The matrix engine's arithmetic: the fields of an LNT (17 R238 to R244), the checks of MGO (R246, R247), the operands that
the walker reads (R245, R248 to R250, 05 R75, R76), a pass (03 R54 to R56, R60; 17 R240, R249), trees (R254, R255), and the
metadata faults of each (R257, R258).
-/
namespace Sys2Proof.Machine
open Sys2Proof

abbrev Lnt := Vector Word 32

/-! ## Fields -/

def lw (l : Lnt) (n : Nat) : Nat := ((l[n]?).getD 0).toNat
def lf (l : Lnt) (n lo w : Nat) : Nat := fld (lw l n) lo w
/-- A signed field. -/
def ls (l : Lnt) (n lo w : Nat) : Int := sint w (lf l n lo w)

def lntTree (l : Lnt) : Bool := lf l 0 62 2 == 1
def lntNlev (l : Lnt) : Nat := lf l 0 52 3
def lntSide (l : Lnt) : Bool := lf l 0 51 1 == 1
def lntPslot (l : Lnt) : Nat := lf l 0 47 4
def lntSteps (l : Lnt) : List Nat := (List.range (lf l 1 24 3 + 1)).map (fun j => lf l 1 (3 * j) 3)
def lntK (l : Lnt) : Nat := lf l 2 0 32
def levElastic (l : Lnt) (v : Nat) : Bool := lf l (2 + 2 * v) 62 2 == 1
def levRing (l : Lnt) (v : Nat) : BitVec 4 := BitVec.ofNat 4 (lf l (2 + 2 * v) 58 4)
def levTrip (l : Lnt) (v : Nat) : Nat := lf l (2 + 2 * v) 0 32
def levA (l : Lnt) (v : Nat) : Int := ls l (3 + 2 * v) 43 21
def levB (l : Lnt) (v : Nat) : Int := ls l (3 + 2 * v) 22 21
def levC (l : Lnt) (v : Nat) : Int := ls l (3 + 2 * v) 14 8
/-- The elastic level, if there is one. -/
def lntElastic (l : Lnt) : Option Nat := (List.range' 1 5).find? (fun v => v ≤ lntNlev l && levElastic l v)

/-- Element types by code (05 R72). -/
def etOf (n : Nat) : Option ET :=
  [ET.f32, ET.bf16, ET.f16, ET.e4m3, ET.e5m2, ET.e2m1, ET.i32, ET.i8, ET.u8, ET.i4][n]?

/-- An operand descriptor (R242); `i` is 0 for A, 1 for B, 2 for the side list. -/
structure Opnd where
  base : Nat
  slot : Bool                   -- SRC 1
  rg : Bool
  fmt : Nat
  et : ET
  table : Nat
  sc : Bool
  rpitch : Nat
  tpitch : Nat
  sofs : Nat
  deriving DecidableEq, Repr

def opnd (l : Lnt) (i : Nat) : Opnd where
  base := lf l (14 + 2 * i) 43 21
  slot := lf l (14 + 2 * i) 41 2 == 1
  rg := lf l (14 + 2 * i) 40 1 == 1
  fmt := lf l (14 + 2 * i) 34 3
  et := (etOf (lf l (14 + 2 * i) 30 4)).getD .f32
  table := lf l (14 + 2 * i) 26 4
  sc := lf l (14 + 2 * i) 25 1 == 1
  rpitch := lf l (15 + 2 * i) 48 16
  tpitch := lf l (15 + 2 * i) 27 21
  sofs := lf l (15 + 2 * i) 6 21

def isIntEt (t : ET) : Bool :=
  match t with
  | .i8 | .u8 | .i4 => true
  | _ => false

/-- A job of INT32 kind (R247). -/
def lntInt (l : Lnt) : Bool := !lntTree l && isIntEt (opnd l 0).et && isIntEt (opnd l 1).et

/-- Products come from the table: both operands CB4, a MAC or MXA step (03 R60). -/
def lntTabled (l : Lnt) : Bool :=
  !lntTree l && (opnd l 0).fmt == 2 && (opnd l 1).fmt == 2 && (lntSteps l).any (fun x => x == 0 || x == 3)

/-! ## The checks of MGO (R246) -/

/-- The classes in which A and B pair (R247). -/
def pairClass (t : ET) : Nat :=
  match t with
  | .bf16 | .f16 => 1
  | .e4m3 | .e5m2 | .e2m1 => 2
  | .i8 | .u8 | .i4 => 3
  | _ => 0

def pairs (l : Lnt) : Bool :=
  let a := pairClass (opnd l 0).et
  let b := pairClass (opnd l 1).et
  if lntTabled l then a != 0 && b != 0 && (a == 3) == (b == 3) else a != 0 && a == b

/-- The least and greatest tile over the immediate levels, if the job has passes. -/
def tileBounds (l : Lnt) : Int × Int :=
  (List.range' 1 5).foldl (fun r v =>
    if lntNlev l < v || levElastic l v then r
    else
      let d := levC l v * ((levTrip l v : Int) - 1)
      (r.1 + min 0 d, r.2 + max 0 d)) ((lf l 20 58 6 : Int), (lf l 20 58 6 : Int))

def noPasses (l : Lnt) : Bool := (List.range' 1 5).any (fun v => v ≤ lntNlev l && !levElastic l v && levTrip l v == 0)

/-- Level `v`, first and second word. -/
def levelBad (l : Lnt) (cnt : BitVec 4 → Nat) (v : Nat) : Bool × Bool :=
  if lntNlev l < v then (lw l (2 + 2 * v) != 0, lw l (3 + 2 * v) != 0)
  else
    (2 ≤ lf l (2 + 2 * v) 62 2 || lf l (2 + 2 * v) 32 26 != 0 ||
      (levElastic l v && (levTrip l v != 0 || cnt (levRing l v) == 0 || (lntElastic l).any (· < v))),
     lf l (3 + 2 * v) 0 14 != 0 || (levElastic l v && levC l v != 0))

/-- A or B in product mode, first and second word. -/
def opndBad (l : Lnt) (i : Nat) : Bool × Bool :=
  let w := 14 + 2 * i
  (2 ≤ lf l w 41 2 || 4 ≤ lf l w 34 3 || 10 ≤ lf l w 30 4 || lf l w 0 25 != 0 ||
    ((opnd l i).slot && (lntElastic l).isNone) ||
    ((opnd l i).sc && !(((opnd l i).fmt == 0 || (opnd l i).fmt == 1) && pairClass (opnd l i).et == 2)),
   lf l (w + 1) 0 6 != 0)

/-- The side list's words: CO of BF16, its other fields zero. -/
def sideBad (l : Lnt) : Bool × Bool :=
  if lntSide l then
    (2 ≤ lf l 18 41 2 || lf l 18 37 3 != 0 || lf l 18 34 3 != 3 || lf l 18 30 4 != 1 || lf l 18 0 30 != 0 ||
      ((opnd l 2).slot && (lntElastic l).isNone), lw l 19 != 0)
  else (lw l 18 != 0, lw l 19 != 0)

/-- The bit of MEFMT that enables the kind of a product-mode job (23 R348). -/
def mefmtBit (l : Lnt) : Nat :=
  if lntTabled l then 4
  else match pairClass (opnd l 0).et with
    | 1 => 0
    | 2 => if (opnd l 0).et == .e2m1 && (opnd l 1).et == .e2m1 then 3 else 1
    | _ => 2

/-- Whether word `n` breaks a condition of R246; the order and the lag are those that MGO leaves to the LNT, `mefmt` the enabled kinds
at cold service (23 R348). -/
def wordBad (l : Lnt) (cnt : BitVec 4 → Nat) (lntOrder lntLag : Bool) (mefmt : Option Byte) (n : Nat) : Bool :=
  match n with
  | 0 => 2 ≤ lf l 0 62 2 || (lntOrder && lf l 0 60 2 == 3) || (lntLag && !(2 ≤ lf l 0 55 5 && lf l 0 55 5 ≤ 16)) ||
      5 < lntNlev l || lf l 0 0 47 != 0 || (lntSide l && 1024 < lntK l)
  | 1 => lf l 1 27 37 != 0 || (lntSteps l).any (fun x => 4 ≤ x) || fld (lw l 1) 0 24 / 2 ^ (3 * (lf l 1 24 3 + 1)) != 0 ||
      (lntSide l && lntSteps l != [0]) || (lntTree l && lntSteps l != [2])
  | 2 => lf l 2 62 2 != 0 || lf l 2 32 26 != 0 || lntK l == 0 || 65535 < lntK l ||
      (((opnd l 0).fmt == 1 || (opnd l 1).fmt == 1) && lntK l % 64 != 0) ||
      (((opnd l 0).sc || (opnd l 1).sc) && lntK l % 32 != 0)
  | 3 => lw l 3 != 0
  | 14 => (opndBad l 0).1 ||
      (if lntTree l then !((opnd l 0).fmt == 0 && ((opnd l 0).et == ET.f32 || (opnd l 0).et == ET.bf16))
       else pairClass (opnd l 0).et == 0 || mefmt.any (fun b => !b.getLsbD (mefmtBit l)))
  | 15 => (opndBad l 0).2
  | 16 => if lntTree l then lw l 16 != 0 else (opndBad l 1).1 || !pairs l
  | 17 => if lntTree l then lw l 17 != 0 else (opndBad l 1).2
  | 18 => if lntTree l then lw l 18 != 0 else (sideBad l).1
  | 19 => if lntTree l then lw l 19 != 0 else (sideBad l).2
  | 20 => lf l 20 0 57 != 0 || (!noPasses l && ((tileBounds l).1 < 0 || 63 < (tileBounds l).2))
  | 21 =>
    if lntTree l then
      lf l 21 0 22 != 0 || lf l 21 27 16 == 0 || (lf l 21 22 1 == 1 && cnt (BitVec.ofNat 4 (lf l 21 23 4)) == 0)
    else lw l 21 != 0
  | n => if n < 14 then (if n % 2 = 0 then (levelBad l cnt (n / 2 - 1)).1 else (levelBad l cnt (n / 2 - 1)).2) else lw l n != 0

/-- The first word that fails. -/
def shapeFault (l : Lnt) (cnt : BitVec 4 → Nat) (lntOrder lntLag : Bool) (mefmt : Option Byte) : Option Nat :=
  (List.range 32).find? (wordBad l cnt lntOrder lntLag mefmt)

/-! ## What the walker meets -/

/-- The fields of a metadata record (R257) that the pass decides. -/
structure MetaRec where
  opnd : Nat
  kind : Nat
  row : Nat
  k : Nat
  wofs : Nat
  tree : Nat
  deriving DecidableEq, Repr

inductive Issue where
  | bad (r : MetaRec)
  | gate (slab : Nat)           -- a rime-gated slab is not FULL: what lies behind it has not been read
  | poisoned
  deriving DecidableEq, Repr

/-- What a scan of operands gives, with what it met on the way. -/
abbrev Scan (α : Type) := List Issue × α

/-- The carve-out with the descriptor's slot base: what a pass reads. -/
structure Walk where
  j : Job
  l : Lnt
  slotBase : Nat
  ix : List Nat

/-- The sum of i_l times the stride of each level (R245). -/
def walkSum (ix : List Nat) (stride : Nat → Int) : Int :=
  (ix.zipIdx.map (fun e => (e.1 : Int) * stride (e.2 + 1))).sum

/-- An address of the carve-out, modulo 2^21. -/
def addr21 (a : Int) : Nat := (a % 2 ^ 21).toNat

def Walk.opBase (w : Walk) (i : Nat) : Int :=
  ((opnd w.l i).base : Int) + walkSum w.ix (if i = 0 then levA w.l else levB w.l) + (if (opnd w.l i).slot then w.slotBase else 0)

/-- One read: bytes, and whether they are race-poisoned (R250). A gated slab is not read before it is FULL (R251). -/
def Walk.read (w : Walk) (rg : Bool) (n : Nat) (a : Int) (r : MetaRec) : Scan (List Byte × Bool) :=
  let x := addr21 a
  if w.j.limit < x + n then ([.bad { r with kind := 0x07, wofs := x / 8 * 8 }], (List.replicate n 0, false))
  else
    match (slabsOf x n).find? (fun s => rg && (w.j.tag s).st != .full) with
    | some s => ([.gate s], (List.replicate n 0, false))
    | none =>
      let b := w.j.read x n
      (if marked w.j.marks x n then [.poisoned] else [], (b.1, !rg && b.2 == .race))

/-- A present element: its coordinate, its index into a codebook, its value, and whether a byte or the codebook that gave it carries
race poison. -/
structure El where
  k : Nat
  ix : Nat
  x : Num
  i : Int
  race : Bool

/-- Multiply by an E8M0 scale (03 R41, 05 R76). -/
def Num.e8m0 (x : Num) (s : Nat) : Num :=
  if s = 255 then .nan
  else match x with
    | .fin a m e => .fin a m (e + ((s : Int) - 127))
    | x => x

def elValue (t : ET) (raw : Nat) : Num × Int :=
  ((match etFmt t with
    | some f => f.decode raw
    | none => numOfInt ((etIfmt t).decode raw)), (etIfmt t).decode raw)

/-- The codebook of a slot: its size and its entries (R263). -/
def Walk.codebook (w : Walk) (slot : Nat) : Option TabSlot :=
  match (w.j.me.slots[slot]?).join with
  | some t => if t.kind == .codebook then some t else none
  | none => none

def cbSize (t : TabSlot) : Nat := leNat ((t.bytes.drop 32).take 1)
def cbEntry (t : TabSlot) (et : ET) (i : Nat) : Nat := leNat ((t.bytes.drop (2 * i)).take 2) % 2 ^ etBits et

/-- Element `j` of a packed run (03 R44): the bits of one element at a byte address. -/
def Walk.packed (w : Walk) (rg : Bool) (bits : Nat) (start : Int) (j : Nat) (r : MetaRec) : Scan (Nat × Bool) :=
  let n := (bits + 7) / 8
  let s := w.read rg n (start + (j * bits / 8 : Nat)) r
  (s.1, (leNat s.2.1 / 2 ^ (j * bits % 8) % 2 ^ bits, s.2.2))

/-- The value of stored bits under a descriptor: a CB4 index selects an entry, below the declared size. -/
def Walk.value (w : Walk) (o : Opnd) (raw : Nat) (r : MetaRec) : Scan (Nat × Num × Int) :=
  if o.fmt = 2 then
    match w.codebook o.table with
    | none => ([], (raw, .zero, 0))
    | some t => (if cbSize t ≤ raw then [.bad { r with kind := 0x05 }] else [], (raw, elValue o.et (cbEntry t o.et raw)))
  else ([], (0, elValue o.et raw))

/-- Bits of a stored element. -/
def storedBits (o : Opnd) : Nat := if o.fmt = 2 then 4 else etBits o.et

/-- One dense element with its coordinate. -/
def Walk.dense (w : Walk) (o : Opnd) (start : Int) (j k : Nat) (r : MetaRec) : Scan El :=
  let p := w.packed o.rg (storedBits o) start j r
  let v := w.value o p.2.1 { r with wofs := addr21 (start + (j * storedBits o / 8 : Nat)) / 8 * 8 }
  (p.1 ++ v.1, ⟨k, v.2.1, v.2.2.1, v.2.2.2, p.2.2 || (o.fmt == 2 && (w.codebook o.table).any (fun t => t.p == .race))⟩)

def scanAll {α β : Type} (l : List α) (f : α → Scan β) : Scan (List β) :=
  l.foldr (fun a r => ((f a).1 ++ r.1, (f a).2 :: r.2)) ([], [])

/-- The set bits of a bitmap word. -/
def setBits (n : Nat) : List Nat := (List.range 64).filter (bitAt n)

/-- Elements in ascending coordinate, and whether what lists them carries race poison: a bitmap, a count, a coordinate. -/
abbrev Listing := List El × Bool

/-- A ZBM group at `a` (05 R75) whose row or tile ends at `last`: its elements at `k0` plus the bit, and where the next group
begins. `r` names the row; padding and a popcount past the end are its faults (R257, R270). -/
def Walk.group (w : Walk) (o : Opnd) (a last : Int) (k0 : Nat) (key : Nat → Nat) (r : MetaRec) : Scan (Listing × Int) :=
  let bm := w.read o.rg 8 a { r with k := key 0 }
  let bits := setBits (leNat bm.2.1)
  let eb := storedBits o
  match bits.zipIdx.find? (fun e => last < a + 8 + (((e.2 + 1) * eb + 7) / 8 : Nat)) with
  | some e => (bm.1 ++ [.bad { r with kind := 0x01, k := key e.1, wofs := addr21 a / 8 * 8 }], (([], bm.2.2), a))
  | none =>
    let padded := ((bits.length * eb + 7) / 8 + 7) / 8 * 8
    let els := scanAll bits.zipIdx (fun e => w.dense o (a + 8) e.2 (k0 + e.1) { r with k := key e.1 })
    let body := w.read o.rg padded (a + 8) { r with k := key 0 }
    let junk := (List.range (padded / 8)).find? (fun i =>
      fld (leNat body.2.1) (64 * i) 64 / 2 ^ (min 64 (bits.length * eb - 64 * i)) != 0)
    let pad : List Issue := match junk with
      | some i => [.bad { r with kind := 0x01, k := key 0, wofs := addr21 (a + 8 + (8 * i : Nat)) / 8 * 8 }]
      | none => []
    (bm.1 ++ els.1 ++ (if padded = 0 then [] else body.1) ++ pad, ((els.2, bm.2.2), a + 8 + padded))

/-- Groups one after the other. -/
def Walk.groups (w : Walk) (o : Opnd) (last : Int) (r : MetaRec) : Nat → Nat → Int → Scan Listing
  | 0, _, _ => ([], ([], false))
  | n + 1, g, a =>
    let x := w.group o a last (64 * g) (fun b => 64 * g + b) r
    if x.2.2 = a then (x.1, x.2.1)
    else
      let y := w.groups o last r n (g + 1) x.2.2
      (x.1 ++ y.1, (x.2.1.1 ++ y.2.1, x.2.1.2 || y.2.2))

/-- A coordinate list at `a` (05 R75) with its extent, and its row pitch where it has one. `key` gives the record's K of a
coordinate. -/
def Walk.co (w : Walk) (o : Opnd) (a : Int) (ext : Nat) (pitch : Option Nat) (key : Nat → Nat) (r : MetaRec) : Scan Listing :=
  let h := w.read o.rg 4 a r
  let n := leNat (h.2.1.take 2)
  let vals := (4 + 2 * n + 7) / 8 * 8
  if leNat (h.2.1.drop 2) != 0 || pitch.any (fun p => p < vals + (n * etBits o.et + 7) / 8) then
    (h.1 ++ [.bad { r with kind := 0x06, wofs := addr21 a / 8 * 8 }], ([], h.2.2))
  else
    let one (i : Nat) : Scan (Nat × Bool) :=
      let c := w.read o.rg 2 (a + 4 + (2 * i : Nat)) r
      (c.1, (leNat c.2.1, c.2.2))
    let cs := scanAll (List.range n) one
    let faults := (cs.2.zip (none :: cs.2.map some)).zipIdx.filterMap (fun e =>
      let bad (kind : Nat) : Option Issue :=
        some (.bad { r with kind := kind, k := key e.1.1.1, wofs := addr21 (a + 4 + (2 * e.2 : Nat)) / 8 * 8 })
      if ext ≤ e.1.1.1 then bad 0x04
      else match e.1.2 with
        | some p => if e.1.1.1 = p.1 then bad 0x03 else if e.1.1.1 < p.1 then bad 0x02 else none
        | none => none)
    let els := scanAll cs.2.zipIdx (fun e => w.dense o (a + vals) e.2 e.1.1 { r with k := key e.1.1 })
    (h.1 ++ cs.1 ++ faults ++ els.1, (els.2, h.2.2 || cs.2.any (·.2)))

/-! ## The rows of A and B (R245) -/

def tileA (o : Opnd) (k : Nat) : Nat :=
  if o.tpitch = 0 then k / 64 * (64 * storedBits o / 8) else k / 64 * o.tpitch
/-- The tile pitch of B. -/
def pitchB (o : Opnd) : Nat := if o.tpitch = 0 then 64 * o.rpitch else o.tpitch
def tileB (o : Opnd) (k : Nat) : Nat := k / 64 * pitchB o

/-- A value with its scale, whose byte stands at `a`. -/
def Walk.scaled (w : Walk) (o : Opnd) (a : Int) (e : El) (r : MetaRec) : Scan El :=
  if !o.sc then ([], e)
  else
    let s := w.read o.rg 1 a r
    (s.1, { e with x := e.x.e8m0 (leNat s.2.1), race := e.race || s.2.2 })

/-- The scales of a listed row. -/
def Walk.scaledRow (w : Walk) (o : Opnd) (at_ : El → Int) (rec : El → MetaRec) (raw : Scan Listing) : Scan Listing :=
  let sc := scanAll raw.2.1 (fun e => w.scaled o (at_ e) e (rec e))
  (raw.1 ++ sc.1, (sc.2, raw.2.2))

/-- Elements that no metadata lists. -/
def unlisted (s : Scan (List El)) : Scan Listing := (s.1, (s.2, false))

def Walk.rowA (w : Walk) (m : Nat) : Scan Listing :=
  let o := opnd w.l 0
  let a := w.opBase 0
  let kk := lntK w.l
  let r : MetaRec := ⟨0, 0, m, 0, 0, 0⟩
  w.scaledRow o (fun e => a + o.sofs + (m * (kk / 32) + e.k / 32 : Nat)) (fun e => { r with k := e.k }) (match o.fmt with
    | 1 => w.groups o (a + (m * o.rpitch : Nat) + o.rpitch) r (kk / 64) 0 (a + (m * o.rpitch : Nat))
    | 3 => w.co o (a + (m * o.rpitch : Nat)) kk (some o.rpitch) (fun c => c) r
    | _ => unlisted (scanAll (List.range kk) (fun k =>
        w.dense o (a + tileA o k + (m * o.rpitch : Nat)) (k % 64) k { r with k := k })))

/-- B row k: the elements by column n. A ZBM row ends with its pitch, and at the latest with its tile. -/
def Walk.rowB (w : Walk) (k : Nat) : Scan Listing :=
  let o := opnd w.l 1
  let b := w.opBase 1
  let at_ := b + tileB o k + (k % 64 * o.rpitch : Nat)
  let r : MetaRec := ⟨1, 0, k % 2 ^ 16, k, 0, 0⟩
  w.scaledRow o (fun e => b + o.sofs + (64 * (k / 32) + e.k : Nat)) (fun _ => r) (match o.fmt with
    | 1 =>
      let g := w.group o at_ (min (at_ + o.rpitch) (b + tileB o k + pitchB o)) 0 (fun _ => k) r
      (g.1, g.2.1)
    | 3 => w.co o at_ 64 (some o.rpitch) (fun _ => k) r
    | _ => unlisted (scanAll (List.range 64) (fun n => w.dense o at_ n n r)))

def Walk.side (w : Walk) : Scan Listing :=
  if lntSide w.l then w.co (opnd w.l 2) (w.opBase 2) (64 * lntK w.l) none (fun c => c / 64) ⟨2, 0, 0, 0, 0, 0⟩
  else ([], ([], false))

/-! ## The processing elements (03 R55, 17 R240, R249) -/

def rneF32 (x : Num) : Nat := (fmtF32.result (.mode .rne) false false x).1

/-- The product table's word (03 R60). -/
def tabWord (t : Option TabSlot) (ia ib : Nat) : Nat :=
  match t with
  | some t => leNat ((t.bytes.drop (4 * (16 * ia + ib))).take 4)
  | none => 0

/-- A processing element: p, the step index, the branch bit. -/
structure Pe where
  p : Nat
  i : Nat
  open_ : Bool

structure PeEnv where
  int : Bool
  tabled : Bool
  table : Option TabSlot
  steps : List Nat

def wrap32 (i : Int) : Nat := (i % 2 ^ 32).toNat

/-- One step on p; `b` is none where the B element is absent. -/
def PeEnv.apply (v : PeEnv) (step : Nat) (p : Nat) (a : El) (b : Option El) : Nat :=
  let bx := (b.map (·.x)).getD Num.zero
  let bi := (b.map (·.i)).getD 0
  let bIx := (b.map (·.ix)).getD 0
  if v.int then
    let prod : Int := if v.tabled then sint 32 (tabWord v.table a.ix bIx) else a.i * bi
    match step with
    | 0 => if b.isSome then wrap32 (sint 32 p + prod) else p
    | 1 => wrap32 (sint 32 p + (a.i - bi).natAbs)
    | _ => wrap32 (max (sint 32 p) (sint 32 (wrap32 prod)))
  else
    let prod : Num := if v.tabled then fmtF32.decode (tabWord v.table a.ix bIx) else a.x.mul bx
    let pn := fmtF32.decode p
    match step with
    | 0 => if b.isSome then rneF32 (prod.add (.mode .rne) pn) else p
    | 1 => rneF32 (pn.add (.mode .rne) (a.x.add (.mode .rne) bx.neg).abs)
    | _ => rneF32 (pn.max prod)

/-- a < b, ordered. -/
def PeEnv.less (v : PeEnv) (a : El) (b : Option El) : Bool :=
  if v.int then a.i < (b.map (·.i)).getD 0 else a.x.cmp ((b.map (·.x)).getD Num.zero) == some .lt

/-- The next delivered entry. -/
def PeEnv.entry (v : PeEnv) (s : Pe) (a : El) (b : Option El) : Pe :=
  let step := (v.steps[s.i % v.steps.length]?).getD 0
  if !s.open_ then { s with i := s.i + 1, open_ := true }
  else if step = 2 then { s with i := s.i + 1, open_ := v.less a b }
  else { s with i := s.i + 1, p := v.apply step s.p a b }

/-- The side-list term of a coordinate. -/
def sideTerm (s : Pe) (a : El) (t : Option El) : Pe :=
  match t with
  | some e => { s with p := rneF32 ((a.x.mul e.x).add (.mode .rne) (fmtF32.decode s.p)) }
  | none => s

/-- Element (m, n) of a product pass: the entries of row m in ascending k. -/
def PeEnv.element (v : PeEnv) (as : List El) (brow : Nat → List El) (deliver : Nat → Bool) (side : List El) (n : Nat) : Nat :=
  (as.foldl (fun s a =>
    let s1 := if deliver a.k then v.entry s a ((brow a.k).find? (fun e => e.k == n)) else s
    sideTerm s1 a (side.find? (fun e => e.k == 64 * a.k + n))) (⟨0, 0, true⟩ : Pe)).p

/-- Whether race poison reaches array row `m` (R250): what lists the row or the side list, an element that the row uses (delivered,
or with a side term), what lists a B row at one of its k, an element of a B row delivered to it, a side entry at one of its k, the
product table. -/
def rowRace (a : Listing) (brow : Nat → Listing) (deliver : Nat → Bool) (side : Listing) (table : Bool) : Bool :=
  a.2 || (side.2 && !a.1.isEmpty) || a.1.any (fun e =>
    let sd := side.1.filter (fun t => t.k / 64 == e.k)
    (e.race && (deliver e.k || !sd.isEmpty)) || (brow e.k).2 || (deliver e.k && (table || (brow e.k).1.any (·.race))) ||
      sd.any (·.race))

/-- The partial of a pass, and what its operands held. -/
def Walk.product (w : Walk) : Scan Part :=
  let a := scanAll (List.range 64) w.rowA
  let b := scanAll (List.range (lntK w.l)) w.rowB
  let sd := w.side
  let steps := lntSteps w.l
  let tb := (w.j.me.slots[lntPslot w.l]?).join
  let v : PeEnv := ⟨lntInt w.l, lntTabled w.l, tb, steps⟩
  let brow (k : Nat) : Listing := (b.2[k]?).getD ([], false)
  let deliver (k : Nat) : Bool := !(steps.all (· == 0)) || !(brow k).1.isEmpty
  let tabs : List Issue := (List.range 2).flatMap (fun i =>
      if (opnd w.l i).fmt = 2 then
        match w.codebook (opnd w.l i).table with
        | none => [.bad ⟨5, 0x0C, 0, 0, 0, 0⟩]
        | some t => if cbSize t = 0 || 16 < cbSize t then [.bad ⟨5, 0x05, 0, 0, 0, 0⟩] else []
      else []) ++
    (if v.tabled && !(tb.any (fun t => t.kind == .product)) then [.bad ⟨5, 0x0C, 0, 0, 0, 0⟩] else [])
  let row (m : Nat) : Listing := (a.2[m]?).getD ([], false)
  (a.1 ++ b.1 ++ sd.1 ++ tabs,
    ⟨Vector.ofFn (fun m => Vector.ofFn (fun n =>
        BitVec.ofNat 32 (v.element (row m).1 (fun k => (brow k).1) deliver sd.2.1 n))),
     Vector.ofFn (fun m =>
        if rowRace (row m) brow deliver sd.2 (v.tabled && tb.any (fun t => t.p == .race)) then .race else .none)⟩)

/-! ## Trees (R254, R255) -/

/-- Where a row's walk of one tree ends: the leaf's value, the fold, and race poison met. -/
structure TreeEnd where
  leaf : Num
  fold : Word
  race : Bool

def rotl5 (x : Word) : Word := x.rotateLeft 5

/-- The walk of row m in a tree from node i on. -/
def Walk.treeWalk (w : Walk) (m t : Nat) (root : Int) (count : Nat) : Nat → Nat → Word → Bool → Scan TreeEnd
  | 0, i, fold, race => ([.bad ⟨3, 0x09, m, i, addr21 (root + (16 * i : Nat)) / 8 * 8, t⟩], ⟨.zero, fold, race⟩)
  | fuel + 1, i, fold, race =>
    let at_ := root + (16 * i : Nat)
    let r : MetaRec := ⟨3, 0, m, i, addr21 at_ / 8 * 8, t⟩
    if count ≤ i then ([.bad { r with kind := 0x08 }], ⟨.zero, fold, race⟩)
    else
      let n := w.read false 16 at_ r
      let feat := leNat (n.2.1.take 2)
      let f' := rotl5 fold ^^^ BitVec.ofNat 64 i
      let rc := race || n.2.2
      let leaf := leNat (n.2.1.drop 12)
      if n.1 != [] && n.1.any (fun x => match x with | .bad _ => true | _ => false) then (n.1, ⟨.zero, f', rc⟩)
      else if leNat ((n.2.1.drop 2).take 2) != 0 then (n.1 ++ [.bad { r with kind := 0x0B }], ⟨.zero, f', rc⟩)
      else if feat != 0xFFFF && leaf != 0 then
        (n.1 ++ [.bad { r with kind := 0x0B, wofs := addr21 (at_ + 8) / 8 * 8 }], ⟨.zero, f', rc⟩)
      else if feat = 0xFFFF then (n.1, ⟨fmtF32.decode leaf, f', rc⟩)
      else if lntK w.l ≤ feat then (n.1 ++ [.bad { r with kind := 0x04 }], ⟨.zero, f', rc⟩)
      else
        let o := opnd w.l 0
        let a := w.dense o (w.opBase 0 + tileA o feat + (m * o.rpitch : Nat)) (feat % 64) feat ⟨0, 0, m, i, 0, t⟩
        let thr := fmtF32.decode (leNat ((n.2.1.drop 4).take 4))
        let next := if a.2.x.cmp thr == some .lt then leNat ((n.2.1.drop 8).take 2) else leNat ((n.2.1.drop 10).take 2)
        let y := w.treeWalk m t root count fuel next f' (rc || a.2.race)
        (n.1 ++ a.1 ++ y.1, y.2)

/-- Tree t for row m: its directory entry, then the walk. -/
def Walk.tree (w : Walk) (m t : Nat) : Scan TreeEnd :=
  let nb : Int := (lf w.l 21 43 21 : Int)
  let d := w.read false 8 (nb + (8 * t : Nat)) ⟨3, 0, m, 0, addr21 (nb + (8 * t : Nat)) / 8 * 8, t⟩
  if d.1.any (fun x => match x with | .bad _ => true | _ => false) then (d.1, ⟨.zero, 0, false⟩)
  else if leNat (d.2.1.drop 6) != 0 then
    (d.1 ++ [.bad ⟨3, 0x0B, m, 0, addr21 (nb + (8 * t : Nat)) / 8 * 8, t⟩], ⟨.zero, 0, false⟩)
  else
    let y := w.treeWalk m t (nb + (leNat (d.2.1.take 4) : Nat)) (leNat ((d.2.1.drop 4).take 2)) 1024 0 (BitVec.ofNat 64 t) d.2.2
    (d.1 ++ y.1, y.2)

def lntTrees (l : Lnt) : Nat := lf l 21 27 16

/-- A pass in tree mode: the partial, and the fold of each (row, tree). -/
def Walk.trees (w : Walk) : Scan (Part × List (List Word)) :=
  let rows := scanAll (List.range 64) (fun m => scanAll (List.range (lntTrees w.l)) (fun t => w.tree m t))
  let sum (m : Nat) : Nat := ((rows.2[m]?).getD []).foldl (fun p e => rneF32 ((fmtF32.decode p).add (.mode .rne) e.leaf)) 0
  (rows.1,
    ⟨Vector.ofFn (fun m => Vector.ofFn (fun n => if n.val = 0 then BitVec.ofNat 32 (sum m) else 0)),
     Vector.ofFn (fun m => if ((rows.2[m.val]?).getD []).any (·.race) then .race else .none)⟩,
    rows.2.map (fun r => r.map (·.fold)))

def Walk.pass (w : Walk) : Scan (Part × List (List Word)) :=
  if lntTree w.l then w.trees
  else
    let p := w.product
    (p.1, (p.2, []))

/-- Whether a malformation comes before another in the order of R258. -/
def MetaRec.before (a b : MetaRec) : Bool :=
  a.opnd < b.opnd || (a.opnd == b.opnd && (a.row < b.row || (a.row == b.row && a.k < b.k)))

/-- The malformation that the record names. -/
def leastBad (l : List Issue) : Option MetaRec :=
  l.foldl (fun r x => match x, r with
    | .bad a, some b => if a.before b then some a else r
    | .bad a, none => some a
    | _, r => r) none

end Sys2Proof.Machine
end

