-- ==== Sys2Proof/Machine/EngineWaits.lean ====
section
/-!
DEFINITION. What engine jobs wait for: the order of tiles and table slots (17 R235), footprints and launches (07 R92, R93), and where
the walker of the matrix engine stands (17 R241, R251, R256).
-/
namespace Sys2Proof.Machine
open Sys2Proof

/-! ## The tiles and table slots that an instruction names (R235): tile c is c, slot q is 64 + q -/

/-- The tiles of a job over its immediate levels. -/
def lntTiles (l : Lnt) : List Nat :=
  if noPasses l then []
  else
    let step (acc : List Int) (v : Nat) : List Int :=
      if lntNlev l < v || levElastic l v || levC l v = 0 then acc
      else acc.flatMap (fun c => (List.range (min 64 (levTrip l v))).map (fun (i : Nat) => c + (i : Int) * levC l v))
    ((List.range' 1 5).foldl step [(lf l 20 58 6 : Int)]).foldl (fun r c => addOnce r c.toNat) []

def lntSlots (l : Lnt) : List Nat :=
  ((List.range 2).filterMap (fun i => if (opnd l i).fmt = 2 && !lntTree l then some (64 + (opnd l i).table) else none)) ++
    (if lntTabled l then [64 + lntPslot l] else [])

def MeJob.names (m : MeJob) : List Nat := lntTiles m.lnt ++ lntSlots m.lnt
def MeTask.names (t : MeTask) : List Nat :=
  match t.work with
  | .table .. => [64 + t.tile]
  | _ => [t.tile]

/-- No earlier ME instruction that names one of these is incomplete (R235). -/
def Job.meFree (j : Job) (id : Nat) (names : List Nat) : Bool :=
  j.me.jobs.all (fun m => id ≤ m.op || !m.names.any names.contains) &&
  j.me.tasks.all (fun t => id ≤ t.id || !t.names.any names.contains)

/-! ## Footprints (07 R93) and launches (R92) -/

/-- The interval of S that a base covers over the levels, `len` bytes from each: one interval from the least to the greatest byte, and
all of S where that wraps or an elastic level strides (DESIGN CHOICE, notes/assumptions/73.md). -/
def spanFoot (l : Lnt) (o : Opnd) (stride : Nat → Int) (off len : Nat) : Foot :=
  let b := (List.range' 1 5).foldl (fun (r : Int × Int) v =>
    if lntNlev l < v then r
    else if levElastic l v then (if stride v = 0 then r else (-1, 0))
    else
      let d := stride v * ((levTrip l v : Int) - 1)
      (r.1 + min 0 d, r.2 + max 0 d)) (((o.base + off : Nat) : Int), ((o.base + off : Nat) : Int))
  if b.1 < 0 || 2 ^ 21 < b.2 + len then ⟨1, 0, 2 ^ 21, false, false⟩
  else ⟨1, b.1.toNat, (b.2 - b.1).toNat + len, false, false⟩

/-- The operand regions of a job that derive edges: those that are not rime-gated (R93). -/
def lntReads (l : Lnt) : List Foot :=
  let kk := lntK l
  let one (i : Nat) : List Foot :=
    let o := opnd l i
    if o.rg || o.slot then []
    else
      let stride := if i = 0 then levA l else levB l
      let len := match i with
        | 0 => tileA o (kk - 1) + 64 * o.rpitch + 64 * storedBits o / 8
        | 1 => tileB o (kk - 1) + 64 * o.rpitch + 64 * storedBits o / 8
        | _ => 8 + 256 * kk
      spanFoot l o stride 0 len :: (if o.sc then [spanFoot l o stride o.sofs (2 * kk + 64)] else [])
  one 0 ++ (if lntTree l then [] else one 1) ++ (if lntSide l then one 2 else [])

/-- An engine job of the cell: its launch, and its regions. -/
structure EngJob where
  op : Nat
  feet : List Foot

/-- All of S and G. -/
def wholeFoot : List Foot := [⟨0, 0, 2 ^ 48, true, false⟩, ⟨1, 0, 2 ^ 21, true, false⟩]

/-- The regions of a kicked chain: those of its FOOT words, and all of S and G when it has none (R93). Before it has begun they are
read from its words as they stand at its launch (DEDUCED, notes/assumptions/73.md). -/
def Chain.engJob (c : Chain) : List EngJob :=
  match c.role with
  | .stream => []
  | .kicked op _ =>
    let l := if c.begun then c.foot else c.ahead
    [⟨op, if l.isEmpty then wholeFoot else l.filter (fun f => !f.gated)⟩]

/-- The destination slabs of a drain whose image lies at `a` (R93). -/
def drainFoot (ty : ET) (a : Nat) : Foot := ⟨1, a / 2048 * 2048, (a + 512 * etBits ty + 2047) / 2048 * 2048 - a / 2048 * 2048, true, false⟩

/-- The write footprint of a task. -/
def MeTask.feet (t : MeTask) : List Foot :=
  match t.work with
  | .drain ty _ _ _ (.slabs a) => [drainFoot ty a]
  | _ => []

def Job.engJobs (j : Job) : List EngJob :=
  j.me.jobs.map (fun m => ⟨m.op, lntReads m.lnt⟩) ++ j.me.tasks.map (fun t => ⟨t.op, t.feet⟩) ++
  [j.ce0, j.ce1].flatMap (fun e => (e.chain.toList ++ e.kicks).flatMap Chain.engJob)

/-- Two regions share a granule, and one of them is written. -/
def Foot.clash (a b : Foot) : Bool :=
  a.space == b.space && (a.write || b.write) && a.base / 64 * 64 < b.base + b.len && b.base / 64 * 64 < a.base + a.len

/-- No engine job launched earlier that has not completed overlaps these regions (R93). -/
def Job.edgesClear (j : Job) (op : Nat) (feet : List Foot) : Bool :=
  j.engJobs.all (fun e => op ≤ e.op || !e.feet.any (fun a => feet.any (fun b => a.clash b)))

/-- An ME launch: for other ME launches it is ordered by tiles and slots alone (R235; DEDUCED, notes/assumptions/24.md). -/
def MemOp.isMeLaunch (o : MemOp) : Bool :=
  match o.what with
  | .launchMe _ | .launchDrain _ => true
  | _ => false

/-- The operations ordered before a launch have been performed (R92). -/
def launchReady (ops : List MemOp) (op : Nat) (me : Bool) : Bool :=
  match ops.find? (fun o => o.id == op) with
  | none => true
  | some o => ops.all (fun q => !(o.preds.contains q.id) || q.status == .complete ||
      (q.isStore && q.status == .applied) || (me && q.isMeLaunch))

/-! ## The walker (R245, R251) -/

/-- The byte offset of the first slab of the elastic level's slot. -/
def Job.slotBase (j : Job) (m : MeJob) : Nat :=
  match lntElastic m.lnt, m.slot with
  | some v, some sl => (j.ring (levRing m.lnt v)).slotSlab sl.toNat * 2048
  | _, _ => 0

/-- What the walker sees for the job's next pass. -/
def Job.walk (j : Job) (m : MeJob) : Walk := ⟨j, m.lnt, j.slotBase m, m.ix⟩

/-- Whether the next pass needs a slot that it does not have. -/
def MeJob.needsSlot (m : MeJob) : Bool := (lntElastic m.lnt).isSome && m.slot.isNone

/-- The slab at which a walk comes to stand: the first gated one, in the order A, B, side list, that is not FULL (DESIGN CHOICE of the
order, notes/assumptions/25.md). -/
def firstGate (l : List Issue) : Option Nat := l.findSome? (fun i => match i with
  | .gate s => some s
  | _ => none)

def Job.running (j : Job) : Option MeJob := j.me.jobs.find? (fun m => m.phase == .running)
def Job.meJob (j : Job) (id : Nat) : Option MeJob := j.me.jobs.find? (fun m => m.id == id)
def Job.modMe (j : Job) (id : Nat) (f : MeJob → MeJob) : Job :=
  { j with me := { j.me with jobs := j.me.jobs.map (fun m => if m.id = id then f m else m) } }

def lntPlog (l : Lnt) : Bool := lntTree l && lf l 21 22 1 == 1
def lntPring (l : Lnt) : BitVec 4 := BitVec.ofNat 4 (lf l 21 23 4)

/-- Whether the walker may work on its next pass: it has its slot, its launch and edges let it read, and the pass's buffer of the
network, which every job shares, is free (18 R269). -/
def Job.passOpen (j : Job) (ops : List MemOp) (m : MeJob) : Bool :=
  m.more && !m.needsSlot && j.me.jobs.all (fun u => (u.buffers[m.count % 4]?.join).isNone) && !j.trapPending .ac &&
    launchReady ops m.op true && j.edgesClear m.op (lntReads m.lnt)

/-- What the running job waits on: a gated slab, the ring of its elastic level, the ring of its path log (R267 STALL). -/
inductive MeWait where
  | slab (s : Nat)
  | level (v : Nat)
  | log
  deriving DecidableEq, Repr

/-- Trees in one slot of a ring (R256). -/
def logTrees (r : Ring) : Nat := (2048 * (r.ssz.toNat + 1) - 64) / 512

/-- Slots that one block fills. -/
def logSlots (l : Lnt) (r : Ring) : Nat := (lntTrees l + logTrees r - 1) / logTrees r

/-- The slots that the walker still has to acquire for the block of its next pass. -/
def Job.logNeed (j : Job) (m : MeJob) : Nat :=
  if lntPlog m.lnt then logSlots m.lnt (j.ring (lntPring m.lnt)) - m.logGot.length else 0

/-- What a job waits on now, if it is the running one and its launch and edges let it work. -/
def Job.meWait (j : Job) (ops : List MemOp) (m : MeJob) : Option MeWait :=
  if m.more && m.needsSlot then
    match lntElastic m.lnt with
    | some v => if (j.ring (levRing m.lnt v)).fill = 0 && !(j.ring (levRing m.lnt v)).cls then some (.level v) else none
    | none => none
  else if j.passOpen ops m then
    match firstGate (j.walk m).pass.1 with
    | some s => some (.slab s)
    | none =>
      if (j.ring (lntPring m.lnt)).free.toNat < j.logNeed m && !(j.ring (lntPring m.lnt)).cls then some .log else none
  else none

/-- What the walker of a job waits on. -/
def Job.walkerWait (j : Job) (ops : List MemOp) : Option MeWait := j.running.bind (j.meWait ops)

/-- The stalls that the starvation counter counts (R251). -/
def MeWait.starves (w : MeWait) : Bool :=
  match w with
  | .log => false
  | _ => true

/-- The counter of the running job starts at a new stall, and stops where there is none. -/
def Job.noteStall (j : Job) (ops : List MemOp) (clk : Nat) : Job :=
  match j.running with
  | some m => j.modMe m.id (fun m' => { m' with stall := if (j.walkerWait ops).any MeWait.starves then some clk else none })
  | none => j

/-- The same after a change of something that the walker of `old` may have waited on. -/
def Job.restall (j old : Job) (ops : List MemOp) (clk : Nat) : Job :=
  if j.walkerWait ops = old.walkerWait ops then j else j.noteStall ops clk

end Sys2Proof.Machine
end

