-- ==== Sys2Proof/Machine/Rime.lean ====
section
/-!
DEFINITION. Fault records and events (23 R340, R341, 25 R371), rime tags (05 R66 to R69).
-/
namespace Sys2Proof.Machine
open Sys2Proof

/-! ## Record queues (25 R371) -/

/-- Whether an access of the device to G meets a table entry with data poison: that is consumption by the context, at no cell
(23 R342; DESIGN CHOICE, notes/assumptions/71.md). -/
def Package.tableLoss (p : Package) (w : Who) (va n : Nat) (acc : Acc) : Package :=
  if p.gFail w va n acc = some .poisoned then p.lose ⟨w.ctx, 1, 0xFFFF, BitVec.ofNat 64 va, 6⟩ else p

/-- A write of a record or of a header word, where its page may be written. -/
def Package.recordWrite (p : Package) (w : Who) (va : Nat) (bs : List Byte) : Package :=
  if p.canWriteG w va bs.length then p.writeG w va bs else p.tableLoss w va bs.length .store

/-- The records that software has consumed (DESIGN CHOICE where the word cannot be read: none, notes/assumptions/71.md). -/
def Package.consumed (p : Package) (w : Who) (q : RecQueue) : Nat :=
  match p.readG w (q.base.toNat + 8) 4 .load with
  | .ok (bs, _) => leNat bs
  | .error _ => 0

/-- Write a record into a queue, if there is room and its page may be written; else it counts as dropped. The header word
is rewritten after each record where it can be. -/
def Package.pushRecord (p : Package) (w : Who) (q : RecQueue) (rec : List Byte) : Package × RecQueue :=
  let at_ := q.base.toNat + 32 + (q.written % q.count) * rec.length
  let room := q.count != 0 && (q.written + 2 ^ 32 - p.consumed w q) % 2 ^ 32 != q.count
  let p0 := p.tableLoss w (q.base.toNat + 8) 4 .load
  let p1 := if room then p0.recordWrite w at_ rec else p0
  let q1 := if room && p.canWriteG w at_ rec.length then { q with written := (q.written + 1) % 2 ^ 32 }
    else { q with dropped := (q.dropped + 1) % 2 ^ 32 }
  (p1.recordWrite w q.base.toNat (natLe q1.written 4 ++ natLe q1.dropped 4), q1)

/-- A context that is not lost. -/
def Package.alive (p : Package) (ctx : Nat) : Option Context := (p.ctx ctx).filter (fun c => c.st != .lost)

/-- A fault record (23 R340). -/
def faultBytes (place src type detail : Nat) (pc addr : Nat) : List Byte :=
  natLe place 2 ++ natLe src 1 ++ natLe type 1 ++ natLe detail 4 ++ natLe pc 8 ++ natLe addr 8 ++ natLe 0 8

def Package.faultRecord (p : Package) (ctx place src type detail pc addr : Nat) : Package :=
  match p.alive ctx with
  | none => p
  | some c =>
    match p.pushRecord c.who c.faults (faultBytes place src type detail pc addr) with
    | (p', q) => p'.modCtx ctx (fun c => { c with faults := q })

/-- An event (23 R341). -/
def Package.event (p : Package) (ns : Nat) (ctx type src place detail : Nat) : Package :=
  match p.alive ctx with
  | none => p
  | some c =>
    match p.pushRecord c.who c.events (natLe ns 8 ++ natLe type 1 ++ natLe src 1 ++ natLe place 2 ++ natLe detail 4) with
    | (p', q) => p'.modCtx ctx (fun c => { c with events := q })

/-- A version is published (23 R347), and each context receives event 0x05 with it (R341). -/
def Package.publish (p : Package) (now change : Nat) (f : Firn → Firn) : Package :=
  let q := p.newVersion now change f
  q.ctxs.foldl (fun q c => q.event (now / Config.ticksPerNs) c.id 0x05 6 0 q.firn.version.toNat) q

/-! ## Tags (05 R66, R68) -/

def TagSt.code (t : TagSt) : Nat :=
  match t with
  | .empty => 0
  | .filling => 1
  | .full => 2
  | .error => 3

/-- The 32-bit tag word (05 R66). -/
def Tag.word (t : Tag) : Nat :=
  t.st.code * 2 ^ 30 + bit1 t.psn * 2 ^ 29 + bit1 t.pst * 2 ^ 28 + t.kind.toNat * 2 ^ 24 + t.exp.toNat * 2 ^ 12 + t.cnt.toNat

def Tag.err (t : Tag) (kind : BitVec 4) : Tag := { t with st := .error, kind := kind }

/-- An arrival of `n` bytes (05 R68); `psn` when it carries a data-poisoned granule (R70). -/
def Tag.arrive (t0 : Tag) (n : Nat) (psn : Bool) : Tag :=
  let c := min 4095 (t0.cnt.toNat + n)
  let t := { t0 with cnt := BitVec.ofNat 12 c, psn := t0.psn || psn }
  match t0.st with
  | .empty => { t with st := if t0.pst && c = t0.exp.toNat then .full else .filling }
  | .filling =>
    if t0.pst then
      (if c = t0.exp.toNat then { t with st := .full } else if t0.exp.toNat < c then t.err 1 else t)
    else if 2048 < c then t.err 2 else t
  | .full => t.err 1
  | .error => t

/-- RPOST of `n` (05 R68). -/
def Tag.post (t : Tag) (n : Nat) : Tag :=
  let p := { t with pst := true, exp := BitVec.ofNat 12 n }
  match t.st with
  | .error => t
  | st =>
    if 2048 < n then { t with pst := true }.err 4
    else match st, t.pst with
    | .full, _ => t.err 3
    | .filling, true => t.err 3
    | .filling, false =>
      if n = t.cnt.toNat then { p with st := .full } else if t.cnt.toNat < n then p else p.err 1
    | _, _ => { p with st := if n = 0 then .full else .filling }

/-! ## Tags of a job, and what a rollback restores (01 R26; DEDUCED, notes/assumptions/19.md) -/

def Job.putTag (j : Job) (slab : Nat) (t : Tag) : Job :=
  { j with tags := if t = Tag.zero then dropKey j.tags slab else put j.tags slab t }

/-- A change to a tag by an operation of region `own` of the job, or by another agent (none): a rollback of later regions
keeps it, so their images take it too. -/
def Job.changeTag (j : Job) (slab : Nat) (f : Tag → Tag) (own : Option Nat) : Job :=
  { j.putTag slab (f (j.tag slab)) with tagSaves := noteImage j.tagSaves slab own (j.tag slab) f }

/-- Whether `n` bytes may arrive in a carve-out now: in the clk of an RPOST an arrival comes before it (05 R68), so none follows. -/
def Job.mayArrive (j : Job) (clk off n : Nat) : Bool := (slabsOf off n).all (fun s => look j.posts s != some clk)

/-- The trap of a wait on a tag in ERROR (05 R69, 23 R330, R331). -/
def tagTrap (t : Tag) (slab : Nat) (dlv : Eng) (region : Nat) (pc : Word) : Trap :=
  ⟨if t.kind.toNat < 5 then 0x06 else 0x07, t.kind.toNat, 0, krec (natLe t.word 4 ++ natLe 0 4 ++ natLe (slab * 2048) 8),
    dlv, 0, false, region, pc⟩

def Job.addTrap (j : Job) (t : Trap) : Job := { j with traps := j.traps ++ [t] }

/-- The stream in which a chain of engine `e` delivers its faults (19 R291). -/
def Chain.dlv (c : Chain) (e : BitVec 1) : Eng :=
  match c.role with
  | .stream => if e = 0 then .ce0 else .ce1
  | .kicked _ _ => .ac

/-- A chain fault (19 R291; 23 R330, code 0x0E: the engine's number, kind, stack depth, chain pointer;
DEDUCED, notes/assumptions/22.md). -/
def Chain.trap (c : Chain) (e : BitVec 1) (kind : Nat) : Trap :=
  ⟨0x0E, kind, 0, krec (natLe e.toNat 1 ++ natLe kind 1 ++ natLe c.stack.length 1 ++ natLe 0 5 ++ wordLe c.ptr), c.dlv e, 0,
    false, c.region, c.ptr⟩

/-- A tag entering ERROR raises the trap of every wait that is blocked on it (05 R69): RWAIT, WAITR, a stage-slab wait. -/
def Job.tagWaiters (j : Job) (ops : List MemOp) (slab : Nat) (t : Tag) : Job :=
  let blocked (w : Option Wait) : Bool := match w with
    | some (.rime s _) => s == slab
    | _ => false
  let chain (j : Job) (e : BitVec 1) : Job := match (j.eng e).chain with
    | some c => if blocked c.wait then j.addTrap (tagTrap t slab (c.dlv e) c.region c.ptr) else j
    | none => j
  let walker (j : Job) : Job := match j.running with
    | some m => if j.meWait ops m = some (.slab slab) then j.addTrap (tagTrap t slab .ac m.region m.pc) else j
    | none => j
  chain (chain (walker (if blocked j.ac.wait then j.addTrap (tagTrap t slab .ac j.ac.region j.ac.pc) else j)) 0) 1

/-- Change the tag of a slab of a job; entering ERROR writes a rime fault record and raises the trap of blocked waits
(05 R69). `src` and `pc` name the agent in the record. -/
def Package.changeTag (p : Package) (cell uid slab : Nat) (f : Tag → Tag) (own : Option Nat) (src pc : Nat) : Package :=
  match p.cell cell, (p.cell cell).bind (fun c => c.jobBy uid) with
  | some x, some j =>
    let t := f (j.tag slab)
    let enters := t.st == .error && (j.tag slab).st != .error
    let p1 := p.modJob cell uid (fun j =>
      (((if enters then j.tagWaiters x.ops slab t else j).changeTag slab f own).restall j x.ops (p.clkOf cell)))
    if enters then p1.faultRecord j.ctx (placeOfCell cell) src 0x01 t.word pc (slab * 2048) else p1
  | _, _ => p

/-- The arrival of a counting write of `n` bytes: it counts in each slab the bytes that fall there. -/
def Package.arrive (p : Package) (cell uid off n : Nat) (psn : Bool) (own : Option Nat) (src pc : Nat) : Package :=
  (slabsOf off n).foldl (fun q s =>
    q.changeTag cell uid s (fun t => t.arrive (min (off + n) (2048 * s + 2048) - max off (2048 * s)) psn) own src pc) p

end Sys2Proof.Machine
end

