-- ==== Sys2Proof/Machine/Fetch.lean ====
section
/-!
DEFINITION. The fetch of an instruction word by a core stream (09 R104, 11 R153).
-/
namespace Sys2Proof.Machine
open Sys2Proof

def Here.who (h : Here) : Who := ⟨h.jb.ctx, ((h.ctx).map (·.secure)).getD false, some h.id.cell⟩

/-- The bytes that a fetch sees: a word that the context's own stores have changed keeps its old bytes until TLBINV with
sub 1 (11 R153; DEDUCED, notes/assumptions/21.md). -/
def Package.fetchBytes (p : Package) (ctx cell uid : Nat) (t : Target) : List Byte × Poison :=
  match (p.codePlace ctx uid t).bind (fun k => (p.ctx ctx).bind (fun c => look c.stale k)) with
  | some old => (old, (p.readTarget ctx cell uid t 8).2)
  | none => p.readTarget ctx cell uid t 8

/-- The word at an address, or the failing check. -/
def Package.fetch (p : Package) (w : Who) (cell uid : Nat) (pc : Word) : Except AccFail (Word × Poison) :=
  match checkG p w pc.toNat 8 .fetch with
  | .error f => .error f
  | .ok t => .ok (BitVec.ofNat 64 (leNat (p.fetchBytes w.ctx cell uid t).1), (p.fetchBytes w.ctx cell uid t).2)

/-- The word at the stream's pc. -/
def Here.fetch (h : Here) : Except AccFail (Word × Poison) :=
  (h.pk.setCell h.id.cell { h.ce with job := some h.jb }).fetch h.who h.id.cell h.jb.uid h.st.pc

/-- The word at pc as the record of Illegal Instruction names it (23 R330, code 0x01). -/
def Here.word (h : Here) : Word :=
  match h.fetch with
  | .ok (w, _) => w
  | .error _ => 0

/-- Illegal Instruction at the word at pc (09 R126, R127). -/
def Here.illegal (h : Here) : Here := h.illegalWord h.word

end Sys2Proof.Machine
end

