-- ==== Sys2Proof/Machine/Operands.lean ====
section
/-!
DEFINITION. How a core instruction meets its operands (09 R127, 11 R139, R140): the sync wait, the queue pops, the poison checks,
the write of the result, the sync post, and the advance of the program counter with the loop stack (11 R160).
-/
namespace Sys2Proof.Machine
open Sys2Proof

/-! ## Registers (11 R138) -/

/-- Register 0 reads 0. -/
def CoreState.reg (c : CoreState) (n : BitVec 6) : PVal := if n = 0 then PVal.zero else c.regs[n.toFin]

/-- Register 0 discards what is written to it. -/
def CoreState.setReg (c : CoreState) (n : BitVec 6) (v : PVal) : CoreState :=
  if n = 0 then c else { c with regs := c.regs.set n.toFin v }

/-- Whether a register waits for a load or an atomic in flight. -/
def CoreState.isBusy (c : CoreState) (n : BitVec 6) : Bool := c.busy.getLsbD n.toNat

def Here.reg (h : Here) (n : BitVec 6) : PVal := h.st.reg n

def Here.modSt (h : Here) (f : CoreState → CoreState) : Here := h.setSt (f h.st)

/-- The stream blocks; the event that the wait names ends it. -/
def Here.block (h : Here) (w : Wait) : Here := h.modSt (fun c => { c with wait := some w })

/-- The register number of an operand (09 R111). -/
def srcReg (s : Src) : Nat :=
  match s with
  | .reg n => n.toNat
  | .pop q | .peek q => 104 + q.toNat

/-! ## Queues of the XC (13 R181, R194) -/

/-- Whether the AC can still push to lq `q`: it is live and no QEND of it has taken effect (13 R193). -/
def Job.lqOpen (j : Job) (q : BitVec 2) : Bool := j.ac.live && !j.lq[q.toFin].ended

/-- A drain of the matrix engine to a row queue, in flight (13 R194). -/
def Job.drainTo (j : Job) (q : BitVec 2) : Bool :=
  j.me.tasks.any (fun t => match t.work with
    | .drain _ _ _ _ (.queue q' _) => q' == q
    | _ => false)

def Job.rowOpen (j : Job) (q : BitVec 2) : Bool := (j.ac.live && !j.lqRow[q.toFin].ended) || j.drainTo q

/-- Pop or peek lq0 to lq3: the value and the job without it, the wait, or queue underflow. -/
inductive PopRes (α : Type) where
  | got (v : α) (j : Job)
  | wait
  | underflow

def Job.popLq (j : Job) (q : BitVec 2) (keep : Bool) : PopRes PVal :=
  match j.lq[q.toFin].ents with
  | [] => if j.lqOpen q then .wait else .underflow
  | e :: es =>
    match e.data with
    | some v => .got v (if keep then j else { j with lq := j.lq.set q.toFin { j.lq[q.toFin] with ents := es } })
    | none => .wait

def Job.popRow (j : Job) (q : BitVec 2) : PopRes RowVal :=
  match j.lqRow[q.toFin].ents with
  | [] => if j.rowOpen q then .wait else .underflow
  | e :: es =>
    match e.data with
    | some v => .got v { j with lqRow := j.lqRow.set q.toFin { j.lqRow[q.toFin] with ents := es } }
    | none => .wait

/-- One source operand: `k` is how many queue operands of the word come before it. A value already popped or peeked by the
word at pc stands in the latch. -/
def Here.src (h : Here) (k : Nat) (s : Src) : Except Here (PVal × Nat × Here) :=
  match s with
  | .reg n => if h.st.isBusy n then .error h else .ok (h.reg n, k, h)
  | .pop q | .peek q =>
    match h.st.latch[k]? with
    | some v => .ok (v, k + 1, h)
    | none =>
      match h.jb.popLq q (match s with | .peek _ => true | _ => false) with
      | .got v j => .ok (v, k + 1, { h with jb := j }.modSt (fun c => { c with latch := c.latch ++ [v] }))
      | .wait => .error (h.block (.popLq q))
      | .underflow => .error (h.queueTrap false (104 + q.toNat))

/-- The operands in the order ra, rb, rc (09 R113). -/
def Here.srcs (h : Here) (k : Nat) (l : List Src) : Except Here (List PVal × Here) :=
  match l with
  | [] => .ok ([], h)
  | s :: l =>
    match h.src k s with
    | .error h' => .error h'
    | .ok (v, k', h') =>
      match h'.srcs k' l with
      | .error e => .error e
      | .ok (vs, h'') => .ok (v :: vs, h'')

/-! ## The steps of an instruction, one after the other -/

/-- The sync wait (09 R114): at least 1 in the job's view, then the decrement at once. -/
def Here.withSync (h : Here) (sy : Sync) (f : Here → Here) : Here :=
  if !sy.wait || h.st.syncTaken then f h
  else if 1 ≤ h.semView sy.sem then
    f ({ h with jb := h.jb.semTake sy.sem h.region (h.k == Core.xc) }.modSt (fun c => { c with syncTaken := true }))
  else h.block (.sem sy.sem true)

/-- Read the operands, then go on. -/
def Here.withSrcs (h : Here) (l : List Src) (f : List PVal → Here → Here) : Here :=
  match h.srcs 0 l with
  | .ok (vs, h') => f vs h'
  | .error h' => h'

/-- Poison and dependences of a result (07 R97, R86). -/
def joinP (vs : List PVal) : Poison := worst (vs.map (·.p))
def joinDep (vs : List PVal) : List Nat := vs.foldl (fun l v => unionOnce l v.dep) []
def result (vs : List PVal) (w : Word) : PVal := ⟨w, joinP vs, joinDep vs⟩

/-- The uses that trap (07 R97, 11 R140): the most severe kind decides, and among operands that carry it the first
(DEDUCED, notes/assumptions/20.md). Each operand comes with its register number and its field. -/
def Here.unpoisoned (h : Here) (l : List (PVal × Nat × Nat)) (f : Here → Here) : Here :=
  match l.find? (fun e => e.1.p == joinP (l.map (·.1)) && e.1.p != .none) with
  | some e => h.useTrap e.1.p e.2.1 e.2.2
  | none => f h

/-- The check of a sync post when it is recorded (13 R191), which is after the word's own change of the semaphore (09 R114: with
both bits on one index the wait comes first): a count past 2^32 - 1 is semaphore overflow, and the word has no effect. -/
def Here.postAfter (h : Here) (sy : Sync) (h' : Here) (f : Here → Here) : Here :=
  if sy.post && semMax < (h'.semView sy.sem).toNat + 1 then h.overflow 0 sy.sem.toNat ((h'.semView sy.sem).toNat + 1) else f h'

/-- The same for a word that changes no semaphore. -/
def Here.postOk (h : Here) (sy : Sync) (f : Here → Here) : Here := h.postAfter sy h f

/-- A register operand that may be written: no load or atomic in flight names it. -/
def Here.regFree (h : Here) (n : BitVec 6) (f : Here → Here) : Here := if h.st.isBusy n then h else f h

/-- Write the result (11 R139, step 5). A push waits while the queue is full, and raises queue overflow after the AC has
ended or after the XC's own QEND (13 R194). -/
def Here.withDst (h : Here) (rd : Dst) (v : PVal) (f : Here → Here) : Here :=
  match rd with
  | .reg n => h.regFree n (fun h => f (h.modSt (fun c => c.setReg n v)))
  | .push q =>
    if !h.jb.ac.live || h.jb.sq[q.toFin].ending then h.queueTrap true (112 + q.toNat)
    else if 8 ≤ h.jb.sq[q.toFin].ents.length then h.block (.pushSq q)
    else f { h with jb := { h.jb with
      sq := h.jb.sq.set q.toFin { h.jb.sq[q.toFin] with ents := h.jb.sq[q.toFin].ents ++ [⟨0, some { v with dep := [] }⟩] } } }

/-- Operations with all that is locally ordered before them (07 R86, item 4). -/
def withPreds (ops : List MemOp) (l : List Nat) : List Nat :=
  (ops.filter (fun o => l.contains o.id)).foldl (fun l o => unionOnce l o.preds) l

/-- The sync post, commit-deferred (09 R114): it releases what is locally ordered before the word (07 R88). `src` is the
operation whose completion it follows. -/
def Here.syncPost (h : Here) (sy : Sync) (preds : List Nat) (src : Option Nat) : Here :=
  if sy.post then h.defer none (withPreds h.ce.ops preds) src (.semPost sy.sem 1) else h

/-! ## The program counter and the loop stack (11 R160) -/

/-- end_check: the next pc after the word at `e`, and the loop stack. -/
def endCheck (e : Word) (d : Nat) (l : List LoopRec) : Word × List LoopRec :=
  match l with
  | [] => (e + 8, [])
  | t :: ts =>
    if t.last = e && t.depth = d then
      (if t.count = 1 then endCheck e d ts else (t.first, { t with count := t.count - 1 } :: ts))
    else (e + 8, t :: ts)

/-- The latches of the word at pc are cleared when it completes. -/
def CoreState.clear (c : CoreState) : CoreState :=
  { c with wait := none, syncTaken := false, granted := false, latch := [], part := 0, rows := [] }

/-- The word at `e` has completed without transferring control. -/
def CoreState.passWord (c : CoreState) (e : Word) : CoreState :=
  { c.clear with pc := (endCheck e c.calls.length c.loops).1, loops := (endCheck e c.calls.length c.loops).2 }

/-- The word at pc completes: its result counts for its region, it is progress, and the stream goes on after it. -/
def Here.pass (h : Here) : Here := h.note.modSt (fun c => c.passWord c.pc)

/-- The word at pc completes: the sync post, progress, and the change `f` of the stream. -/
def Here.complete (h : Here) (sy : Sync) (preds : List Nat) (f : CoreState → CoreState) : Here :=
  { h.syncPost sy preds none with jb := { (h.syncPost sy preds none).jb with progress := h.clk } }.modSt f

/-- The word at pc completes without a result. -/
def Here.retire (h : Here) (sy : Sync) (preds : List Nat) : Here := h.complete sy preds (fun c => c.passWord c.pc)

/-- The same for a word with a result, with the sync post. -/
def Here.finish (h : Here) (sy : Sync) (preds : List Nat) : Here := (h.syncPost sy preds none).pass

/-- The word at pc completes with a transfer of control to `t`: loops at this depth whose body does not hold the target
are left (11 R161). -/
def CoreState.jumpTo (c : CoreState) (t : Word) : CoreState :=
  { c.clear with
    pc := t
    loops := c.loops.dropWhile (fun l => l.depth == c.calls.length && !(l.first.toNat ≤ t.toNat && t.toNat ≤ l.last.toNat)) }

/-- Whether the word at pc is the last of an active loop at its depth (11 R161). -/
def CoreState.atLoopEnd (c : CoreState) : Bool := c.loops.any (fun l => l.depth == c.calls.length && l.last == c.pc)

/-! ## The scalar shape (11 R139): sync wait, operands, result, destination, sync post -/

/-- An instruction whose result is a function of its operands. -/
def Here.scalar (h : Here) (sy : Sync) (rd : Dst) (l : List Src) (f : List PVal → PVal) : Here :=
  h.withSync sy fun h => h.withSrcs l fun vs h => h.postOk sy fun h =>
    h.withDst rd (f vs) fun h => h.finish sy (joinDep vs)

end Sys2Proof.Machine
end

