-- ==== Sys2Proof/Machine/Region.lean ====
section
/-!
DEFINITION. Regions of a job (01 R19, R22, R26): where a core stream passes from one to the next, what is saved there, and the
start of a kernel iteration (11 R163, 12 R172).
-/
namespace Sys2Proof.Machine
open Sys2Proof

/-- The epilogue's region number: after the counted iterations, or where the elastic decision stopped (01 R19, R20). -/
def Job.epilogueRegion (j : Job) : Option Nat :=
  match j.trip with
  | .counted t => some (t + 1)
  | .elastic _ => (j.decisions.find? (fun d => d.2 == .stop)).map (fun d => d.1 + 1)

def Job.inEpilogue (j : Job) (r : Nat) : Bool := j.epilogueRegion == some r

/-- Whether a region is a kernel iteration. -/
def Job.inKernel (j : Job) (r : Nat) : Bool := 1 ≤ r && !j.inEpilogue r

def Header.entries (h : Header) (k : Core) : Vector Word 3 :=
  match k with
  | .ac => h.ac
  | .xc => h.xc

/-- Where a core stream starts a region (01 R26). -/
def Job.entry (j : Job) (k : Core) (r : Nat) : Word :=
  if r = 0 then (j.hdr.entries k)[0] else if j.inEpilogue r then (j.hdr.entries k)[2] else (j.hdr.entries k)[1]

/-! ## What is saved at the start of a region (01 R26, R50, R162, R164, R165, R193, R222, R262, R314, R318) -/

/-- The registers of a mask; the others read zero without poison. -/
def maskRegs (live : BitVec 64) (r : Vector PVal 64) : Vector PVal 64 :=
  Vector.ofFn (fun i => if live.getLsbD i.val then r[i] else PVal.zero)

/-- The physical register that a vector name denotes (11 R164). -/
def physV (rrb : BitVec 3) (n : Nat) : Nat := if n < 24 then n else 24 + (n - 24 + rrb.toNat) % 8

/-- The vector state kept through a rollback: the named live-ins, and the tables. -/
def maskVec (hd : Header) (rrb : BitVec 3) (v : VecState) : VecState where
  v := Vector.ofFn (fun i =>
    if (List.range 32).any (fun n => physV rrb n == i.val && hd.liveV.getLsbD n) then v.v[i] else VReg.zero)
  m := Vector.ofFn (fun i => if hd.liveM.getLsbD i.val then v.m[i] else MReg.zero)
  tb := v.tb

/-- The queue ends that the side of a core has issued, and those that have taken effect. -/
def Job.endBits (j : Job) (k : Core) (issued : Bool) : BitVec 8 :=
  let f {α : Type} (q : Queue α) : Bool := if issued then q.ending else q.ended
  match k with
  | .ac => BitVec.ofNat 8 ((List.range 4).foldl (fun n i =>
      n + bit1 ((j.lq[i]?.map f).getD false) * 2 ^ i + bit1 ((j.lqRow[i]?.map f).getD false) * 2 ^ (i + 4)) 0)
  | .xc => BitVec.ofNat 8 ((List.range 2).foldl (fun n i =>
      n + bit1 ((j.sq[i]?.map f).getD false) * 2 ^ i + bit1 ((j.sqRow[i]?.map f).getD false) * 2 ^ (i + 2)) 0)

def Header.live (h : Header) (k : Core) : BitVec 64 :=
  match k with
  | .ac => h.liveA
  | .xc => h.liveX

/-- The save of a core stream at the start of region `r`. -/
def Job.save (j : Job) (k : Core) (r : Nat) : CoreSave where
  region := r
  regs := maskRegs (j.hdr.live k) (j.core k).regs
  vec := maskVec j.hdr (j.core k).rrb j.vec
  kps := (j.core k).kps
  nmctl := (j.core k).nmctl
  srs := (j.core k).srs
  rrb := (j.core k).rrb
  rdv := (j.core k).rdv
  ending := j.endBits k true
  ended := j.endBits k false
  banks := j.me.banks
  mgos := j.me.mgos
  prio := j.prio
  crews := j.crews

/-- Whether a stream may pass the end of a region: at most four regions are uncommitted (01 R22). -/
def Job.mayPass (j : Job) (r : Nat) : Bool := r < j.committed + 3

/-! ## Kernel iterations (11 R163) -/

/-- The predicates at the start of iteration `i`, before ps0 is set. -/
def shiftPs (k : Kps) (i : Nat) : BitVec 8 :=
  if i = 0 then 0 else BitVec.ofNat 8 (k.ps.toNat * 2 % 2 ^ (k.stg.toNat + 1))

/-- kps in iteration `i`, with ps0 and the slot. -/
def Kps.start (k : Kps) (i : Nat) (ps0 : Bool) (slot : BitVec 8) : Kps where
  iter := BitVec.ofNat 32 i
  slot := slot
  stg := k.stg
  ps := shiftPs k i ||| BitVec.ofNat 8 (bit1 ps0)

/-- kps outside the kernel: ITER 0, no slot (11 R162). -/
def Kps.outside (k : Kps) : Kps := { k with iter := 0, slot := 0xFF }

/-- kps of a stream that goes to its epilogue in place of iteration `i`: where a decision ended the kernel the predicates have
shifted first (11 R163), after a counted trip they stand as the last iteration left them. -/
def Kps.leave (k : Kps) (t : TripSrc) (i : Nat) : Kps :=
  match t with
  | .counted _ => k.outside
  | .elastic _ => { k.outside with ps := shiftPs k i }

/-- A stream starts region `r` after its save: an epilogue, an iteration of a counted trip, or the wait of an elastic one. -/
def Job.startRegion (j : Job) (k : Core) (r : Nat) : Job :=
  if j.inEpilogue r then
    j.setCore k { j.core k with pc := (j.hdr.entries k)[2], kps := (j.core k).kps.leave j.trip (r - 1), started := true }
  else match j.trip with
    | .counted t =>
      j.setCore k { j.core k with
        pc := (j.hdr.entries k)[1], started := true
        kps := (j.core k).kps.start (r - 1) (decide (r - 1 + (j.core k).kps.stg.toNat + 1 ≤ t)) 0xFF }
    | .elastic _ =>
      j.setCore k { j.core k with pc := (j.hdr.entries k)[1], started := false, wait := some .elastic }

/-- A core stream passes the end of its region: the next one is saved and started. -/
def Job.passEnd (j : Job) (k : Core) : Job :=
  (j.setCore k { (j.core k).clear with
    region := (j.core k).region + 1
    saves := (j.core k).saves ++ [j.save k ((j.core k).region + 1)] }).startRegion k ((j.core k).region + 1)

/-- Whether the stream stands where it passes the end of the prologue: at its kernel entry, or at its epilogue entry when
the trip count is 0 (01 R19). -/
def Job.atPrologueEnd (j : Job) (k : Core) : Bool :=
  (j.core k).region == 0 && (j.core k).pc == (if j.trip = .counted 0 then (j.hdr.entries k)[2] else (j.hdr.entries k)[1])

/-- Depth 0 and no loop, as every boundary asks (11 R158, R161). -/
def CoreState.flat (c : CoreState) : Bool := c.calls.isEmpty && c.loops.isEmpty

/-- The end of the prologue: Illegal Instruction at the entry where a call or a loop is open, a stall while four regions
are uncommitted, else the pass. -/
def Here.prologueEnd (h : Here) : Here :=
  if !h.st.flat then h.illegal
  else if h.jb.mayPass 0 then { h with jb := h.jb.passEnd h.k }
  else h

/-! ## Elastic trips (12 R172) -/

/-- Whether an item is still in flight for a stream with `stg` at the start of iteration `i`: the predicates of R163,
from the decisions taken. -/
def Job.psAlive (j : Job) (stg i : Nat) : Bool :=
  j.decisions.any (fun d => d.1 < i && i ≤ d.1 + stg && (match d.2 with | .take _ => true | _ => false))

/-- The decision for iteration `i` of an elastic trip on ring `q`, where one can be taken: the ring counts what has taken
effect (14 R195). -/
def Job.decide (j : Job) (q : BitVec 4) (i : Nat) : Option Decision :=
  if 0 < (j.ring q).fill.toNat then some (.take (j.ring q).cix)
  else if (j.ring q).cls then
    (if j.psAlive j.ac.kps.stg.toNat i || j.psAlive j.xc.kps.stg.toNat i then some .drain else some .stop)
  else none

/-- The decision recorded; a slot taken leaves the ring at once (05 R71). -/
def Job.record (j : Job) (q : BitVec 4) (i : Nat) (d : Decision) : Job :=
  match d with
  | .take _ => { j.changeRing q (some (i + 1)) Ring.take with decisions := j.decisions ++ [(i, d)] }
  | _ => { j with decisions := j.decisions ++ [(i, d)] }

/-- A stream acts on the decision of its iteration. -/
def Job.followDecision (j : Job) (k : Core) (i : Nat) (d : Decision) : Job :=
  let c := { j.core k with wait := none, started := true }
  j.setCore k (match d with
    | .take s => { c with kps := c.kps.start i true s }
    | .drain => { c with kps := c.kps.start i false 0xFF }
    | .stop => { c with kps := c.kps.leave j.trip i, pc := (j.hdr.entries k)[2] })

end Sys2Proof.Machine
end

