-- ==== Sys2Proof/Machine/Scalar.lean ====
section
/-!
DEFINITION. Scalar integer and address instructions (11 R142 to R146).
-/
namespace Sys2Proof.Machine
open Sys2Proof

/-! ## The functions of the tables -/

def nth (vs : List PVal) (i : Nat) : Word := (vs[i]?.getD PVal.zero).v

/-- 1 or 0 as a word. -/
def bword (b : Bool) : Word := if b then 1 else 0

/-- The shift amount: bits 5:0 (R142). -/
def shamt (y : Word) : Nat := y.toNat % 64

def aluMin (x y : Word) : Word := if x.slt y then x else y
def aluMax (x y : Word) : Word := if x.slt y then y else x
def aluMinu (x y : Word) : Word := if x.ult y then x else y
def aluMaxu (x y : Word) : Word := if x.ult y then y else x

/-- Bits 127:64 of the signed and of the unsigned product (R143). -/
def mulHigh (x y : Word) : Word := BitVec.ofInt 64 (x.toInt * y.toInt / 2 ^ 64)
def mulHighU (x y : Word) : Word := BitVec.ofNat 64 (x.toNat * y.toNat / 2 ^ 64)

/-- Division by zero gives all ones; the quotient is rounded toward zero and taken modulo 2^64 (R143). -/
def divS (x y : Word) : Word := if y = 0 then -1 else BitVec.ofInt 64 (x.toInt.tdiv y.toInt)
def divU (x y : Word) : Word := if y = 0 then -1 else BitVec.ofNat 64 (x.toNat / y.toNat)
def remS (x y : Word) : Word := if y = 0 then x else BitVec.ofInt 64 (x.toInt.tmod y.toInt)
def remU (x y : Word) : Word := if y = 0 then x else BitVec.ofNat 64 (x.toNat % y.toNat)

/-- The carry-less product of two 64-bit numbers, 128 bits (R143). -/
def clmulNat (x y : Nat) : Nat :=
  (List.range 64).foldl (fun a i => if bitAt y i then a ^^^ (x * 2 ^ i) else a) 0

def clmulLo (x y : Word) : Word := BitVec.ofNat 64 (clmulNat x.toNat y.toNat)
def clmulHi (x y : Word) : Word := BitVec.ofNat 64 (clmulNat x.toNat y.toNat / 2 ^ 64)

/-- Leading zeros, trailing zeros and one bits of a word (R144). -/
def countLead (x : Word) : Word := BitVec.ofNat 64 ((List.range 64).takeWhile (fun i => !x.getLsbD (63 - i))).length
def countTrail (x : Word) : Word := BitVec.ofNat 64 ((List.range 64).takeWhile (fun i => !x.getLsbD i)).length
def countOnes (x : Word) : Word := BitVec.ofNat 64 ((List.range 64).filter (fun i => x.getLsbD i)).length

/-- The field control of BFX and BFI: position and width (R144). -/
def fieldPos (c : Word) : Nat := fld c.toNat 0 6
def fieldWidth (c : Word) : Nat := min (fld c.toNat 8 7) (64 - fieldPos c)

def bitField (x c : Word) : Word := BitVec.ofNat 64 (fld x.toNat (fieldPos c) (fieldWidth c))

def insertField (x c d : Word) : Word :=
  BitVec.ofNat 64 (d.toNat - fld d.toNat (fieldPos c) (fieldWidth c) * 2 ^ fieldPos c +
    x.toNat % 2 ^ fieldWidth c * 2 ^ fieldPos c)

def extBits (e : ExtW) : Nat :=
  match e with
  | .b => 8
  | .h => 16
  | .w => 32

/-- k of the immediate forms (R145). -/
def immS (i : BitVec 32) : Word := i.signExtend 64

/-! ## The shapes -/

/-- rd := f (ra, rb). -/
def alu2 (o : OpRRR) (f : Word → Word → Word) (h : Here) : Here :=
  h.scalar o.sy o.rd [o.ra, o.rb] fun vs => result vs (f (nth vs 0) (nth vs 1))

/-- rd := f ra. -/
def alu1 (rd : Dst) (ra : Src) (sy : Sync) (f : Word → Word) (h : Here) : Here :=
  h.scalar sy rd [ra] fun vs => result vs (f (nth vs 0))

/-- rd := f (ra, rb, rc). -/
def alu3 (o : OpRRRR) (f : Word → Word → Word → Word) (h : Here) : Here :=
  h.scalar o.sy o.rd [o.ra, o.rb, o.rc] fun vs => result vs (f (nth vs 0) (nth vs 1) (nth vs 2))

/-- The immediate forms: rd := f (ra, k). -/
def aluI (o : OpRI) (f : Word → Word → Word) (h : Here) : Here := alu1 o.rd o.ra o.sy (fun x => f x (immS o.imm)) h

/-! ## R142, opcode 0x10 -/

/-- ADD (R142). -/
def execAdd (o : OpRRR) (s : State) : Out := onCore s (alu2 o fun x y => x + y)

/-- SUB (R142). -/
def execSub (o : OpRRR) (s : State) : Out := onCore s (alu2 o fun x y => x - y)

/-- AND (R142). -/
def execAnd (o : OpRRR) (s : State) : Out := onCore s (alu2 o fun x y => x &&& y)

/-- OR (R142). -/
def execOr (o : OpRRR) (s : State) : Out := onCore s (alu2 o fun x y => x ||| y)

/-- XOR (R142). -/
def execXor (o : OpRRR) (s : State) : Out := onCore s (alu2 o fun x y => x ^^^ y)

/-- ANDN (R142). -/
def execAndn (o : OpRRR) (s : State) : Out := onCore s (alu2 o fun x y => x &&& ~~~y)

/-- ORN (R142). -/
def execOrn (o : OpRRR) (s : State) : Out := onCore s (alu2 o fun x y => x ||| ~~~y)

/-- SHL (R142). -/
def execShl (o : OpRRR) (s : State) : Out := onCore s (alu2 o fun x y => x <<< shamt y)

/-- SHR (R142). -/
def execShr (o : OpRRR) (s : State) : Out := onCore s (alu2 o fun x y => x >>> shamt y)

/-- SRA (R142). -/
def execSra (o : OpRRR) (s : State) : Out := onCore s (alu2 o fun x y => x.sshiftRight (shamt y))

/-- ROL (R142). -/
def execRol (o : OpRRR) (s : State) : Out := onCore s (alu2 o fun x y => x.rotateLeft (shamt y))

/-- ROR (R142). -/
def execRor (o : OpRRR) (s : State) : Out := onCore s (alu2 o fun x y => x.rotateLeft (64 - shamt y))

/-- MIN (R142). -/
def execMin (o : OpRRR) (s : State) : Out := onCore s (alu2 o fun x y => aluMin x y)

/-- MAX (R142). -/
def execMax (o : OpRRR) (s : State) : Out := onCore s (alu2 o fun x y => aluMax x y)

/-- MINU (R142). -/
def execMinu (o : OpRRR) (s : State) : Out := onCore s (alu2 o fun x y => aluMinu x y)

/-- MAXU (R142). -/
def execMaxu (o : OpRRR) (s : State) : Out := onCore s (alu2 o fun x y => aluMaxu x y)

/-- SEQ (R142). -/
def execSeq (o : OpRRR) (s : State) : Out := onCore s (alu2 o fun x y => bword (x == y))

/-- SNE (R142). -/
def execSne (o : OpRRR) (s : State) : Out := onCore s (alu2 o fun x y => bword (x != y))

/-- SLT (R142). -/
def execSlt (o : OpRRR) (s : State) : Out := onCore s (alu2 o fun x y => bword (x.slt y))

/-- SLTU (R142). -/
def execSltu (o : OpRRR) (s : State) : Out := onCore s (alu2 o fun x y => bword (x.ult y))

/-! ## R143, opcode 0x11 -/

/-- MUL (R143). -/
def execMul (o : OpRRR) (s : State) : Out := onCore s (alu2 o fun x y => x * y)

/-- MULH (R143). -/
def execMulh (o : OpRRR) (s : State) : Out := onCore s (alu2 o fun x y => mulHigh x y)

/-- MULHU (R143). -/
def execMulhu (o : OpRRR) (s : State) : Out := onCore s (alu2 o fun x y => mulHighU x y)

/-- DIV (R143). -/
def execDiv (o : OpRRR) (s : State) : Out := onCore s (alu2 o fun x y => divS x y)

/-- DIVU (R143). -/
def execDivu (o : OpRRR) (s : State) : Out := onCore s (alu2 o fun x y => divU x y)

/-- REM (R143). -/
def execRem (o : OpRRR) (s : State) : Out := onCore s (alu2 o fun x y => remS x y)

/-- REMU (R143). -/
def execRemu (o : OpRRR) (s : State) : Out := onCore s (alu2 o fun x y => remU x y)

/-- CLMUL (R143). -/
def execClmul (o : OpRRR) (s : State) : Out := onCore s (alu2 o fun x y => clmulLo x y)

/-- CLMULH (R143). -/
def execClmulh (o : OpRRR) (s : State) : Out := onCore s (alu2 o fun x y => clmulHi x y)

/-! ## R144, opcode 0x12 -/

/-- CLZ (R144). -/
def execClz (o : OpRR) (s : State) : Out := onCore s (alu1 o.rd o.ra o.sy countLead)

/-- CTZ (R144). -/
def execCtz (o : OpRR) (s : State) : Out := onCore s (alu1 o.rd o.ra o.sy countTrail)

/-- POPC (R144). -/
def execPopc (o : OpRR) (s : State) : Out := onCore s (alu1 o.rd o.ra o.sy countOnes)

/-- EXTS (R144). -/
def execExts (o : OpExt) (s : State) : Out := onCore s (alu1 o.rd o.ra o.sy fun x => sext (extBits o.w) x.toNat)

/-- EXTZ (R144). -/
def execExtz (o : OpExt) (s : State) : Out := onCore s (alu1 o.rd o.ra o.sy fun x => zext (extBits o.w) x.toNat)

/-- BFX (R144). -/
def execBfx (o : OpRRR) (s : State) : Out := onCore s (alu2 o fun x c => bitField x c)

/-- BFI (R144). -/
def execBfi (o : OpRRRR) (s : State) : Out := onCore s (alu3 o fun x c d => insertField x c d)

/-- SEL (R144). -/
def execSel (o : OpRRRR) (s : State) : Out := onCore s (alu3 o fun x y c => if c = 0 then y else x)

/-! ## R145, immediate forms -/

/-- ADDI (R145). -/
def execAddi (o : OpRI) (s : State) : Out := onCore s (aluI o fun x k => x + k)

/-- ANDI (R145). -/
def execAndi (o : OpRI) (s : State) : Out := onCore s (aluI o fun x k => x &&& k)

/-- ORI (R145). -/
def execOri (o : OpRI) (s : State) : Out := onCore s (aluI o fun x k => x ||| k)

/-- XORI (R145). -/
def execXori (o : OpRI) (s : State) : Out := onCore s (aluI o fun x k => x ^^^ k)

/-- SLTI (R145). -/
def execSlti (o : OpRI) (s : State) : Out := onCore s (aluI o fun x k => bword (x.slt k))

/-- SLTUI (R145). -/
def execSltui (o : OpRI) (s : State) : Out := onCore s (aluI o fun x k => bword (x.ult k))

/-- SEQI (R145). -/
def execSeqi (o : OpRI) (s : State) : Out := onCore s (aluI o fun x k => bword (x == k))

/-- SHLI (R145). -/
def execShli (o : OpSh) (s : State) : Out := onCore s (alu1 o.rd o.ra o.sy fun x => x <<< o.sh.toNat)

/-- SHRI (R145). -/
def execShri (o : OpSh) (s : State) : Out := onCore s (alu1 o.rd o.ra o.sy fun x => x >>> o.sh.toNat)

/-- SRAI (R145). -/
def execSrai (o : OpSh) (s : State) : Out := onCore s (alu1 o.rd o.ra o.sy fun x => x.sshiftRight o.sh.toNat)

/-- LI (R145). -/
def execLi (rd : Dst) (imm : BitVec 32) (sy : Sync) (s : State) : Out :=
  onCore s fun h => h.scalar sy rd [] fun _ => ⟨immS imm, .none, []⟩

/-- LIHI (R145). -/
def execLihi (o : OpRI) (s : State) : Out :=
  onCore s (alu1 o.rd o.ra o.sy fun x => BitVec.ofNat 64 (o.imm.toNat * 2 ^ 32 + x.toNat % 2 ^ 32))

/-! ## R146, addresses -/

/-- LEA (R146). -/
def execLea (rd ra rb : BitVec 6) (sh : BitVec 2) (sy : Sync) (s : State) : Out :=
  onCore s (alu2 ⟨.reg rd, .reg ra, .reg rb, sy⟩ fun x y => x + (y <<< sh.toNat))

/-- PLACE (R146). -/
def execPlace (rd ra : BitVec 6) (pl : Place) (sy : Sync) (s : State) : Out :=
  onCore s (alu1 (.reg rd) (.reg ra) sy fun x =>
    BitVec.ofNat 64 ((pl.die.toNat * 2 ^ 11 + pl.row.toNat * 2 ^ 8 + pl.col.toNat * 2 ^ 4) * 2 ^ 21 + x.toNat % 2 ^ 21))

/-- FADR (R146). -/
def execFadr (rd ra : BitVec 6) (coord : BitVec 10) (sy : Sync) (s : State) : Out :=
  onCore s (alu1 (.reg rd) (.reg ra) sy fun x => BitVec.ofNat 64 (coord.toNat * 2 ^ 48 + x.toNat % 2 ^ 48))

end Sys2Proof.Machine
end

