-- ==== Sys2Proof/Machine/Control.lean ====
section
/-!
DEFINITION. Branches, calls and register windows, hardware loops, KLOOP, RDV and TDONE (11 R151 to R166).
-/
namespace Sys2Proof.Machine
open Sys2Proof

/-! ## Shared operations -/

/-- A control word may not be the last word of an active loop at its depth (R161). -/
def Here.notLoopEnd (h : Here) (f : Here → Here) : Here := if h.st.atLoopEnd then h.illegal else f h

/-- No operation in flight will write a register: the window may move. -/
def Here.quiet (h : Here) (f : Here → Here) : Here := if h.st.busy = 0 then f h else h

/-- The word at pc completes by a jump to `t` (R151, R161). -/
def Here.jump (h : Here) (sy : Sync) (preds : List Nat) (t : Word) : Here :=
  h.complete sy preds (fun c => c.jumpTo t)

/-- A word without a sync field. -/
def Sync.zero : Sync := ⟨false, false, 0⟩

/-- pc + sext(disp, 32) * 8 (R151). -/
def branchTarget (pc : Word) (disp : BitVec 32) : Word := pc + disp.signExtend 64 * 8

/-- A conditional branch (R151): both operands trap when poisoned (R140). -/
def condBranch (o : OpBr) (c : Word → Word → Bool) (h : Here) : Here :=
  h.notLoopEnd fun h => h.withSrcs [o.ra, o.rb] fun vs h =>
    h.unpoisoned [(vs[0]?.getD PVal.zero, srcReg o.ra, 0), (vs[1]?.getD PVal.zero, srcReg o.rb, 1)] fun h =>
      if c (nth vs 0) (nth vs 1) then h.jump Sync.zero [] (branchTarget h.st.pc o.disp) else h.retire Sync.zero []

/-- BR (R151). -/
def execBr (disp : BitVec 32) (_hint : Hint) (s : State) : Out :=
  onCore s fun h => h.notLoopEnd fun h => h.jump Sync.zero [] (branchTarget h.st.pc disp)

/-- BEQ (R151). -/
def execBeq (o : OpBr) (s : State) : Out := onCore s (condBranch o fun x y => x == y)

/-- BNE (R151). -/
def execBne (o : OpBr) (s : State) : Out := onCore s (condBranch o fun x y => x != y)

/-- BLT (R151). -/
def execBlt (o : OpBr) (s : State) : Out := onCore s (condBranch o fun x y => x.slt y)

/-- BGE (R151). -/
def execBge (o : OpBr) (s : State) : Out := onCore s (condBranch o fun x y => !x.slt y)

/-- BLTU (R151). -/
def execBltu (o : OpBr) (s : State) : Out := onCore s (condBranch o fun x y => x.ult y)

/-- BGEU (R151). -/
def execBgeu (o : OpBr) (s : State) : Out := onCore s (condBranch o fun x y => !x.ult y)

/-- The target in ra: poison, then alignment (R118, R127, R140). -/
def withTarget (ra : Src) (vs : List PVal) (h : Here) (f : Word → Here → Here) : Here :=
  h.unpoisoned [(vs[0]?.getD PVal.zero, srcReg ra, 0)] fun h =>
    if (nth vs 0).toNat % 8 != 0 then h.illegal else f (nth vs 0) h

/-- JMP (R152). -/
def execJmp (ra : Src) (sy : Sync) (s : State) : Out :=
  onCore s fun h => h.notLoopEnd fun h => h.withSync sy fun h => h.withSrcs [ra] fun vs h =>
    withTarget ra vs h fun t h => h.postOk sy fun h => h.jump sy (joinDep vs) t

/-! ## Calls and windows (R154 to R157) -/

/-- w = 8 (ss + 1). -/
def shiftOf (ss : BitVec 2) : Nat := 8 * (ss.toNat + 1)

/-- Hidden registers resident in the register file. -/
def resident (l : List CallRec) : Nat := ((l.filter (fun r => !r.spilled)).map (fun r => r.hidden.length)).sum

/-- Bytes of a frame of `w` registers, and of the spilled frames (R156). -/
def frameBytes (w : Nat) : Nat := 64 + 8 * w
def spilledBytes (l : List CallRec) : Nat := ((l.filter (·.spilled)).map (fun r => frameBytes r.hidden.length)).sum

/-- The bytes of a core's window stack, and the carve-out offset just above it (R156). -/
def Job.stackBytes (j : Job) (k : Core) : Nat :=
  match k with
  | .ac => j.hdr.wsa * 2048
  | .xc => j.hdr.wsx * 2048
def Job.stackTop (j : Job) (k : Core) : Nat :=
  match k with
  | .ac => j.hdr.slabs * 2048
  | .xc => (j.hdr.slabs - j.hdr.wsa) * 2048

/-- The oldest resident frame: calls are listed newest first. -/
def oldestResident (l : List CallRec) : Option CallRec := l.reverse.find? (fun r => !r.spilled)

/-- Whether the next frame to spill fits in the stack. -/
def Job.spillFits (j : Job) (k : Core) : Bool :=
  match oldestResident (j.core k).calls with
  | some r => spilledBytes (j.core k).calls + frameBytes r.hidden.length ≤ j.stackBytes k
  | none => true

/-- Window-stack overflow (23 R330, code 0x0B). -/
def Here.windowOverflow (h : Here) : Here :=
  h.raise (trapOf 0x0B h.k.eng h.region h.st.pc (natLe h.k.eng.code 2 ++ natLe h.st.calls.length 2))

/-- The registers that the callee names (R154). -/
def callRegs (w : Nat) (r : Vector PVal 64) : Vector PVal 64 :=
  Vector.ofFn (fun i =>
    if i.val < 16 then r[i] else if i.val + w < 64 then (r[i.val + w]?).getD PVal.zero else PVal.zero)

/-- The registers that the caller names again. -/
def retRegs (hid : List PVal) (r : Vector PVal 64) : Vector PVal 64 :=
  Vector.ofFn (fun i =>
    if i.val < 16 then r[i]
    else if i.val < 16 + hid.length then (hid[i.val - 16]?).getD PVal.zero
    else (r[i.val - hid.length]?).getD PVal.zero)

/-- A call to `t` (R154): it stalls while more than 64 hidden registers would be resident, and overflows where that stall
cannot end or the depth is 65,535 (R155, R157). -/
def Here.doCall (h : Here) (sy : Sync) (preds : List Nat) (ss : BitVec 2) (t : Word) : Here :=
  h.quiet fun h =>
    if h.st.calls.length = 65535 then h.windowOverflow
    else if 64 < resident h.st.calls + shiftOf ss then (if h.jb.spillFits h.k then h.modSt (fun c => { c with spilling := true }) else h.windowOverflow)
    else
      h.complete sy preds (fun c => { c.clear with
          pc := t
          spilling := true
          regs := callRegs (shiftOf ss) c.regs
          calls := ⟨c.pc + 8, ss, (c.regs.toList.drop 16).take (shiftOf ss), false⟩ :: c.calls })

/-- CALL (R154). -/
def execCall (disp : BitVec 32) (ss : BitVec 2) (s : State) : Out :=
  onCore s fun h => h.notLoopEnd fun h => h.doCall Sync.zero [] ss (branchTarget h.st.pc disp)

/-- CALLR (R154). -/
def execCallr (ra : Src) (ss : BitVec 2) (sy : Sync) (s : State) : Out :=
  onCore s fun h => h.notLoopEnd fun h => h.withSync sy fun h => h.withSrcs [ra] fun vs h =>
    withTarget ra vs h fun t h => h.postOk sy fun h => h.doCall sy (joinDep vs) ss t

/-- RET (R154, R161): a RET whose frame is spilled stalls until it has been filled. -/
def execRet (sy : Sync) (s : State) : Out :=
  onCore s fun h =>
    if h.st.calls.isEmpty then h.illegal
    else h.notLoopEnd fun h => h.withSync sy fun h => h.postOk sy fun h => h.quiet fun h =>
      match h.st.calls with
      | [] => h
      | r :: rs =>
        if r.spilled then h
        else h.complete sy [] (fun c => { c.clear with
            pc := r.ret
            regs := retRegs r.hidden c.regs
            calls := rs
            spilling := false
            loops := c.loops.filter (fun l => l.depth != rs.length + 1) })

/-! ## LOOP (R159) -/

/-- The trip operand as a source of the core, where it is one. -/
def tripSrcs (t : Trip) : List Src :=
  match t with
  | .reg n => [.reg n]
  | .pop q => [.pop q]
  | .mbox _ => []

def tripReg (t : Trip) : Nat :=
  match t with
  | .reg n => n.toNat
  | .pop q => 104 + q.toNat
  | .mbox n => 120 + n.toNat

/-- The trip count: a register, a popped value, or the mailbox read now. -/
def Here.tripValue (h : Here) (t : Trip) (vs : List PVal) : PVal :=
  match t with
  | .mbox n => ⟨h.ce.mb[n.toFin], .none, []⟩
  | _ => vs[0]?.getD PVal.zero

/-- The state of the stream after a LOOP with a trip count: the zero-trip skip, or the entry pushed. -/
def CoreState.enterLoop (c : CoreState) (trip last : Word) : CoreState :=
  if trip = 0 then c.passWord last
  else { c.clear with pc := c.pc + 8, loops := ⟨c.pc + 8, last, trip, c.calls.length⟩ :: c.loops }

/-- LOOP (R159). -/
def execLoop (t : Trip) (imm : BitVec 32) (sy : Sync) (s : State) : Out :=
  onCore s fun h =>
    let last := h.st.pc + BitVec.ofNat 64 (8 * imm.toNat)
    if 3 ≤ h.st.loops.length || (match h.st.loops with
        | [] => false
        | l :: _ => l.depth == h.st.calls.length && l.last.ult last) then h.illegal
    else h.notLoopEnd fun h => h.withSync sy fun h => h.withSrcs (tripSrcs t) fun vs h =>
      h.unpoisoned [(h.tripValue t vs, tripReg t, 0)] fun h => h.postOk sy fun h =>
        let v := (h.tripValue t vs).v
        h.complete sy (joinDep vs) (fun c => c.enterLoop v last)

/-! ## KLOOP (R164), RDV (R165), TDONE (R166) -/

/-- The names v24 to v31 turn by one at a KLOOP of the XC (R164). -/
def Job.rotate (j : Job) (k : Core) : Job :=
  match k with
  | .xc => { j with xc := { j.xc with rrb := j.xc.rrb + 7 } }
  | .ac => j

/-- KLOOP (R164): it stalls while four regions are uncommitted (01 R22). -/
def execKloop (stg : BitVec 3) (sy : Sync) (s : State) : Out :=
  onCore s fun h =>
    if !h.jb.inKernel h.region || stg != h.st.kps.stg || !h.st.flat then h.illegal
    else h.withSync sy fun h =>
      if h.jb.mayPass h.region then h.postOk sy fun h =>
        let h' := h.syncPost sy [] none
        { h' with jb := ({ h'.jb with progress := h.clk }.rotate h.k).passEnd h.k }
      else h

/-- RDV (R165): RENDEZVOUS_RELEASE ends the wait and counts the meeting. -/
def execRdv (n : BitVec 8) (sy : Sync) (s : State) : Out :=
  onCore s fun h => h.withSync sy fun h =>
    if h.st.granted then h.postOk sy fun h => h.retire sy [] else h.block (.rdv n)

/-- TDONE (R166): as every end of a region it stalls while four are uncommitted (01 R19, R22). -/
def execTdone (sy : Sync) (s : State) : Out :=
  onCore s fun h =>
    if !h.jb.inEpilogue h.region || !h.st.flat then h.illegal
    else h.withSync sy fun h =>
      if h.jb.mayPass h.region then h.postOk sy fun h => h.complete sy [] (fun c => { c.clear with live := false }) else h

end Sys2Proof.Machine
end

