-- ==== Sys2Proof/Machine/Issue.lean ====
section
/-!
DEFINITION. Issue of operations with ordering fields: local order (07 R86), sequence numbers (23 R335), occupancy (07 R94), and
when an earlier operation stops holding back a later one (07 R92, R94, R382).
-/
namespace Sys2Proof.Machine
open Sys2Proof

/-! ## Local order (07 R86) -/

/-- The operations of the stream to which fields `os` and `pm` or a register dependence relate an operation, with theirs. -/
def localPreds (ops : List MemOp) (uid : Nat) (e : Eng) (f : OrdF) (deps : List Nat) : List Nat :=
  (ops.filter (fun o => o.job == uid && o.eng == e && !o.dropped &&
    (o.os == f.os || f.pm.getLsbD o.os.toNat || deps.contains o.id))).foldl
      (fun l o => unionOnce (addOnce l o.id) o.preds) []

def Here.preds (h : Here) (f : OrdF) (deps : List Nat) : List Nat := localPreds h.ce.ops h.jb.uid h.k.eng f deps

/-- The operations that have not completed in an ordering stream (R94). -/
def osCount (ops : List MemOp) (uid : Nat) (e : Eng) (os : BitVec 3) : Nat :=
  (ops.filter (fun o => o.job == uid && o.eng == e && o.os == os && o.incomplete)).length

/-- The requests of a cell that are incomplete: one of each operation, of each launched engine job (its launch), of each transfer
(R94; DESIGN CHOICE of the unit, notes/assumptions/77.md). -/
def cellRequests (ops : List MemOp) (j : Job) : Nat :=
  (ops.filter (·.incomplete)).length + j.ce0.xfers.length + j.ce1.xfers.length

/-- Room for one more operation: 1,024 per ordering stream, 8,192 per cell (R94). -/
def Here.room (h : Here) (f : OrdF) (f' : Here → Here) : Here :=
  if osCount h.ce.ops h.jb.uid h.k.eng f.os < 1024 && cellRequests h.ce.ops h.jb < 8192 then f' h else h

/-! ## Sequence numbers (23 R335) -/


def Job.osNum (j : Job) (k : Core) (os : BitVec 3) : Nat := j.osNums[coreIx k][os.toFin]

/-- The next operation of an ordering stream takes a number, modulo 2^32. -/
def Job.takeNum (j : Job) (k : Core) (os : BitVec 3) : Job :=
  { j with osNums := j.osNums.set (coreIx k) (j.osNums[coreIx k].set os.toFin ((j.osNum k os + 1) % 2 ^ 32)) }

/-- Whether ids that are predecessors of other operations are still needed: a complete operation leaves the list when no
later one is ordered after something it was ordered after. -/
def tidy (ops : List MemOp) : List MemOp :=
  ops.filter (fun o => o.incomplete || o.preds.any (fun p => ops.any (fun q => q.id == p && q.incomplete)))

/-! ## Issue -/

/-- The operation of the word at pc, named `id`. -/
def Here.mkOp (h : Here) (id : Nat) (f : OrdF) (what : OpWhat) (t : Target) (preds : List Nat) (st : OpStatus) (va : Word) :
    MemOp where
  id := id
  job := h.jb.uid
  eng := h.k.eng
  region := h.region
  os := f.os
  num := h.jb.osNum h.k f.os
  ord := f.ord
  scope := f.scope
  what := what
  target := t
  preds := preds
  status := st
  issued := h.clk
  stamp := none
  value := none
  fail := none
  dropped := false
  pc := h.st.pc
  va := va
  ctx := h.jb.ctx
  secure := h.who.secure

/-- An operation enters the cell's list with the next name and number; `g` goes on with the name. -/
def Here.issue (h : Here) (f : OrdF) (what : OpWhat) (t : Target) (preds : List Nat) (st : OpStatus) (va : Word)
    (g : Nat → Here → Here) : Here :=
  let id := h.s.nextId
  g id { h with
    s := { h.s with nextId := id + 1 }
    jb := h.jb.takeNum h.k f.os
    ce := { h.ce with ops := tidy h.ce.ops ++ [h.mkOp id f what t preds st va] } }

/-- An operation without an access, complete at once; later operations are ordered after what it was ordered after. -/
def Here.point (h : Here) (f : OrdF) (deps : List Nat) : Here :=
  h.issue f .point .nowhere (h.preds f deps) .complete 0 (fun _ h => h)

/-- Wait at issue until every predecessor has been performed. -/
def Here.whenPerformed (h : Here) (f : OrdF) (deps : List Nat) (g : Here → Here) : Here :=
  if predsDone h.ce.ops (h.preds f deps) then g h else h

/-- Whether an operation no longer holds back what is ordered after it: a launch, a load or an atomic has completed
(07 R92, 13 R184); a store is observed where it is held (01 R24). -/
def opOrdered (ops : List MemOp) (id : Nat) : Bool :=
  ops.all (fun o => o.id != id || o.status == .complete || (match o.what with
    | .store _ _ => true
    | _ => false))

/-- Wait at issue for the predecessors of an operation that makes no access. -/
def Here.whenOrdered (h : Here) (f : OrdF) (deps : List Nat) (g : Here → Here) : Here :=
  if (h.preds f deps).all (opOrdered h.ce.ops) then g h else h

end Sys2Proof.Machine
end

