-- ==== Sys2Proof/Machine/System.lean ====
section
/-!
DEFINITION. System instructions, control and status registers, mailboxes (09 R116; 11 R167 to R171; 23 R356 to R362). HALT stands
in Machine/Recovery.lean.
-/
namespace Sys2Proof.Machine
open Sys2Proof

/-- NOP: its sync wait and post only (09 R116). -/
def execNop (sy : Sync) (s : State) : Out :=
  onCore s fun h => h.withSync sy fun h => h.postOk sy fun h => h.retire sy []

/-- TRAP: the software trap 0x0F after the sync wait; the post is never made (23 R357). -/
def execTrap (n : BitVec 16) (sy : Sync) (s : State) : Out :=
  onCore s fun h => h.withSync sy fun h => h.raise (trapOf 0x0F h.k.eng h.region h.st.pc (natLe n.toNat 2))

/-- WORLD: the world of the context and of the cell (23 R362). -/
def execWorld (rd : Dst) (sy : Sync) (s : State) : Out :=
  onCore s fun h => h.scalar sy rd [] fun _ => ⟨BitVec.ofNat 64 (bit1 h.who.secure + 2 * bit1 h.ce.secure), .none, []⟩

/-- PCHK: the poison kind of ra, itself never poisoned (11 R167). -/
def execPchk (o : OpRR) (s : State) : Out :=
  onCore s fun h => h.scalar o.sy o.rd [o.ra] fun vs =>
    ⟨BitVec.ofNat 64 (vs[0]?.getD PVal.zero).p.code, .none, joinDep vs⟩

/-- MBR: the mailbox as it stands (11 R171). -/
def execMbr (rd : Dst) (n : BitVec 3) (sy : Sync) (s : State) : Out :=
  onCore s fun h => h.scalar sy rd [] fun _ => ⟨h.ce.mb[n.toFin], .none, []⟩

/-! ## Control and status registers (11 R168) -/

/-- kps as a word (11 R162). -/
def Kps.word (k : Kps) : Word :=
  BitVec.ofNat 64 (k.iter.toNat * 2 ^ 32 + k.slot.toNat * 2 ^ 16 + k.stg.toNat * 2 ^ 8 + k.ps.toNat)

/-- wdep (11 R169). -/
def CoreState.wdep (c : CoreState) : Word :=
  BitVec.ofNat 64 ((c.calls.filter (·.spilled)).length * 2 ^ 16 + c.calls.length)

/-- cinfo (11 R169). -/
def cinfo (ctx cell : Nat) : Word := BitVec.ofNat 64 (ctx * 2 ^ 12 + placeOfCell cell)

/-- fver (23 R349): VER reads 1 until a version is published. -/
def Package.fver (p : Package) (ctx : Nat) : Word :=
  BitVec.ofNat 64 ((((p.ctx ctx).map (fun c => c.ack.toNat)).getD 0) * 2 ^ 32 + max 1 p.firn.version.toNat)

/-- The value that CSRR reads. -/
def Here.csr (h : Here) (n : Nat) : Word :=
  match n with
  | 0x040 => h.st.nmctl.setWidth 64
  | 0x041 | 0x042 => h.st.srs
  | 0x044 => h.st.kps.word
  | 0x045 => h.st.wdep
  | 0x046 => cinfo h.jb.ctx h.id.cell
  | 0x050 => h.pk.fver h.jb.ctx
  | _ => if 0x080 ≤ n then (h.jb.ring (BitVec.ofNat 4 n)).word else 0

/-- CSRR (11 R168). -/
def execCsrr (rd : Dst) (csr : BitVec 12) (sy : Sync) (s : State) : Out :=
  onCore s fun h => h.scalar sy rd [] fun _ => ⟨h.csr csr.toNat, .none, []⟩

/-- nmctl after a write: flags clear where 1 is written, FTZ and DAZ are written, RM unless it is 4 to 7 (03 R51). -/
def nmctlWrite (old : BitVec 10) (v : Word) : BitVec 10 :=
  BitVec.ofNat 10 (fld (old &&& ~~~(v.setWidth 10)).toNat 5 5 * 2 ^ 5 + fld v.toNat 3 2 * 2 ^ 3 +
    (if 4 ≤ fld v.toNat 0 3 then old.toNat % 8 else fld v.toNat 0 3))

/-- A generator state is never 0 (03 R50). -/
def seedOf (v : Word) : Word := if v = 0 then 0x9E3779B97F4A7C15#64 else v

/-- A write to a descriptor (05 R71): slots that would leave the program part store CNT = 0 and change nothing else. -/
def ringWrite (old : Ring) (slabs : Nat) (v : Word) : Ring :=
  if (Ring.ofWord v).fits slabs then Ring.ofWord v else { old with cnt := 0 }

/-- Illegal Instruction at the pc of a core stream that waits (13 R379). -/
def Here.illegalAt (h : Here) (k : Core) : Here :=
  let c := h.jb.core k
  let w := match (h.pk.setCell h.id.cell { h.ce with job := some h.jb }).fetch h.who h.id.cell h.jb.uid c.pc with
    | .ok (w, _) => w
    | .error _ => 0
  { h with jb := h.jb.addTrap (trapOf 0x01 k.eng c.region c.pc (wordLe w ++ natLe k.eng.code 1)) }

/-! ## FIRNACK (23 R359) -/

/-- A version is acknowledged: the deadlines of it and of earlier versions that have not passed are met (23 R349). -/
def Context.acknowledge (c : Context) (now : Nat) (v : BitVec 32) : Context :=
  { c with
    ack := v
    deadlines := c.deadlines.filter (fun d => v.toNat < d.1 || d.2 < now)
    pendingVers := c.pendingVers.filter (fun d => v.toNat < d) }

/-- FIRNACK. -/
def execFirnack (ra : BitVec 6) (sy : Sync) (s : State) : Out :=
  onCore s fun h => h.withSync sy fun h => h.withSrcs [.reg ra] fun vs h =>
    h.unpoisoned [(vs[0]?.getD PVal.zero, ra.toNat, 0)] fun h => h.postOk sy fun h =>
      { h with pk := h.pk.modCtx h.jb.ctx (fun c =>
        if c.ack.toNat < (nth vs 0).toNat && (nth vs 0).toNat ≤ h.pk.firn.version.toNat then
          c.acknowledge h.s.now (BitVec.ofNat 32 (nth vs 0).toNat) else c) }.finish sy (joinDep vs)

/-! ## TLBINV (23 R360, 07 R100) -/

/-- The accesses of a package that a TLBINV waits for: translated, not yet performed, under an entry that it covers. -/
def coveredOps (s : State) (ctx : Nat) (pkg : Nat) (cover : Nat → Bool) : List (Nat × Nat × Nat) :=
  match s.pkg pkg with
  | none => []
  | some p => (List.range 192).flatMap (fun i =>
      match p.cell i with
      | none => []
      | some c => (c.ops.filter (fun o => o.ctx == ctx && !opPerformed c.ops o.id && (match o.target with
          | .hbm _ va _ => cover va
          | .hostMem _ _ | .cell _ _ => true
          | _ => false))).map (fun o => (pkg, i, o.id)))

/-- The caches drop the entries that are covered; listed translations are kept apart and stay (23 R352). -/
def Package.dropTlb (p : Package) (ctx : Nat) (cover : TlbEnt → Bool) : Package :=
  { p with cells := Vector.ofFn (fun i =>
      { p.cells[i] with tlb := p.cells[i].tlb.filter (fun t => !(t.ctx == ctx && cover t)) }) }

/-- A cached entry covers an address when its page contains it. -/
def TlbEnt.covers (t : TlbEnt) (va : Nat) : Bool := t.vpn * 4096 / pageBytes t.level == va / pageBytes t.level

/-- The levels of the cached entries of a context, in every cell, that cover an address (07 R100). -/
def Package.cachedLevels (p : Package) (ctx va : Nat) : List Nat :=
  p.cells.toList.flatMap (fun c => (c.tlb.filter (fun t => t.ctx == ctx && t.covers va)).map (·.level))

/-- TLBINV from its predecessors on: the caches change now, and TLBINV_COMPLETE waits for the accesses under the old
entries. -/
def Here.tlbinv (h : Here) (f : OrdF) (sy : Sync) (deps : List Nat) (page : Option Nat) : Here :=
  h.room f fun h => h.whenPerformed f deps fun h => h.postOk sy fun h =>
    let waits := coveredOps h.close h.jb.ctx h.id.pkg (fun va => match page with
      | some a => va / 4096 == a / 4096 || (h.pk.cachedLevels h.jb.ctx a).any (fun l => va / pageBytes l == a / pageBytes l)
      | none => true)
    let preds := h.preds f deps
    h.issue f .point .nowhere preds .waiting (BitVec.ofNat 64 (page.getD 0)) fun id h =>
      let pk := (h.pk.setCell h.id.cell h.ce).dropTlb h.jb.ctx (fun t => match page with
        | some a => t.covers a
        | none => true)
      let ce := (pk.cell h.id.cell).getD h.ce
      let h1 := { h with
        pk := pk
        ce := { ce with invals := ce.invals ++ [(⟨id, false, page.isNone, h.jb.uid, id, waits⟩ : Inval)] } }
      (h1.syncPost sy preds (some id)).retire Sync.zero []

/-- TLBINV with sub 0 (23 R360). -/
def execTlbinv (o : OpE1) (s : State) : Out :=
  onCore s fun h => h.withSync o.sy fun h => h.withSrcs [.reg o.ra] fun vs h =>
    h.unpoisoned [(vs[0]?.getD PVal.zero, o.ra.toNat, 0)] fun h =>
      if (nth vs 0).toNat / 2 ^ 48 != 0 then
        h.raise (failTrap (.page .bounds) .system .ac .ac (nth vs 0) h.region h.st.pc false)
      else h.tlbinv o.f o.sy (joinDep vs) (some ((nth vs 0).toNat / 4096 * 4096))

/-- TLBINV with sub 1 (23 R360). -/
def execTlbinvAll (f : OrdF) (sy : Sync) (s : State) : Out :=
  onCore s fun h => h.withSync sy fun h => h.tlbinv f sy [] none

/-! ## SEAL (23 R361) -/

/-- The walk to a leaf: the address of its entry (none for tables that the management core built), the entry, the level. -/
def Package.walkAt (p : Package) (va : Nat) (left frame : Nat) : Except AccFail (Nat × Nat × Nat) :=
  match left with
  | 0 => .error (.page .malformed)
  | left + 1 =>
    match p.pte frame (fld va (12 + 9 * left) 9) with
    | .error f => .error f
    | .ok e =>
      if !bitAt e 0 then .error (.page .notPresent)
      else if pteBad (4 - left) e then .error (.page .malformed)
      else if bitAt e 1 then .ok (frame * 4096 + 8 * fld va (12 + 9 * left) 9, e, 4 - left)
      else p.walkAt va left (fld e 12 40)

/-- A leaf that a SEAL covers: its first page, its level, its entry and the entry's place. -/
structure SealLeaf where
  base : Nat
  level : Nat
  e : Nat
  at_ : Option Nat

/-- The walk of SEAL to a page: a listed page has its listed frame (23 R352); G ends at 2^48. -/
def Package.sealWalk (p : Package) (cx : Context) (va : Nat) : Except AccFail (Option Nat × Nat × Nat) :=
  if va / 2 ^ 48 != 0 then .error (.page .bounds)
  else match cx.sealLeaf (va / 4096) with
    | some e => .ok (none, e, 4)
    | none =>
      if cx.ptBase = 0 then (p.walk cx va).map (fun x => (none, x.1, x.2))
      else (p.walkAt va 4 cx.ptBase).map (fun x => (some x.1, x.2.1, x.2.2))

/-- Check 4 of R361 from `va` up to `stop`: the leaves, or the first failing page. -/
def Package.sealLeaves (p : Package) (cx : Context) (start stop : Nat) (fuel va : Nat) :
    Except (AccFail × Nat) (List SealLeaf) :=
  match fuel with
  | 0 => .ok []
  | fuel + 1 =>
    if stop ≤ va then .ok []
    else match p.sealWalk cx va with
    | .error .poisoned => .error (.poisoned, va)
    | .error .noFrame => .error (.noFrame, va)
    | .error (.page .bounds) => .error (.page .bounds, va)
    | .error _ => .error (.page .notPresent, va)
    | .ok (at_, e, level) =>
      if fld e 9 2 != 0 then .error (.page .bounds, va)
      else if va % pageBytes level != 0 || stop < va + pageBytes level then .error (.page .bounds, va)
      else match p.sealLeaves cx start stop fuel (va + pageBytes level) with
        | .error f => .error f
        | .ok l => .ok (⟨va, level, e, at_⟩ :: l)

/-- The 4 KiB entries of a listed leaf: SL = 1, WR = 0 (23 R352). -/
def SealLeaf.frames (l : SealLeaf) : List (Nat × Nat) :=
  (List.range (pageBytes l.level / 4096)).map (fun i =>
    (l.base / 4096 + i, (fld l.e 12 40 + i) * 4096 + (fld l.e 0 12 &&& 0x50 ||| 0x23)))

/-- The entry as SEAL writes it: SL = 1 and WR = 0. -/
def sealEntry (e : Nat) : Nat := (e &&& (2 ^ 64 - 1 - 2 ^ 3)) ||| 2 ^ 5

/-- SL and WR written into each leaf (R361). -/
def Package.writeSeals (p : Package) (ctx : Nat) (ls : List SealLeaf) : Package :=
  ls.foldl (fun p l =>
    match l.at_ with
    | some a => { p with hbm := memWrite p.hbm a (natLe (sealEntry l.e) 8) }
    | none => p.modCtx ctx (fun c => { c with table := put c.table (l.base / 2 ^ 21) (BitVec.ofNat 64 (sealEntry l.e)) })) p

/-- The ranges of a context's seal list against a new one (R361, checks 5 and 6). -/
inductive SealList where
  | listed | overlap | full | room
  deriving DecidableEq, Repr

def Context.sealCheck (c : Context) (base len : Nat) : SealList :=
  if c.seals.any (fun r => r.base == base && r.len == len) then .listed
  else if c.seals.any (fun r => r.base < base + len && base < r.base + r.len) then .overlap
  else if 64 ≤ c.seals.length then .full
  else .room

/-- The first page of a range that a listed range holds (R361: the first failing page of check 5; DEDUCED, notes/assumptions/43.md). -/
def Context.firstListed (c : Context) (base len : Nat) : Nat :=
  (c.seals.filter (fun r => r.base < base + len && base < r.base + r.len)).foldl (fun m r => min m (max base r.base)) (base + len)

/-- The writes to listed frames that SEAL waits for. -/
def sealOps (s : State) (pkg : Nat) (frames : List Nat) : List (Nat × Nat × Nat) :=
  match s.pkg pkg with
  | none => []
  | some p => (List.range 192).flatMap (fun i =>
      match p.cell i with
      | none => []
      | some c => (c.ops.filter (fun o => !opPerformed c.ops o.id && (match o.target, o.what with
          | .hbm a _ _, .store _ _ => frames.contains (a / 4096)
          | .hbm a _ _, .atomic .. => frames.contains (a / 4096)
          | _, _ => false))).map (fun o => (pkg, i, o.id)))

/-- A SEAL whose checks pass enters the range and writes the leaves; SEAL_COMPLETE waits for the writes translated
before. -/
def Here.sealRange (h : Here) (f : OrdF) (sy : Sync) (deps : List Nat) (base len : Nat) (ls : List SealLeaf) : Here :=
  let frames := ls.flatMap SealLeaf.frames
  let waits := sealOps h.close h.id.pkg (frames.map (fun e => fld e.2 12 40))
  let preds := h.preds f deps
  h.issue f .point .nowhere preds .waiting (BitVec.ofNat 64 base) fun id h =>
    let pk := ((h.pk.setCell h.id.cell h.ce).writeSeals h.jb.ctx ls).modCtx h.jb.ctx (fun c => { c with
      seals := c.seals ++ [⟨base, len, frames⟩] })
    let h1 := { h with pk := pk, ce := { h.ce with invals := h.ce.invals ++ [(⟨id, true, false, h.jb.uid, id, waits⟩ : Inval)] } }
    (h1.syncPost sy preds (some id)).retire Sync.zero []

/-- The checks of SEAL in the order of R361. -/
def Here.sealAt (h : Here) (f : OrdF) (sy : Sync) (deps : List Nat) (a b : Word) : Here :=
  let fail (k : PfKind) (va : Word) := h.accFail (.page k) .system va
  match h.ctx with
  | none => fail .world a
  | some cx =>
    if !cx.secure then fail .world a
    else if a.toNat % 4096 != 0 || b.toNat % 4096 != 0 then fail .alignment a
    else if b = 0 || 2 ^ 40 < b.toNat then fail .bounds a
    else match h.pk.sealLeaves cx a.toNat (a.toNat + b.toNat) (b.toNat / 4096) a.toNat with
      | .error (e, va) => h.accFail e .system (BitVec.ofNat 64 va)
      | .ok ls =>
        match cx.sealCheck a.toNat b.toNat with
        | .overlap => fail .bounds (BitVec.ofNat 64 (cx.firstListed a.toNat b.toNat))
        | .full => fail .sealLimit a
        | .listed => (h.point f deps).finish sy (h.preds f deps)
        | .room => if ls.any (fun l => bitAt l.e 7) then h else h.sealRange f sy deps a.toNat b.toNat ls

/-- SEAL (23 R361). -/
def execSeal (ra rb : BitVec 6) (f : OrdF) (sy : Sync) (s : State) : Out :=
  onCore s fun h => h.withSync sy fun h => h.withSrcs [.reg ra, .reg rb] fun vs h =>
    h.unpoisoned [(vs[0]?.getD PVal.zero, ra.toNat, 0), (vs[1]?.getD PVal.zero, rb.toNat, 1)] fun h =>
      h.room f fun h => h.whenPerformed f (joinDep vs) fun h => h.postOk sy fun h =>
        h.sealAt f sy (joinDep vs) (nth vs 0) (nth vs 1)

/-! ## ERET (23 R358) -/

/-- The operations of a stream that have not completed. -/
def streamIdle (ops : List MemOp) (uid : Nat) (e : Eng) : Bool :=
  ops.all (fun o => o.job != uid || o.eng != e || o.dropped || !o.incomplete)

/-- Poison kind `n` of a packed field of two-bit codes (11 R156). -/
def packedPoison (bs : List Byte) (n : Nat) : Poison := Poison.ofCode (fld (leNat bs) (2 * n) 2)

/-- The live-ins of a frame: 1,024 bytes from PSNA on (23 R333). -/
def frameRegs (psn vals : List Byte) : Vector PVal 64 :=
  Vector.ofFn (fun i => ⟨BitVec.ofNat 64 (leNat ((vals.drop (8 * i.val)).take 8)), packedPoison psn i.val, []⟩)

/-- ERET: only in a handler job, once; it waits for the stream's earlier operations, reads the frame, and takes effect at
the commit of its region. -/
def execEret (sy : Sync) (s : State) : Out :=
  onCore s fun h =>
    match h.jb.eretOf, h.jb.eretAt with
    | some _, none =>
      h.withSync sy fun h => h.postOk sy fun h =>
        if !streamIdle h.ce.ops h.jb.uid h.k.eng then h
        else match h.pk.readG h.who (h.jb.qrec.task.frame.toNat + 0x0C0) 0x440 .load with
          | .error (e, va) => h.accFail e .load (BitVec.ofNat 64 va)
          | .ok (_, .data) => h.consume (h.jb.qrec.task.frame + 0x0C0)
          | .ok (bs, _) =>
            let rd : EretRead := ⟨frameRegs (bs.take 16) ((bs.drop 0x40).take 512),
              frameRegs ((bs.drop 16).take 16) ((bs.drop 0x240).take 512)⟩
            { h with jb := { h.jb with eretAt := some h.region, eretRead := some rd } }.retire sy []
    | _, _ => h.illegal

end Sys2Proof.Machine
end

