-- ==== Sys2Proof/Machine/MemOps.lean ====
section
/-!
DEFINITION. Issue of loads, stores and atomics (13 R173 to R185). Their access is made by the events of Machine/MemEvents.lean.
-/
namespace Sys2Proof.Machine
open Sys2Proof

/-! ## Shared operations -/

/-- Act on the package with the cell and the job put back, and take them out again. -/
def Here.onPk (h : Here) (f : Package → Package) : Here :=
  let pk := f (h.pk.setCell h.id.cell { h.ce with job := some h.jb })
  match pk.cell h.id.cell with
  | some c =>
    match c.job with
    | some j => { h with pk := pk, ce := c, jb := j }
    | none => h
  | none => h

/-- The package with the cell and the job put back. -/
def Here.pkNow (h : Here) : Package := h.pk.setCell h.id.cell { h.ce with job := some h.jb }

/-- The checks of an access at issue (05 R380): `pl` is the place of an N access. -/
def Here.checkAt (h : Here) (sp : Space) (pl : Nat) (a : Word) (bytes : Nat) (acc : Acc) : Except AccFail Target :=
  match sp with
  | .s => checkS h.jb a.toNat bytes
  | .n => checkN h.pkNow h.id.cell h.jb.ctx h.jb pl a.toNat bytes
  | .g => checkG h.pkNow h.who a.toNat bytes acc
  | .f => checkF h.pk a.toNat bytes
  | .c => checkC h.pkNow h.who a.toNat bytes acc

/-- A window of the job's own carve-out names it as S does. -/
def Here.ownTarget (h : Here) (t : Target) : Target :=
  match t with
  | .cell c off =>
    if c = h.id.cell && ((h.pkNow.cell c).bind (fun x => x.resident h.jb.ctx)).any (fun j => j.uid == h.jb.uid) then .carve off
    else t
  | t => t

/-- Check an address and go on with its target; a G translation enters the cell's cache (05 R79). -/
def Here.withAddr (h : Here) (sp : Space) (pl : Nat) (a : Word) (bytes : Nat) (acc : Acc) (g : Target → Here → Here) : Here :=
  match h.checkAt sp pl a bytes acc with
  | .error f => h.accFail f acc a
  | .ok t => g (h.ownTarget t) (if sp = .g then h.onPk (fun p => p.fillTlb h.who a.toNat) else h)

/-- The register number of a load's destination or a store's data (09 R111). -/
def ldReg (d : LdDst) : Nat :=
  match d with
  | .reg n => n.toNat
  | .lq q => 104 + q.toNat
def stReg (d : StSrc) : Nat :=
  match d with
  | .reg n => n.toNat
  | .sq q => 112 + q.toNat

/-- Whether the AC may reserve in lq0 to lq3 (13 R181, R194): overflow after the XC ended or after its own QEND; a wait while
every entry is filled or reserved. -/
def Here.canReserve (h : Here) (q : BitVec 2) (g : Here → Here) : Here :=
  if !h.jb.xc.live || h.jb.lq[q.toFin].ending then h.queueTrap true (104 + q.toNat)
  else if 8 ≤ h.jb.lq[q.toFin].ents.length then h.block (.reserve q)
  else g h

/-- The same in lq4 to lq7. -/
def Here.canReserveRow (h : Here) (q : BitVec 2) (n : Nat) (g : Here → Here) : Here :=
  if !h.jb.xc.live || h.jb.lqRow[q.toFin].ending then h.queueTrap true (108 + q.toNat)
  else if 32 < h.jb.lqRow[q.toFin].ents.length + n then h.block (.reserveRow q)
  else g h

/-- A load's destination may be taken: the register is free, or the queue has room. -/
def Here.withLdDst (h : Here) (d : LdDst) (g : Here → Here) : Here :=
  match d with
  | .reg n => h.regFree n g
  | .lq q => h.canReserve q g

/-- Take the destination for operation `id`: the register becomes busy, or an entry is reserved. -/
def Job.takeDst (j : Job) (d : LdDst) (id : Nat) : Job :=
  match d with
  | .reg n => if n = 0 then j else { j with ac := { j.ac with busy := j.ac.busy ||| (1#64 <<< n.toNat) } }
  | .lq q => { j with lq := j.lq.set q.toFin { j.lq[q.toFin] with ents := j.lq[q.toFin].ents ++ [⟨id, none⟩] } }

def Job.reserveRow (j : Job) (q : BitVec 2) (ids : List Nat) : Job :=
  { j with lqRow := j.lqRow.set q.toFin { j.lqRow[q.toFin] with ents := j.lqRow[q.toFin].ents ++ ids.map (fun i => ⟨i, none⟩) } }

def opDst (d : LdDst) (id : Nat) : OpDst :=
  match d with
  | .reg n => if n = 0 then .none else .reg n
  | .lq q => .lq q id

/-- The word at pc has issued operation `id`: its sync post follows the operation's completion (09 R114). -/
def Here.issued (h : Here) (sy : Sync) (preds : List Nat) (id : Nat) : Here :=
  (h.syncPost sy preds (some id)).retire Sync.zero []

/-- One base operand, read without queues. -/
def Here.withBase (h : Here) (b : BitVec 6) (g : PVal → Here → Here) : Here :=
  if h.st.isBusy b then h else g (h.reg b) h

/-! ## Loads -/

/-- A scalar load (13 R173, R177): sync wait, destination, base, address, issue. -/
def scalarLoad (dst : LdDst) (base : BitVec 6) (addr : Word → Word) (pl : Nat) (sp : Space) (bytes : Nat) (signed : Bool)
    (f : OrdF) (sy : Sync) (h : Here) : Here :=
  h.withSync sy fun h => h.withLdDst dst fun h => h.withBase base fun b h =>
    h.unpoisoned [(b, base.toNat, 0)] fun h => h.withAddr sp pl (addr b.v) bytes .load fun t h =>
      h.room f fun h => h.postOk sy fun h =>
        let preds := h.preds f b.dep
        h.issue f (.load bytes signed (opDst dst h.s.nextId)) t preds .waiting (addr b.v) fun id h =>
          { h with jb := h.jb.takeDst dst id }.issued sy preds id

/-- A row load (13 R177): 256 bytes into a row entry. -/
def rowLoad (lq : BitVec 2) (base : BitVec 6) (addr : Word → Word) (pl : Nat) (sp : Space) (f : OrdF) (sy : Sync) (h : Here) :
    Here :=
  h.withSync sy fun h => h.canReserveRow lq 1 fun h => h.withBase base fun b h =>
    h.unpoisoned [(b, base.toNat, 0)] fun h => h.withAddr sp pl (addr b.v) 256 .load fun t h =>
      h.room f fun h => h.postOk sy fun h =>
        let preds := h.preds f b.dep
        h.issue f (.load 256 false (.row lq h.s.nextId)) t preds .waiting (addr b.v) fun id h =>
          { h with jb := h.jb.reserveRow lq [id] }.issued sy preds id

/-! ## Stores -/

/-- The AC drains sq0 or sq1 (13 R194): underflow after the XC ended or its QEND; else a wait while empty. -/
def Job.popSq (j : Job) (q : BitVec 1) : PopRes PVal :=
  match j.sq[q.toFin].ents with
  | [] => if j.xc.live && !j.sq[q.toFin].ended then .wait else .underflow
  | e :: es =>
    match e.data with
    | some v => .got v { j with sq := j.sq.set q.toFin { j.sq[q.toFin] with ents := es } }
    | none => .wait

def Job.popSqRow (j : Job) (q : BitVec 1) : PopRes RowVal :=
  match j.sqRow[q.toFin].ents with
  | [] => if j.xc.live && !j.sqRow[q.toFin].ended then .wait else .underflow
  | e :: es =>
    match e.data with
    | some v => .got v { j with sqRow := j.sqRow.set q.toFin { j.sqRow[q.toFin] with ents := es } }
    | none => .wait

/-- The data of a scalar store; a popped value stands in the latch. -/
def Here.withData (h : Here) (d : StSrc) (g : PVal → Here → Here) : Here :=
  match d with
  | .reg n => if h.st.isBusy n then h else g (h.reg n) h
  | .sq q =>
    match h.st.latch[0]? with
    | some v => g v h
    | none =>
      match h.jb.popSq q with
      | .got v j => g v ({ h with jb := j }.modSt (fun c => { c with latch := c.latch ++ [v] }))
      | .wait => h.block (.popSq q)
      | .underflow => h.queueTrap false (112 + q.toNat)

/-- The row of a row store. -/
def Here.withRow (h : Here) (q : BitVec 1) (g : RowVal → Here → Here) : Here :=
  match h.st.rows[0]? with
  | some v => g v h
  | none =>
    match h.jb.popSqRow q with
    | .got v j => g v ({ h with jb := j }.modSt (fun c => { c with rows := c.rows ++ [v] }))
    | .wait => h.block (.popSqRow q)
    | .underflow => h.queueTrap false (114 + q.toNat)

/-- A scalar store (13 R173, R177): held from its issue on (01 R24). -/
def scalarStore (src : StSrc) (base : BitVec 6) (addr : Word → Word) (pl : Nat) (sp : Space) (bytes : Nat) (arr : Bool)
    (f : OrdF) (sy : Sync) (h : Here) : Here :=
  h.withSync sy fun h => h.withData src fun d h => h.withBase base fun b h =>
    h.unpoisoned [(b, base.toNat, 0), (d, stReg src, 3)] fun h => h.withAddr sp pl (addr b.v) bytes .store fun t h =>
      h.room f fun h => h.postOk sy fun h =>
        let preds := h.preds f (unionOnce b.dep d.dep)
        h.issue f (.store (natLe d.v.toNat bytes) arr) t preds .held (addr b.v) fun id h => h.issued sy preds id

/-- A row store. -/
def rowStore (sq : BitVec 1) (base : BitVec 6) (addr : Word → Word) (pl : Nat) (sp : Space) (arr : Bool) (f : OrdF)
    (sy : Sync) (h : Here) : Here :=
  h.withSync sy fun h => h.withRow sq fun r h => h.withBase base fun b h =>
    h.unpoisoned [(b, base.toNat, 0), (⟨0, worst r.p.toList, []⟩, 114 + sq.toNat, 3)] fun h =>
      h.withAddr sp pl (addr b.v) 256 .store fun t h => h.room f fun h => h.postOk sy fun h =>
        let preds := h.preds f b.dep
        h.issue f (.store (rowBytes r.w) arr) t preds .held (addr b.v) fun id h => h.issued sy preds id

/-! ## Atomics (13 R183) -/

/-- The place and offset that an atomic's base carries for N (09 R107): bits 63:33 must be zero, after alignment. -/
def Here.withAtomicAddr (h : Here) (sp : Space) (a : Word) (bytes : Nat) (g : Target → Here → Here) : Here :=
  match sp with
  | .n =>
    if a.toNat % bytes != 0 then h.accFail (.page .alignment) .atomic a
    else if a.toNat / 2 ^ 33 != 0 then h.accFail (.page .bounds) .atomic a
    else match h.checkAt .n (fld a.toNat 21 12) (BitVec.ofNat 64 (fld a.toNat 0 21)) bytes .atomic with
      | .error f => h.accFail f .atomic a
      | .ok t => g (h.ownTarget t) h
  | sp => h.withAddr sp 0 a bytes .atomic g

/-- An atomic (13 R173, R183): rd is its destination and, for ACAS, the compared value. -/
def atomicOp (op : AtOp) (o : OpAt) (h : Here) : Here :=
  h.withSync o.sy fun h => h.withBase o.base fun b h => h.withBase o.rb fun v h => h.withBase o.rd fun c h =>
    h.unpoisoned ([(b, o.base.toNat, 0), (v, o.rb.toNat, 1)] ++ (if op = .cas then [(c, o.rd.toNat, 3)] else [])) fun h =>
      h.withAtomicAddr o.sp b.v (if o.dbl then 8 else 4) fun t h => h.room o.f fun h => h.postOk o.sy fun h =>
        let preds := h.preds o.f (unionOnce (unionOnce b.dep v.dep) (if op = .cas then c.dep else []))
        h.issue o.f (.atomic op o.dbl v.v c.v o.fo (opDst (.reg o.rd) 0)) t preds .held b.v fun id h =>
          { h with jb := h.jb.takeDst (.reg o.rd) id }.issued o.sy preds id

/-! ## Addresses of the forms (09 R107) -/

def szBytes (z : Sz) : Nat :=
  match z with
  | .b => 1
  | .h => 2
  | .w => 4
  | .d => 8

/-- base + sext(offset, 16). -/
def offAddr (off : BitVec 16) (b : Word) : Word := b + off.signExtend 64
/-- base + nofs * size. -/
def nofAddr (n : BitVec 4) (bytes : Nat) (b : Word) : Word := b + BitVec.ofNat 64 (n.toNat * bytes)
/-- The place field as twelve bits (05 R62). -/
def placeNum (p : Place) : Nat := p.die.toNat * 2 ^ 11 + p.row.toNat * 2 ^ 8 + p.col.toNat * 2 ^ 4

def ldForm (sp : Space) (o : OpLd) (h : Here) : Here :=
  scalarLoad o.dst o.base (offAddr o.off) 0 sp (szBytes o.sz) (!o.uns) o.f o.sy h
def ldRowForm (sp : Space) (o : OpLdRow) (h : Here) : Here := rowLoad o.lq o.base (offAddr o.off) 0 sp o.f o.sy h
def stForm (sp : Space) (arr : Bool) (o : OpSt) (h : Here) : Here :=
  scalarStore o.src o.base (offAddr o.off) 0 sp (szBytes o.sz) arr o.f o.sy h
def stRowForm (sp : Space) (arr : Bool) (o : OpStRow) (h : Here) : Here :=
  rowStore o.sq o.base (offAddr o.off) 0 sp arr o.f o.sy h
def stnForm (arr : Bool) (o : OpStN) (h : Here) : Here :=
  scalarStore o.src o.base (nofAddr o.nofs (szBytes o.sz)) (placeNum o.place) .n (szBytes o.sz) arr o.f o.sy h
def stnRowForm (arr : Bool) (o : OpStRowN) (h : Here) : Here :=
  rowStore o.sq o.base (nofAddr o.nofs 256) (placeNum o.place) .n arr o.f o.sy h

/-! ## The instructions (R177, R182, R183) -/

/-- LDS. -/
def execLds (o : OpLd) (s : State) : Out := onCore s (ldForm .s o)
/-- LDS.row. -/
def execLdsRow (o : OpLdRow) (s : State) : Out := onCore s (ldRowForm .s o)
/-- STS. -/
def execSts (o : OpSt) (s : State) : Out := onCore s (stForm .s false o)
/-- STS.row. -/
def execStsRow (o : OpStRow) (s : State) : Out := onCore s (stRowForm .s false o)
/-- LDN. -/
def execLdn (o : OpLdN) (s : State) : Out :=
  onCore s (scalarLoad o.dst o.base (nofAddr o.nofs (szBytes o.sz)) (placeNum o.place) .n (szBytes o.sz) (!o.uns) o.f o.sy)
/-- LDN.row. -/
def execLdnRow (o : OpLdRowN) (s : State) : Out :=
  onCore s (rowLoad o.lq o.base (nofAddr o.nofs 256) (placeNum o.place) .n o.f o.sy)
/-- STN. -/
def execStn (o : OpStN) (s : State) : Out := onCore s (stnForm false o)
/-- STN.arr (R179). -/
def execStnArr (o : OpStN) (s : State) : Out := onCore s (stnForm true o)
/-- STN.row. -/
def execStnRow (o : OpStRowN) (s : State) : Out := onCore s (stnRowForm false o)
/-- STN.row.arr (R179). -/
def execStnRowArr (o : OpStRowN) (s : State) : Out := onCore s (stnRowForm true o)
/-- LDG. -/
def execLdg (o : OpLd) (s : State) : Out := onCore s (ldForm .g o)
/-- LDG.row. -/
def execLdgRow (o : OpLdRow) (s : State) : Out := onCore s (ldRowForm .g o)
/-- STG. -/
def execStg (o : OpSt) (s : State) : Out := onCore s (stForm .g false o)
/-- STG.row. -/
def execStgRow (o : OpStRow) (s : State) : Out := onCore s (stRowForm .g false o)
/-- LDF. -/
def execLdf (o : OpLd) (s : State) : Out := onCore s (ldForm .f o)
/-- LDF.row. -/
def execLdfRow (o : OpLdRow) (s : State) : Out := onCore s (ldRowForm .f o)
/-- STF. -/
def execStf (o : OpSt) (s : State) : Out := onCore s (stForm .f false o)
/-- STF.arr (R179). -/
def execStfArr (o : OpSt) (s : State) : Out := onCore s (stForm .f true o)
/-- STF.row. -/
def execStfRow (o : OpStRow) (s : State) : Out := onCore s (stRowForm .f false o)
/-- STF.row.arr (R179). -/
def execStfRowArr (o : OpStRow) (s : State) : Out := onCore s (stRowForm .f true o)
/-- LDC (R182): zero-extended. -/
def execLdc (o : OpLdc) (s : State) : Out :=
  onCore s (scalarLoad o.dst o.base (offAddr o.off) 0 .c (if o.dbl then 8 else 4) false o.f o.sy)
/-- STC (R182). -/
def execStc (o : OpStc) (s : State) : Out :=
  onCore s (scalarStore o.src o.base (offAddr o.off) 0 .c (if o.dbl then 8 else 4) false o.f o.sy)

/-- AADD (R183). -/
def execAadd (o : OpAt) (s : State) : Out := onCore s (atomicOp .add o)
/-- AAND (R183). -/
def execAand (o : OpAt) (s : State) : Out := onCore s (atomicOp .and o)
/-- AOR (R183). -/
def execAor (o : OpAt) (s : State) : Out := onCore s (atomicOp .or o)
/-- AXOR (R183). -/
def execAxor (o : OpAt) (s : State) : Out := onCore s (atomicOp .xor o)
/-- AMIN (R183). -/
def execAmin (o : OpAt) (s : State) : Out := onCore s (atomicOp .min o)
/-- AMAX (R183). -/
def execAmax (o : OpAt) (s : State) : Out := onCore s (atomicOp .max o)
/-- AMINU (R183). -/
def execAminu (o : OpAt) (s : State) : Out := onCore s (atomicOp .minu o)
/-- AMAXU (R183). -/
def execAmaxu (o : OpAt) (s : State) : Out := onCore s (atomicOp .maxu o)
/-- ASWAP (R183). -/
def execAswap (o : OpAt) (s : State) : Out := onCore s (atomicOp .swap o)
/-- ACAS (R183). -/
def execAcas (o : OpAt) (s : State) : Out := onCore s (atomicOp .cas o)

end Sys2Proof.Machine
end

