-- ==== Sys2Proof/Machine/SyncOps.lean ====
section
/-!
DEFINITION. Rime, ring, semaphore and queue-control instructions of the cores (13 R186 to R194).
-/
namespace Sys2Proof.Machine
open Sys2Proof

/-- One operand of a core, queue or register, checked for poison under field 0. -/
def Here.withUse (h : Here) (s : Src) (g : PVal → Here → Here) : Here :=
  h.withSrcs [s] fun vs h => h.unpoisoned [(vs[0]?.getD PVal.zero, srcReg s, 0)] fun h => g (vs[0]?.getD PVal.zero) h

/-- The word at pc completes; it stands in the list of operations for what is ordered after it. -/
def Here.finishPoint (h : Here) (f : OrdF) (sy : Sync) (deps : List Nat) : Here :=
  (h.point f deps).finish sy (h.preds f deps)

/-- The same for a word that writes `v` to rd: what uses the value is ordered after the word (07 R86, item 3). -/
def Here.finishValue (h : Here) (rd : BitVec 6) (v : Word) (f : OrdF) (sy : Sync) (deps : List Nat) : Here :=
  (h.modSt (fun c => c.setReg rd ⟨v, .none, [h.s.nextId]⟩)).finishPoint f sy deps

/-! ## Rime (R186) -/

/-- The slab that ra names: an S address with bits 10:0 zero. -/
def Here.withSlab (h : Here) (a : Word) (g : Nat → Here → Here) : Here :=
  match checkS h.jb a.toNat 2048 with
  | .error f => h.accFail f .system a
  | .ok _ => g (a.toNat / 2048) h

/-- The post of an expected count: at once, in this clk after every arrival (05 R68); where it sends the tag to ERROR, a fault
record of this ordering stream is written (05 R69, 23 R335). -/
def Here.postTag (h : Here) (slab n : Nat) (os : BitVec 3) : Here :=
  let h1 := h.onPk (fun p => p.changeTag h.id.cell h.jb.uid slab (fun t => t.post n) (some h.region) 2 h.st.pc.toNat)
  let j := { h1.jb with posts := put h1.jb.posts slab h.clk }
  { h1 with jb := if (h.jb.tag slab).st != .error && (j.tag slab).st == .error then j.setErr h.k.eng os else j }

/-- RPOST: it waits for its predecessors and holds the stream, then changes the tag at once. -/
def execRpost (o : OpRpost) (s : State) : Out :=
  onCore s fun h => h.withSync o.sy fun h => h.withBase o.ra fun a h => h.withBase o.rb fun n h =>
    h.unpoisoned [(a, o.ra.toNat, 0), (n, o.rb.toNat, 1)] fun h => h.withSlab a.v fun slab h =>
      h.room o.f fun h => h.whenPerformed o.f (unionOnce a.dep n.dep) fun h => h.postOk o.sy fun h =>
        (h.postTag slab n.v.toNat o.f.os).finishPoint o.f o.sy (unionOnce a.dep n.dep)

/-- RWAIT: FULL lets it pass, ERROR raises the trap of 05 R69; else it blocks. -/
def execRwait (o : OpRime) (s : State) : Out :=
  onCore s fun h => h.withSync o.sy fun h => h.withBase o.ra fun a h =>
    h.unpoisoned [(a, o.ra.toNat, 0)] fun h => h.withSlab a.v fun slab h =>
      h.room o.f fun h => h.whenOrdered o.f a.dep fun h =>
        if h.st.granted || (h.jb.tag slab).st == .full then
          h.postOk o.sy fun h => (h.point o.f a.dep).retire o.sy (h.preds o.f a.dep)
        else if (h.jb.tag slab).st == .error then h.raise (tagTrap (h.jb.tag slab) slab h.k.eng h.region h.st.pc)
        else h.block (.rime slab slab)

/-- RTHAW: the tag becomes EMPTY at the commit (R187). -/
def execRthaw (o : OpRime) (s : State) : Out :=
  onCore s fun h => h.withSync o.sy fun h => h.withBase o.ra fun a h =>
    h.unpoisoned [(a, o.ra.toNat, 0)] fun h => h.withSlab a.v fun slab h => h.room o.f fun h => h.postOk o.sy fun h =>
      (h.defer (some o.f.os) (h.preds o.f a.dep) none (.thaw slab)).finishPoint o.f o.sy a.dep

/-- RSTAT: the tag word. -/
def execRstat (o : OpRstat) (s : State) : Out :=
  onCore s fun h => h.withSync o.sy fun h => h.withBase o.ra fun a h =>
    h.unpoisoned [(a, o.ra.toNat, 0)] fun h => h.withSlab a.v fun slab h =>
      h.room o.f fun h => h.whenOrdered o.f a.dep fun h => h.regFree o.rd fun h => h.postOk o.sy fun h =>
        h.finishValue o.rd (BitVec.ofNat 64 (h.jb.tag slab).word) o.f o.sy a.dep

/-! ## Rings (R188) -/

/-- The closed indication. -/
def closedInd : Word := -1

/-- A ring wait of a core: the outcome without a wait, if there is one. `fill` selects RNGW. -/
def Job.ringTry (j : Job) (region : Nat) (r : BitVec 4) (fill : Bool) : Option (Word × Job) :=
  let x := j.ring r
  if fill then
    (if 0 < x.fill.toNat then some (x.cix.setWidth 64, j.changeRing r (some region) Ring.take)
     else if x.cls then some (closedInd, j) else none)
  else
    (if x.cls then some (closedInd, j)
     else if 0 < x.free.toNat then some (x.pix.setWidth 64, j.changeRing r (some region) Ring.acquire) else none)

/-- RNGA and RNGW: what the wait obtained stands in the latch once RING_WAIT_PROCEED has let it pass. -/
def ringWait (o : OpRngT) (fill : Bool) (h : Here) : Here :=
  if (h.jb.ring o.ring).cnt = 0 then h.illegal
  else h.withSync o.sy fun h => h.room o.f fun h => h.whenOrdered o.f [] fun h =>
    h.regFree o.rd fun h =>
      let done (h : Here) (v : Word) : Here := h.postOk o.sy fun h => h.finishValue o.rd v o.f o.sy []
      match h.st.granted, h.st.latch with
      | true, v :: _ => done h v.v
      | _, _ =>
        match h.jb.ringTry h.region o.ring fill with
        | some (v, j) => done { h with jb := j } v
        | none => h.block (if fill then .ringFill o.ring else .ringFree o.ring)

/-- RNGA. -/
def execRnga (o : OpRngT) (s : State) : Out := onCore s (ringWait o false)

/-- RNGW. -/
def execRngw (o : OpRngT) (s : State) : Out := onCore s (ringWait o true)

/-- RNGP and RNGF: the slot index, the counter's check at issue, the deferred effect. -/
def ringGive (o : OpRngG) (fill : Bool) (eff : Effect) (h : Here) : Here :=
  if (h.jb.ring o.ring).cnt = 0 then h.illegal
  else h.withSync o.sy fun h => h.withUse o.ra fun a h =>
    if (h.jb.ring o.ring).cnt.toNat ≤ a.v.toNat then h.accFail (.page .bounds) .system a.v
    else
      let n := (if fill then (h.jb.ring o.ring).fill else (h.jb.ring o.ring).free).toNat +
        ringPending h.ce.due h.jb o.ring fill + 1
      if 255 < n then h.overflow 1 o.ring.toNat n
      else h.room o.f fun h => h.postOk o.sy fun h =>
        (h.defer (some o.f.os) (h.preds o.f a.dep) none eff).finishPoint o.f o.sy a.dep

/-- RNGP. -/
def execRngp (o : OpRngG) (s : State) : Out := onCore s (ringGive o true (.ringPublish o.ring o.close))

/-- RNGF. -/
def execRngf (o : OpRngG) (s : State) : Out := onCore s (ringGive o false (.ringFree o.ring))

/-! ## Semaphores (R190, R191) -/

/-- SEMW. -/
def execSemw (o : OpSemw) (s : State) : Out :=
  onCore s fun h => h.withSync o.sy fun h => h.room o.f fun h => h.whenOrdered o.f [] fun h =>
    if h.st.granted then h.postOk o.sy fun h => h.finishPoint o.f o.sy []
    else if 1 ≤ h.semView o.sem then
      h.postAfter o.sy { h with jb := h.jb.semTake o.sem h.region (h.k == Core.xc) } fun h => h.finishPoint o.f o.sy []
    else h.block (.sem o.sem false)

/-- SEMP. -/
def execSemp (o : OpSemp) (s : State) : Out :=
  onCore s fun h => h.withSync o.sy fun h => h.withUse o.ra fun a h => h.room o.f fun h =>
    if (semMax : Int) < h.semView o.sem + a.v.toNat then h.overflow 0 o.sem.toNat (h.semView o.sem + a.v.toNat).toNat
    else h.postAfter o.sy (h.defer (some o.f.os) (h.preds o.f a.dep) none (.semPost o.sem a.v.toNat)) fun h => h.finishPoint o.f o.sy a.dep

/-- SEMSET: a release only with rel; a plain set has no predecessors to wait for. -/
def execSemset (o : OpSemp) (s : State) : Out :=
  onCore s fun h => h.withSync o.sy fun h => h.withUse o.ra fun a h => h.room o.f fun h =>
    if a.v.toNat / 2 ^ 32 != 0 then h.overflow 0 o.sem.toNat a.v.toNat
    else h.postAfter o.sy (h.defer (some o.f.os) (if o.f.ord == .rel then h.preds o.f a.dep else []) none (.semSet o.sem a.v.toNat))
      fun h => h.finishPoint o.f o.sy a.dep

/-- SEMRD: the view, as an unsigned 32-bit number. -/
def execSemrd (o : OpSemrd) (s : State) : Out :=
  onCore s fun h => h.withSync o.sy fun h => h.room o.f fun h => h.whenOrdered o.f [] fun h => h.postOk o.sy fun h =>
    h.withDst o.rd ⟨BitVec.ofInt 64 (h.semView o.sem % 2 ^ 32), .none, [h.s.nextId]⟩ fun h => h.finishPoint o.f o.sy []

/-! ## Queues (R193) -/

/-- The entries of a queue that stand for its issuing side. -/
def Job.qLen (j : Job) (q : QName) : Nat :=
  match q with
  | .lq n => if n.toNat < 4 then (j.lq[n.toNat % 4]?.map (·.ents.length)).getD 0
      else (j.lqRow[n.toNat % 4]?.map (·.ents.length)).getD 0
  | .sq n => if n.toNat < 2 then (j.sq[n.toNat % 2]?.map (·.ents.length)).getD 0
      else (j.sqRow[n.toNat % 2]?.map (·.ents.length)).getD 0

/-- Set the marks of a queue's end: issued, or also in effect. -/
def Job.endQueue (j : Job) (q : QName) (effect : Bool) : Job :=
  let f {α : Type} (x : Queue α) : Queue α := if effect then { x with ended := true } else { x with ending := true }
  match q with
  | .lq n =>
    if n.toNat < 4 then { j with lq := Vector.ofFn (fun i => if i.val = n.toNat % 4 then f j.lq[i] else j.lq[i]) }
    else { j with lqRow := Vector.ofFn (fun i => if i.val = n.toNat % 4 then f j.lqRow[i] else j.lqRow[i]) }
  | .sq n =>
    if n.toNat < 2 then { j with sq := Vector.ofFn (fun i => if i.val = n.toNat % 2 then f j.sq[i] else j.sq[i]) }
    else { j with sqRow := Vector.ofFn (fun i => if i.val = n.toNat % 2 then f j.sqRow[i] else j.sqRow[i]) }

/-- The register number of a queue (09 R111). -/
def queueReg (q : QName) : Nat :=
  match q with
  | .lq n => 104 + n.toNat
  | .sq n => 112 + n.toNat

/-- The consuming side of a queue has ended. -/
def Job.consumerEnded (j : Job) (q : QName) : Bool :=
  match q with
  | .lq _ => !j.xc.live
  | .sq _ => !j.ac.live

/-- QEND: the issuing side pushes no more; the end takes effect at QUEUE_END_EFFECT. -/
def execQend (o : OpQ) (s : State) : Out :=
  onCore s fun h => h.withSync o.sy fun h => h.room o.f fun h => h.whenOrdered o.f [] fun h => h.postOk o.sy fun h =>
    { h with jb := h.jb.endQueue o.q false }.finishPoint o.f o.sy []

/-- QFLUSH: a wait until the queue is empty; queue overflow when the consuming side has ended with entries left. -/
def execQflush (o : OpQ) (s : State) : Out :=
  onCore s fun h => h.withSync o.sy fun h => h.room o.f fun h => h.whenOrdered o.f [] fun h =>
    if h.st.granted || h.jb.qLen o.q = 0 then h.postOk o.sy fun h => h.finishPoint o.f o.sy []
    else if h.jb.consumerEnded o.q then h.queueTrap true (queueReg o.q)
    else h.block (.flush o.q)

end Sys2Proof.Machine
end

