-- ==== Sys2Proof/Machine/ScalarFp.lean ====
section
/-!
DEFINITION. Scalar FP32 instructions and FCVT of the XC (11 R147 to R150).
-/
namespace Sys2Proof.Machine
open Sys2Proof

/-- The mode of a rounding code; dyn reads nmctl.RM (03 R45). -/
def modeOf (rm : Rm) (nm : BitVec 10) : Mode :=
  match rm with
  | .rtz => .rtz
  | .rup => .rup
  | .rdn => .rdn
  | .dyn =>
    match nmRm nm with
    | 1 => .rtz
    | 2 => .rup
    | 3 => .rdn
    | _ => .rne
  | _ => .rne

/-- An FP32 operand: bits 31:0 of a register, with DAZ (R147). -/
def f32In (nm : BitVec 10) (w : Word) : Num := fmtF32.input (nmDaz nm) (w.toNat % 2 ^ 32)

/-- A word of the XC whose value and flags come from its operands and nmctl. -/
def Here.scalarFl (h : Here) (sy : Sync) (rd : Dst) (l : List Src) (f : BitVec 10 → List PVal → Word × Fl) : Here :=
  h.withSync sy fun h => h.withSrcs l fun vs h => h.postOk sy fun h =>
    h.withDst rd (result vs (f h.st.nmctl vs).1) fun h =>
      (h.setFlags (f h.st.nmctl vs).2).finish sy (joinDep vs)

/-- An FP32 arithmetic form: the exact result of the operands, rounded once. -/
def fpArith (ins : List Num) (x : Num) (rm : Rm) (sat : Bool) (nm : BitVec 10) : Word × Fl :=
  let y := fmtF32.result (.mode (modeOf rm nm)) sat (nmFtz nm) x
  (BitVec.ofNat 64 y.1, y.2 ||| invalid ins x)

/-- FADD.S (R147). -/
def execFaddS (o : OpF) (s : State) : Out :=
  onCore s fun h => h.scalarFl o.sy o.rd [o.ra, o.rb] fun nm vs =>
    let a := f32In nm (nth vs 0)
    let b := f32In nm (nth vs 1)
    fpArith [a, b] (a.add (.mode (modeOf o.rm nm)) b) o.rm o.sat nm

/-- FMUL.S (R147). -/
def execFmulS (o : OpF) (s : State) : Out :=
  onCore s fun h => h.scalarFl o.sy o.rd [o.ra, o.rb] fun nm vs =>
    let a := f32In nm (nth vs 0)
    let b := f32In nm (nth vs 1)
    fpArith [a, b] (a.mul b) o.rm o.sat nm

/-- FFMA.S (R147): rc is the addend. -/
def execFfmaS (o : OpF3) (s : State) : Out :=
  onCore s fun h => h.scalarFl o.sy o.rd [o.ra, o.rb, o.rc] fun nm vs =>
    let a := f32In nm (nth vs 0)
    let b := f32In nm (nth vs 1)
    let c := f32In nm (nth vs 2)
    fpArith [a, b, c] (Num.fma (.mode (modeOf o.rm nm)) a b c) o.rm o.sat nm

/-- FMIN.S and FMAX.S: unrounded; NV when an input is NaN (R148). -/
def fpPick (o : OpRRR) (f : Num → Num → Num) (h : Here) : Here :=
  h.scalarFl o.sy o.rd [o.ra, o.rb] fun nm vs =>
    let a := f32In nm (nth vs 0)
    let b := f32In nm (nth vs 1)
    (BitVec.ofNat 64 (fmtF32.result (.mode .rne) false false (f a b)).1, flIf (a.isNan || b.isNan) flNV)

/-- FMIN.S (R148). -/
def execFminS (o : OpRRR) (s : State) : Out := onCore s (fpPick o Num.min)

/-- FMAX.S (R148). -/
def execFmaxS (o : OpRRR) (s : State) : Out := onCore s (fpPick o Num.max)

/-- A comparison; `ordered` ones set NV with a NaN input (R149). -/
def fpCompare (o : OpRRR) (ordered : Bool) (f : Option Ordering → Bool) (h : Here) : Here :=
  h.scalarFl o.sy o.rd [o.ra, o.rb] fun nm vs =>
    let a := f32In nm (nth vs 0)
    let b := f32In nm (nth vs 1)
    (bword (f (a.cmp b)), flIf (ordered && (a.isNan || b.isNan)) flNV)

/-- FCMP.eq (R149). -/
def execFcmpEq (o : OpRRR) (s : State) : Out := onCore s (fpCompare o false (· == some .eq))

/-- FCMP.ne (R149). -/
def execFcmpNe (o : OpRRR) (s : State) : Out := onCore s (fpCompare o false (· != some .eq))

/-- FCMP.lt (R149). -/
def execFcmpLt (o : OpRRR) (s : State) : Out := onCore s (fpCompare o true (· == some .lt))

/-- FCMP.le (R149). -/
def execFcmpLe (o : OpRRR) (s : State) : Out :=
  onCore s (fpCompare o true (fun c => c == some .lt || c == some .eq))

/-! ## FCVT (R150) -/

/-- FTZ concerns results in FP32, BF16 and FP16 (03 R52). -/
def ftzFor (t : ET) (nm : BitVec 10) : Bool := nmFtz nm && t.cls == .f

/-- A source of FCVT or VCVT as an exact number: DAZ for floating types. -/
def etIn (t : ET) (nm : BitVec 10) (w : Nat) : Num :=
  match etFmt t with
  | some f => f.input (nmDaz nm) (w % 2 ^ (f.magBits + 1))
  | none => numOfInt ((etIfmt t).decode w)

/-- A conversion to an element type: the element's bits and the flags. -/
def etOut (t : ET) (nm : BitVec 10) (r : Rnd) (s : Bool) (x : Num) : Nat × Fl :=
  match etFmt t with
  | some f => f.convert r s (ftzFor t nm) x
  | none => ((etIfmt t).encode ((etIfmt t).convert r x).1, ((etIfmt t).convert r x).2)

def cvtIn (t : CvtTy) (nm : BitVec 10) (w : Word) : Num :=
  match t with
  | .et t => etIn t nm w.toNat
  | .i64 => numOfInt w.toInt

/-- The result in its register: integers are extended from their width (R150). -/
def cvtOut (t : CvtTy) (nm : BitVec 10) (r : Rnd) (s : Bool) (x : Num) : Word × Fl :=
  match t with
  | .et t =>
    let y := etOut t nm r s x
    (match etFmt t with
     | some _ => BitVec.ofNat 64 y.1
     | none => BitVec.ofInt 64 ((etIfmt t).decode y.1), y.2)
  | .i64 =>
    let y := (IFmt.mk 64 true).convert r x
    (BitVec.ofInt 64 y.1, y.2)

/-- The rounding of a conversion: rm=sr takes the draw that follows the generator's state (03 R49). -/
def rndOf (rm : Rm) (nm : BitVec 10) (srs : Word) : Rnd :=
  match rm with
  | .sr => .sr (drawU (nextDraw srs))
  | rm => .mode (modeOf rm nm)

/-- FCVT (R150): rm=sr advances srsx by one draw. -/
def execFcvt (o : OpCvt) (s : State) : Out :=
  onCore s fun h => h.withSync o.sy fun h => h.withSrcs [o.ra] fun vs h => h.postOk o.sy fun h =>
    let y := cvtOut o.dt h.st.nmctl (rndOf o.rm h.st.nmctl h.st.srs) o.sat (cvtIn o.st h.st.nmctl (nth vs 0))
    h.withDst o.rd (result vs y.1) fun h =>
      ((h.setFlags y.2).modSt (fun c => if o.rm = .sr then { c with srs := nextDraw c.srs } else c)).finish o.sy (joinDep vs)

end Sys2Proof.Machine
end

