-- ==== Sys2Proof/Machine/Vector.lean ====
section
/-!
DEFINITION. Vector instructions of the XC (15 R198 to R232): registers and masks, element operations, and one meaning each.
-/
namespace Sys2Proof.Machine
open Sys2Proof

/-! ## Registers (R198, R200, R229) -/

/-- Whether an asynchronous write to a physical register is outstanding (R229). -/
def Job.pendingV (j : Job) (p : Nat) : Bool := j.async.any (fun w => w.endedBy.isNone && w.regs.contains p)

/-- A read of the register that a name denotes; a pending one carries race poison in every row. -/
def Job.readV (j : Job) (n : Nat) : VReg :=
  let p := physV j.xc.rrb n
  let r := (j.vec.v[p]?).getD VReg.zero
  if j.pendingV p then { r with p := Vector.replicate 16 .race } else r

/-- The register itself, as a write under a mask keeps it. -/
def Job.rawV (j : Job) (n : Nat) : VReg := (j.vec.v[physV j.xc.rrb n]?).getD VReg.zero

def Job.writeV (j : Job) (n : Nat) (r : VReg) : Job :=
  { j with vec := { j.vec with v := j.vec.v.setIfInBounds (physV j.xc.rrb n) r } }.touch (.v (physV j.xc.rrb n))

def Job.readM (j : Job) (m : BitVec 3) : MReg := j.vec.m[m.toFin]
def Job.writeM (j : Job) (m : BitVec 3) (r : MReg) : Job := 
  { j with vec := { j.vec with m := j.vec.m.set m.toFin r } }.touch (.m m.toNat)

/-- Slot (row, col) of a register. -/
def VReg.at_ (r : VReg) (row col : Nat) : Slot := ((r.rows[row]?).bind (fun x => x[col]?)).getD 0
def VReg.kind (r : VReg) (row : Nat) : Poison := (r.p[row]?).getD .none

/-- Register `i` of a source group; a single source is read again for each (R201). -/
def Job.srcV (j : Job) (g : VG) (i : Nat) : VReg := j.readV (if g.w = .x1 then g.n.toNat else g.n.toNat + i)

/-- The mask of an instruction: which slots are active, and its poison. -/
def Job.maskAt (j : Job) (m : MaskF) (b : Nat) : Bool :=
  match m with
  | none => true
  | some m => (j.readM m).bits.getLsbD b
def Job.maskP (j : Job) (m : MaskF) : Poison :=
  match m with
  | none => .none
  | some m => (j.readM m).p

/-! ## Writing a group (R200, R203, R205) -/

/-- What an element-wise instruction makes of a slot: register of the group, row, column to the new slot and its flags;
and the poison that a row takes. -/
structure VFun where
  slot : Nat → Nat → Nat → Slot × Fl
  kind : Nat → Nat → Poison

/-- A written register: inactive slots keep their value or become zero. A row takes the kinds of the sources that supply a slot of
it, and the mask's; under a mask with Z = 0 it keeps the kind it held as well, and a row that is not written keeps that alone. -/
def vmerge (j : Job) (m : MaskF) (z : Bool) (old : VReg) (f : VFun) (i : Nat) : VReg where
  rows := Vector.ofFn (fun r => Vector.ofFn (fun c =>
    if j.maskAt m (64 * r.val + c.val) then (f.slot i r.val c.val).1
    else if z then 0 else old.at_ r.val c.val))
  p := Vector.ofFn (fun r =>
    if (List.range 64).any (fun c => j.maskAt m (64 * r.val + c)) then
      ((f.kind i r.val).max (j.maskP m)).max (if m.isNone || z then .none else old.kind r.val)
    else if z then j.maskP m
    else old.kind r.val)

/-- The flags of the active slots of a group. -/
def vflags (j : Job) (m : MaskF) (k : Nat) (f : VFun) : Fl :=
  (List.range (1024 * k)).foldl (fun fl b =>
    if j.maskAt m (b % 1024) then fl ||| (f.slot (b / 1024) (b % 1024 / 64) (b % 64)).2 else fl) 0

/-- Write a group: every source was read before. -/
def Job.writeGroup (j : Job) (rd : VG) (m : MaskF) (z : Bool) (f : VFun) : Job :=
  (List.range rd.w.count).foldl (fun j' i =>
    j'.writeV (rd.n.toNat + i) (vmerge j m z (j.rawV (rd.n.toNat + i)) f i)) j

/-- The shape of a vector word without scalar operands: `flags` tells whether the element operation can set any. -/
def vop (sy : Sync) (rd : VG) (m : MaskF) (z : Bool) (flags : Bool) (f : Here → VFun) (h : Here) : Here :=
  h.withSync sy fun h => h.postOk sy fun h =>
    let h1 := if flags then h.setFlags (vflags h.jb m rd.w.count (f h)) else h
    { h1 with jb := h1.jb.writeGroup rd m z (f h) }.finish sy []

/-! ## Elements (R199) -/

def elem (t : ET) (x : Slot) : Nat := x.toNat % 2 ^ etBits t

/-- An element as a slot holds it: signed integers fill the slot with their sign. -/
def slotOf (t : ET) (x : Nat) : Slot :=
  match t with
  | .i8 | .i4 => BitVec.ofInt 32 ((etIfmt t).decode x)
  | _ => BitVec.ofNat 32 (x % 2 ^ etBits t)

/-- An F or N operation on exact values, rounded once (R206, R207). -/
def fpElem (t : ET) (f : Fmt) (nm : BitVec 10) (rm : Rm) (s : Bool) (ins : List Num) (x : Num) : Slot × Fl :=
  let y := f.result (.mode (modeOf rm nm)) s (ftzFor t nm) x
  (slotOf t y.1, y.2 ||| invalid ins x)

/-- A typed operation on up to three elements: exact on numbers for F and N, on integers for I (R207, R208). -/
def arithElem (t : ET) (nm : BitVec 10) (rm : Rm) (s : Bool) (fp : Rnd → Num → Num → Num → Num)
    (it : Int → Int → Int → Int) (third : Bool) (a b d : Slot) : Slot × Fl :=
  match etFmt t with
  | some f =>
    let x := f.input (nmDaz nm) (elem t a)
    let y := f.input (nmDaz nm) (elem t b)
    let z := f.input (nmDaz nm) (elem t d)
    fpElem t f nm rm s (if third then [x, y, z] else [x, y]) (fp (.mode (modeOf rm nm)) x y z)
  | none =>
    let r := (etIfmt t).arith s (it ((etIfmt t).decode (elem t a)) ((etIfmt t).decode (elem t b)) ((etIfmt t).decode (elem t d)))
    (slotOf t r.1, r.2)

/-- Minimum and maximum: unrounded; NV with a NaN input (R207, 03 R51, R53). -/
def pickElem (t : ET) (nm : BitVec 10) (fp : Num → Num → Num) (it : Int → Int → Int) (a b : Slot) : Slot × Fl :=
  match etFmt t with
  | some f =>
    let x := f.input (nmDaz nm) (elem t a)
    let y := f.input (nmDaz nm) (elem t b)
    (slotOf t (f.result (.mode .rne) false false (fp x y)).1, flIf (x.isNan || y.isNan) flNV)
  | none => (slotOf t ((etIfmt t).encode (it ((etIfmt t).decode (elem t a)) ((etIfmt t).decode (elem t b)))), 0)

/-- Poison of the row that an element-wise instruction writes: those of its source rows. -/
def rowKinds (l : List (Nat → VReg)) (i r : Nat) : Poison := worst (l.map (fun g => (g i).kind r))

/-- Two sources, and rd as a third for VFMA and VFMS. -/
def vbin (o : VArith) (third : Bool) (f : Here → Slot → Slot → Slot → Slot × Fl) (h : Here) : Here :=
  vop o.sy o.rd o.mask o.z true (fun h =>
    let a := h.jb.srcV o.ra
    let b := h.jb.srcV o.rb
    let d := fun i => h.jb.readV (o.rd.n.toNat + i)
    { slot := fun i r c => f h ((a i).at_ r c) ((b i).at_ r c) (if third then (d i).at_ r c else 0)
      kind := rowKinds (if third then [a, b, d] else [a, b]) }) h

def varith (o : VArith) (third : Bool) (fp : Rnd → Num → Num → Num → Num) (it : Int → Int → Int → Int) (h : Here) : Here :=
  vbin o third (fun h => arithElem o.ty h.st.nmctl o.rm o.s fp it third) h

/-- One source. -/
def vun (rd ra : VG) (m : MaskF) (z : Bool) (sy : Sync) (flags : Bool) (f : Here → Slot → Slot × Fl) (h : Here) : Here :=
  vop sy rd m z flags (fun h =>
    let a := h.jb.srcV ra
    { slot := fun i r c => f h ((a i).at_ r c), kind := rowKinds [a] }) h

/-! ## R207: arithmetic -/

/-- VADD (R207, R208). -/
def execVadd (o : VArith) (s : State) : Out :=
  onCore s (varith o false (fun r a b _ => a.add r b) (fun a b _ => a + b))

/-- VSUB (R207, R208). -/
def execVsub (o : VArith) (s : State) : Out :=
  onCore s (varith o false (fun r a b _ => a.add r b.neg) (fun a b _ => a - b))

/-- VMUL (R207, R208). -/
def execVmul (o : VArith) (s : State) : Out :=
  onCore s (varith o false (fun _ a b _ => a.mul b) (fun a b _ => a * b))

/-- VFMA (R207, R208). -/
def execVfma (o : VArith) (s : State) : Out :=
  onCore s (varith o true (fun r a b d => Num.fma r a b d) (fun a b d => a * b + d))

/-- VFMS (R207, R208). -/
def execVfms (o : VArith) (s : State) : Out :=
  onCore s (varith o true (fun r a b d => Num.fma r a b d.neg) (fun a b d => a * b - d))

/-- VMIN (R207). -/
def execVmin (o : VArith) (s : State) : Out :=
  onCore s (vbin o false (fun h a b _ => pickElem o.ty h.st.nmctl Num.min min a b))

/-- VMAX (R207). -/
def execVmax (o : VArith) (s : State) : Out :=
  onCore s (vbin o false (fun h a b _ => pickElem o.ty h.st.nmctl Num.max max a b))

/-! ## R209, R210: unary forms -/

/-- The sign forms: F and N change the sign, a NaN is canonical; I follows R208. -/
def signElem (t : ET) (nm : BitVec 10) (s : Bool) (fp : Num → Num) (it : Int → Int) (a : Slot) : Slot × Fl :=
  match etFmt t with
  | some f => (slotOf t (f.result (.mode .rne) false false (fp (f.input (nmDaz nm) (elem t a)))).1, 0)
  | none =>
    let r := (etIfmt t).arith s (it ((etIfmt t).decode (elem t a)))
    (slotOf t r.1, r.2)

/-- VABS (R209). -/
def execVabs (o : VUnary) (s : State) : Out :=
  onCore s (vun o.rd o.ra o.mask o.z o.sy true fun h => signElem o.ty h.st.nmctl o.s Num.abs (fun i => i.natAbs))

/-- VNEG (R209). -/
def execVneg (o : VUnary) (s : State) : Out :=
  onCore s (vun o.rd o.ra o.mask o.z o.sy true fun h => signElem o.ty h.st.nmctl o.s Num.neg (fun i => -i))

/-- A reciprocal form: rounded correctly once (R210). -/
def recipElem (t : ET) (nm : BitVec 10) (rm : Rm) (s : Bool) (fp : Num → Num) (a : Slot) : Slot × Fl :=
  match etFmt t with
  | some f => fpElem t f nm rm s [f.input (nmDaz nm) (elem t a)] (fp (f.input (nmDaz nm) (elem t a)))
  | none => (a, 0)

/-- VRCP (R210). -/
def execVrcp (o : VUnary) (s : State) : Out :=
  onCore s (vun o.rd o.ra o.mask o.z o.sy true fun h => recipElem o.ty h.st.nmctl o.rm o.s Num.rcp)

/-- VRSQ (R210). -/
def execVrsq (o : VUnary) (s : State) : Out :=
  onCore s (vun o.rd o.ra o.mask o.z o.sy true fun h => recipElem o.ty h.st.nmctl o.rm o.s Num.rsq)

/-- VNOT (R209). -/
def execVnot (o : VMove) (s : State) : Out :=
  onCore s (vun o.rd o.ra o.mask o.z o.sy false fun _ a => (~~~a, 0))

/-- VPOPC (R209). -/
def execVpopc (o : VUnary) (s : State) : Out :=
  onCore s (vun o.rd o.ra o.mask o.z o.sy false fun _ a =>
    (slotOf o.ty ((List.range (etBits o.ty)).filter (fun i => a.getLsbD i)).length, 0))

/-- VCLZ (R209). -/
def execVclz (o : VUnary) (s : State) : Out :=
  onCore s (vun o.rd o.ra o.mask o.z o.sy false fun _ a =>
    (slotOf o.ty ((List.range (etBits o.ty)).takeWhile (fun i => !a.getLsbD (etBits o.ty - 1 - i))).length, 0))

/-- VMOV (R209). -/
def execVmov (o : VMove) (s : State) : Out :=
  onCore s (vun o.rd o.ra o.mask o.z o.sy false fun _ a => (a, 0))

/-! ## R211: VCVT -/

/-- The first `n` draws that follow a generator's state. -/
def drawsFrom (n : Nat) (s : Word) : List Word :=
  match n with
  | 0 => []
  | n + 1 => nextDraw s :: drawsFrom n (nextDraw s)

/-- The rounding of slot `b` of a conversion with the draws `d` (03 R50: one draw for every slot, in slot order). -/
def cvtRnd (rm : Rm) (nm : BitVec 10) (d : Array Word) (b : Nat) : Rnd :=
  match rm with
  | .sr => .sr (drawU ((d[b]?).getD 0))
  | rm => .mode (modeOf rm nm)

/-- VCVT (R211). -/
def execVcvt (o : VCvtOp) (s : State) : Out :=
  onCore s fun h => h.withSync o.sy fun h => h.postOk o.sy fun h =>
    let n := if o.rm = .sr then 1024 * o.rd.w.count else 0
    let d := (drawsFrom n h.st.srs).toArray
    let a := h.jb.srcV o.ra
    let f : VFun := {
      slot := fun i r c =>
        let y := etOut o.dt h.st.nmctl (cvtRnd o.rm h.st.nmctl d (1024 * i + 64 * r + c)) o.s
          (etIn o.st h.st.nmctl (elem o.st ((a i).at_ r c)))
        (slotOf o.dt y.1, y.2)
      kind := rowKinds [a] }
    let h1 := (h.setFlags (vflags h.jb none o.rd.w.count f)).modSt (fun c => { c with srs := (d.back?).getD c.srs })
    { h1 with jb := h1.jb.writeGroup o.rd none false f }.finish o.sy []

/-! ## R212, R213: bit operations and shifts -/

def vbit (o : VBit) (f : Slot → Slot → Slot) (h : Here) : Here :=
  vop o.sy o.rd o.mask o.z false (fun h =>
    let a := h.jb.srcV o.ra
    let b := h.jb.srcV o.rb
    { slot := fun i r c => (f ((a i).at_ r c) ((b i).at_ r c), 0), kind := rowKinds [a, b] }) h

/-- VAND (R212). -/
def execVand (o : VBit) (s : State) : Out := onCore s (vbit o fun a b => a &&& b)

/-- VOR (R212). -/
def execVor (o : VBit) (s : State) : Out := onCore s (vbit o fun a b => a ||| b)

/-- VXOR (R212). -/
def execVxor (o : VBit) (s : State) : Out := onCore s (vbit o fun a b => a ^^^ b)

/-- The shift amount of a type: the low 5, 3 or 2 bits (R213). -/
def vshamt (t : ET) (b : Slot) : Nat := b.toNat % etBits t

/-- VSHL (R213). -/
def execVshl (o : VArith) (s : State) : Out :=
  onCore s (vbin o false fun _ a b _ => (slotOf o.ty (elem o.ty a * 2 ^ vshamt o.ty b % 2 ^ etBits o.ty), 0))

/-- VSHR (R213). -/
def execVshr (o : VArith) (s : State) : Out :=
  onCore s (vbin o false fun _ a b _ => (slotOf o.ty (elem o.ty a / 2 ^ vshamt o.ty b), 0))

/-- VSRA (R213). -/
def execVsra (o : VArith) (s : State) : Out :=
  onCore s (vbin o false fun _ a b _ =>
    (slotOf o.ty ((etIfmt o.ty).encode ((etIfmt o.ty).decode (elem o.ty a) / 2 ^ vshamt o.ty b)), 0))

/-! ## R214, R215: comparisons and selection -/

/-- The result of comparing two elements, and its flags. -/
def cmpElem (t : ET) (nm : BitVec 10) (ordered : Bool) (p : Option Ordering → Bool) (a b : Slot) : Bool × Fl :=
  match etFmt t with
  | some f =>
    let x := f.input (nmDaz nm) (elem t a)
    let y := f.input (nmDaz nm) (elem t b)
    (p (x.cmp y), flIf (ordered && (x.isNan || y.isNan)) flNV)
  | none => (p (some (compare ((etIfmt t).decode (elem t a)) ((etIfmt t).decode (elem t b)))), 0)

/-- A number whose bit `b` is `f b`, below 1,024. -/
def maskOf (f : Nat → Bool) : BitVec 1024 :=
  BitVec.ofNat 1024 ((List.range 1024).foldr (fun b n => bit1 (f b) + 2 * n) 0)

/-- The poison of every row of a register. -/
def allKinds (r : VReg) : Poison := worst r.p.toList

/-- VCMP (R214). -/
def vcmp (o : VCmpOp) (ordered : Bool) (p : Option Ordering → Bool) (h : Here) : Here :=
  h.withSync o.sy fun h => h.postOk o.sy fun h =>
    let a := h.jb.readV o.ra.toNat
    let b := h.jb.readV o.rb.toNat
    let f := fun i => cmpElem o.ty h.st.nmctl ordered p (a.at_ (i / 64) (i % 64)) (b.at_ (i / 64) (i % 64))
    let old := h.jb.readM o.rd
    let fl := (List.range 1024).foldl (fun fl i => if h.jb.maskAt o.mask i then fl ||| (f i).2 else fl) 0
    let h1 := h.setFlags fl
    { h1 with jb := h1.jb.writeM o.rd ⟨maskOf (fun i => if h.jb.maskAt o.mask i then (f i).1 else !o.z && old.bits.getLsbD i),
        worst [allKinds a, allKinds b, h.jb.maskP o.mask]⟩ }.finish o.sy []

/-- VCMP.eq (R214). -/
def execVcmpEq (o : VCmpOp) (s : State) : Out := onCore s (vcmp o false (· == some .eq))

/-- VCMP.ne (R214). -/
def execVcmpNe (o : VCmpOp) (s : State) : Out := onCore s (vcmp o false (· != some .eq))

/-- VCMP.lt (R214). -/
def execVcmpLt (o : VCmpOp) (s : State) : Out := onCore s (vcmp o true (· == some .lt))

/-- VCMP.le (R214). -/
def execVcmpLe (o : VCmpOp) (s : State) : Out := onCore s (vcmp o true (fun c => c == some .lt || c == some .eq))

/-- VCMP.gt (R214). -/
def execVcmpGt (o : VCmpOp) (s : State) : Out := onCore s (vcmp o true (· == some .gt))

/-- VCMP.ge (R214). -/
def execVcmpGe (o : VCmpOp) (s : State) : Out := onCore s (vcmp o true (fun c => c == some .gt || c == some .eq))

/-- VSEL: every slot is written; the mask selects (R215). -/
def execVsel (o : VSelOp) (s : State) : Out :=
  onCore s (vop o.sy o.rd none false false fun h =>
    let a := h.jb.srcV o.ra
    let b := h.jb.srcV o.rb
    { slot := fun i r c => (if h.jb.maskAt (some o.mask) (64 * r + c) then (a i).at_ r c else (b i).at_ r c, 0)
      kind := fun i r =>
        let sel := (List.range 64).map (fun c => h.jb.maskAt (some o.mask) (64 * r + c))
        ((if sel.any id then (a i).kind r else .none).max (if sel.all id then .none else (b i).kind r)).max
          (h.jb.maskP (some o.mask)) })

/-! ## R216: between vector and scalar registers -/

/-- An element in a scalar register: sign-extended for the signed integer types. -/
def elemWord (t : ET) (x : Slot) : Word :=
  match t with
  | .i32 | .i8 | .i4 => BitVec.ofInt 64 ((etIfmt t).decode (elem t x))
  | _ => BitVec.ofNat 64 (elem t x)

/-- VMVX (R216). -/
def execVmvx (o : VMvxOp) (s : State) : Out :=
  onCore s fun h => h.withSync o.sy fun h => h.withSrcs [o.rb] fun vs h => h.postOk o.sy fun h =>
    let b := (nth vs 0).toNat % 1024
    let a := h.jb.readV o.ra.toNat
    h.withDst o.rd ⟨elemWord o.ty (a.at_ (b / 64) (b % 64)), (a.kind (b / 64)).max (joinP vs), joinDep vs⟩ fun h =>
      h.finish o.sy (joinDep vs)

/-- The shape of a vector word with one scalar operand. -/
def vscal (sy : Sync) (rd : VG) (x : Src) (m : MaskF) (z : Bool) (f : Here → PVal → VFun) (h : Here) : Here :=
  h.withSync sy fun h => h.withSrcs [x] fun vs h => h.postOk sy fun h =>
    { h with jb := h.jb.writeGroup rd m z (f h (vs[0]?.getD PVal.zero)) }.finish sy (joinDep vs)

/-- VMXV (R216). -/
def execVmxv (o : VMxvOp) (s : State) : Out :=
  onCore s (vscal o.sy o.rd o.ra o.mask o.z fun _ x =>
    { slot := fun _ _ _ => (slotOf o.ty (x.v.toNat % 2 ^ etBits o.ty), 0), kind := fun _ _ => x.p })

/-! ## R217: rotations and broadcasts -/

/-- Each slot comes from (row, col) as `f` of the operand says. -/
def vmoveBy (o : VRotOp) (f : Nat → Nat → Nat → Nat × Nat) (h : Here) : Here :=
  vscal o.sy o.rd o.rb o.mask o.z (fun h x =>
    let a := h.jb.srcV o.ra
    let k := x.v.toNat
    { slot := fun i r c => ((a i).at_ (f k r c).1 (f k r c).2, 0)
      kind := fun i r => ((a i).kind (f k r 0).1).max x.p }) h

/-- VROTR (R217). -/
def execVrotr (o : VRotOp) (s : State) : Out := onCore s (vmoveBy o fun k r c => (r, (c + 64 - k % 64) % 64))

/-- VBCR (R217). -/
def execVbcr (o : VRotOp) (s : State) : Out := onCore s (vmoveBy o fun k r _ => (r, k % 64))

/-- VROTC (R217). -/
def execVrotc (o : VRotOp) (s : State) : Out := onCore s (vmoveBy o fun k r c => ((r + 16 - k % 16) % 16, c))

/-- VBCC (R217). -/
def execVbcc (o : VRotOp) (s : State) : Out := onCore s (vmoveBy o fun k _ c => (k % 16, c))

/-! ## R218: reductions and scans -/

/-- An element as an instruction without arithmetic passes it on: DAZ, and a canonical NaN. -/
def passElem (t : ET) (nm : BitVec 10) (x : Slot) : Slot :=
  match etFmt t with
  | some f => slotOf t (f.result (.mode .rne) false false (f.input (nmDaz nm) (elem t x))).1
  | none => slotOf t (elem t x)

/-- The tree over `2 ^ k` slots from `lo` on: none is ABSENT. -/
def redTree (op2 : Slot → Slot → Slot × Fl) (x : Nat → Slot) (active : Nat → Bool) (k lo : Nat) : Option Slot × Fl :=
  match k with
  | 0 => (if active lo then some (x lo) else none, 0)
  | k + 1 =>
    match redTree op2 x active k lo, redTree op2 x active k (lo + 2 ^ k) with
    | (none, f), (r, g) => (r, f ||| g)
    | (l, f), (none, g) => (l, f ||| g)
    | (some l, f), (some r, g) => (some (op2 l r).1, f ||| g ||| (op2 l r).2)

/-- The scan of the slots 0 to n - 1: the values written, in order, and the flags. -/
def scanFrom (op2 : Slot → Slot → Slot × Fl) (x : Nat → Slot) (active : Nat → Bool) (n i : Nat) (acc : Option Slot) :
    List Slot × Fl :=
  match n with
  | 0 => ([], 0)
  | n + 1 =>
    if active i then
      match acc with
      | none => ((x i) :: (scanFrom op2 x active n (i + 1) (some (x i))).1, (scanFrom op2 x active n (i + 1) (some (x i))).2)
      | some a =>
        let y := op2 a (x i)
        let r := scanFrom op2 x active n (i + 1) (some y.1)
        (y.1 :: r.1, y.2 ||| r.2)
    else
      let r := scanFrom op2 x active n (i + 1) acc
      (0 :: r.1, r.2)

/-- The combining functions; the sources have been read with DAZ, subtotals are none (R206, R218). -/
def addElem (t : ET) (nm : BitVec 10) (rm : Rm) (s : Bool) (a b : Slot) : Slot × Fl :=
  match etFmt t with
  | some f =>
    let x := f.decode (elem t a)
    let y := f.decode (elem t b)
    fpElem t f nm rm s [x, y] (x.add (.mode (modeOf rm nm)) y)
  | none => arithElem t nm rm s (fun r a b _ => a.add r b) (fun a b _ => a + b) false a b 0
def bitElem (t : ET) (f : Nat → Nat → Nat) (a b : Slot) : Slot × Fl := (slotOf t (f (elem t a) (elem t b)), 0)

/-- One line of a register: the 64 slots of a row, or the 16 of a column. -/
structure Line where
  k : Nat                       -- 6 or 4: a line has 2^k slots
  row : Nat → Nat → Nat         -- line and place in it to the row
  col : Nat → Nat → Nat

def rowLine : Line := ⟨6, fun l _ => l, fun _ i => i⟩
def colLine : Line := ⟨4, fun _ i => i, fun l _ => l⟩

/-- The results of every line of a register: at place `i` of line `l`, and the flags. -/
def redLines (scan : Bool) (ln : Line) (j : Job) (m : MaskF) (nm : BitVec 10) (t : ET) (op2 : Slot → Slot → Slot × Fl)
    (a : VReg) : Array (List Slot × Fl) :=
  ((List.range (1024 / 2 ^ ln.k)).map (fun l =>
    let x := fun i => passElem t nm (a.at_ (ln.row l i) (ln.col l i))
    let active := fun i => j.maskAt m (64 * ln.row l i + ln.col l i)
    if scan then scanFrom op2 x active (2 ^ ln.k) 0 none
    else
      let v := redTree op2 x active ln.k 0
      (List.replicate (2 ^ ln.k) (v.1.getD 0), v.2))).toArray

/-- The poison of row `r` of a reduction or scan down columns: of the rows with a slot that contributes to a slot written in
row `r`, up to `r` itself in a scan (R205, R218; DEDUCED, notes/assumptions/42.md). -/
def colKinds (scan : Bool) (j : Job) (m : MaskF) (a : VReg) (r : Nat) : Poison :=
  worst (((List.range 16).filter (fun i => (!scan || i ≤ r) &&
    (List.range 64).any (fun c => j.maskAt m (64 * i + c) && j.maskAt m (64 * r + c)))).map a.kind)

/-- A reduction or scan (R218): the mask gates contributions and writes. With Z = 1 an inactive slot is written with zero, as R200 says
(DESIGN CHOICE, notes/assumptions/42.md). -/
def vred (scan : Bool) (ln : Line) (o : VUnary) (op2 : BitVec 10 → Slot → Slot → Slot × Fl) (h : Here) : Here :=
  h.withSync o.sy fun h => h.postOk o.sy fun h =>
    let res := (List.range o.rd.w.count).map (fun i =>
      redLines scan ln h.jb o.mask h.st.nmctl o.ty (op2 h.st.nmctl) (h.jb.srcV o.ra i))
    let f : VFun := {
      slot := fun i r c =>
        let l := if ln.k = 6 then r else c
        let p := if ln.k = 6 then c else r
        ((((res[i]?).bind (fun x => x[l]?)).bind (fun y => y.1[p]?)).getD 0, 0)
      kind := fun i r => if ln.k = 6 then (h.jb.srcV o.ra i).kind r else colKinds scan h.jb o.mask (h.jb.srcV o.ra i) r }
    let fl := res.foldl (fun fl x => x.foldl (fun fl y => fl ||| y.2) fl) 0
    let h1 := h.setFlags fl
    { h1 with jb := h1.jb.writeGroup o.rd o.mask o.z f }.finish o.sy []

/-- VREDR.add (R218). -/
def execVredrAdd (o : VUnary) (s : State) : Out := onCore s (vred false rowLine o (fun nm => addElem o.ty nm o.rm o.s))

/-- VREDR.min (R218). -/
def execVredrMin (o : VUnary) (s : State) : Out := onCore s (vred false rowLine o (fun nm => pickElem o.ty nm Num.min min))

/-- VREDR.max (R218). -/
def execVredrMax (o : VUnary) (s : State) : Out := onCore s (vred false rowLine o (fun nm => pickElem o.ty nm Num.max max))

/-- VREDR.and (R218). -/
def execVredrAnd (o : VUnary) (s : State) : Out := onCore s (vred false rowLine o (fun _ => bitElem o.ty (· &&& ·)))

/-- VREDR.or (R218). -/
def execVredrOr (o : VUnary) (s : State) : Out := onCore s (vred false rowLine o (fun _ => bitElem o.ty (· ||| ·)))

/-- VREDR.xor (R218). -/
def execVredrXor (o : VUnary) (s : State) : Out := onCore s (vred false rowLine o (fun _ => bitElem o.ty (· ^^^ ·)))

/-- VSCANR.add (R218). -/
def execVscanrAdd (o : VUnary) (s : State) : Out := onCore s (vred true rowLine o (fun nm => addElem o.ty nm o.rm o.s))

/-- VSCANR.min (R218). -/
def execVscanrMin (o : VUnary) (s : State) : Out := onCore s (vred true rowLine o (fun nm => pickElem o.ty nm Num.min min))

/-- VSCANR.max (R218). -/
def execVscanrMax (o : VUnary) (s : State) : Out := onCore s (vred true rowLine o (fun nm => pickElem o.ty nm Num.max max))

/-- VSCANR.and (R218). -/
def execVscanrAnd (o : VUnary) (s : State) : Out := onCore s (vred true rowLine o (fun _ => bitElem o.ty (· &&& ·)))

/-- VSCANR.or (R218). -/
def execVscanrOr (o : VUnary) (s : State) : Out := onCore s (vred true rowLine o (fun _ => bitElem o.ty (· ||| ·)))

/-- VSCANR.xor (R218). -/
def execVscanrXor (o : VUnary) (s : State) : Out := onCore s (vred true rowLine o (fun _ => bitElem o.ty (· ^^^ ·)))

/-- VREDC.add (R218). -/
def execVredcAdd (o : VUnary) (s : State) : Out := onCore s (vred false colLine o (fun nm => addElem o.ty nm o.rm o.s))

/-- VREDC.min (R218). -/
def execVredcMin (o : VUnary) (s : State) : Out := onCore s (vred false colLine o (fun nm => pickElem o.ty nm Num.min min))

/-- VREDC.max (R218). -/
def execVredcMax (o : VUnary) (s : State) : Out := onCore s (vred false colLine o (fun nm => pickElem o.ty nm Num.max max))

/-- VREDC.and (R218). -/
def execVredcAnd (o : VUnary) (s : State) : Out := onCore s (vred false colLine o (fun _ => bitElem o.ty (· &&& ·)))

/-- VREDC.or (R218). -/
def execVredcOr (o : VUnary) (s : State) : Out := onCore s (vred false colLine o (fun _ => bitElem o.ty (· ||| ·)))

/-- VREDC.xor (R218). -/
def execVredcXor (o : VUnary) (s : State) : Out := onCore s (vred false colLine o (fun _ => bitElem o.ty (· ^^^ ·)))

/-- VSCANC.add (R218). -/
def execVscancAdd (o : VUnary) (s : State) : Out := onCore s (vred true colLine o (fun nm => addElem o.ty nm o.rm o.s))

/-- VSCANC.min (R218). -/
def execVscancMin (o : VUnary) (s : State) : Out := onCore s (vred true colLine o (fun nm => pickElem o.ty nm Num.min min))

/-- VSCANC.max (R218). -/
def execVscancMax (o : VUnary) (s : State) : Out := onCore s (vred true colLine o (fun nm => pickElem o.ty nm Num.max max))

/-- VSCANC.and (R218). -/
def execVscancAnd (o : VUnary) (s : State) : Out := onCore s (vred true colLine o (fun _ => bitElem o.ty (· &&& ·)))

/-- VSCANC.or (R218). -/
def execVscancOr (o : VUnary) (s : State) : Out := onCore s (vred true colLine o (fun _ => bitElem o.ty (· ||| ·)))

/-- VSCANC.xor (R218). -/
def execVscancXor (o : VUnary) (s : State) : Out := onCore s (vred true colLine o (fun _ => bitElem o.ty (· ^^^ ·)))

/-! ## R219 to R221 -/

/-- VPERMR (R219). -/
def execVpermr (o : VBit) (s : State) : Out :=
  onCore s (vop o.sy o.rd o.mask o.z false fun h =>
    let a := h.jb.srcV o.ra
    let b := h.jb.srcV o.rb
    { slot := fun i r c => ((a i).at_ r (((b i).at_ r c).toNat % 64), 0), kind := rowKinds [a, b] })

/-- VIOTA (R220). -/
def execViota (o : VIotaOp) (s : State) : Out :=
  onCore s (vop o.sy o.rd o.mask o.z false fun h =>
    match o.ra with
    | none => { slot := fun _ r c => (BitVec.ofNat 32 (64 * r + c), 0), kind := fun _ _ => .none }
    | some m =>
      let x := h.jb.readM m
      { slot := fun _ r c => (BitVec.ofNat 32 ((List.range (64 * r + c)).filter (fun b => x.bits.getLsbD b)).length, 0)
        kind := fun _ _ => x.p })

/-- VCLMUL: the low half to the even register, the high half to the odd one (R221). -/
def execVclmul (o : VClmulOp) (s : State) : Out :=
  onCore s (vop o.sy ⟨BitVec.ofNat 5 (2 * o.pair.toNat), .x2⟩ o.mask o.z false fun h =>
    let a := h.jb.readV o.ra.toNat
    let b := h.jb.readV o.rb.toNat
    { slot := fun i r c => (BitVec.ofNat 32 (clmulNat (a.at_ r c).toNat (b.at_ r c).toNat / 2 ^ (32 * i)), 0)
      kind := fun _ r => (a.kind r).max (b.kind r) })

/-! ## R222 to R224: tables -/

/-- Pop row entries until the word at pc holds `n` of them. Pops wait behind a detached VLDQ that still misses entries of
the queue (R227). -/
def Here.popRows (h : Here) (q : BitVec 2) (n fuel : Nat) (g : List RowVal → Here → Here) : Here :=
  match fuel with
  | 0 => h
  | fuel + 1 =>
    if n ≤ h.st.rows.length then g h.st.rows h
    else if h.jb.async.any (fun w => w.drain.isNone && w.lq == q && !w.complete) then h.block (.popRow q)
    else match h.jb.popRow q with
      | .got v j => ({ h with jb := j }.modSt (fun c => { c with rows := c.rows ++ [v] })).popRows q n fuel g
      | .wait => h.block (.popRow q)
      | .underflow => h.queueTrap false (108 + q.toNat)

/-- VTLD: nine entries become the table (R223). -/
def execVtld (o : VTldOp) (s : State) : Out :=
  onCore s fun h => h.withSync o.sy fun h => h.postOk o.sy fun h => h.popRows o.lq 9 10 fun rs h =>
    let tr : TReg := ⟨Vector.ofFn (fun i => ((rs[i.val]?).map (·.w)).getD Row.zero), worst (rs.map (fun r => worst r.p.toList))⟩
    { h with jb := { h.jb with vec := { h.jb.vec with tb := h.jb.vec.tb.set o.tb.toFin tr } }.touch (.tb o.tb.toNat) }.finish
        o.sy []

/-- Word `i` of entry `e` of a table. -/
def TReg.word (t : TReg) (e i : Nat) : Nat := (((t.ents[e]?).bind (fun r => r[i]?)).getD 0).toNat

def Num.isFinite (x : Num) : Bool :=
  match x with
  | .fin .. => true
  | _ => false

/-- A well-formed table (R222). -/
def TReg.ok (t : TReg) : Bool :=
  let lo := fmtF32.decode (t.word 0 0)
  let hi := fmtF32.decode (t.word 0 1)
  let sc := fmtF32.decode (t.word 0 2)
  lo.isFinite && hi.isFinite && sc.isFinite && lo.cmp hi == some .lt && sc.cmp Num.zero == some .gt &&
    (List.range 61).all (fun i => t.word 0 (i + 3) == 0)

/-- The floor of a nonnegative exact number, at most 255. -/
def floor255 (x : Num) : Nat :=
  match x with
  | .fin false m e => min 255 (if 0 ≤ e then m * 2 ^ e.toNat else m / 2 ^ (-e).toNat)
  | .inf false => 255
  | _ => 0

/-- The interpolation of one element (R224). -/
def tableElem (t : ET) (nm : BitVec 10) (rm : Rm) (s : Bool) (tb : TReg) (a : Slot) : Slot × Fl :=
  match etFmt t with
  | none => (a, 0)
  | some f =>
    let x := f.input (nmDaz nm) (elem t a)
    if !tb.ok || x.isNan then (slotOf t f.nanCode, flNV)
    else
      let lo := fmtF32.decode (tb.word 0 0)
      let xc := (x.max lo).min (fmtF32.decode (tb.word 0 1))
      let j := floor255 ((xc.add (.mode .rne) lo.neg).mul (fmtF32.decode (tb.word 0 2)))
      let base := fmtF32.decode (tb.word (1 + j / 32) (2 * (j % 32)))
      let slope := fmtF32.decode (tb.word (1 + j / 32) (2 * (j % 32) + 1))
      fpElem t f nm rm s [slope, xc, base] (Num.fma (.mode (modeOf rm nm)) slope xc base)

/-- VTLI (R224). -/
def execVtli (o : VTliOp) (s : State) : Out :=
  onCore s (vop o.sy o.rd o.mask o.z true fun h =>
    let a := h.jb.srcV o.ra
    let tb := h.jb.vec.tb[o.tb.toFin]
    { slot := fun i r c => tableElem o.ty h.st.nmctl o.rm o.s tb ((a i).at_ r c)
      kind := fun i r => (rowKinds [a] i r).max tb.p })

/-! ## R225, R226: two of four -/

/-- The rank of an element: a NaN above every number, then magnitude (R225), of the value as it stands, without DAZ (DESIGN CHOICE,
notes/assumptions/41.md). -/
def rankLt (t : ET) (x y : Slot) : Bool :=
  match etFmt t with
  | some f =>
    match f.decode (elem t x), f.decode (elem t y) with
    | .nan, _ => false
    | _, .nan => true
    | a, b => a.abs.cmp b.abs == some .lt
  | none => ((etIfmt t).decode (elem t x)).natAbs < ((etIfmt t).decode (elem t y)).natAbs

/-- How many members of a group rank above member `i`: those of greater rank, and equal ones of lower index. -/
def rankAbove (t : ET) (x : Nat → Slot) (i : Nat) : Nat :=
  ((List.range 4).filter (fun k => k != i && (rankLt t (x i) (x k) || (k < i && !rankLt t (x k) (x i))))).length

/-- The two positions kept, in order. -/
def kept (t : ET) (x : Nat → Slot) : Nat × Nat :=
  match (List.range 4).filter (fun i => rankAbove t x i < 2) with
  | [p, q] => (p, q)
  | _ => (0, 1)

/-- VPACK24 (R225). -/
def execVpack24 (o : VPackOp) (s : State) : Out :=
  onCore s fun h => h.withSync o.sy fun h => h.postOk o.sy fun h =>
    let a := h.jb.readV o.ra.toNat
    let k := fun r g => kept o.ty (fun i => a.at_ r (4 * g + i))
    let vals : VFun := {
      slot := fun _ r c => (if c < 32 then a.at_ r (4 * (c / 2) + (if c % 2 = 0 then (k r (c / 2)).1 else (k r (c / 2)).2)) else 0, 0)
      kind := fun _ r => a.kind r }
    let poss : VFun := {
      slot := fun _ r c => (if c < 16 then BitVec.ofNat 32 ((k r c).1 + 4 * (k r c).2) else 0, 0)
      kind := fun _ r => a.kind r }
    { h with jb := (h.jb.writeGroup ⟨o.rd, .x1⟩ none false vals).writeGroup ⟨o.rb, .x1⟩ none false poss }.finish o.sy []

/-- VUNPK24 (R226). -/
def execVunpk24 (o : VUnpkOp) (s : State) : Out :=
  onCore s (vop o.sy ⟨o.rd, .x1⟩ none false false fun h =>
    let a := h.jb.readV o.ra.toNat
    let b := h.jb.readV o.rb.toNat
    { slot := fun _ r c =>
        let g := c / 4
        let q := (b.at_ r g).toNat
        (if c % 4 = fld q 2 2 then a.at_ r (2 * g + 1) else if c % 4 = fld q 0 2 then a.at_ r (2 * g) else 0, 0)
      kind := fun _ r => (a.kind r).max (b.kind r) })

/-! ## R227, R228: row queues -/

/-- The rows of entries popped by a VLDQ: entry j goes to row j mod 16 of register j / 16. -/
def rowsFun (rs : List RowVal) : VFun where
  slot := fun i r c => ((((rs[16 * i + r]?).map (·.w)).bind (fun x => x[c]?)).getD 0, 0)
  kind := fun i r => ((rs[16 * i + r]?).map (fun x => worst x.p.toList)).getD .none

/-- VLDQ (R227): attached without a sync post, detached with one. -/
def execVldq (o : VLdqOp) (s : State) : Out :=
  onCore s fun h => h.withSync o.sy fun h => h.postOk o.sy fun h =>
    if o.sy.post then
      let w : AsyncWrite :=
        { id := h.s.nextId, drain := none, region := h.region
          regs := (List.range o.rd.w.count).map (fun i => physV h.st.rrb (o.rd.n.toNat + i))
          mask := o.mask.map (fun m => (h.jb.readM m).bits), maskP := h.jb.maskP o.mask, z := o.z
          pc := h.st.pc, seq := h.jb.seq, lq := o.lq, got := [], sem := some o.sy.sem, complete := false, endedBy := none }
      { h with
        s := { h.s with nextId := h.s.nextId + 1 }
        jb := { h.jb with seq := h.jb.seq + 1, async := h.jb.async ++ [w] } }.retire Sync.zero []
    else h.popRows o.lq (16 * o.rd.w.count) (16 * o.rd.w.count + 1) fun rs h =>
      { h with jb := h.jb.writeGroup o.rd o.mask o.z (rowsFun rs) }.finish o.sy []

/-- Push the rows of a VSTQ from the `part`-th on; each push waits while the queue is full. -/
def Here.pushRows (h : Here) (q : BitVec 1) (row : Nat → RowVal) (n fuel : Nat) (g : Here → Here) : Here :=
  match fuel with
  | 0 => h
  | fuel + 1 =>
    if n ≤ h.st.part then g h
    else if !h.jb.ac.live || h.jb.sqRow[q.toFin].ending then h.queueTrap true (114 + q.toNat)
    else if 32 ≤ h.jb.sqRow[q.toFin].ents.length then h.block (.pushRow q)
    else ({ h with jb := { h.jb with
        sqRow := h.jb.sqRow.set q.toFin { h.jb.sqRow[q.toFin] with
          ents := h.jb.sqRow[q.toFin].ents ++ [(⟨0, some (row h.st.part)⟩ : Entry RowVal)] } } }.modSt
            (fun c => { c with part := c.part + 1 })).pushRows q row n fuel g

/-- The row entry `j` of a register group. -/
def groupRow (j : Job) (g : VG) (i : Nat) : RowVal :=
  let r := j.readV (g.n.toNat + i / 16)
  ⟨(r.rows[i % 16]?).getD Row.zero, Vector.replicate 32 (r.kind (i % 16))⟩

/-- The rows of a VSTQ are read once (R202, step 4), and kept while its pushes wait. -/
def Here.readRows (h : Here) (g : VG) : Here :=
  if h.st.rows.isEmpty then h.modSt (fun c => { c with rows := (List.range (16 * g.w.count)).map (groupRow h.jb g) }) else h

/-- VSTQ (R228). -/
def execVstq (o : VStqOp) (s : State) : Out :=
  onCore s fun h => h.withSync o.sy fun h => h.postOk o.sy fun h =>
    let h := h.readRows o.ra
    h.pushRows o.sq (fun i => (h.st.rows[i]?).getD RowVal.zero) (16 * o.ra.w.count) (16 * o.ra.w.count + 1) fun h => h.finish o.sy []

/-! ## R231: masks -/

def mask2 (o : MaskOp2) (f : BitVec 1024 → BitVec 1024 → BitVec 1024) (h : Here) : Here :=
  h.withSync o.sy fun h => h.postOk o.sy fun h =>
    { h with jb := h.jb.writeM o.rd ⟨f (h.jb.readM o.ra).bits (h.jb.readM o.rb).bits,
      (h.jb.readM o.ra).p.max (h.jb.readM o.rb).p⟩ }.finish o.sy []

/-- MAND (R231). -/
def execMand (o : MaskOp2) (s : State) : Out := onCore s (mask2 o fun a b => a &&& b)

/-- MOR (R231). -/
def execMor (o : MaskOp2) (s : State) : Out := onCore s (mask2 o fun a b => a ||| b)

/-- MXOR (R231). -/
def execMxor (o : MaskOp2) (s : State) : Out := onCore s (mask2 o fun a b => a ^^^ b)

/-- MNOT (R231). -/
def execMnot (o : MaskOp1) (s : State) : Out :=
  onCore s fun h => h.withSync o.sy fun h => h.postOk o.sy fun h =>
    { h with jb := h.jb.writeM o.rd ⟨~~~(h.jb.readM o.ra).bits, (h.jb.readM o.ra).p⟩ }.finish o.sy []

/-- MPOPC (R231). -/
def execMpopc (o : MaskPop) (s : State) : Out :=
  onCore s fun h => h.withSync o.sy fun h => h.postOk o.sy fun h =>
    let m := h.jb.readM o.ra
    h.withDst o.rd ⟨BitVec.ofNat 64 ((List.range 1024).filter (fun b => m.bits.getLsbD b)).length, m.p, []⟩ fun h =>
      h.finish o.sy []

end Sys2Proof.Machine
end

