-- ==== Sys2Proof/Machine/Fabric.lean ====
section
/-!
DEFINITION. Routes on the torus (21 R321, R324), and the shape of an event: where it can happen it has its effect, elsewhere it does
not occur (DESIGN CHOICE, notes/assumptions/15.md).
-/
namespace Sys2Proof.Machine
open Sys2Proof

/-! ## Events -/

/-- An event of a package. -/
def eventPkg (s : State) (p : Nat) (f : Package → Out) : Out :=
  match s.pkg p with
  | some x => f x
  | none => .next s

/-- An event of a cell. -/
def eventCell (s : State) (c : CellId) (f : Package → CellState → Out) : Out :=
  eventPkg s c.pkg fun p => match p.cell c.cell with
    | some x => f p x
    | none => .next s

/-- An event of the running job of a cell. -/
def eventJob (s : State) (c : CellId) (f : Package → CellState → Job → Out) : Out :=
  eventCell s c fun p x => match x.job with
    | some j => f p x j
    | none => .next s

/-- An event where a condition holds. -/
def State.when_ (s : State) (b : Bool) (t : State) : Out := .next (if b then t else s)

def State.modJob (s : State) (c : CellId) (uid : Nat) (f : Job → Job) : State := s.modCell c (fun x => x.modJob uid f)

/-! ## Routes -/

/-- The extents of the domain by dimension. -/
def Firn.extent (f : Firn) (dim : Nat) : Nat :=
  match dim with
  | 0 => f.ext.1.toNat
  | 1 => f.ext.2.1.toNat
  | _ => f.ext.2.2.toNat

def coordAt (c : BitVec 10) (dim : Nat) : Nat :=
  match dim with
  | 0 => coordX c
  | 1 => coordY c
  | _ => coordZ c

def coordWith (c : BitVec 10) (dim v : Nat) : BitVec 10 :=
  BitVec.ofNat 10 ((if dim = 0 then v else coordX c) * 64 + (if dim = 1 then v else coordY c) * 8 +
    (if dim = 2 then v else coordZ c))

/-- The neighbour in a dimension, in the + or the - direction. -/
def Firn.hop (f : Firn) (c : BitVec 10) (dim : Nat) (plus : Bool) : BitVec 10 :=
  let e := max 1 (f.extent dim)
  coordWith c dim ((coordAt c dim + (if plus then 1 else e - 1)) % e)

/-- Port number of a direction: +X, -X, +Y, -Y, +Z, -Z. -/
def portOf (dim : Nat) (plus : Bool) : Nat := 2 * dim + bit1 (!plus)

/-- The ports by which `n` hops of a direction leave. -/
def Firn.way (f : Firn) (c : BitVec 10) (dim : Nat) (plus : Bool) : Nat → List (BitVec 10 × Nat)
  | 0 => []
  | n + 1 => (c, portOf dim plus) :: f.way (f.hop c dim plus) dim plus n

/-- A port with two dead links is dead (R324). -/
def Package.portDead (p : Package) (port : Nat) : Bool :=
  match p.links[port]? with
  | some l => l.all (fun x => x.st == .dead)
  | none => true

def State.portDead (s : State) (c : BitVec 10) (port : Nat) : Bool :=
  match s.pkgAt c with
  | some i => ((s.pkg i).map (fun p => p.portDead port)).getD true
  | none => true

def State.crossesDead (s : State) (l : List (BitVec 10 × Nat)) : Bool := l.any (fun h => s.portDead h.1 h.2)

/-- One dimension of a route: the shorter way, + when equal, the other where the chosen one crosses a dead port. -/
def State.routeDim (s : State) (f : Firn) (c : BitVec 10) (dim dst : Nat) : List (BitVec 10 × Nat) :=
  let e := max 1 (f.extent dim)
  let d := (dst + e - coordAt c dim % e) % e
  let plus : Bool := d ≤ e - d
  let w (b : Bool) := f.way c dim b (if b then d else (e - d) % e)
  if s.crossesDead (w plus) then w (!plus) else w plus

/-- The route between two physical packages: X, then Y, then Z. -/
def State.route (s : State) (f : Firn) (a b : BitVec 10) : List (BitVec 10 × Nat) :=
  s.routeDim f a 0 (coordX b) ++ s.routeDim f (coordWith a 0 (coordX b)) 1 (coordY b) ++
    s.routeDim f (coordWith (coordWith a 0 (coordX b)) 1 (coordY b)) 2 (coordZ b)

/-- Whether package `p` can send to a logical coordinate: it is not lost, some package stands there, and a live route leads
to it. -/
def State.reaches (s : State) (p : Package) (coord : BitVec 10) : Bool :=
  !p.firn.isLost coord && (s.pkgAt (p.firn.physical coord)).isSome &&
    !s.crossesDead (s.route p.firn p.coord (p.firn.physical coord))

/-- Whether a package answers a request for a logical coordinate by a context: it holds the coordinate (21 R325), and an
instance of that id and world that is not lost (25 R383, 23 R344). -/
def Package.answers (q : Package) (coord : BitVec 10) (ctx : Nat) (secure : Bool) : Bool :=
  q.firn.self == coord && (match q.ctx ctx with
    | some c => c.secure == secure && c.st != .lost
    | none => false)

end Sys2Proof.Machine
end

