-- ==== Sys2Proof/Machine/MemEvents.lean ====
section
/-!
DEFINITION. The life of a memory operation after its issue: it leaves its cell (01 R24), it is performed at its target (13 R174), its
response returns (13 R176). When it may go on is decided by what is locally ordered before it (07 R86, R90, R92, R382;
DEDUCED, notes/assumptions/16.md).
-/
namespace Sys2Proof.Machine
open Sys2Proof

/-! ## Where the bytes of two operations of one cell lie -/

/-- A space and an offset in it, where two targets of one space and no others can share bytes; none where that is not
known at the cell. -/
def Target.span (t : Target) : Option (Nat × Nat) :=
  match t with
  | .carve off => some (0, off)
  | .hbm a _ _ => some (1, a)
  | .hostMem _ a => some (2, a)
  | .firn off => some (3, off)
  | .cell c off => some (4 + c, off)
  | .sem c n => some (1000 + c, 4 * n.toNat)
  | .mbox c n => some (2000 + c, 8 * n.toNat)
  | .csr c n => some (3000 + c, 8 * n)
  | _ => none

/-- Whether the bytes of a held store may be handed to a load of the same cell (01 R24). -/
def Target.forwards (t : Target) : Bool :=
  match t with
  | .carve _ | .hbm .. | .hostMem .. | .cell .. => true
  | _ => false

/-- Whether two operations may touch a byte in common. -/
def mayOverlap (o q : MemOp) : Bool :=
  match o.target.span, q.target.span with
  | some (k, a), some (l, b) => k == l && a < b + q.bytes && b < a + o.bytes
  | _, _ =>
    match o.target, q.target with
    | .fabric c a, .fabric d b => c == d && a < b + q.bytes && b < a + o.bytes
    | _, _ => true

/-! ## Where an operation arrives -/

/-- What stands at the target when the operation gets there. -/
inductive Reach where
  | there (pkg : Nat) (w : Who) (cell uid : Nat) (t : Target)
  | fail (f : AccFail)
  | lost
  | moved (t : Target)
  deriving DecidableEq, Repr

/-- The forwarding entry that covers an address (05 R78, R81). -/
def Package.forward (p : Package) (ctx va : Nat) : Option Migration :=
  p.migrations.find? (fun m => m.ctx == ctx && m.switched.isSome && m.va ≤ va && va < m.va + pageBytes m.level)

/-- Where the moved page has the byte at `va`, seen from package `i`. -/
def Migration.newTarget (m : Migration) (i owner va : Nat) (cm : Bool) : Target :=
  match m.target with
  | .hbm q frame => if q = i then .hbm (frame * 4096 + (va - m.va)) va cm else .peer q (frame * 4096 + (va - m.va)) va cm
  | .host frame => .hostMem owner (frame * 4096 + (va - m.va))

/-- An access that a forwarding entry of package `i` sends on. It is checked once, against the leaf that the switch found, and goes to
the page's new frame; the tables of the package there are not walked for it (DESIGN CHOICE, notes/assumptions/82.md). -/
def State.forwardTo (s : State) (i : Nat) (q : Package) (m : Migration) (w : Who) (va : Nat) (acc : Acc) : Except AccFail Target :=
  let t := m.newTarget i (((q.ctx w.ctx).map (·.owner)).getD 0) va (bitAt m.leaf 6)
  let at_ (k a : Nat) : Bool × Bool := match s.pkg k with
    | some y => (y.frameSealed (a / 4096), ctagFmt (y.ctag (a / 4096)) != 0)
    | none => (false, false)
  let f : Bool × Bool := match t with
    | .hbm a _ _ => at_ i a
    | .peer k a _ _ => at_ k a
    | _ => (false, false)
  match leafFail m.leaf w acc f.1 f.2 with
  | some e => .error e
  | none => match t with
    | .hostMem .. => if acc == .atomic then .error (.page .hostAtomic) else .ok t
    | _ => .ok t

/-- An F access arriving at package `i` (05 R63, 07 R103). -/
def State.fabricReach (s : State) (i : Nat) (o : MemOp) (coord : BitVec 10) (va : Nat) : Reach :=
  match s.pkg i with
  | none => .lost
  | some q =>
    if !q.answers coord o.ctx o.secure then .lost
    else match q.forward o.ctx va with
    | some m =>
      (match s.forwardTo i q m ⟨o.ctx, o.secure, none⟩ va o.acc with
        | .error f => .fail f
        | .ok (.hbm a v cm) => .moved (.peer i a v cm)
        | .ok t => .moved t)
    | none =>
      match q.translate ⟨o.ctx, o.secure, none⟩ va o.bytes o.acc with
      | .error f => .fail f
      | .ok t => .there i ⟨o.ctx, o.secure, none⟩ 0 0 t

/-- A carve-out of another cell, or the job's own reached through C or N: the resident job decides (05 R62). -/
def Package.cellReach (p : Package) (i : Nat) (o : MemOp) (c : Nat) (uid : Nat) (fits : Job → Bool) : Reach :=
  if !p.live c then .lost
  else match (p.cell c).bind (fun x => x.resident o.ctx) with
    | none => .fail (.page .absent)
    | some j => if fits j then .there i ⟨o.ctx, o.secure, none⟩ c uid o.target else .fail (.page .bounds)

def State.reach (s : State) (c : CellId) (o : MemOp) : Reach :=
  match s.pkg c.pkg with
  | none => .lost
  | some p =>
    match o.target with
    | .fabric coord va =>
      if s.reaches p (BitVec.ofNat 10 coord) then
        s.fabricReach ((s.pkgAt (p.firn.physical (BitVec.ofNat 10 coord))).getD 0) o (BitVec.ofNat 10 coord) va
      else .lost
    | .peer i a va cm =>
      if (s.pkg i).isSome then .there i ⟨o.ctx, o.secure, none⟩ 0 0 (.hbm a va cm) else .lost
    | .cell d off => p.cellReach c.pkg o d o.job (fun j => off + o.bytes ≤ j.limit)
    | .sem d _ | .mbox d _ | .csr d _ => p.cellReach c.pkg o d o.job (fun _ => true)
    | t => .there c.pkg ⟨o.ctx, o.secure, some c.cell⟩ c.cell o.job t

/-! ## When an operation may go on -/

/-- The page of an address (05 R80). -/
def Package.pageOf (p : Package) (w : Who) (va : Nat) : Nat :=
  match (p.ctx w.ctx).bind (fun cx => (p.walk cx va).toOption) with
  | some (_, l) => va / pageBytes l
  | none => va / 4096

/-- The migrating page that an operation meets, if it meets one: held stores and atomics wait for its switch (05 R78). -/
def Package.atMigrating (p : Package) (w : Who) (t : Target) : Bool :=
  match t with
  | .hbm _ va _ => p.migrating w va
  | _ => false

/-- Whether a load meets a migrating page to which an earlier store or atomic is still held (05 R80). -/
def Package.loadHeld (p : Package) (w : Who) (o q : MemOp) : Bool :=
  match o.target, q.target with
  | .hbm _ va _, .hbm _ vb _ => p.migrating w va && p.pageOf w va == p.pageOf w vb
  | _, _ => false

/-- Whether a load or an atomic acquires (07 R84, R87): by its ord, an ACAS that has failed by its failure order. -/
def MemOp.acquires (q : MemOp) : Bool :=
  match q.what, q.value with
  | .atomic .cas dbl _ cmp fo _, some v =>
    if v.v.toNat % 2 ^ (if dbl then 64 else 32) = cmp.toNat % 2 ^ (if dbl then 64 else 32) then q.ord == .acq || q.ord == .acqrel
    else fo
  | .atomic .cas _ _ _ fo _, none => q.ord == .acq || q.ord == .acqrel || fo
  | _, _ => q.ord == .acq || q.ord == .acqrel

/-- Whether `q`, which is ordered before `o`, holds `o` back (07 R87, R90, R92, R382, 13 R184): a load that follows a load or an
atomic waits for it where that acquires or may touch the same bytes. -/
def Package.holdsBack (p : Package) (o q : MemOp) : Bool :=
  match q.status, q.what with
  | .complete, _ => false
  | .applied, .store _ _ => false
  | _, .store _ _ =>
    if o.isLoad then (mayOverlap o q && !(o.target.forwards && q.target.forwards)) ||
      p.loadHeld ⟨o.ctx, o.secure, none⟩ o q
    else o.isRel || mayOverlap o q
  | _, .load .. | _, .atomic .. => !o.isLoad || q.acquires || mayOverlap o q
  | _, _ => true

def Package.free (p : Package) (ops : List MemOp) (o : MemOp) : Bool :=
  ops.all (fun q => !(o.preds.contains q.id && p.holdsBack o q))

/-- Whether an F access goes to a page that is migrating at its target and to which `q`, a store or an atomic of its stream, is
not yet performed (05 R80). -/
def State.fabricHeld (s : State) (p : Package) (o q : MemOp) : Bool :=
  match o.target, q.target with
  | .fabric c va, .fabric d vb =>
    c == d && q.writes && q.status != .applied && q.status != .complete &&
    (match (s.pkgAt (p.firn.physical (BitVec.ofNat 10 c))).bind s.pkg with
      | some t => t.migrating ⟨o.ctx, o.secure, none⟩ va &&
          t.pageOf ⟨o.ctx, o.secure, none⟩ va == t.pageOf ⟨o.ctx, o.secure, none⟩ vb
      | none => false)
  | _, _ => false

/-- Whether nothing that is ordered before `o` holds it back, at its cell or at a migrating page (05 R80). -/
def State.free (s : State) (p : Package) (ops : List MemOp) (o : MemOp) : Bool :=
  p.free ops o && ops.all (fun q => !(o.preds.contains q.id && s.fabricHeld p o q))

/-! ## STORE_DEPARTURE (01 R24, 07 R99) -/

/-- The die of a target of this package, where it lies on one. -/
def Target.leavesDie (t : Target) (cell : Nat) : Bool :=
  match t with
  | .fabric .. | .peer .. => true
  | .cell c _ | .sem c _ | .mbox c _ | .csr c _ => dieOf c != dieOf cell
  | _ => false

/-- An operation by its name. -/
def CellState.op (x : CellState) (id : Nat) : Option MemOp := x.ops.find? (fun o => o.id == id)
def CellState.modOp (x : CellState) (id : Nat) (f : MemOp → MemOp) : CellState :=
  { x with ops := x.ops.map (fun o => if o.id = id then f o else o) }

/-- A stamp is attached to a write that leaves its die: the next sequence number of the die. Every write of another die
that happens before it has been performed, so it names none (DEDUCED, notes/assumptions/16.md). -/
def Package.stamp (p : Package) (cell id : Nat) (o : MemOp) : Package :=
  match o.writes && o.target.leavesDie cell, p.dies[dieOf cell]? with
  | true, some d =>
    { p.modCell cell (fun x => x.modOp id (fun o => { o with
        status := .left, stamp := some ⟨p.coord.toNat * 2 + dieOf cell, d.nextSeq, []⟩ })) with
      dies := p.dies.setIfInBounds (dieOf cell) { d with
        nextSeq := (d.nextSeq + 1) % 2 ^ 32, unapplied := d.unapplied ++ [d.nextSeq] } }
  | _, _ => p.modCell cell (fun x => x.modOp id (fun o => { o with status := .left }))

/-- A held operation leaves 160 clk after its issue, in issue order within its ordering stream. -/
def mayLeave (ops : List MemOp) (o : MemOp) (clk : Nat) : Bool :=
  o.status == .held && o.issued + quake ≤ clk &&
    (ops.takeWhile (fun q => q.id != o.id)).all (fun q =>
      !(q.job == o.job && q.eng == o.eng && q.os == o.os && q.status == .held))

/-- STORE_DEPARTURE. -/
def execStoreDeparture (c : CellId) (id : Nat) (s : State) : Out :=
  eventCell s c fun p x => match x.op id with
    | none => .next s
    | some o => s.when_ (mayLeave x.ops o (p.clkOf c.cell)) (s.modPkg c.pkg (fun p => p.stamp c.cell id o))

/-! ## Performing (13 R174, R179, R183, R192) -/

/-- The new value of an atomic on the low `n` bits; none where ACAS does not write. -/
def atomicNew (op : AtOp) (n : Nat) (old b cmp : Nat) : Option Nat :=
  match op with
  | .add => some ((old + b) % 2 ^ n)
  | .and => some (old &&& b)
  | .or => some (old ||| b)
  | .xor => some (old ^^^ b)
  | .min => some (if sint n old ≤ sint n b then old else b)
  | .max => some (if sint n old ≤ sint n b then b else old)
  | .minu => some (min old b)
  | .maxu => some (max old b)
  | .swap => some b
  | .cas => if old = cmp then some b else none

/-- rd of an atomic: sign-extended, but for the unsigned minimum and maximum. -/
def atomicRd (op : AtOp) (n old : Nat) : Word :=
  match op with
  | .minu | .maxu => zext n old
  | _ => sext n old

/-- The target at another address of the same place. -/
def Target.at_ (t : Target) (a : Nat) : Target :=
  match t with
  | .carve _ => .carve a
  | .cell c _ => .cell c a
  | .hbm _ va cm => .hbm a va cm
  | .hostMem fn _ => .hostMem fn a
  | t => t

/-- The words that a store of a context changes keep their old bytes for its fetches (11 R153;
DEDUCED, notes/assumptions/21.md). -/
def Package.noteStale (p : Package) (ctx cell uid : Nat) (t : Target) (n : Nat) : Package :=
  match p.codePlace ctx uid t with
  | some (k, a) =>
    p.modCtx ctx (fun c => { c with
      stale := (List.range' (a / 8) ((a + n - 1) / 8 + 1 - a / 8)).foldl (fun l w =>
        if (look l (k, 8 * w)).isSome then l
        else l ++ [((k, 8 * w), (p.readTarget ctx cell uid (t.at_ (8 * w)) 8).1)]) c.stale })
  | none => p

/-- Write bytes of a store or atomic. -/
def Package.storeBytes (p : Package) (w : Who) (cell uid : Nat) (t : Target) (bs : List Byte) : Package :=
  (p.noteStale w.ctx cell uid t bs.length).writeTarget w.ctx cell uid t bs

/-- The slab bytes that a target names: the cell, the job and the offset. -/
def Package.slabAt (p : Package) (ctx cell uid : Nat) (t : Target) : Option (Nat × Nat × Nat) :=
  match t with
  | .carve off => some (cell, uid, off)
  | .cell c off => ((p.cell c).bind (fun x => x.resident ctx)).map (fun j => (c, j.uid, off))
  | _ => none

/-- The region whose rollback undoes a counting write: that of an operation of the job itself. -/
def ownRegion (o : MemOp) (uid : Nat) : Option Nat := if o.job = uid && !o.dropped then some o.region else none

/-- A store performed: C targets, or bytes; an .arr store counts in its slab. -/
def Package.performStore (p : Package) (w : Who) (cell uid : Nat) (t : Target) (o : MemOp) (bs : List Byte) : Package :=
  match t with
  | .sem c n =>
    match (p.cell c).bind (fun x => x.resident w.ctx) with
    | some j => p.modJob c j.uid (fun j => { j with sems := j.sems.set n.toFin { j.sems[n.toFin] with c := (leNat bs : Nat) } })
    | none => p
  | .mbox c n => p.modCell c (fun x => { x with mb := x.mb.set n.toFin (BitVec.ofNat 64 (leNat bs)) })
  | t =>
    let p1 := p.storeBytes w cell uid t bs
    match o.arr, p.slabAt w.ctx cell uid t with
    | true, some (c, u, off) => p1.arrive c u off bs.length false (ownRegion o u) 2 o.pc.toNat
    | _, _ => p1

/-- What a performed atomic leaves: the package, the old value, and what went wrong. -/
structure AtRes where
  p : Package
  value : PVal
  fail : Option OpFail

/-- A C-space AADD (R192) on the count C. -/
def semAdd (m : Sem) (b : Int) : Sem × Bool :=
  if max m.c 0 + b < 0 then (m, false)
  else if (semMax : Int) < m.c + b then (m, true)
  else ({ m with c := m.c + b }, false)

def Package.performAtomic (p : Package) (w : Who) (cell uid : Nat) (t : Target) (id : Nat) (op : AtOp) (dbl : Bool)
    (b cmp : Word) : AtRes :=
  match t with
  | .sem c n =>
    match (p.cell c).bind (fun x => x.resident w.ctx) with
    | none => ⟨p, PVal.zero, none⟩
    | some j =>
      let m := j.sems[n.toFin]
      let r := semAdd m (sint 32 b.toNat)
      ⟨p.modJob c j.uid (fun j => { j with sems := j.sems.set n.toFin r.1 }),
        ⟨BitVec.ofNat 64 (max m.c 0).toNat, .none, [id]⟩,
        if r.2 then some (.overflow n (m.c + sint 32 b.toNat).toNat) else none⟩
  | t =>
    let n := if dbl then 64 else 32
    let old := p.readTarget w.ctx cell uid t (n / 8)
    let v := leNat old.1
    ⟨match atomicNew op n v (b.toNat % 2 ^ n) (cmp.toNat % 2 ^ n) with
      | some x => p.storeBytes w cell uid t (natLe x (n / 8))
      | none => p, ⟨atomicRd op n v, old.2, [id]⟩, none⟩

/-- Whether a counting write may arrive in its slabs now (05 R68). -/
def Package.mayArriveAt (p : Package) (ctx cell uid : Nat) (t : Target) (n : Nat) : Bool :=
  match p.slabAt ctx cell uid t with
  | some (c, u, off) => ((p.cell c).bind (fun x => x.jobBy u)).all (fun j => j.mayArrive (p.clkOf c) off n)
  | none => true

/-- Whether a change of the package has sent the tag of a slab of a target to ERROR (05 R69). -/
def Package.newErrors (p q : Package) (ctx cell uid : Nat) (t : Target) (n : Nat) : Bool :=
  match p.slabAt ctx cell uid t with
  | some (c, u, off) => (slabsOf off n).any (fun sl =>
      let st (p : Package) : Option TagSt := ((p.cell c).bind (fun x => x.jobBy u)).map (fun j => (j.tag sl).st)
      st p != some .error && st q == some .error)
  | none => false

/-- The operation performed at its target: the state, with the operation's status and old value; an arrival that writes a rime
fault record sets ERR of the operation's ordering stream (23 R335). -/
def State.perform (s : State) (c : CellId) (o : MemOp) (i : Nat) (w : Who) (cell uid : Nat) (t : Target) : State :=
  let r : State × Option PVal × Option OpFail :=
    match s.pkg i with
    | none => (s, none, none)
    | some p =>
      match o.what with
      | .store bs _ =>
        let q := p.performStore w cell uid t o bs
        let s1 := s.setPkg i q
        (if o.arr && p.newErrors q w.ctx cell uid t bs.length then s1.modJob c o.job (fun j => j.setErr o.eng o.os) else s1,
          none, none)
      | .atomic op dbl b cmp _ _ =>
        let a := p.performAtomic w cell uid t o.id op dbl b cmp
        (s.setPkg i a.p, some a.value, a.fail)
      | _ => (s, none, none)
  r.1.modCell c (fun x => x.modOp o.id (fun o => { o with status := .applied, value := r.2.1, fail := r.2.2 }))

/-- The write of an operation no longer holds back stamped writes. -/
def State.unstamp (s : State) (c : CellId) (o : MemOp) : State :=
  match o.stamp with
  | none => s
  | some t => s.modPkg c.pkg (fun p => match p.dies[dieOf c.cell]? with
      | some d => { p with dies := p.dies.setIfInBounds (dieOf c.cell) { d with unapplied := d.unapplied.filter (· != t.seq) } }
      | none => p)

/-- Whether the writes that a stamp names have been applied (R99). -/
def State.stampReady (s : State) (o : MemOp) : Bool :=
  match o.stamp with
  | none => true
  | some t => t.deps.all (fun d => s.pkgs.all (fun p =>
      p.coord.toNat != d.1 / 2 || ((p.dies[d.1 % 2]?).map (fun x => !x.unapplied.contains d.2)).getD true))

/-- The three ways in which a write is performed: a counting write into a slab, a stamped write on another die, any
other. -/
inductive Way where
  | counting | stamped | plain
  deriving DecidableEq, Repr

def wayOf (o : MemOp) (t : Target) : Way :=
  if o.arr && (match t with | .carve _ | .cell .. => true | _ => false) then .counting
  else if o.stamp.isSome then .stamped else .plain

/-- Performing by the event of its way: the target's checks may fail, which the response will say (13 R176). -/
def performBy (s : State) (c : CellId) (id : Nat) (way : Way) : Out :=
  eventCell s c fun p x => match x.op id with
    | none => .next s
    | some o =>
      if !(o.status == .left && o.fail.isNone && s.free p x.ops o && s.stampReady o) then .next s
      else match s.reach c o with
        | .there i w cell uid t =>
          let held := ((s.pkg i).map (fun q => q.atMigrating w t ||
            (wayOf o t == .counting && !q.mayArriveAt w.ctx cell uid t o.bytes))).getD false
          s.when_ (!held && wayOf o t == way) ((s.perform c o i w cell uid t).unstamp c o)
        | .fail .noFrame => .fault .noSuchFrame
        | .fail f => s.when_ (way == (if o.stamp.isSome then .stamped else .plain))
            ((s.modCell c (fun x => x.modOp id (fun o => { o with status := .applied, fail := some (.acc f) }))).unstamp c o)
        | _ => .next s

/-- MEMORY_PERFORMED (13 R174). -/
def execMemoryPerformed (c : CellId) (id : Nat) (s : State) : Out := performBy s c id .plain

/-- STAMPED_WRITE_APPLY (07 R99). -/
def execStampedWriteApply (c : CellId) (id : Nat) (s : State) : Out := performBy s c id .stamped

/-! ## Loads (13 R175, R176) -/

/-- The write regions of the engine jobs in flight of a job: the launch, and the granule region, not rime-gated (07 R93). -/
def Job.engineWrites (j : Job) : List (Nat × Foot) :=
  j.engJobs.flatMap (fun e => (e.feet.filter (·.write)).map (fun f => (e.op, f)))

/-- Whether bytes that a load reads lie in a granule that an unordered engine job in flight writes (07 R96). -/
def Job.racesEngine (j : Job) (ops : List MemOp) (o : MemOp) (space a n : Nat) : Bool :=
  j.engineWrites.any (fun e =>
    e.2.space == space && a / 64 * 64 < e.2.base + e.2.len && e.2.base / 64 * 64 < a + n &&
    !o.preds.contains e.1 && ops.all (fun q => q.id != e.1 || !q.preds.contains o.id))

/-- The S or G address of bytes that a load of this cell reads. -/
def MemOp.engineAddr (o : MemOp) : Option (Nat × Nat) :=
  match o.target with
  | .carve off => some (1, off)
  | .hbm _ va _ => some (0, va)
  | .hostMem .. => some (0, o.va.toNat)
  | .cell .. => if o.va.toNat / 2 ^ 21 = 0 then none else some (0, o.va.toNat)
  | _ => none

/-- Bytes with the stores laid over them that are ordered before the load and not yet performed (01 R24). -/
def overlay (ops : List MemOp) (o : MemOp) (bs : List Byte) : List Byte :=
  ops.foldl (fun l q =>
    match o.preds.contains q.id && (q.status == .held || q.status == .left), q.what, o.target.span, q.target.span with
    | true, .store d _, some (k, a), some (k', b) =>
      if k = k' && o.target.forwards then
        l.zipIdx.map (fun e => if b ≤ a + e.2 && a + e.2 < b + d.length then (d[a + e.2 - b]?).getD e.1 else e.1)
      else l
    | _, _, _, _ => l) bs

/-- The target, `k` bytes on. -/
def Target.plus (t : Target) (k : Nat) : Target :=
  match t with
  | .carve off => .carve (off + k)
  | .cell c off => .cell c (off + k)
  | .hbm a va cm => .hbm (a + k) (va + k) cm
  | .hostMem fn a => .hostMem fn (a + k)
  | .firn off => .firn (off + k)
  | t => t

/-- The value of a C-space load: a semaphore's outside count, a CSR that is C-visible (13 R182, 11 R168, 23 R349). -/
def Package.cspace (p : Package) (ctx : Nat) (t : Target) : Nat :=
  match t with
  | .sem c n => (((p.cell c).bind (fun x => x.resident ctx)).map (fun j => (max j.sems[n.toFin].c 0).toNat)).getD 0
  | .csr c n => if n = 0x046 then (cinfo ctx c).toNat else if n = 0x050 then (p.fver ctx).toNat else 0
  | _ => 0

/-- The bytes that a load reads, and the poison of each of its pieces of `step` bytes. -/
def Package.loadBytes (p : Package) (w : Who) (cell uid : Nat) (t : Target) (n step : Nat) (race : Nat → Bool) :
    List Byte × List Poison :=
  match t with
  | .sem .. | .csr .. => (natLe (p.cspace w.ctx t) n, [.none])
  | t =>
    let piece (i : Nat) := p.readTarget w.ctx cell uid (t.plus (i * step)) step
    ((List.range (n / step)).flatMap (fun i => (piece i).1),
      (List.range (n / step)).map (fun i => (piece i).2.max (if race i then .race else .none)))

/-- A result of the job's region is written now. -/
def Package.noteResult (p : Package) (cell uid region : Nat) : Package :=
  p.modJob cell uid (fun j => j.result region (p.clkOf cell))

/-- A register's value reaches the saves of later regions, which began while it was still to come: what such a region
starts with is the value that its first reader waits for (01 R26, 11 R140; DEDUCED, notes/assumptions/38.md). -/
def lateReg (live : BitVec 64) (r : Nat) (n : BitVec 6) (v : PVal) (w : CoreSave) : CoreSave :=
  if r < w.region && n != 0 && live.getLsbD n.toNat then { w with regs := w.regs.set n.toFin v } else w

/-- Deliver a scalar that an operation of region `r` has read. -/
def Job.deliver (j : Job) (r : Nat) (d : OpDst) (v : PVal) : Job :=
  match d with
  | .reg n => { j with ac := { j.ac.setReg n v with
      busy := j.ac.busy &&& ~~~(1#64 <<< n.toNat), saves := j.ac.saves.map (lateReg j.hdr.liveA r n v) } }
  | .lq q id =>
    { j with lq := j.lq.set q.toFin { j.lq[q.toFin] with
        ents := j.lq[q.toFin].ents.map (fun e => if e.id = id then { e with data := some { v with dep := [] } } else e) } }
  | _ => j

/-- Deliver a row to its reserved entry. -/
def Job.deliverRow (j : Job) (q : BitVec 2) (id : Nat) (r : RowVal) : Job :=
  { j with lqRow := j.lqRow.set q.toFin { j.lqRow[q.toFin] with
      ents := j.lqRow[q.toFin].ents.map (fun e => if e.id = id then { e with data := some r } else e) } }

def Job.deliverLoad (j : Job) (r : Nat) (d : OpDst) (id : Nat) (bs : List Byte) (signed : Bool) (ps : List Poison) : Job :=
  match d with
  | .row q e => j.deliverRow q e ⟨bytesRow bs, rowPoison (fun i => (ps[i]?).getD .none)⟩
  | d => j.deliver r d ⟨if signed then sext (8 * bs.length) (leNat bs) else BitVec.ofNat 64 (leNat bs), worst ps, [id]⟩

/-- The operation has completed: it leaves the list when nothing later needs it. -/
def CellState.completeOp (x : CellState) (id : Nat) : CellState :=
  { x with ops := tidy (x.modOp id (fun o => { o with status := .complete })).ops }

def OpWhat.dst (w : OpWhat) : OpDst :=
  match w with
  | .load _ _ d => d
  | .atomic _ _ _ _ _ d => d
  | _ => .none

/-- A load completes with bytes. -/
def State.loadDone (s : State) (c : CellId) (o : MemOp) (bs : List Byte) (signed : Bool) (ps : List Poison) : State :=
  s.modPkg c.pkg (fun p =>
    let p1 := if o.dropped then p
      else (p.modJob c.cell o.job (fun j => j.deliverLoad o.region o.what.dst o.id bs signed ps)).noteResult c.cell o.job o.region
    p1.modCell c.cell (fun x => x.completeOp o.id))

def srcOf (e : Eng) : Nat := e.src

/-- The fault record of an operation without a trap (13 R176; 23 R340). -/
def Package.opRecord (p : Package) (c : CellId) (o : MemOp) (type detail : Nat) : Package :=
  (p.modJob c.cell o.job (fun j => j.setErr o.eng o.os)).faultRecord o.ctx (placeOfCell c.cell) o.eng.src type detail o.pc.toNat o.va.toNat

/-- Whether an operation's region is uncommitted and has not been rolled back. -/
def Job.uncommitted (j : Job) (o : MemOp) : Bool := !o.dropped && j.committed ≤ o.region

/-- The region in which a trap of a response is raised: that of the operation, or the oldest uncommitted one where that has
committed (DEDUCED, notes/assumptions/75.md). -/
def Job.trapRegion (j : Job) (o : MemOp) : Nat := max o.region j.committed

/-- A trap that a response raises in a job of a cell, unless the operation's region has rolled back (14 R197). -/
def Package.respondTrap (p : Package) (c : CellId) (o : MemOp) (t : Nat → Trap) : Package :=
  p.modJob c.cell o.job (fun j => if o.dropped then j else j.addTrap (t (j.trapRegion o)))

/-- A failure that returns with the response (13 R176, R192): a trap; for a store whose region is not uncommitted, a record, whose
DETAIL is 0x07 for a sealed write (DESIGN CHOICE, notes/assumptions/54.md). -/
def Package.respond (p : Package) (c : CellId) (o : MemOp) (f : OpFail) : Package :=
  let live := ((p.cell c.cell).bind (fun x => x.jobBy o.job)).any (fun j => j.uncommitted o)
  let done (q : Package) : Package := q.modCell c.cell (fun x => x.completeOp o.id)
  match f with
  | .acc .poisoned => done (p.lose ⟨o.ctx, 1, placeOfCell c.cell, o.va, o.eng.src⟩)
  | .acc f =>
    if live || !o.isStore then done (p.respondTrap c o (fun r => failTrap f o.acc o.eng o.eng o.va r o.pc true))
    else done (p.opRecord c o 0x03 (match f with | .page k => k.code | _ => 0x07))
  | .overflow n v =>
    done (p.respondTrap c o (fun r => trapOf 0x0C o.eng r o.pc (natLe 0 1 ++ natLe n.toNat 1 ++ natLe 0 6 ++ natLe v 8)))
  | .lost => done p

/-- A synthesised error (13 R176). -/
def State.synthesised (s : State) (c : CellId) (o : MemOp) : State :=
  let err (p : Package) : Package := p.modJob c.cell o.job (fun j => j.setErr o.eng o.os)
  match o.what with
  | .load n sg _ => (s.modPkg c.pkg err).loadDone c o (List.replicate n 0) sg (List.replicate 32 .peer)
  | .atomic .. => ((s.modPkg c.pkg err).loadDone c o (natLe 0 8) false [.peer]).unstamp c o
  | _ => (s.modPkg c.pkg (fun p => (p.opRecord c o 0x02 0).modCell c.cell (fun x => x.completeOp o.id))).unstamp c o

/-- The data of a load arrive. -/
def State.loadData (s : State) (c : CellId) (x : CellState) (o : MemOp) (n : Nat) (signed : Bool) : Out :=
  match s.reach c o with
  | .there i w cell uid t =>
    match s.pkg i with
    | none => .next s
    | some q =>
      let step := if n = 256 then 8 else n
      let race (k : Nat) : Bool := match o.engineAddr, (x.jobBy o.job) with
        | some (sp, a), some j => j.racesEngine x.ops o sp (a + k * step) step
        | _, _ => false
      let r := q.loadBytes w cell uid t n step race
      .next (s.loadDone c o (overlay x.ops o r.1) signed r.2)
  | .fail .noFrame => .fault .noSuchFrame
  | .fail f => .next (s.modPkg c.pkg (fun p => p.respond c o (.acc f)))
  | _ => .next s

/-- An atomic or a store that has been performed completes. -/
def State.writeDone (s : State) (c : CellId) (o : MemOp) : State :=
  match o.fail, o.value with
  | some f, _ => s.modPkg c.pkg (fun p =>
      p.respond c o f)
  | none, some v =>
    s.modPkg c.pkg (fun p =>
      let p1 := if o.dropped then p
        else (p.modJob c.cell o.job (fun j => j.deliver o.region o.what.dst v)).noteResult c.cell o.job o.region
      p1.modCell c.cell (fun x => x.completeOp o.id))
  | none, none => s.modPkg c.pkg (fun p => p.modCell c.cell (fun x => x.completeOp o.id))

/-- MEMORY_RESPONSE (13 R176): data, a synthesised error, or moved. -/
def execMemoryResponse (c : CellId) (id : Nat) (r : Response) (s : State) : Out :=
  eventCell s c fun p x => match x.op id with
    | none => .next s
    | some o =>
      match r, o.what with
      | .data, .load n signed _ =>
        if o.status == .waiting && o.fail.isNone && s.free p x.ops o then s.loadData c x o n signed else .next s
      | .data, _ => s.when_ (o.writes && o.status == .applied && o.fail != some .lost) (s.writeDone c o)
      | .synthesised, _ =>
        s.when_ ((o.isLoad || o.writes) && o.status != .held && o.status != .complete &&
          (o.fail == some .lost || s.reach c o == .lost)) (s.synthesised c o)
      | .moved, _ =>
        match s.reach c o with
        | .moved t => s.when_ (o.status == .waiting || o.status == .left)
            (s.modCell c (fun x => x.modOp id (fun o => { o with target := t })))
        | _ => .next s

end Sys2Proof.Machine
end

