-- ==== Sys2Proof/Machine/CellEvents.lean ====
section
/-!
DEFINITION. Events inside a job's cores: the effect of a QEND, the release of a rendezvous, the start of an elastic iteration, the
spill engine, asynchronous vector writes, the end of a TLBINV and of a SEAL.
-/
namespace Sys2Proof.Machine
open Sys2Proof

/-- A core stream of the running job, taken out of the state. -/
def hereOf (s : State) (c : CellId) (k : Core) (p : Package) (x : CellState) (j : Job) : Here := ⟨s, c, k, p, x, j, none⟩

/-! ## QUEUE_END_EFFECT (13 R193) -/

/-- Whether the QEND of a queue has issued and its end not yet taken effect, and every earlier push has delivered. -/
def Job.endReady (j : Job) (q : QName) : Bool :=
  let f {α : Type} (x : Queue α) : Bool := x.ending && !x.ended && x.ents.all (fun e => e.data.isSome)
  match q with
  | .lq n => if n.toNat < 4 then (j.lq[n.toNat % 4]?.map f).getD false else (j.lqRow[n.toNat % 4]?.map f).getD false
  | .sq n => if n.toNat < 2 then (j.sq[n.toNat % 2]?.map f).getD false else (j.sqRow[n.toNat % 2]?.map f).getD false

/-- QUEUE_END_EFFECT. -/
def execQueueEndEffect (c : CellId) (q : QName) (s : State) : Out :=
  eventJob s c fun _ _ j => s.when_ (j.endReady q) (s.modJob c j.uid (fun j => j.endQueue q true))

/-! ## RENDEZVOUS_RELEASE (01 R15, 11 R165) -/

/-- The number at which a core stream waits at a rendezvous. -/
def CoreState.rdvAt (c : CoreState) : Option (BitVec 8) :=
  match c.wait with
  | some (.rdv n) => some n
  | _ => none

/-- A stream proceeds from a rendezvous, which counts. -/
def CoreState.meet (c : CoreState) (n : BitVec 8) : CoreState :=
  { c with wait := none, granted := true, rdv := put c.rdv n.toNat ((look c.rdv n.toNat).getD 0 + 1) }

/-- How many RDV `n` a stream has completed (R165). -/
def CoreState.rdvCount (c : CoreState) (n : BitVec 8) : Nat := (look c.rdv n.toNat).getD 0

/-- Whether a stream that waits at RDV `n` as its k-th meets the other: a stream that is not live is not counted, a live one is
met where it waits at its own k-th RDV `n`, or where it completed its k-th in a region that no rollback has taken back, while
the waiting stream's was (R15, R165; DEDUCED, notes/assumptions/67.md). -/
def CoreState.meets (c d : CoreState) (n : BitVec 8) : Bool :=
  !d.live || (d.rdvAt == some n && c.rdvCount n == d.rdvCount n) || c.rdvCount n < d.rdvCount n

/-- The number at which a live core stream waits and is met. -/
def Job.rdvMet (j : Job) (k : Core) : Option (BitVec 8) :=
  match (j.core k).live, (j.core k).rdvAt with
  | true, some n => if (j.core k).meets (j.core k.other) n then some n else none
  | _, _ => none

/-- The streams that are met proceed, both in the same clk where each meets the other. -/
def Job.rdvRelease (j : Job) : Job :=
  { j with
    ac := match j.rdvMet .ac with
      | some n => j.ac.meet n
      | none => j.ac
    xc := match j.rdvMet .xc with
      | some n => j.xc.meet n
      | none => j.xc }

/-- RENDEZVOUS_RELEASE. -/
def execRendezvousRelease (c : CellId) (s : State) : Out :=
  eventJob s c fun _ _ j => s.when_ ((j.rdvMet .ac).isSome || (j.rdvMet .xc).isSome) (s.modJob c j.uid Job.rdvRelease)

/-! ## ELASTIC_ITERATION (11 R163, 12 R172, 13 R379) -/

/-- Every live core stream has passed the end of the prologue. -/
def Job.prologuePassed (j : Job) : Bool := (!j.ac.live || 1 ≤ j.ac.region) && (!j.xc.live || 1 ≤ j.xc.region)

/-- A slab of a slot whose tag is in ERROR (05 R69; DEDUCED, notes/assumptions/23.md). -/
def Job.slotError (j : Job) (q : BitVec 4) (i : Nat) : Option Nat :=
  (List.range' ((j.ring q).slotSlab i) ((j.ring q).ssz.toNat + 1)).find? (fun sl => (j.tag sl).st == .error)

/-- A core stream at its kernel entry, where the decision of its iteration may be taken or followed. -/
def elasticTurn (h : Here) (q : BitVec 4) (i : Nat) : Here :=
  match look h.jb.decisions i with
  | some d => { h with jb := h.jb.followDecision h.k i d }
  | none =>
    if (h.jb.ring q).cnt = 0 then h.illegalAt h.k
    else match h.jb.decide q i with
      | none => h
      | some d =>
        match (match d with | .take sl => h.jb.slotError q sl.toNat | _ => none) with
        | some sl => h.raise (tagTrap (h.jb.tag sl) sl h.k.eng h.region h.st.pc)
        | none => { h with jb := (h.jb.record q i d).followDecision h.k i d }

/-- ELASTIC_ITERATION. -/
def execElasticIteration (c : CellId) (k : Core) (s : State) : Out :=
  eventJob s c fun p x j =>
    let h := hereOf s c k p x j
    match h.st.live && h.st.wait == some .elastic && !j.trapPending k.eng && j.prologuePassed, j.trip with
    | true, .elastic q => (elasticTurn h q (h.region - 1)).outcome
    | _, _ => .next s

/-! ## The spill engine (11 R155, R156) -/

/-- The bytes of a frame. -/
def CallRec.bytes (r : CallRec) : List Byte :=
  wordLe r.ret ++ natLe r.ss.toNat 8 ++
  natLe (r.hidden.zipIdx.foldl (fun n e => n + e.1.p.code * 4 ^ e.2) 0) 8 ++ natLe 0 40 ++ r.hidden.flatMap (fun v => wordLe v.v)

/-- The hidden registers in the bytes of a frame of `w` of them. -/
def frameHidden (w : Nat) (bs : List Byte) : List PVal :=
  (List.range w).map (fun i => ⟨BitVec.ofNat 64 (leNat ((bs.drop (64 + 8 * i)).take 8)),
    packedPoison ((bs.drop 16).take 8) i, []⟩)

/-- Where the lowest spilled frame begins. -/
def Job.stackLow (j : Job) (k : Core) : Nat := j.stackTop k - spilledBytes (j.core k).calls

/-- Change the last element that meets a condition. -/
def modLast {α : Type} (p : α → Bool) (f : α → α) (l : List α) : List α :=
  match l.reverse.findIdx? p with
  | some i => (l.reverse.modify i f).reverse
  | none => l

/-- The oldest resident frame goes to the window stack. -/
def Job.spill (j : Job) (k : Core) (r : CallRec) : Job :=
  let j1 := j.write (j.stackLow k - frameBytes r.hidden.length) r.bytes
  j1.setCore k { j1.core k with calls := modLast (fun r => !r.spilled) (fun r => { r with spilled := true }) (j1.core k).calls }

/-- SPILL_FRAME. -/
def execSpillFrame (c : CellId) (k : Core) (s : State) : Out :=
  eventJob s c fun _ _ j => match oldestResident (j.core k).calls with
    | some r => s.when_ ((j.core k).spilling && 32 < resident (j.core k).calls && j.spillFits k)
        (s.modJob c j.uid (fun j => j.spill k r))
    | none => .next s

/-- The newest spilled frame comes back. -/
def Job.fill (j : Job) (k : Core) : Job :=
  match (j.core k).calls.findIdx? (·.spilled) with
  | none => j
  | some i =>
    j.setCore k { j.core k with calls := (j.core k).calls.modify i (fun r => { r with
      spilled := false
      hidden := frameHidden r.hidden.length (memRead j.mem (j.stackLow k) (frameBytes r.hidden.length)) }) }

/-- FILL_FRAME. -/
def execFillFrame (c : CellId) (k : Core) (s : State) : Out :=
  eventJob s c fun _ _ j =>
    s.when_ (!(j.core k).spilling && resident (j.core k).calls < 32 && (j.core k).calls.any (·.spilled))
      (s.modJob c j.uid (fun j => j.fill k))

/-! ## ASYNC_WRITE_COMPLETE of a detached VLDQ (15 R227, R229). That of an MDRAIN.V is in Machine/Matrix.lean. -/

/-- One row of an asynchronous write under its saved mask; a row with no active slot is not written, but for the zeros of .z
(15 R205). -/
def asyncRow (w : AsyncWrite) (old : Row) (oldP : Poison) (r : Nat) (e : RowVal) : Row × Poison :=
  match w.mask with
  | none => (e.w, worst e.p.toList)
  | some m =>
    if !w.z && fld m.toNat (64 * r) 64 = 0 then (old, oldP)
    else if fld m.toNat (64 * r) 64 = 0 then (Row.zero, w.maskP)
    else (Vector.ofFn (fun i => if m.getLsbD (64 * r + i.val) then e.w[i] else if w.z then 0 else old[i]),
      ((worst e.p.toList).max w.maskP).max (if w.z then .none else oldP))

/-- The rows of an asynchronous write go to their physical registers, and to the live-ins among them in the saves of later
regions, which began while the write was outstanding (01 R26; DEDUCED, notes/assumptions/38.md). -/
def Job.asyncStore (j : Job) (w : AsyncWrite) (rows : List RowVal) : Job :=
  let one (v : Vector VReg 32) (n k : Nat) : Vector VReg 32 :=
    match v[n]? with
    | none => v
    | some old =>
      let row (i : Fin 16) := asyncRow w old.rows[i] old.p[i] i.val ((rows[16 * k + i.val]?).getD RowVal.zero)
      v.setIfInBounds n ⟨Vector.ofFn (fun i => (row i).1), Vector.ofFn (fun i => (row i).2)⟩
  let all (v : VecState) : VecState := { v with v := w.regs.zipIdx.foldl (fun v e => one v e.1 e.2) v.v }
  let j := w.regs.foldl (fun j n => j.touch (.v n)) j
  { j with
    vec := all j.vec
    xc := { j.xc with saves := j.xc.saves.map (fun s =>
      if w.region < s.region then { s with vec := maskVec j.hdr s.rrb (all s.vec) } else s) } }

def Job.modAsync (j : Job) (id : Nat) (f : AsyncWrite → AsyncWrite) : Job :=
  { j with async := j.async.map (fun w => if w.id = id then f w else w) }

/-- A deferred effect in its place in issue order. -/
def Job.deferAt (j : Job) (d : Deferred) : Job :=
  { j with deferred := j.deferred.takeWhile (fun e => e.seq ≤ d.seq) ++ d :: j.deferred.dropWhile (fun e => e.seq ≤ d.seq) }

/-- A detached VLDQ takes the entries that have arrived; with its last one it writes and posts. -/
def Job.vldqTake (j : Job) (w : AsyncWrite) (fuel : Nat) : Job :=
  match fuel with
  | 0 => j
  | fuel + 1 =>
    if w.got.length = 16 * w.regs.length then
      let j1 := (j.asyncStore w w.got).modAsync w.id (fun x => { x with got := w.got, complete := true })
      match w.sem with
      | some q => j1.deferAt ⟨w.seq, w.region, .xc, w.pc, none, [], none, .semPost q 1⟩
      | none => j1
    else match j.popRow w.lq with
      | .got v j' => j'.vldqTake { w with got := w.got ++ [v] } fuel
      | .wait => j.modAsync w.id (fun x => { x with got := w.got })
      | .underflow => (j.modAsync w.id (fun x => { x with got := w.got })).addTrap
          (trapOf 0x02 .xc w.region w.pc (natLe (108 + w.lq.toNat) 1))

/-- A detached VLDQ advances: the first of its queue, with an entry there or none to come. -/
def vldqAdvance (s : State) (c : CellId) (p : Package) (j : Job) (w : AsyncWrite) : Out :=
  let first := (j.async.find? (fun x => x.drain.isNone && !x.complete && x.lq == w.lq)).any (fun x => x.id == w.id)
  s.when_ (w.drain.isNone && !w.complete && first && !j.trapPending .xc)
    (s.modJob c j.uid (fun j =>
      let j1 := j.vldqTake w (16 * w.regs.length + 1)
      if (j1.async.find? (fun x => x.id == w.id)).any (·.complete) then j1.result w.region (p.clkOf c.cell) else j1))

/-! ## TLBINV_COMPLETE and SEAL_COMPLETE (07 R100, 23 R361) -/

/-- Whether the accesses that an invalidation waits for have been performed. -/
def State.invalReady (s : State) (i : Inval) : Bool :=
  i.waits.all (fun w => match s.cell ⟨w.1, w.2.1⟩ with
    | some x => opPerformed x.ops w.2.2
    | none => true)

/-- An invalidation or a seal is complete; with sub 1 the context's fetches see its stores (11 R153). -/
def inLineComplete (s : State) (c : CellId) (id : Nat) (isSeal : Bool) : Out :=
  eventCell s c fun _ x => match x.invals.find? (fun i => i.id == id && i.isSeal == isSeal) with
    | none => .next s
    | some i => s.when_ (s.invalReady i) (s.modPkg c.pkg (fun p =>
        let ctx := ((x.op i.op).map (·.ctx)).getD 0
        let p1 := p.modCell c.cell (fun x =>
          { x with invals := x.invals.filter (fun k => k.id != id) }.completeOp i.op)
        if i.all then p1.modCtx ctx (fun c => { c with stale := [] }) else p1))

/-- TLBINV_COMPLETE. -/
def execTlbinvComplete (c : CellId) (id : Nat) (s : State) : Out := inLineComplete s c id false

/-- SEAL_COMPLETE. -/
def execSealComplete (c : CellId) (id : Nat) (s : State) : Out := inLineComplete s c id true

end Sys2Proof.Machine
end

