-- ==== Sys2Proof/Machine/Matrix.lean ====
section
/-!
DEFINITION. The matrix engine: its instructions (17 R259 to R267), the order of jobs, tiles and slots (R234 to R236), the walker's
passes, the confluence merges (03 R57, R58), the drain unit (R265), and their events.
-/
namespace Sys2Proof.Machine
open Sys2Proof

/-! ## Shadow images (R236) -/

/-- A change in a region waits while an image of an older region is held. -/
def Job.tileOpen (j : Job) (region tile : Nat) : Bool := j.me.tileSaves.all (fun s => s.2.1 != tile || region ≤ s.1)
def Job.slotOpen (j : Job) (region slot : Nat) : Bool := j.me.slotSaves.all (fun s => s.2.1 != slot || region ≤ s.1)

def Job.tile (j : Job) (c : Nat) : Tile := (j.me.tiles[c]?).getD Tile.zero

/-- Change a tile; the first change of a region saves its image. -/
def Job.putTile (j : Job) (region c : Nat) (t : Tile) : Job :=
  { j with me := { j.me with
      tileSaves := if j.me.tileSaves.any (fun s => s.2.1 == c) then j.me.tileSaves else j.me.tileSaves ++ [(region, c, j.tile c)]
      tiles := j.me.tiles.setIfInBounds c t } }.touch (.tile c)

def Job.putSlot (j : Job) (region q : Nat) (t : TabSlot) : Job :=
  { j with me := { j.me with
      slotSaves := if j.me.slotSaves.any (fun s => s.2.1 == q) then j.me.slotSaves
        else j.me.slotSaves ++ [(region, q, (j.me.slots[q]?).join)]
      slots := j.me.slots.setIfInBounds q (some t) } }.touch (.slot q)

/-! ## Settled work: MZERO and MTAB take effect as soon as the order of R235 and R236 lets them -/

def tileZero : Tile := Tile.zero

/-- One task, if it is an MZERO or an MTAB that may take effect: the job and the operation that completes. -/
def Job.settleOne (j : Job) (t : MeTask) : Job × List Nat :=
  let gone (j : Job) : Job := { j with me := { j.me with tasks := j.me.tasks.filter (fun x => x.id != t.id) } }
  if !j.meFree t.id t.names then (j, [])
  else match t.work with
    | .zero => if j.tileOpen t.region t.tile then (gone (j.putTile t.region t.tile tileZero), [t.op]) else (j, [])
    | .table bs kind p =>
      if j.slotOpen t.region t.tile then (gone (j.putSlot t.region t.tile ⟨kind, bs, p⟩), [t.op]) else (j, [])
    | .drain .. => (j, [])

def Job.settle (j : Job) : Job × List Nat :=
  j.me.tasks.foldl (fun r t =>
    let x := r.1.settleOne t
    (x.1, r.2 ++ x.2)) (j, [])

/-- Settle a job of a cell: the results count for their regions. -/
def Package.meSettle (p : Package) (cell uid : Nat) : Package :=
  match (p.cell cell).bind (fun x => x.jobBy uid) with
  | none => p
  | some j =>
    let r := j.settle
    let done := j.me.tasks.filter (fun t => !(r.1.me.tasks.any (fun u => u.id == t.id)))
    let j1 := done.foldl (fun j t => j.result t.region (p.clkOf cell)) r.1
    r.2.foldl (fun p op => p.modCell cell (fun x => x.completeOp op)) (p.modJob cell uid (fun _ => j1))

/-! ## MCFG, MCFGS, MTAB, MZERO, MSTAT -/

/-- MCFG (R260). -/
def execMcfg (n : BitVec 5) (ra : BitVec 6) (sy : Sync) (s : State) : Out :=
  onCore s fun h => h.withSync sy fun h => h.withBase ra fun a h =>
    h.unpoisoned [(a, ra.toNat, 0)] fun h => h.postOk sy fun h =>
      { h with jb := { h.jb with me := { h.jb.me with banks := { h.jb.me.banks with
        shadow := h.jb.me.banks.shadow.set n.toFin ⟨a.v, .none, []⟩ } } }.touch (.bank 0) }.finish sy a.dep

/-- Bytes of S that the ME reads for an instruction: with the stores ordered before it laid over them, the poison of each
8-byte word, and whether a granule is marked. -/
def Here.readS (h : Here) (f : OrdF) (deps : List Nat) (a n : Nat) : List Byte × List Poison :=
  let o := h.mkOp 0 f (.load n false .none) (.carve a) (h.preds f deps) .waiting (BitVec.ofNat 64 a)
  let race (k : Nat) : Bool := h.jb.racesEngine h.ce.ops o 1 (a + 8 * k) 8
  let r := h.pkNow.loadBytes h.who h.id.cell h.jb.uid (.carve a) n 8 race
  (overlay h.ce.ops o r.1, r.2)

/-- An S address that must be aligned, with its bytes (05 R380, 13 R173). -/
def Here.withS (h : Here) (a : Word) (align n : Nat) (acc : Acc) (g : Nat → Here → Here) : Here :=
  if a.toNat % align != 0 then h.accFail (.page .alignment) acc a
  else if a.toNat / 2 ^ 21 != 0 || h.jb.limit < a.toNat + n then h.accFail (.page .bounds) acc a
  else g a.toNat h

/-- MCFGS (R261): the shadow bank from 256 bytes; race poison stays with its word, data poison is consumption (R250). -/
def execMcfgs (o : OpE1) (s : State) : Out :=
  onCore s fun h => h.withSync o.sy fun h => h.withBase o.ra fun a h =>
    h.unpoisoned [(a, o.ra.toNat, 0)] fun h => h.withS a.v 256 256 .load fun x h =>
      h.room o.f fun h => h.postOk o.sy fun h => h.whenOrdered o.f a.dep fun h =>
        let r := h.readS o.f a.dep x 256
        if r.2.any (· == .data) then h.consume 0
        else
          let bank : Vector PVal 32 := Vector.ofFn (fun i =>
            ⟨BitVec.ofNat 64 (leNat ((r.1.drop (8 * i.val)).take 8)), (r.2[i.val]?).getD .none, []⟩)
          { h with jb := { h.jb with me := { h.jb.me with banks := { h.jb.me.banks with shadow := bank } } }.touch (.bank 0) }.finishPoint
            o.f o.sy a.dep

/-- MTAB (R263): the reads are made at issue, the slot is written whole in its turn. -/
def mtab (o : OpMtab) (n : Nat) (kind : SlotKind) (h : Here) : Here :=
  h.withSync o.sy fun h => h.withBase o.ra fun a h =>
    h.unpoisoned [(a, o.ra.toNat, 0)] fun h => h.withS a.v 64 n .load fun x h =>
      h.room o.f fun h => h.postOk o.sy fun h => h.whenOrdered o.f a.dep fun h =>
        let r := h.readS o.f a.dep x n
        if r.2.any (· == .data) then h.consume 0
        else
          let preds := h.preds o.f a.dep
          h.issue o.f .point .nowhere preds .waiting a.v fun id h =>
            let t : MeTask := ⟨id, id, h.region, o.slot.toNat, .table r.1 kind (worst r.2), 0, h.st.pc⟩
            ({ h with jb := { h.jb with me := { h.jb.me with tasks := h.jb.me.tasks ++ [t] } } }.issued o.sy preds id).onPk
              (fun p => p.meSettle h.id.cell h.jb.uid)

/-- MTAB.cb. -/
def execMtabCb (o : OpMtab) (s : State) : Out := onCore s (mtab o 64 .codebook)

/-- MTAB.pt. -/
def execMtabPt (o : OpMtab) (s : State) : Out := onCore s (mtab o 1024 .product)

/-- MZERO (R264). -/
def execMzero (tile : BitVec 6) (sy : Sync) (s : State) : Out :=
  onCore s fun h => h.withSync sy fun h => h.postOk sy fun h =>
    let id := h.s.nextId
    let t : MeTask := ⟨id, id, h.region, tile.toNat, .zero, 0, h.st.pc⟩
    ({ h with
      s := { h.s with nextId := id + 1 }
      jb := { h.jb with me := { h.jb.me with tasks := h.jb.me.tasks ++ [t] } } }.issued sy [] id).onPk
        (fun p => p.meSettle h.id.cell h.jb.uid)

/-! ## Jobs (R234, R245) -/

/-- The head of a queue. -/
def Job.meHead (j : Job) (high : Bool) : Option MeJob := j.me.jobs.find? (fun m => m.high == high)

/-- The head of a queue, when it may start: it has not, and is eligible (R235). -/
def Job.meReady (j : Job) (high : Bool) : Option MeJob :=
  match j.meHead high with
  | some m => if (m.phase == .queued || m.phase == .suspended) && j.meFree m.op m.names then some m else none
  | none => none

/-- A job at a pass boundary whose partials have all been delivered. -/
def MeJob.atBoundary (m : MeJob) : Bool := m.buffers.all (·.isNone)

/-- The walker takes a job: one without passes has nothing to issue. -/
def Job.meStart (j : Job) (ops : List MemOp) (id clk : Nat) : Job :=
  (j.modMe id (fun m => { m with phase := if m.more then .running else .drained })).noteStall ops clk

/-- ME_JOB_START, and the suspension of a low job for an eligible high one (R234): between passes a running low job waits on the ring of
its elastic level; its suspension after a pass is made where the pass ends. A high job starts once every partial of a low job has
been delivered. -/
def execMeJobStart (c : CellId) (s : State) : Out :=
  eventJob s c fun p x j =>
    let clk := p.clkOf c.cell
    let put (j : Job) : Out := .next (s.modJob c j.uid (fun _ => j))
    let lowQuiet := j.me.jobs.all (fun m => m.high || m.atBoundary)
    match j.running, j.meReady true, j.meReady false with
    | none, some m, _ => if lowQuiet then put (j.meStart x.ops m.id clk) else .next s
    | none, none, some m => put (j.meStart x.ops m.id clk)
    | some r, some m, _ =>
      if !r.high && r.needsSlot && lowQuiet then put ((j.modMe r.id (fun x => { x with phase := .suspended })).meStart x.ops m.id clk)
      else .next s
    | _, _, _ => .next s

/-- MGO (R262). -/
def execMgo (o : OpMgo) (s : State) : Out :=
  onCore s fun h => h.withSync o.sy fun h => h.room o.f fun h => h.postOk o.sy fun h =>
    let bank := h.jb.me.banks.shadow
    let l : Lnt := Vector.ofFn (fun i => bank[i].v)
    match bank.toList.find? (fun v => v.p != .none) with
    | some v => h.useTrap v.p 0 0
    | none =>
      match shapeFault l (fun r => (h.jb.ring r).cnt.toNat) o.order.isNone (o.lag == 0)
        (if h.pk.firn.level = 0 then some h.pk.firn.mefmt else none) with
      | some w => h.raise (trapOf 0x09 .ac h.region h.st.pc (natLe w 1 ++ natLe 0 1))
      | none =>
        if 4 ≤ (h.jb.me.jobs.filter (fun m => m.high == o.high)).length then h
        else
          let preds := h.preds o.f []
          h.issue o.f (.launchMe h.s.nextId) .nowhere preds .waiting 0 fun id h =>
            let m : MeJob :=
              { id := id, high := o.high, op := id, region := h.region, lnt := l
                order := o.order.getD (match lf l 0 60 2 with | 0 => .arrival | 1 => .ordered | _ => .pairwise)
                lag := if o.lag = 0 then 8 * lf l 0 55 5 else 8 * o.lag.toNat
                ord := h.jb.me.mgos, pc := h.st.pc, phase := .queued, ix := [0, 0, 0, 0, 0], slot := none
                more := !noPasses l, buffers := Vector.replicate 4 none, count := 0, tiles := [], logGot := [], toFree := []
                logPub := [], stall := none }
            { h with jb := ({ h.jb with me := { h.jb.me with
                jobs := h.jb.me.jobs ++ [m], mgos := h.jb.me.mgos + 1
                banks := ⟨h.jb.me.banks.prev, bank⟩ } }.touch (.bank 0)).touch (.bank 1) }.issued o.sy preds id

/-! ## Passes (R241, R245, R252) -/

/-- The indices after a carry into level `v` and up; whether the carry stopped at the elastic level; whether passes
remain. -/
def carry (l : Lnt) : Nat → Nat → List Nat → List Nat × Bool × Bool
  | 0, _, ix => (ix, false, false)
  | n + 1, v, ix =>
    let i := (ix[v - 1]?).getD 0
    if lntNlev l < v then carry l n (v + 1) ix
    else if levElastic l v then (ix.set (v - 1) (i + 1), true, true)
    else if i + 1 < levTrip l v then (ix.set (v - 1) (i + 1), false, true)
    else carry l n (v + 1) (ix.set (v - 1) 0)

/-- The job after a pass has been issued. -/
def MeJob.advance (m : MeJob) : MeJob :=
  let r := carry m.lnt 5 1 m.ix
  let ring := (lntElastic m.lnt).map (levRing m.lnt)
  { m with
    ix := r.1
    more := r.2.2
    slot := if r.2.1 then none else m.slot
    toFree := if r.2.1 then m.toFree ++ (ring.map (fun q => (m.count + 1, q))).toList else m.toFree
    count := m.count + 1
    phase := if r.2.2 then m.phase else .drained }

/-- The elastic level has ended: the level above goes on (R241). -/
def MeJob.levelEnd (m : MeJob) (v : Nat) : MeJob :=
  let r := carry m.lnt (5 - v) (v + 1) (m.ix.set (v - 1) 0)
  { m with ix := r.1, more := r.2.2, phase := if r.2.2 then m.phase else .drained }

/-- A shape fault of a running job, which names a word of its LNT (13 R379). -/
def MeJob.shape (m : MeJob) (w : Nat) : Trap := trapOf 0x09 .ac m.region m.pc (natLe w 1 ++ natLe 0 1)

/-- ELASTIC_LEVEL_ITERATION (R241). -/
def execElasticLevelIteration (c : CellId) (s : State) : Out :=
  eventJob s c fun p x j => match j.running with
    | none => .next s
    | some m =>
      match m.more && m.needsSlot && !j.trapPending .ac, lntElastic m.lnt with
      | true, some v =>
        let q := levRing m.lnt v
        let r := j.ring q
        if r.cnt = 0 then .next (s.modJob c j.uid (fun j => j.addTrap (m.shape (2 + 2 * v))))
        else if 0 < r.fill.toNat then
          .next (s.modJob c j.uid (fun j =>
            ((j.changeRing q (some m.region) Ring.take).modMe m.id (fun m => { m with slot := some r.cix })).noteStall x.ops
              (p.clkOf c.cell)))
        else s.when_ r.cls (s.modJob c j.uid (fun j => j.modMe m.id (fun m => m.levelEnd v)))
      | _, _ => .next s

/-- The tile of the next pass. -/
def MeJob.tile (m : MeJob) : Nat := ((lf m.lnt 20 58 6 : Int) + walkSum m.ix (levC m.lnt)).toNat

/-- The record of a tile's merges. -/
def MeJob.prog (m : MeJob) (c : Nat) : TileProg := (m.tiles.find? (fun t => t.tile == c)).getD ⟨c, 0, 0, [], []⟩
def MeJob.putProg (m : MeJob) (t : TileProg) : MeJob :=
  { m with tiles := if m.tiles.any (fun x => x.tile == t.tile) then m.tiles.map (fun x => if x.tile = t.tile then t else x)
    else m.tiles ++ [t] }

/-- The pass ends: its partial enters buffer j mod 4 (18 R269), and the walker goes on. A low job is suspended here for an
eligible high one (R234). -/
def Job.passEnded (j : Job) (ops : List MemOp) (m : MeJob) (part : Part) (clk : Nat) : Job :=
  let t := m.prog m.tile
  let m1 : MeJob := ({ m with
    buffers := m.buffers.setIfInBounds (m.count % 4) (some (m.tile, t.issued, part)) }.putProg { t with issued := t.issued + 1 })
  let m2 := m1.advance
  let m3 := if !m.high && m2.phase == .running && (j.meReady true).isSome then { m2 with phase := .suspended } else m2
  (j.modMe m.id (fun _ => m3)).noteStall ops clk

/-! ### The path log (R256) -/

/-- The bytes of slot `i` of a block. -/
def logBytes (l : Lnt) (r : Ring) (block : Nat) (folds : List (List Word)) (i : Nat) : List Byte :=
  let first := i * logTrees r
  let n := min (logTrees r) (lntTrees l - first)
  padTo (2048 * (r.ssz.toNat + 1)) (natLe block 4 ++ natLe first 4 ++ natLe n 4 ++ natLe 0 52 ++
    (List.range n).flatMap (fun t => (List.range 64).flatMap (fun m =>
      wordLe (((folds[m]?).bind (fun row => row[first + t]?)).getD 0))))

/-- The walker acquires slots for the block of its next pass, each as RNGA does. -/
def Job.logAcquire (j : Job) (m : MeJob) : Nat → Job
  | 0 => j
  | n + 1 =>
    let q := lntPring m.lnt
    ((j.changeRing q (some m.region) Ring.acquire).modMe m.id (fun m => { m with logGot := m.logGot ++ [(j.ring q).pix] })).logAcquire m n

/-- The block's slots filled, each to be published. -/
def Job.logBlock (j : Job) (m : MeJob) (folds : List (List Word)) : Job :=
  let r := j.ring (lntPring m.lnt)
  (m.logGot.zipIdx.foldl (fun j e => j.write (r.slotSlab e.1.toNat * 2048) (logBytes m.lnt r m.count folds e.2)) j).modMe m.id
    (fun m => { m with logPub := m.logPub ++ m.logGot.map (fun _ => lntPring m.lnt), logGot := [] })

/-- The walk has met data poison before any gate. -/
def meetsPoison (l : List Issue) : Bool :=
  (l.takeWhile (fun i => match i with | .gate _ => false | _ => true)).contains .poisoned

/-- The pass ends with its partial and folds. -/
def Job.endPass (j : Job) (ops : List MemOp) (m : MeJob) (part : Part) (folds : List (List Word)) (clk : Nat) : Job :=
  let j1 := j.logBlock m folds
  { j1.passEnded ops ((j1.meJob m.id).getD m) part clk with progress := clk }

/-- PASS_END (R252). A pass reads its operands when it ends (DEDUCED, notes/assumptions/25.md); with a path log it ends once the slots
of its block are acquired, and what is free is taken at once. -/
def execPassEnd (c : CellId) (s : State) : Out :=
  eventJob s c fun p x j => match j.running with
    | none => .next s
    | some m =>
      if !j.passOpen x.ops m then .next s
      else
        let r := (j.walk m).pass
        let q := j.ring (lntPring m.lnt)
        let clk := p.clkOf c.cell
        if meetsPoison r.1 then .next (s.modPkg c.pkg (fun p => p.lose ⟨j.ctx, 1, placeOfCell c.cell, 0, 4⟩))
        else if r.1 != [] then .next s
        else if j.logNeed m != 0 && q.cnt == 0 then .next (s.modJob c j.uid (fun j => j.addTrap (m.shape 21)))
        else
          .next (s.modJob c j.uid (fun j =>
            let j1 := if q.cls then j else j.logAcquire m (min (j.logNeed m) q.free.toNat)
            let m1 := (j1.meJob m.id).getD m
            if j1.logNeed m1 = 0 then j1.endPass x.ops m1 r.2.1 r.2.2 clk else j1.restall j x.ops clk))

/-- The record of a metadata fault (R257). -/
def MeJob.record (m : MeJob) (cell : Nat) (r : MetaRec) : List Byte :=
  natLe (placeOfCell cell) 2 ++ natLe r.opnd 1 ++ natLe r.kind 1 ++ m.ix.flatMap (fun i => natLe i 2) ++ natLe r.row 2 ++
    natLe r.k 4 ++ natLe r.wofs 4 ++ natLe r.tree 4 ++ natLe m.ord 4

/-- The malformation that the running job meets in its next pass, once every gate has let it read. -/
def Job.meFault (j : Job) (m : MeJob) : Option MetaRec :=
  let l := (j.walk m).pass.1
  if (firstGate l).isSome || meetsPoison l then none
  else match leastBad l with
    | some r => some r
    | none => if j.logNeed m != 0 && (j.ring (lntPring m.lnt)).cls then some ⟨4, 0x0A, 0, 0, 0, 0⟩ else none

/-- METADATA_FAULT (R257, R258). -/
def execMetadataFault (c : CellId) (s : State) : Out :=
  eventJob s c fun _ x j => match j.running with
    | none => .next s
    | some m =>
      match j.passOpen x.ops m, j.meFault m with
      | true, some r => .next (s.modJob c j.uid (fun j => j.addTrap (trapOf 0x08 .ac m.region m.pc (m.record c.cell r))))
      | _, _ => .next s

/-- A tag in ERROR that the walker waits on (R251): the trap of 05 R69 for its kind. -/
def meTagError (s : State) (c : CellId) : Out :=
  eventJob s c fun _ x j => match j.running with
    | none => .next s
    | some m =>
      match j.meWait x.ops m with
      | some (.slab sl) => s.when_ ((j.tag sl).st == .error) (s.modJob c j.uid (fun j =>
          j.addTrap (tagTrap (j.tag sl) sl .ac m.region m.pc)))
      | _ => .next s

/-- The starvation counter starts again, and STRV is set. -/
def Job.starved (j : Job) (id clk : Nat) : Job :=
  let j1 := j.modMe id (fun m => { m with stall := some clk })
  { j1 with me := { j1.me with strv := true } }

/-- ME_STARVATION (R251). A stall that began where nothing noted it is counted from here on (DESIGN CHOICE, notes/assumptions/74.md). -/
def execMeStarvation (c : CellId) (s : State) : Out :=
  eventJob s c fun p x j =>
    match j.running, (j.walkerWait x.ops).any MeWait.starves with
    | some m, true =>
      (match m.stall with
        | none => .next (s.modJob c j.uid (fun j => j.noteStall x.ops (p.clkOf c.cell)))
        | some t =>
          s.when_ (t + 2 ^ 24 ≤ p.clkOf c.cell)
            ((s.modJob c j.uid (fun j => j.starved m.id (p.clkOf c.cell))).modPkg c.pkg (fun p =>
              p.event s.ns j.ctx 0x03 4 (placeOfCell c.cell) 0)))
    | _, _ => .next s

/-! ## Merges (R253; 03 R57, R58) -/

/-- The sum of two words of a job's kind. -/
def mergeWord (int : Bool) (a b : Slot) : Slot :=
  if int then a + b else BitVec.ofNat 32 (rneF32 ((fmtF32.decode a.toNat).add (.mode .rne) (fmtF32.decode b.toNat)))

def mergeRows (int : Bool) (a b : Vector Row 64) : Vector Row 64 :=
  Vector.ofFn (fun m => Vector.ofFn (fun n => mergeWord int a[m][n] b[m][n]))

def mergeP (a b : Vector Poison 64) : Vector Poison 64 := Vector.ofFn (fun m => a[m].max b[m])

def Part.add (int : Bool) (a b : Part) : Part := ⟨mergeRows int a.rows b.rows, mergeP a.p b.p⟩

/-- A partial merged into its tile; the job's first merge there takes the tile over, from +0 with ZI. -/
def Job.merge (j : Job) (m : MeJob) (c : Nat) (first : Bool) (p : Part) : Job :=
  let t0 := j.tile c
  let t := if first && lf m.lnt 20 57 1 == 1 then Tile.zero else t0
  let int := lntInt m.lnt
  j.putTile m.region c ⟨mergeRows int t.rows p.rows, if first then int else t0.int, mergeP t.p p.p⟩

/-- ORDERED: the partials that follow each other from `e` on. -/
def Job.mergeHeld (j : Job) (m : MeJob) : Nat → TileProg → Job × TileProg
  | 0, t => (j, t)
  | n + 1, t =>
    match look t.held t.next with
    | none => (j, t)
    | some p => (j.merge m t.tile (t.next == 0) p).mergeHeld m n { t with next := t.next + 1, held := dropKey t.held t.next }

/-- PAIRWISE: complete siblings are added as soon as both are there. -/
def pairUp (int : Bool) : Nat → TileProg → TileProg
  | 0, t => t
  | n + 1, t =>
    match t.spans.find? (fun e => e.1 / e.2 % 2 == 0 && t.spans.any (fun f => f.1 == e.1 + e.2 && f.2 == e.2)) with
    | none => t
    | some e =>
      match look t.held e.1, look t.held (e.1 + e.2) with
      | some a, some b => pairUp int n { t with
          held := put (dropKey t.held (e.1 + e.2)) e.1 (a.add int b)
          spans := put (dropKey t.spans (e.1 + e.2)) e.1 (2 * e.2) }
      | _, _ => t

/-- Hold a partial among those held, in the order of their passes. -/
def holdAt {α : Type} (l : List (Nat × α)) (i : Nat) (x : α) : List (Nat × α) :=
  l.takeWhile (fun e => e.1 < i) ++ (i, x) :: l.dropWhile (fun e => e.1 ≤ i)

/-- The tree over the remaining subtotals: their sizes fall from left to right (R57). -/
def pairTotal (int : Bool) (l : List (Nat × Part)) : Option Part :=
  l.foldr (fun e r => match r with
    | none => some e.2
    | some q => some (e.2.add int q)) none

/-- Whether the partial of pass `i` of a tile can be taken in. -/
def MeJob.canMerge (m : MeJob) (t : TileProg) (i : Nat) : Bool :=
  match m.order with
  | .arrival => true
  | .ordered => i == t.next || t.held.length < 8
  | .pairwise =>
    let empty : Part := ⟨Vector.replicate 64 Row.zero, Vector.replicate 64 .none⟩
    let with_ : TileProg := { t with held := t.held ++ [(i, empty)], spans := t.spans ++ [(i, 1)] }
    m.buffers.all (fun b => match b with
      | some (c, k, _) => c != t.tile || i ≤ k
      | none => true) || (pairUp false 64 with_).held.length ≤ 16

/-- Whether an arrival needs the tile: not while PAIRWISE collects. -/
def MeJob.touchesTile (m : MeJob) (t : TileProg) (i : Nat) : Bool :=
  match m.order with
  | .arrival => true
  | .ordered => i == t.next
  | .pairwise => false

/-- The merge stage takes a partial. -/
def Job.arrivePart (j : Job) (m : MeJob) (t : TileProg) (i : Nat) (p : Part) : Job × TileProg :=
  match m.order with
  | .arrival => (j.merge m t.tile (t.next == 0) p, { t with next := t.next + 1 })
  | .ordered =>
    if i = t.next then (j.merge m t.tile (i == 0) p).mergeHeld m 9 { t with next := i + 1 }
    else (j, { t with held := t.held ++ [(i, p)] })
  | .pairwise => (j, pairUp (lntInt m.lnt) 64 { t with held := holdAt t.held i p, spans := holdAt t.spans i 1 })

/-- The number of the pass in a buffer. -/
def MeJob.passIn (m : MeJob) (b : Nat) : Nat := (m.count - 1) - (m.count - 1 + 4 - b) % 4

/-- Whether every pass before `n` has delivered its partial. -/
def MeJob.delivered (m : MeJob) (n : Nat) : Bool :=
  (List.range 4).all (fun b => (m.buffers[b]?.join).isNone || n ≤ m.passIn b)

/-- The slots whose passes have delivered are released, with the effect of RNGF (R241). -/
def Job.freeSlots (j : Job) (due : List Due) (id : Nat) : Job :=
  match j.meJob id with
  | none => j
  | some m =>
    (m.toFree.filter (fun e => m.delivered e.1)).foldl (fun j e =>
      let n := (j.ring e.2).free.toNat + ringPending due j e.2 false + 1
      let j1 := j.modMe id (fun m => { m with toFree := m.toFree.erase e })
      if 255 < n then j1.addTrap (trapOf 0x0C .ac m.region m.pc (natLe 1 1 ++ natLe e.2.toNat 1 ++ natLe 0 6 ++ natLe n 8))
      else j1.defer m.region .ac m.pc none [] none (.ringFree e.2)) j

/-- PARTIAL_ARRIVAL (18 R269). -/
def execPartialArrival (c : CellId) (job : Nat) (buf : BitVec 2) (s : State) : Out :=
  eventJob s c fun p x j => match j.meJob job with
    | none => .next s
    | some m =>
      match m.buffers[buf.toFin] with
      | none => .next s
      | some (tile, i, part) =>
        let t := m.prog tile
        s.when_ (m.canMerge t i && (!m.touchesTile t i || j.tileOpen m.region tile) && !j.trapPending .ac)
          (s.modJob c j.uid (fun j =>
            let r := j.arrivePart m t i part
            let j1 := r.1.modMe job (fun m => { m.putProg r.2 with buffers := m.buffers.set buf.toFin none })
            (({ j1 with me := { j1.me with passes := j1.me.passes + 1 } }.freeSlots x.due job).result m.region (p.clkOf c.cell)).restall
              j x.ops (p.clkOf c.cell)))

/-- PATH_LOG_PUBLISH (R256): with the effect of RNGP, which is commit-deferred. -/
def execPathLogPublish (c : CellId) (job : Nat) (s : State) : Out :=
  eventJob s c fun _ x j => match j.meJob job with
    | none => .next s
    | some m =>
      match m.logPub with
      | [] => .next s
      | q :: rest =>
        let n := (j.ring q).fill.toNat + ringPending x.due j q true + 1
        .next (s.modJob c j.uid (fun j =>
          let j1 := j.modMe job (fun m => { m with logPub := rest })
          if 255 < n then j1.addTrap (trapOf 0x0C .ac m.region m.pc (natLe 1 1 ++ natLe q.toNat 1 ++ natLe 0 6 ++ natLe n 8))
          else j1.defer m.region .ac m.pc none [] none (.ringPublish q false)))

/-- A job leaves the engine: its launch completes, and what waited for it settles. -/
def Package.meGone (p : Package) (cell uid : Nat) (m : MeJob) : Package :=
  ((p.modJob cell uid (fun j => { j with me := { j.me with jobs := j.me.jobs.filter (fun x => x.id != m.id) } })).modCell cell
    (fun x => x.completeOp m.op)).meSettle cell uid

/-- ME_JOB_COMPLETE (R253): the last merges of PAIRWISE are made here. -/
def execMeJobComplete (c : CellId) (job : Nat) (s : State) : Out :=
  eventJob s c fun p _ j => match j.meJob job with
    | none => .next s
    | some m =>
      let open_ := m.order != .pairwise || m.tiles.all (fun t => j.tileOpen m.region t.tile)
      s.when_ (m.phase == .drained && m.atBoundary && m.toFree.isEmpty && m.logPub.isEmpty && open_ && !j.trapPending .ac)
        (s.modPkg c.pkg (fun q =>
          (q.modJob c.cell j.uid (fun j =>
            let j1 := if m.order = .pairwise then m.tiles.foldl (fun j t =>
                match pairTotal (lntInt m.lnt) t.held with
                | some part => j.merge m t.tile true part
                | none => j) j else j
            j1.result m.region (p.clkOf c.cell))).meGone c.cell j.uid m))

/-! ## MABORT, MSTAT (R266, R267) -/

/-- The tiles that a job has merged into. -/
def MeJob.merged (m : MeJob) : List Nat :=
  match m.order with
  | .pairwise => []
  | _ => (m.tiles.filter (fun t => t.next != 0)).map (·.tile)

/-- A job is aborted: its tiles return to their images, its post is not made. -/
def Job.abortMe (j : Job) (m : MeJob) : Job :=
  let j1 := m.merged.foldl (fun j c =>
    match j.me.tileSaves.find? (fun s => s.2.1 == c) with
    | some s => { j with me := { j.me with tiles := j.me.tiles.setIfInBounds c s.2.2 } }
    | none => j) j
  { j1 with deferred := j1.deferred.filter (fun d => d.src != some m.op) }

/-- MABORT. -/
def execMabort (high : Bool) (sy : Sync) (s : State) : Out :=
  onCore s fun h => h.withSync sy fun h => h.postOk sy fun h =>
    (h.onPk (fun p =>
      (h.jb.me.jobs.filter (fun m => m.high == high)).foldl (fun p m =>
        (p.modJob h.id.cell h.jb.uid (fun j => j.abortMe m)).meGone h.id.cell h.jb.uid m) p)).finish sy []

/-- Whether an MDRAIN is in progress. -/
def Job.draining (j : Job) : Bool := j.me.tasks.any (fun t => match t.work with
  | .drain .. => true
  | _ => false)

/-- The status word of MSTAT: a job runs from its start until it is complete or suspended. -/
def Job.mstat (j : Job) (ops : List MemOp) : Word :=
  let count (f : MeJob → Bool) : Nat := (j.me.jobs.filter f).length
  let run (high : Bool) : Bool := j.me.jobs.any (fun m => m.high == high && (m.phase == .running || m.phase == .drained))
  BitVec.ofNat 64 (j.me.passes.toNat * 2 ^ 16 + count (·.high) * 2 ^ 12 + count (fun m => !m.high) * 2 ^ 8 +
    bit1 (run true) * 2 ^ 6 + bit1 (run false) * 2 ^ 5 + bit1 (j.me.jobs.any (fun m => m.phase == .suspended)) * 2 ^ 4 +
    bit1 (j.walkerWait ops).isSome * 2 ^ 3 + bit1 j.me.strv * 2 ^ 2 + bit1 j.draining * 2)

/-- MSTAT. -/
def execMstat (rd : BitVec 6) (sy : Sync) (s : State) : Out :=
  onCore s fun h => h.withSync sy fun h => h.postOk sy fun h => h.regFree rd fun h =>
    ({ h with jb := { h.jb with me := { h.jb.me with strv := false } } }.modSt
      (fun c => c.setReg rd ⟨h.jb.mstat h.ce.ops, .none, []⟩)).finish sy []

/-! ## MDRAIN (R265) -/

/-- An MDRAIN issues: its draws are taken from srsm at once (03 R50). -/
def Here.drain (h : Here) (f : OrdF) (sy : Sync) (deps : List Nat) (ty : ET) (rm : Rm) (sat : Bool) (tile : BitVec 6)
    (dst : Nat → DrainDst) (g : Nat → Here → Here) : Here :=
  let preds := h.preds f deps
  let seed := h.st.srs
  h.issue f (.launchDrain h.s.nextId) .nowhere preds .waiting 0 fun id h =>
    let t : MeTask := ⟨id, id, h.region, tile.toNat, .drain ty rm sat seed (dst id), 0, h.st.pc⟩
    let h1 := { h with jb := { h.jb with me := { h.jb.me with tasks := h.jb.me.tasks ++ [t] } } }
    let h2 := if rm = .sr then h1.modSt (fun c => { c with srs := (drawsFrom 4096 seed).getLast?.getD seed }) else h1
    g id (h2.syncPost sy preds (some id))

/-- MDRAIN to slabs. -/
def execMdrain (o : OpMdrain) (s : State) : Out :=
  onCore s fun h => h.withSync o.sy fun h => h.withBase o.ra fun a h =>
    h.unpoisoned [(a, o.ra.toNat, 0)] fun h => h.withS a.v 64 (512 * etBits o.ty) .engWrite fun x h =>
      h.room o.f fun h => h.postOk o.sy fun h =>
        h.drain o.f o.sy a.dep o.ty o.rm o.sat o.tile (fun _ => .slabs x) fun _ h => h.retire Sync.zero []

/-- Reserve the entries of a drain as room comes; the AC goes on after the last (R265). -/
def Here.drainReserve (h : Here) (q : BitVec 2) (n : Nat) : Here :=
  if !h.jb.xc.live || h.jb.lqRow[q.toFin].ending then h.queueTrap true (108 + q.toNat)
  else
    let have_ := h.st.part - 1
    let r := min (n - have_) (32 - h.jb.lqRow[q.toFin].ents.length)
    let ids := List.range' h.s.nextId r
    let last := (h.jb.me.tasks.getLast?.map (·.id)).getD 0
    let add (t : MeTask) : MeTask := match t.work with
      | .drain ty rm st sd (.queue q' es) => { t with work := .drain ty rm st sd (.queue q' (es ++ ids)) }
      | _ => t
    let j1 := h.jb.reserveRow q ids
    let j2 : Job := { j1 with me := { j1.me with tasks := j1.me.tasks.map (fun t => if t.id = last then add t else t) } }
    let h1 := ({ h with s := { h.s with nextId := h.s.nextId + r }, jb := j2 }.modSt (fun c => { c with part := c.part + r }))
    if have_ + r = n then h1.retire Sync.zero [] else h1.block (.reserveRow q)

/-- MDRAIN to a row queue. -/
def execMdrainQ (o : OpMdrainQ) (s : State) : Out :=
  onCore s fun h =>
    let n := 2 * etBits o.ty
    if h.st.part != 0 then h.drainReserve o.lq n
    else h.withSync o.sy fun h => h.canReserveRow o.lq 1 fun h => h.room o.f fun h => h.postOk o.sy fun h =>
      h.drain o.f o.sy [] o.ty o.rm o.sat o.tile (fun _ => .queue o.lq []) fun _ h =>
        (h.modSt (fun c => { c with part := 1 })).drainReserve o.lq n

/-- MDRAIN.V: the registers of the quad become pending (15 R229). -/
def execMdrainV (o : OpMdrainV) (s : State) : Out :=
  onCore s fun h => h.withSync o.sy fun h => h.room o.f fun h => h.postOk o.sy fun h =>
    h.drain o.f o.sy [] o.ty o.rm o.sat o.tile (fun id => .regs id) fun id h =>
      let w : AsyncWrite :=
        { id := id, drain := some id, region := h.region
          regs := (List.range 4).map (fun i => physV h.jb.xc.rrb (4 * o.quad.toNat + i))
          mask := none, maskP := .none, z := false, pc := h.st.pc, seq := h.jb.seq, lq := 0, got := []
          sem := if o.sy.post then some o.sy.sem else none, complete := false, endedBy := none }
      { h with jb := { h.jb with async := h.jb.async ++ [w] } }.retire Sync.zero []

/-- Row m of a drained tile: its elements' bits. -/
def drainRow (t : Tile) (ty : ET) (rm : Rm) (sat : Bool) (seed : Word) (m : Nat) : List Nat :=
  let src : ET := if t.int then .i32 else .f32
  let words := ((t.rows[m]?).getD Row.zero).toList
  let draws : List Word := if rm = .sr then (drawsFrom (64 * (m + 1)) seed).drop (64 * m) else []
  words.zipIdx.map (fun e =>
    if src = ty then e.1.toNat
    else
      let r : Rnd := match rm with
        | .sr => .sr (drawU ((draws[e.2]?).getD 0))
        | rm => .mode (modeOf rm 0)
      (etOut ty 0 r sat (etIn src 0 e.1.toNat)).1)

/-- The packed bytes of a row (03 R44). -/
def drainBytes (ty : ET) (l : List Nat) : List Byte :=
  natLe (l.zipIdx.foldl (fun n e => n + e.1 % 2 ^ etBits ty * 2 ^ (etBits ty * e.2)) 0) (8 * etBits ty)

def Job.task (j : Job) (id : Nat) : Option MeTask := j.me.tasks.find? (fun t => t.id == id)
def Job.modTask (j : Job) (id : Nat) (f : MeTask → MeTask) : Job :=
  { j with me := { j.me with tasks := j.me.tasks.map (fun t => if t.id = id then f t else t) } }

def MeTask.isDrain (t : MeTask) : Bool :=
  match t.work with
  | .drain .. => true
  | _ => false

/-- Whether a drain may work: its turn among ME instructions, its launch and edges, and no other drain begun. -/
def Job.drainReady (j : Job) (ops : List MemOp) (t : MeTask) : Bool :=
  j.meFree t.id t.names && launchReady ops t.op true && !j.trapPending .ac &&
    j.edgesClear t.op t.feet &&
    j.me.tasks.all (fun u => u.id == t.id || !u.isDrain || u.at_ == 0)

/-- Where the next row of a drain to slabs at `a` goes: its offset and length. -/
def MeTask.rowSpan (t : MeTask) (ty : ET) (a : Nat) : Nat × Nat := (a + t.at_ * (8 * etBits ty), 8 * etBits ty)

/-- One more tile row of a drain to slabs; a poisoned one stops it with race-poison use. -/
def Package.drainSlabRow (p : Package) (cell uid : Nat) (j : Job) (t : MeTask) (ty : ET) (rm : Rm) (sat : Bool) (seed : Word)
    (a : Nat) : Package :=
  let tl := j.tile t.tile
  let q := (tl.p[t.at_]?).getD .none
  if q != .none then
    p.modJob cell uid (fun j => j.addTrap { trapOf 0x04 .ac t.region t.pc (natLe 0 8 ++ wordLe t.pc) with psn := q.code })
  else
    let bs := drainBytes ty (drainRow tl ty rm sat seed t.at_)
    let off := (t.rowSpan ty a).1
    (p.modJob cell uid (fun j => (j.copyWrite (some t.region) off bs (clearMarks j.marks off bs.length)).modTask t.id (fun t =>
      { t with at_ := t.at_ + 1 }))).arrive cell uid off bs.length false (some t.region) 4 t.pc.toNat

/-- A drain to slabs goes on for `n` rows, as long as no row is poisoned and each may arrive now (05 R68). -/
def Package.drainSlabs (p : Package) (cell uid id : Nat) : Nat → Package
  | 0 => p
  | n + 1 =>
    match (p.cell cell).bind (fun x => x.jobBy uid) with
    | none => p
    | some j =>
      match j.task id with
      | none => p
      | some t =>
        match t.work with
        | .drain ty rm sat seed (.slabs a) =>
          if t.at_ < 64 && !j.trapPending .ac && j.mayArrive (p.clkOf cell) (t.rowSpan ty a).1 (t.rowSpan ty a).2 then (p.drainSlabRow cell uid j t ty rm sat seed a).drainSlabs cell uid id n else p
        | _ => p

/-- A drain is over: its task goes, its launch completes. -/
def Package.drainGone (p : Package) (cell uid : Nat) (t : MeTask) : Package :=
  let clk := p.clkOf cell
  ((p.modJob cell uid (fun j => { (j.result t.region clk) with me := { j.me with
      tasks := j.me.tasks.filter (fun u => u.id != t.id) } })).modCell cell (fun x => x.completeOp t.op)).meSettle cell uid

/-- The queue entry `i` of a drain: 256 bytes of the packed image, with the poison of the rows they come from. -/
def drainEntry (t : Tile) (ty : ET) (rm : Rm) (sat : Bool) (seed : Word) (i : Nat) : RowVal :=
  let per := 32 / etBits ty          -- tile rows in an entry
  let rows := List.range' (i * per) per
  ⟨bytesRow (rows.flatMap (fun m => drainBytes ty (drainRow t ty rm sat seed m))),
    Vector.ofFn (fun w => (t.p[i * per + w.val / etBits ty]?).getD .none)⟩

/-- Fill the entries that a drain has reserved. -/
def Job.drainFill (j : Job) (t : MeTask) (ty : ET) (rm : Rm) (sat : Bool) (seed : Word) (q : BitVec 2) (ents : List Nat) : Job :=
  ((ents.zipIdx.drop t.at_).foldl (fun j e => j.deliverRow q e.1 (drainEntry (j.tile t.tile) ty rm sat seed e.2)) j).modTask
    t.id (fun t => { t with at_ := ents.length })

/-- MDRAIN_COMPLETE. A drain to a queue fills what it has reserved, and completes with its last entry. -/
def execMdrainComplete (c : CellId) (id : Nat) (s : State) : Out :=
  eventJob s c fun _ x j => match j.task id with
    | none => .next s
    | some t =>
      if !j.drainReady x.ops t then .next s
      else match t.work with
        | .drain _ _ _ _ (.slabs _) =>
          .next (s.modPkg c.pkg (fun p =>
            let p1 := p.drainSlabs c.cell j.uid id 64
            if (((p1.cell c.cell).bind (fun x => x.jobBy j.uid)).bind (fun j => j.task id)).any (fun t => t.at_ == 64) then
              p1.drainGone c.cell j.uid t else p1))
        | .drain ty rm sat seed (.queue q ents) =>
          .next (s.modPkg c.pkg (fun p =>
            let p1 := p.modJob c.cell j.uid (fun j => j.drainFill t ty rm sat seed q ents)
            if ents.length = 2 * etBits ty then p1.drainGone c.cell j.uid t else p1))
        | .drain _ _ _ _ (.regs a) =>
          s.when_ ((j.async.find? (fun w => w.id == a)).all (·.complete)) (s.modPkg c.pkg (fun p => p.drainGone c.cell j.uid t))
        | _ => .next s

/-- The sixteen rows of each register of an MDRAIN.V (15 R230). -/
def drainVRows (t : Tile) (ty : ET) (rm : Rm) (sat : Bool) (seed : Word) : List RowVal :=
  (List.range 64).map (fun m =>
    let row := drainRow t ty rm sat seed m
    ⟨Vector.ofFn (fun n => slotOf ty ((row[n.val]?).getD 0)), Vector.replicate 32 ((t.p[m]?).getD .none)⟩)

/-- ASYNC_WRITE_COMPLETE: a detached VLDQ or an MDRAIN.V (15 R229). -/
def execAsyncWriteComplete (c : CellId) (id : Nat) (s : State) : Out :=
  eventJob s c fun p x j => match j.async.find? (fun w => w.id == id) with
    | none => .next s
    | some w =>
      match w.drain with
      | none => vldqAdvance s c p j w
      | some d =>
        match j.task d with
        | none => .next s
        | some t =>
          match t.work with
          | .drain ty rm sat seed (.regs _) =>
            s.when_ (!w.complete && j.drainReady x.ops t) (s.modJob c j.uid (fun j =>
              (((j.asyncStore w (drainVRows (j.tile t.tile) ty rm sat seed)).modAsync id (fun w => { w with complete := true })).modTask
                d (fun t => { t with at_ := 1 })).result w.region (p.clkOf c.cell)))
          | _ => .next s

end Sys2Proof.Machine
end

