-- ==== Sys2Proof/Machine/Csr.lean ====
section
/-!
DEFINITION. CSRW (11 R162, R168; 03 R50, R51; 05 R71), and the waits that a write to a ring descriptor ends (13 R379).
-/
namespace Sys2Proof.Machine
open Sys2Proof

/-- Whether a stream in a region is blocked on a ring: by its word, or by the elastic trip on it, whose decision for the region's
iteration has not been taken. -/
def Job.waitsRing (j : Job) (r : BitVec 4) (region : Nat) (w : Option Wait) : Bool :=
  match w with
  | some (.ringFree q) | some (.ringFill q) => q == r
  | some .elastic => j.trip == .elastic r && (look j.decisions (region - 1)).isNone
  | _ => false

/-- The wait of a core stream on a ring ends: Illegal Instruction. -/
def Here.endCoreWait (r : BitVec 4) (h : Here) (k : Core) : Here :=
  if h.jb.waitsRing r (h.jb.core k).region (h.jb.core k).wait then h.illegalAt k else h

/-- The wait of a chain on a ring ends: a chain fault of kind argument. -/
def Here.endChainWait (r : BitVec 4) (h : Here) (e : BitVec 1) : Here :=
  match (h.jb.eng e).chain with
  | some c => if h.jb.waitsRing r c.region c.wait then { h with jb := h.jb.addTrap (c.trap e 4) } else h
  | none => h

/-- The walker's wait on a ring, as the ring stood in `old`, ends: a shape fault that names the level's first word, or word 21. -/
def Here.endWalkerWait (r : BitVec 4) (old : Job) (h : Here) : Here :=
  match old.running, old.walkerWait h.ce.ops with
  | some m, some (.level v) => if levRing m.lnt v = r then { h with jb := h.jb.addTrap (m.shape (2 + 2 * v)) } else h
  | some m, some .log => if lntPring m.lnt = r then { h with jb := h.jb.addTrap (m.shape 21) } else h
  | _, _ => h

/-- A ring whose CNT has become 0 ends the waits that were blocked on it in `old` (R379). -/
def Here.endRingWaits (h : Here) (r : BitVec 4) (old : Job) : Here :=
  (([0, 1].foldl (Here.endChainWait r) ([Core.ac, Core.xc].foldl (Here.endCoreWait r) h)).endWalkerWait r old)

/-- The slabs of the program part of a carve-out (05 R71). -/
def Header.program (hd : Header) : Nat := hd.slabs - hd.wsa - hd.wsx

/-- A write to a ring descriptor, which takes effect at once. -/
def Here.ringCsr (h : Here) (r : BitVec 4) (v : Word) : Here :=
  let j := h.jb.changeRing r (some h.region) (fun old => ringWrite old h.jb.hdr.program v)
  let h1 := { h with jb := j.restall h.jb h.ce.ops h.clk }
  if (j.ring r).cnt = 0 then h1.endRingWaits r h.jb else h1

/-- The effect of a CSRW; a write to a read-only register is ignored (11 R168). -/
def Here.csrWrite (h : Here) (n : Nat) (v : Word) : Here :=
  match n with
  | 0x040 => h.modSt (fun c => { c with nmctl := nmctlWrite c.nmctl v })
  | 0x041 | 0x042 => h.modSt (fun c => { c with srs := seedOf v })
  | 0x044 => h.modSt (fun c => { c with kps := { c.kps with stg := BitVec.ofNat 3 (fld v.toNat 8 3) } })
  | _ => if 0x080 ≤ n then h.ringCsr (BitVec.ofNat 4 n) v else h

/-- CSRW (11 R168, R162). -/
def execCsrw (ra : Src) (csr : BitVec 12) (sy : Sync) (s : State) : Out :=
  onCore s fun h =>
    if csr.toNat = 0x044 && h.region != 0 then h.illegal
    else h.withSync sy fun h => h.withSrcs [ra] fun vs h =>
      h.unpoisoned [(vs[0]?.getD PVal.zero, srcReg ra, 0)] fun h => h.postOk sy fun h =>
        (h.csrWrite csr.toNat (nth vs 0)).finish sy (joinDep vs)

end Sys2Proof.Machine
end

