-- ==== Sys2Proof/Machine/Chain.lean ====
section
/-!
DEFINITION. Copy-engine chains: engine addresses (19 R274), the parameter stack (09 R128), the stack, control, stage and
synchronisation words (R275 to R278), FOOT (R281), the launch instructions of the AC (R296 to R300) and the chain events
that move no bytes.
-/
namespace Sys2Proof.Machine
open Sys2Proof

/-! ## A running chain -/

/-- What an engine word works on: the chain of an engine, taken out of the state. -/
structure EHere where
  s : State
  id : CellId
  e : BitVec 1
  pk : Package
  ce : CellState
  jb : Job
  ch : Chain
  bad : Option Fault

/-- The engine of a chain stream. -/
def Eng.ceIx (e : Eng) : Option (BitVec 1) :=
  match e with
  | .ce0 => some 0
  | .ce1 => some 1
  | _ => none

def ceOf (e : BitVec 1) : Eng := if e = 0 then .ce0 else .ce1

/-- The chain of engine `e` of the running job of a cell. -/
def State.ehereAt (s : State) (c : CellId) (e : BitVec 1) : Option EHere :=
  match s.pkg c.pkg with
  | none => none
  | some p =>
    match p.cell c.cell with
    | none => none
    | some x =>
      match x.job with
      | none => none
      | some j =>
        match (j.eng e).chain with
        | some ch => some ⟨s, c, e, p, x, j, ch, none⟩
        | none => none

/-- The chain that is moving. -/
def State.ehere (s : State) : Option EHere :=
  match Eng.ceIx s.cur.2 with
  | some e => s.ehereAt s.cur.1 e
  | none => none

def EHere.eng (h : EHere) : Eng := ceOf h.e
def EHere.dlv (h : EHere) : Eng := h.ch.dlv h.e
def EHere.clk (h : EHere) : Nat := h.pk.clkOf h.id.cell
def EHere.region (h : EHere) : Nat := h.ch.region
def EHere.who (h : EHere) : Who := ⟨h.jb.ctx, ((h.pk.ctx h.jb.ctx).map (·.secure)).getD false, some h.id.cell⟩

def Chain.isStream (c : Chain) : Bool :=
  match c.role with
  | .stream => true
  | .kicked .. => false

/-- The job with the chain put back; a kicked chain that has ended leaves its engine. -/
def EHere.job (h : EHere) : Job :=
  h.jb.setEng h.e { h.jb.eng h.e with chain := if h.ch.live || h.ch.isStream then some h.ch else none }

def EHere.pkNow (h : EHere) : Package := h.pk.setCell h.id.cell { h.ce with job := some h.job }
def EHere.close (h : EHere) : State := h.s.setPkg h.id.pkg h.pkNow

def EHere.outcome (h : EHere) : Out :=
  match h.bad with
  | none => .next h.close
  | some e => .fault e

/-- An engine word's meaning from what it does here. An engine without a chain makes no step (DESIGN CHOICE, notes/assumptions/15.md). -/
def onChain (s : State) (f : EHere → EHere) : Out :=
  match s.ehere with
  | some h => (f h).outcome
  | none => .next s

/-- Act on the package with the chain put back, and take it out again. -/
def EHere.onPk (h : EHere) (f : Package → Package) : EHere :=
  let pk := f h.pkNow
  match pk.cell h.id.cell with
  | some c =>
    match c.job with
    | some j => { h with pk := pk, ce := c, jb := j }
    | none => h
  | none => h

def EHere.modEng (h : EHere) (f : EngState → EngState) : EHere := { h with jb := h.jb.setEng h.e (f (h.jb.eng h.e)) }

/-! ## Faults (R291) -/

def EHere.raise (h : EHere) (t : Trap) : EHere := { h with jb := h.jb.addTrap t }
def EHere.chainFault (h : EHere) (kind : Nat) : EHere := h.raise (h.ch.trap h.e kind)

/-- The address within its space of an engine address (R274): bits 63:60 hold the space. -/
def inSpace (w : Word) : Word := BitVec.ofNat 64 (fld w.toNat 0 60)

/-- A failing check of an access of a chain; the fault address is the address in its space (DEDUCED, notes/assumptions/27.md). -/
def EHere.accFail (h : EHere) (f : AccFail) (a : Acc) (addr : Word) : EHere :=
  match f with
  | .noFrame => { h with bad := some .noSuchFrame }
  | .poisoned => { h with pk := h.pk.lose ⟨h.jb.ctx, 1, placeOfCell h.id.cell, addr, h.eng.src⟩ }
  | f => h.raise (failTrap f a h.eng h.dlv addr h.region h.ch.ptr false)

def EHere.overflow (h : EHere) (what ix v : Nat) : EHere :=
  h.raise (trapOf 0x0C h.dlv h.region h.ch.ptr (natLe what 1 ++ natLe ix 1 ++ natLe 0 6 ++ natLe v 8))

/-! ## The stack (09 R128) -/

/-- The entries that a word pops, top first, once there are enough of them and its pushes fit. -/
def EHere.needs (h : EHere) (pops pushes : Nat) (g : List Word → EHere → EHere) : EHere :=
  if h.ch.stack.length < pops then h.chainFault 2
  else if 8 < h.ch.stack.length - pops + pushes then h.chainFault 1
  else g (h.ch.stack.take pops) h

/-- The word is done: its entries change, the chain pointer advances by 2; it is progress (01 R36), and what it has written is a result
of its region (01 R21). -/
def EHere.done (h : EHere) (pops : Nat) (push : List Word) : EHere :=
  let clk := h.clk
  ({ h with
    ch := { h.ch with stack := push ++ h.ch.stack.drop pops, ptr := h.ch.ptr + 2, wait := none }
    jb := { h.jb.result h.region clk with progress := clk } }).modEng (fun e => { e with starve := if e.xfers.any (·.blocked) then some clk else none })

/-- The chain is blocked; a stall that has begun goes on (R293). -/
def EHere.block (h : EHere) (w : Wait) : EHere :=
  let clk := h.clk
  ({ h with ch := { h.ch with wait := some w } }).modEng (fun e => { e with starve := some (e.starve.getD clk) })

def topN (l : List Word) (n : Nat) : Word := (l[n]?).getD 0

/-- The words after which a chain has begun (R281): a stream chain begins at once, a kicked one waits for CHAIN_BEGIN. -/
def EHere.begun (h : EHere) (f : EHere → EHere) : EHere :=
  if h.ch.begun then f h
  else if h.ch.isStream then f { h with ch := { h.ch with begun := true } }
  else h

def onBody (s : State) (f : EHere → EHere) : Out := onChain s fun h => h.begun f

/-! ## Engine addresses (R274) -/

/-- Space (0 G, 1 S, 2 N, 3 F), place or coordinate, and offset. -/
structure EAddr where
  sp : Nat
  hi : Nat
  off : Nat
  deriving DecidableEq, Repr

def eaddr (w : Nat) : Option EAddr :=
  match fld w 60 4 with
  | 0 => if fld w 48 12 = 0 then some ⟨0, 0, fld w 0 48⟩ else none
  | 1 => if fld w 21 39 = 0 then some ⟨1, 0, fld w 0 21⟩ else none
  | 2 => if fld w 33 27 = 0 then some ⟨2, fld w 21 12, fld w 0 21⟩ else none
  | 3 => if fld w 58 2 = 0 then some ⟨3, fld w 48 10, fld w 0 48⟩ else none
  | _ => none

/-- The bytes of a space. -/
def EAddr.limit (a : EAddr) : Nat := if a.sp = 0 || a.sp = 3 then 2 ^ 48 else 2 ^ 21

/-- The word of an address of a space, for records. -/
def EAddr.wordAt (a : EAddr) (off : Int) : Word :=
  BitVec.ofNat 64 (a.sp * 2 ^ 60 + (match a.sp with | 2 => a.hi * 2 ^ 21 | 3 => a.hi * 2 ^ 48 | _ => 0) +
    (off % (a.limit : Int)).toNat)

/-- An address of some alignment in some of the spaces (R274, 05 R380). A nonzero bit where R274 wants zero is the chain fault of kind
address that R274 and R291 name, not a page fault of kind bounds (DESIGN CHOICE, notes/assumptions/79.md). -/
def EHere.withAddr (h : EHere) (w : Word) (align : Nat) (spaces : List Nat) (acc : Acc) (g : EAddr → EHere → EHere) : EHere :=
  if w.toNat % align != 0 then h.accFail (.page .alignment) acc (inSpace w)
  else match eaddr w.toNat with
    | none => h.chainFault 5
    | some a => if spaces.contains a.sp then g a h else h.chainFault 5

/-! ## Stack words (R128, R275) -/

/-- LIT. -/
def execWLit (v : BitVec 15) (s : State) : Out := onChain s fun h => h.needs 0 1 fun _ h => h.done 0 [v.setWidth 64]

/-- EXT. -/
def execWExt (v : BitVec 14) (s : State) : Out :=
  onChain s fun h => h.needs 1 1 fun l h => h.done 1 [(topN l 0 <<< 14) ||| v.setWidth 64]

/-- NOPW. -/
def execWNopw (s : State) : Out := onChain s fun h => h.done 0 []

/-- DUP. -/
def execWDup (s : State) : Out := onChain s fun h => h.needs 1 2 fun l h => h.done 1 [topN l 0, topN l 0]

/-- DROP. -/
def execWDrop (s : State) : Out := onChain s fun h => h.needs 1 0 fun _ h => h.done 1 []

/-- XCH. -/
def execWXch (s : State) : Out := onChain s fun h => h.needs 2 2 fun l h => h.done 2 [topN l 1, topN l 0]

/-- OVER. -/
def execWOver (s : State) : Out := onChain s fun h => h.needs 2 3 fun l h => h.done 2 [topN l 1, topN l 0, topN l 1]

/-- FOOT (R281): length on top, then the base. -/
def execWFoot (gated write : Bool) (s : State) : Out :=
  onChain s fun h => h.needs 2 0 fun l h =>
    if h.ch.begun || 8 ≤ h.ch.foot.length then h.chainFault 6
    else h.withAddr (topN l 1) 1 [0, 1] .system fun a h =>
      if topN l 0 = 0 then h.chainFault 6
      else { h with ch := { h.ch with foot := h.ch.foot ++ [Foot.mk a.sp a.off (topN l 0).toNat write gated] } }.done 2 []

/-! ## Synchronisation words (R278) -/

def EHere.semView (h : EHere) (q : BitVec 6) : Int := Machine.semView h.ce.ops h.ce.due h.jb q

/-- Every earlier transfer of the chain has completed. -/
def EHere.clear (h : EHere) (f : EHere → EHere) : EHere :=
  if (h.jb.eng h.e).xfers.any (fun x => x.chain == h.ch.id) then h else f h

/-- A chain's wait takes a semaphore. -/
def EHere.semTake (h : EHere) (q : BitVec 6) : EHere := { h with jb := h.jb.semTake q h.region false }

/-- WAITS. -/
def execWWaits (q : BitVec 6) (s : State) : Out :=
  onBody s fun h => if 1 ≤ h.semView q then (h.semTake q).done 0 [] else h.block (.sem q false)

def EHere.defer (h : EHere) (eff : Effect) : EHere := { h with jb := h.jb.defer h.region h.eng h.ch.ptr none [] none eff }

/-- POSTS: a SEMP of 1 after the earlier transfers. -/
def execWPosts (q : BitVec 6) (s : State) : Out :=
  onBody s fun h => h.clear fun h =>
    if (semMax : Int) < h.semView q + 1 then h.overflow 0 q.toNat (h.semView q + 1).toNat
    else (h.defer (.semPost q 1)).done 0 []

/-- The waits of WAITR on slabs, one after the other; a tag in ERROR raises the trap of 05 R69. -/
def EHere.rimeWait (h : EHere) (last : Nat) : List Nat → EHere
  | [] => h.done 1 []
  | sl :: rest =>
    if h.jb.limit < sl * 2048 + 2048 then h.accFail (.page .bounds) .system (BitVec.ofNat 64 (sl * 2048))
    else match (h.jb.tag sl).st with
      | .full => h.rimeWait last rest
      | .error => h.raise (tagTrap (h.jb.tag sl) sl h.dlv h.region h.ch.ptr)
      | _ => h.block (.rime sl last)

/-- WAITR n: n + 1 consecutive slabs. -/
def execWWaitr (n : BitVec 8) (s : State) : Out :=
  onBody s fun h => h.needs 1 0 fun l h => h.withAddr (topN l 0) 2048 [1] .system fun a h =>
    h.rimeWait (a.off / 2048 + n.toNat) (List.range' (a.off / 2048) (n.toNat + 1))

/-- A slab of the carve-out that a word names. -/
def EHere.withSlab (h : EHere) (w : Word) (g : Nat → EHere → EHere) : EHere :=
  h.withAddr w 2048 [1] .system fun a h =>
    if h.jb.limit < a.off + 2048 then h.accFail (.page .bounds) .system (inSpace w) else g (a.off / 2048) h

/-- POSTR 0: count on top, then the slab. -/
def execWPostrPost (s : State) : Out :=
  onBody s fun h => h.needs 2 0 fun l h => h.withSlab (topN l 1) fun sl h => h.clear fun h =>
    let h1 := h.onPk (fun p => p.changeTag h.id.cell h.jb.uid sl (fun t => t.post (topN l 0).toNat) (some h.region) h.eng.src
      h.ch.ptr.toNat)
    { h1 with jb := { h1.jb with posts := put h1.jb.posts sl h.clk } }.done 2 []

/-- POSTR 1. -/
def execWPostrThaw (s : State) : Out :=
  onBody s fun h => h.needs 1 0 fun l h => h.withSlab (topN l 0) fun sl h => h.clear fun h =>
    (h.defer (.thaw sl)).done 1 []

/-- RNGA: the slot or the closed indication is pushed. -/
def execWRngaWord (q : BitVec 4) (s : State) : Out :=
  onBody s fun h => h.needs 0 1 fun _ h =>
    if (h.jb.ring q).cnt = 0 then h.chainFault 4
    else match h.jb.ringTry h.region q false with
      | some (v, j) => { h with jb := j }.done 0 [v]
      | none => h.block (.ringFree q)

/-- RNGP: the slot index, its checks, the deferred publish. -/
def execWRngpWord (close : Bool) (q : BitVec 4) (s : State) : Out :=
  onBody s fun h => h.needs 1 0 fun l h =>
    let n := (h.jb.ring q).fill.toNat + ringPending h.ce.due h.jb q true + 1
    if (h.jb.ring q).cnt = 0 then h.chainFault 4
    else if (h.jb.ring q).cnt.toNat ≤ (topN l 0).toNat then h.accFail (.page .bounds) .system (topN l 0)
    else h.clear fun h =>
      if 255 < n then h.overflow 1 q.toNat n else (h.defer (.ringPublish q close)).done 1 []

/-! ## STAGE (R277) -/

/-- STAGE 0. -/
def execWStagePair (s : State) : Out :=
  onBody s fun h => h.needs 0 2 fun _ h =>
    match (h.jb.eng h.e).stage with
    | (a, b) :: rest => (h.modEng (fun e => { e with stage := rest })).done 0 [b, a]
    | [] => if h.jb.ac.live then h.block .stage else h.chainFault 11

/-- The kernel iteration index of a region, modulo 2^32; 0 outside the kernel. -/
def Job.iteration (j : Job) (r : Nat) : Nat := if j.inKernel r then (r - 1) % 2 ^ 32 else 0

/-- STAGE 1. -/
def execWStageIteration (s : State) : Out :=
  onBody s fun h => h.needs 0 1 fun _ h => h.done 0 [BitVec.ofNat 64 (h.jb.iteration h.region)]

/-- The slot of a region's elastic iteration, as kps.SLOT gives it. -/
def Job.iterSlot (j : Job) (r : Nat) : BitVec 8 :=
  match look j.decisions (r - 1) with
  | some (.take sl) => if j.inKernel r then sl else 0xFF
  | _ => 0xFF

/-- Whether a core stream has started the iteration of a region. -/
def Job.iterStarted (j : Job) (r : Nat) : Bool :=
  let f (c : CoreState) : Bool := r < c.region || (c.region == r && c.started)
  !j.inKernel r || f j.ac || f j.xc

/-- STAGE 2. -/
def execWStageSlot (s : State) : Out :=
  onBody s fun h => h.needs 0 1 fun _ h =>
    if h.jb.iterStarted h.region then h.done 0 [(h.jb.iterSlot h.region).setWidth 64] else h.block .stage

/-! ## LINK and END (R276) -/

/-- LINK 0. -/
def execWLinkJump (s : State) : Out :=
  onBody s fun h => h.needs 1 0 fun l h =>
    if (topN l 0).toNat % 2 != 0 then h.chainFault 5
    else h.withAddr (topN l 0) 1 [0] .fetch fun _ h =>
      let h1 := h.done 1 []
      { h1 with ch := { h1.ch with ptr := topN l 0 } }

/-- The last stack of an engine's chains, by region of launch (R298). -/
def EngState.leave (e : EngState) (region : Nat) (st : List Word) : EngState :=
  { e with left := e.left.filter (fun x => x.1 != region) ++ [(region, st)] }

/-- The chain has ended: a stream chain is no longer live; a kicked one completes its launch. -/
def EHere.endChain (h : EHere) : EHere :=
  let h1 := { h with ch := { h.ch with live := false, wait := none }, jb := { h.jb with progress := h.clk } }
  match h.ch.role with
  | .stream => h1
  | .kicked op _ =>
    let h2 := h1.modEng (fun e => e.leave h.region h.ch.stack)
    { h2 with jb := h2.jb.result h.region h.clk, ce := h2.ce.completeOp op }

/-- The entries of the chain of an engine. -/
def Header.chain (hd : Header) (e : BitVec 1) : Vector Word 3 := if e = 0 then hd.ce0 else hd.ce1

/-- A stream chain at the start of its region goes to its entry, once that is known. An epilogue without an entry ends the
chain; a kernel without one is passed as 01 R22 allows. Until then the chain waits. -/
def EHere.enter (h : EHere) : EHere :=
  let ent := h.jb.hdr.chain h.e
  if h.jb.inEpilogue h.region then
    (if ent[2] = 0 then h.endChain else { h with ch := { h.ch with ptr := ent[2], wait := none } })
  else
    let known := match h.jb.trip with
      | .counted _ => true
      | .elastic _ => (look h.jb.decisions (h.region - 1)).isSome
    if !known then h
    else if ent[1] != 0 then { h with ch := { h.ch with ptr := ent[1], wait := none } }
    else if h.jb.mayPass h.region then { h with ch := { h.ch with region := h.region + 1 } }
    else h

/-- LINK 1: it waits for the transfers, then passes the end of the region under the stall of 01 R22. -/
def execWLinkBoundary (s : State) : Out :=
  onBody s fun h =>
    if !h.ch.isStream || h.jb.inEpilogue h.region then h.chainFault 10
    else h.clear fun h =>
      if h.jb.mayPass h.region then
        { h with
          ch := { h.ch with region := h.region + 1, stack := [], shapes := Vector.replicate 4 none, wait := some .elastic }
          jb := { h.jb with progress := h.clk } }.enter
      else h

/-- END. A stream chain passes the end of its region with it, under the stall of 01 R22. -/
def execWEnd (s : State) : Out :=
  onBody s fun h => h.clear fun h => if h.ch.isStream && !h.jb.mayPass h.region then h else h.endChain

/-! ## CKICK, CLINK, CSTAGE, CABORT (R296 to R300) -/

/-- Whether the job runs a stream chain on an engine. -/
def Job.hasStream (j : Job) (e : BitVec 1) : Bool := (j.hdr.chain e)[0] != 0

/-- The chains of the kick queue, the running one among them. -/
def EngState.kicked (e : EngState) : List Chain := (e.chain.toList.filter (fun c => !c.isStream)) ++ e.kicks

/-- The words that come before a chain begins (R281). -/
def EWord.footWord (w : EWord) : Bool :=
  match w with
  | .lit _ | .ext _ | .nopw | .dup | .drop | .xch | .overW | .foot .. => true
  | _ => false

/-- The engine word at a chain pointer as it stands, if it can be read. -/
def Package.wordsAt (p : Package) (w : Who) (cell uid : Nat) (ptr : Word) : Option EWord :=
  match checkG p w ptr.toNat 2 .fetch with
  | .error _ => none
  | .ok t => (decodeWord (leNat (p.readTarget w.ctx cell uid t 2).1)).toOption

/-- The FOOT regions of a chain's leading words, read at its launch (DEDUCED, notes/assumptions/73.md): the words, at most `fuel` of them,
the stack and the regions so far. No region where they cannot be told. -/
def footAhead (word : Word → Option EWord) (fuel : Nat) (ptr : Word) (st : List Word) (l : List Foot) : List Foot :=
  match fuel with
  | 0 => []
  | fuel + 1 =>
    let go (st : List Word) (l : List Foot) : List Foot := footAhead word fuel (ptr + 2) st l
    match word ptr, st with
    | some (.lit v), st => go (v.setWidth 64 :: st) l
    | some (.ext v), a :: st => go (((a <<< 14) ||| v.setWidth 64) :: st) l
    | some .nopw, st => go st l
    | some .dup, a :: st => go (a :: a :: st) l
    | some .drop, _ :: st => go st l
    | some .xch, a :: b :: st => go (b :: a :: st) l
    | some .overW, a :: b :: st => go (b :: a :: b :: st) l
    | some (.foot gated write), n :: a :: st =>
      (match eaddr a.toNat with
        | some e => go st (l ++ [⟨e.sp, e.off, n.toNat, write, gated⟩])
        | none => [])
    | some w, _ => if EWord.footWord w then [] else l
    | none, _ => []

/-- The words that an engine has fetched ahead when chain `id` starts (R272; DESIGN CHOICE, notes/assumptions/21.md): of the addresses
that Config.fetchedAhead names, those that can be fetched without poison. -/
def Package.fetchedAhead (p : Package) (w : Who) (cell uid id : Nat) : List (Nat × Nat) :=
  (Config.fetchedAhead id).filterMap (fun a =>
    match checkG p w a 2 .fetch with
    | .error _ => none
    | .ok t => match p.readTarget w.ctx cell uid t 2 with
      | (bs, .none) => some (a, leNat bs)
      | _ => none)

/-- CKICK and CLINK. -/
def kick (o : OpKick) (link : Bool) (h : Here) : Here :=
  if h.jb.hasStream o.eng then h.illegal
  else h.withSync o.sy fun h => h.withBase o.ra fun a h =>
    h.unpoisoned [(a, o.ra.toNat, 0)] fun h =>
      if a.v.toNat % 2 != 0 then h.accFail (.page .alignment) .system a.v
      else h.room o.f fun h => h.postOk o.sy fun h =>
        if 4 ≤ (h.jb.eng o.eng).kicked.length then h
        else
          let preds := h.preds o.f a.dep
          h.issue o.f (.launchChain o.eng h.s.nextId) .nowhere preds .waiting a.v fun id h =>
            let c : Chain :=
              { id := id, role := .kicked id link, ptr := a.v, region := h.region, stack := []
                shapes := Vector.replicate 4 none, foot := [], ahead := footAhead (h.pkNow.wordsAt h.who h.id.cell h.jb.uid) 64 a.v [] []
                old := h.pkNow.fetchedAhead h.who h.id.cell h.jb.uid id
                begun := false, halted := false, live := true, wait := none }
            { h with jb := h.jb.setEng o.eng { h.jb.eng o.eng with kicks := (h.jb.eng o.eng).kicks ++ [c] } }.issued
              o.sy preds id

/-- CKICK. -/
def execCkick (o : OpKick) (s : State) : Out := onCore s (kick o false)

/-- CLINK. -/
def execClink (o : OpKick) (s : State) : Out := onCore s (kick o true)

/-- CSTAGE. -/
def execCstage (e : BitVec 1) (ra rb : BitVec 6) (sy : Sync) (s : State) : Out :=
  onCore s fun h =>
    if h.jb.hasStream e then h.illegal
    else h.withSync sy fun h => h.withSrcs [.reg ra, .reg rb] fun vs h =>
      h.unpoisoned [(vs[0]?.getD PVal.zero, ra.toNat, 0), (vs[1]?.getD PVal.zero, rb.toNat, 1)] fun h => h.postOk sy fun h =>
        if 8 ≤ (h.jb.eng e).stage.length then h
        else
          let st := (h.jb.eng e).stage ++ [(nth vs 0, nth vs 1)]
          { h with jb := h.jb.setEng e { h.jb.eng e with stage := st } }.finish sy (joinDep vs)

/-- Stop every kicked chain of an engine: their launches complete without their posts. -/
def CellState.abortChains (x : CellState) (uid : Nat) (e : BitVec 1) : CellState :=
  match x.jobBy uid with
  | none => x
  | some j =>
    let cs := (j.eng e).kicked
    let ops := cs.filterMap (fun c => match c.role with | .kicked op _ => some op | .stream => none)
    let x1 := x.modJob uid (fun j =>
      let en := j.eng e
      { j.setEng e { en with
          chain := none, kicks := [], stage := [], xfers := []
          left := if cs.isEmpty then en.left else (en.leave ((cs.getLast?.map (·.region)).getD 0) []).left } with
        deferred := j.deferred.filter (fun d => !(d.src.any ops.contains)) })
    ops.foldl (fun x op => x.completeOp op) x1

/-- CABORT. -/
def execCabort (e : BitVec 1) (sy : Sync) (s : State) : Out :=
  onCore s fun h =>
    if h.jb.hasStream e then h.illegal
    else h.withSync sy fun h => h.postOk sy fun h =>
      (h.onPk (fun p => p.modCell h.id.cell (fun x => x.abortChains h.jb.uid e))).finish sy []

/-! ## Events -/

/-- KICKED_CHAIN_START (R297, R298): once the operations before the launch have been performed (07 R92). -/
def execKickedChainStart (c : CellId) (e : BitVec 1) (s : State) : Out :=
  eventJob s c fun _ x j =>
    match (j.eng e).chain, (j.eng e).kicks with
    | none, ch :: rest =>
      let st := match ch.role with
        | .kicked _ true => (((j.eng e).left.getLast?).map (·.2)).getD []
        | _ => []
      let op := match ch.role with
        | .kicked op _ => op
        | .stream => 0
      s.when_ (launchReady x.ops op false) (s.modJob c j.uid (fun j =>
        j.setEng e { j.eng e with chain := some { ch with stack := st }, kicks := rest, starve := none }))
    | _, _ => .next s

/-- The engine word at the chain pointer (R272): the word that was fetched ahead, or the bytes as they stand. -/
def EHere.fetch (h : EHere) : Except AccFail (Nat × Poison) :=
  match checkG h.pkNow h.who h.ch.ptr.toNat 2 .fetch with
  | .error f => .error f
  | .ok t =>
    match h.pkNow.readTarget h.jb.ctx h.id.cell h.jb.uid t 2 with
    | (bs, p) => .ok ((look h.ch.old h.ch.ptr.toNat).getD (leNat bs), p)

/-- Whether the chain stands at a word at which it begins. -/
def EHere.atBody (h : EHere) : Bool :=
  match h.fetch with
  | .ok (w, _) => (match decodeWord w with | .ok x => !EWord.footWord x | .error _ => true)
  | .error _ => false

/-- CHAIN_BEGIN (R281, 07 R92, R93). -/
def execChainBegin (c : CellId) (e : BitVec 1) (s : State) : Out :=
  match s.ehereAt c e with
  | none => .next s
  | some h =>
    match h.ch.role with
    | .stream => .next s
    | .kicked op _ =>
      let feet := if h.ch.foot.isEmpty then [⟨0, 0, 2 ^ 48, true, false⟩, ⟨1, 0, 2 ^ 21, true, false⟩]
        else h.ch.foot.filter (fun f => !f.gated)
      s.when_ (!h.ch.begun && h.atBody && launchReady h.ce.ops op false && h.jb.edgesClear op feet)
        { h with ch := { h.ch with begun := true } }.close

/-- Whether a chain stands blocked on one of the waits of R293: of a word, or of a HALO. -/
def Chain.stalled (c : Chain) : Bool :=
  match c.wait with
  | some (.sem ..) | some (.rime ..) | some (.ringFree _) | some .stage => true
  | _ => false

end Sys2Proof.Machine
end

