-- ==== Sys2Proof/Machine/Transfer.lean ====
section
/-!
DEFINITION. Transfers of a copy engine: tensor shapes (19 R282 to R284), COPY, WALK and HALO (R280, R285, R286), and how a transfer
reads and writes (R274, R279, R287 to R290).
-/
namespace Sys2Proof.Machine
open Sys2Proof

/-! ## Tensor shape records (R282, R283) -/

/-- `n` bytes of a record as a number. -/
def rb (r : List Byte) (i n : Nat) : Nat := leNat ((r.drop i).take n)

def allZero (l : List Byte) : Bool := l.all (· == 0)

def shKind (r : List Byte) : Nat := rb r 0 1
def shRank (r : List Byte) : Nat := rb r 1 1
def shFmt (r : List Byte) : Nat := rb r 3 1
def shEt (r : List Byte) : ET := (etOf (rb r 2 1)).getD .f32
def shExt (r : List Byte) (d : Nat) : Nat := rb r (32 + 12 * d) 4
def shStride (r : List Byte) (d : Nat) : Int := sint 64 (rb r (36 + 12 * d) 8)
def shFill (r : List Byte) : Nat := rb r 244 4
/-- The bits of an element: 4 for CB4. -/
def shBits (r : List Byte) : Nat := if shFmt r = 2 then 4 else etBits (shEt r)

/-- A window: positions, extent, stride, padding before, dimension. -/
structure Win where
  out : Nat
  wx : Nat
  ws : Nat
  pad : Nat
  dim : Nat
  deriving DecidableEq, Repr

def shWin (r : List Byte) (j : Nat) : Win :=
  ⟨rb r (224 + 8 * j) 2, rb r (226 + 8 * j) 2, rb r (228 + 8 * j) 2, rb r (230 + 8 * j) 2, rb r (240 + j) 1⟩

/-- The windows in use. -/
def shWins (r : List Byte) : List Win :=
  if shKind r = 1 then shWin r 0 :: (if (shWin r 1).wx = 0 then [] else [shWin r 1]) else []

/-- CHECK (R283). -/
def shCheck (r : List Byte) : Nat :=
  (List.range 128).foldl (fun x i => if i = 2 then x else x ^^^ rb r (2 * i) 2) 0xA55A

def winGood (r : List Byte) (w : Win) : Bool := w.wx != 0 && w.ws != 0 && w.out != 0 && w.dim < shRank r

def shGood (r : List Byte) : Bool :=
  shKind r ≤ 1 && 1 ≤ shRank r && shRank r ≤ 16 && rb r 2 1 ≤ 9 && (shFmt r == 0 || shFmt r == 2) &&
  rb r 4 2 == shCheck r && allZero ((r.drop 6).take 26) && allZero ((r.drop 242).take 2) && allZero ((r.drop 248).take 8) &&
  allZero ((r.drop (32 + 12 * shRank r)).take (12 * (16 - shRank r))) &&
  (if shKind r = 0 then allZero ((r.drop 224).take 24)
   else winGood r (shWin r 0) &&
    (if (shWin r 1).wx = 0 then allZero ((r.drop 232).take 8) && rb r 241 1 == 0
     else winGood r (shWin r 1) && (shWin r 1).dim != (shWin r 0).dim))

/-! ## The walk space (R285) -/

/-- Its extents, the innermost first. -/
def walkExt (r : List Byte) : List Nat :=
  (List.range (shRank r)).map (fun d => match (shWins r).find? (fun w => w.dim == d) with
    | some w => w.wx
    | none => shExt r d) ++ (shWins r).map (·.out)

def walkCount (r : List Byte) : Nat := (walkExt r).foldl (· * ·) 1

/-- The indices of point `p`. -/
def digits : List Nat → Nat → List Nat
  | [], _ => []
  | e :: es, p => p % e :: digits es (p / e)

/-- The index of dimension `d` at a point. -/
def walkIndex (r : List Byte) (ix : List Nat) (d : Nat) : Int :=
  match (shWins r).findIdx? (fun w => w.dim == d) with
  | some j =>
    let w := shWin r j
    ((ix[shRank r + j]?).getD 0 * w.ws + (ix[d]?).getD 0 : Nat) - (w.pad : Int)
  | none => (ix[d]?).getD 0

/-- Where a point's element stands, in nibbles from the source; none for FILL. -/
def walkElem (r : List Byte) (p : Nat) : Option Int :=
  let ix := digits (walkExt r) p
  let is := (List.range (shRank r)).map (walkIndex r ix)
  if is.zipIdx.any (fun e => e.1 < 0 || (shExt r e.2 : Int) ≤ e.1) then none
  else some (is.zipIdx.foldl (fun a e => a + e.1 * shStride r e.2 * (shBits r / 4 : Nat)) 0)

/-- Where a point lands under a plain destination record, in nibbles. -/
def walkDest (r dst : List Byte) (p : Nat) : Int :=
  (digits (walkExt r) p).zipIdx.foldl (fun a e => a + e.1 * shStride dst e.2 * (shBits r / 4 : Nat)) 0

/-- Whether a destination record fits the walk of a source. -/
def walkFits (r dst : List Byte) : Bool :=
  shKind dst == 0 && shRank dst == (walkExt r).length && rb r 2 2 == rb dst 2 2 &&
    (List.range (shRank dst)).map (shExt dst) == walkExt r

/-! ## Pieces: an aligned 8-byte word of the output, or a point of a WALK with DD = 0 -/

inductive NSrc where
  | fill (v : Nat)
  | at (nib : Int)
  | keep                        -- the nibble is not written
  deriving DecidableEq, Repr

inductive BSrc where
  | fill (v : Nat)
  | byte (off : Int)
  | nibs (lo hi : NSrc)
  deriving DecidableEq, Repr

structure Piece where
  off : Int
  bs : List BSrc
  deriving DecidableEq, Repr

def nibOf (r : List Byte) (src : Nat) (p : Nat) : NSrc :=
  match walkElem r p with
  | some n => .at (2 * (src : Int) + n)
  | none => .fill (shFill r % 16)

def byteOf (r : List Byte) (src : Nat) (p k : Nat) : BSrc :=
  match walkElem r p with
  | some n => .byte ((2 * (src : Int) + n) / 2 + k)
  | none => .fill (fld (shFill r) (8 * k) 8)

/-- Byte `b` of a dense walk. -/
def denseByte (r : List Byte) (src b : Nat) : BSrc :=
  if shBits r = 4 then
    .nibs (nibOf r src (2 * b)) (if 2 * b + 1 < walkCount r then nibOf r src (2 * b + 1) else .keep)
  else byteOf r src (b / (shBits r / 8)) (b % (shBits r / 8))

def denseBytes (r : List Byte) : Nat := (walkCount r * shBits r + 7) / 8

/-- The words of a run of `n` bytes at `d`. -/
def wordCount (d n : Nat) : Nat := if n = 0 then 0 else (d + n - 1) / 8 - d / 8 + 1

def wordPiece (d n k : Nat) (f : Nat → BSrc) : Piece :=
  let lo := max d (8 * (d / 8 + k))
  let hi := min (d + n) (8 * (d / 8 + k) + 8)
  ⟨lo, (List.range' (lo - d) (hi - lo)).map f⟩

/-- A point of a WALK with DD = 0. -/
def pointPiece (r dst : List Byte) (src d p : Nat) : Piece :=
  let n := 2 * (d : Int) + walkDest r dst p
  if shBits r = 4 then
    ⟨n / 2, [if n % 2 = 0 then .nibs (nibOf r src p) .keep else .nibs .keep (nibOf r src p)]⟩
  else ⟨n / 2, (List.range (shBits r / 8)).map (byteOf r src p)⟩

/-- The run of bytes that a transfer writes, where it is one. -/
def Xfer.run (k : Xfer) : Option Nat :=
  match k with
  | .copy n => some n
  | .walk r none => some (denseBytes r)
  | .halo r => some (denseBytes r)
  | _ => none

def Transfer.srcA (x : Transfer) : EAddr := (eaddr x.src.toNat).getD ⟨0, 0, 0⟩
def Transfer.dstA (x : Transfer) : EAddr := (eaddr x.dst.toNat).getD ⟨0, 0, 0⟩

def Transfer.pieces (x : Transfer) : Nat :=
  match x.kind, x.kind.run with
  | .walk r (some _), _ => walkCount r
  | _, some n => wordCount x.dstA.off n
  | _, none => 0

def Transfer.piece (x : Transfer) (k : Nat) : Piece :=
  match x.kind with
  | .copy n => wordPiece x.dstA.off n k (fun b => .byte (x.srcA.off + b))
  | .walk r none => wordPiece x.dstA.off (denseBytes r) k (denseByte r x.srcA.off)
  | .halo r => wordPiece x.dstA.off (denseBytes r) k (denseByte r x.srcA.off)
  | .walk r (some d) => pointPiece r d x.srcA.off x.dstA.off k
  | .codec .. => ⟨0, []⟩

def Transfer.isHalo (x : Transfer) : Bool :=
  match x.kind with
  | .halo _ => true
  | _ => false

/-- Whether a transfer writes every byte of the 4 KiB block at `b`, and whether piece `k` is the last that it writes there. -/
def Transfer.coversBlock (x : Transfer) (b : Int) : Bool :=
  match x.kind.run, x.dstA.sp with
  | _, 1 | _, 2 => false
  | some n, _ => (x.dstA.off : Int) ≤ b && b + 4096 ≤ x.dstA.off + n
  | none, _ =>
    let ps := (List.range x.pieces).map x.piece
    (List.range 8192).all (fun i => ps.any (fun p => p.bs.zipIdx.any (fun e =>
      2 * (p.off + e.2) ≤ 2 * b + i && 2 * b + i ≤ 2 * (p.off + e.2) + 1 &&
      (match e.1 with
        | .nibs .keep _ => i % 2 == 1
        | .nibs _ .keep => i % 2 == 0
        | _ => true))))

def Piece.inBlock (p : Piece) (b : Int) : Bool := b < p.off + p.bs.length && p.off < b + 4096

def Transfer.lastInBlock (x : Transfer) (b : Int) (k : Nat) : Bool :=
  (List.range' (k + 1) (x.pieces - k - 1)).all (fun i => !(x.piece i).inBlock b)

/-- The steps in which a transfer is formed: its pieces; a codec routine is one. -/
def Transfer.steps (x : Transfer) : Nat :=
  match x.kind with
  | .codec .. => 1
  | _ => x.pieces

/-- Whether its writes are performed in the bank, without a hold (R287). -/
def Transfer.direct (x : Transfer) : Bool := x.dstA.sp == 1

/-- Whether piece `k` of a run is the last in a 64-byte granule that the run covers whole. -/
def Transfer.freshens (x : Transfer) (k : Nat) : Bool :=
  match x.kind.run with
  | some n =>
    let e := (x.piece k).off + (x.piece k).bs.length
    e % 64 == 0 && (x.dstA.off : Int) ≤ e - 64 && e ≤ x.dstA.off + n
  | none => false

/-! ## Accesses of an engine -/

/-- What stops an access. -/
inductive XFail where
  | page (f : AccFail) (addr : Word) (write remote : Bool)
  | chain (kind : Nat)
  | tag (t : Tag) (slab : Nat)
  | lost
  | wait (at_ : Option HaloSlab)   -- a HALO names the slab at which it stands
  deriving DecidableEq, Repr

/-- Who makes it: cell, engine, job, and the chain with the region and pointer of the word. -/
structure XEnv where
  c : CellId
  e : BitVec 1
  uid : Nat
  who : Who
  ch : Chain

/-- The target's own carve-out is named as S names it. -/
def Package.asOwn (p : Package) (v : XEnv) (t : Target) : Target :=
  match t with
  | .cell d off =>
    if d = v.c.cell && ((p.cell d).bind (fun x => x.resident v.who.ctx)).any (fun j => j.uid == v.uid) then .carve off else t
  | t => t

/-- An F access at package `i`. -/
def State.xTarget (s : State) (v : XEnv) (i va n : Nat) (acc : Acc) (addr : Word) : Except XFail (Nat × Who × Target) :=
  let w : Who := ⟨v.who.ctx, v.who.secure, none⟩
  match s.pkg i with
  | none => .error .lost
  | some q =>
    match q.forward v.who.ctx va with
    | some m =>
      (match s.forwardTo i q m w va acc with
        | .error f => .error (.page f addr acc.writes true)
        | .ok (.peer k a va cm) => .ok (k, w, .hbm a va cm)
        | .ok t => .ok (i, w, t))
    | none =>
      match q.translate w va n acc with
      | .error f => .error (.page f addr acc.writes true)
      | .ok t => .ok (i, w, t)

/-- The package, the accessor and the target of `n` bytes of a space that lie in one page (R274, 05 R61 to R64, R380). -/
def State.xAt (s : State) (v : XEnv) (a : EAddr) (off : Int) (n : Nat) (acc : Acc) : Except XFail (Nat × Who × Target) :=
  let addr := a.wordAt off
  let bad (f : AccFail) : Except XFail (Nat × Who × Target) := .error (.page f addr acc.writes false)
  if off < 0 || (a.limit : Int) < off + n then bad (.page .bounds)
  else match s.pkg v.c.pkg with
    | none => .error .lost
    | some p =>
      let o := off.toNat
      match a.sp with
      | 0 =>
        (match p.translate v.who o n acc with
          | .error f => bad f
          | .ok t => .ok (v.c.pkg, v.who, p.asOwn v t))
      | 1 =>
        (match (p.cell v.c.cell).bind (fun x => x.jobBy v.uid) with
          | some j => if j.limit < o + n then bad (.page .bounds) else .ok (v.c.pkg, v.who, .carve o)
          | none => .error .lost)
      | 2 =>
        if placeReserved a.hi || fld a.hi 11 1 != dieOf v.c.cell || !p.live (cellOfPlace a.hi) then bad (.page .place)
        else
          (match (p.cell (cellOfPlace a.hi)).bind (fun x => if cellOfPlace a.hi = v.c.cell then x.jobBy v.uid
              else x.resident v.who.ctx) with
            | none => bad (.page .absent)
            | some j => if j.limit < o + n then bad (.page .bounds)
                else .ok (v.c.pkg, v.who, p.asOwn v (.cell (cellOfPlace a.hi) o)))
      | _ =>
        let c := BitVec.ofNat 10 a.hi
        if !(p.firn.inExtent c && (p.firn.level != 0 || c == p.firn.self)) then bad (.page .bounds)
        else if !s.reaches p c || !((s.pkg ((s.pkgAt (p.firn.physical c)).getD 0)).map (fun q =>
            q.answers c v.who.ctx v.who.secure)).getD false then .error .lost
        else s.xTarget v ((s.pkgAt (p.firn.physical c)).getD 0) o n acc addr

/-- Whether a chain's footprint admits a granule (R281): N and F addresses never fault. -/
def Chain.inFoot (c : Chain) (a : EAddr) (off : Int) (write : Bool) : Bool :=
  2 ≤ a.sp || c.foot.isEmpty ||
    c.foot.any (fun f => f.space == a.sp && f.write == write && (f.base / 64 : Int) ≤ off / 64 &&
      off / 64 ≤ (((f.base + f.len - 1) / 64 : Nat) : Int))

/-- The slabs that a target touches: their tags. -/
def Package.slabTags (p : Package) (ctx cell uid : Nat) (t : Target) (n : Nat) : List Tag :=
  match p.slabAt ctx cell uid t with
  | some (c, u, off) => (((p.cell c).bind (fun x => x.jobBy u)).map (fun j => (slabsOf off n).map j.tag)).getD []
  | none => []

/-- The compressed block of a target whose tag says that its payload holds poison (R289). -/
def Package.psnBlock (p : Package) (t : Target) : Bool :=
  match t with
  | .hbm a _ true => ctagFmt (p.ctag (a / 4096)) != 0 && bitAt (p.ctag (a / 4096)).toNat 4
  | _ => false

/-- Read `n` bytes of one page, with their poison; a slab that is FILLING or in ERROR is a race (R290). -/
def State.xRead (s : State) (v : XEnv) (a : EAddr) (off : Int) (n : Nat) : Except XFail (List Byte × Bool) :=
  if !(v.ch.inFoot a off false && v.ch.inFoot a (off + n - 1) false) then .error (.chain 6)
  else match s.xAt v a off n .engRead with
    | .error f => .error f
    | .ok (i, w, t) =>
      match s.pkg i with
      | none => .error .lost
      | some q =>
        let r := q.readTarget w.ctx v.c.cell v.uid t n
        if (q.slabTags w.ctx v.c.cell v.uid t n).any (fun t => t.st == .filling || t.st == .error) then .error (.chain 9)
        else .ok (r.1, r.2 == .data || q.psnBlock t)

/-- The job that a HALO resolves when it first reaches a slab (20 R301), and keeps for it. -/
def State.haloJob (s : State) (v : XEnv) (a : EAddr) (off : Int) (cell : Nat) (seen : List HaloSlab) : Except XFail Nat :=
  match seen.find? (fun e => e.cell == cell && e.slab == off.toNat / 2048) with
  | some e => .ok e.uid
  | none =>
    match s.xAt v a off 1 .engRead with
    | .error f => .error f
    | .ok (i, w, t) =>
      match (s.pkg i).bind (fun q => q.slabAt w.ctx v.c.cell v.uid t) with
      | some (_, u, _) => .ok u
      | none => .error .lost

/-- A HALO reads one byte of S or N once its slab has been FULL (R286): with its poison, and the slabs reached. A job that was
resolved and is gone is absent (DEDUCED, notes/assumptions/27.md). -/
def State.haloRead (s : State) (v : XEnv) (a : EAddr) (off : Int) (seen : List HaloSlab) :
    Except XFail (List Byte × Bool × List HaloSlab) :=
  let cell := if a.sp = 1 then v.c.cell else cellOfPlace a.hi
  let sl := off.toNat / 2048
  if !v.ch.inFoot a off false then .error (.chain 6)
  else match s.haloJob v a off cell seen with
    | .error f => .error f
    | .ok u =>
      match (s.pkg v.c.pkg).bind (fun p => (p.cell cell).bind (fun x => x.jobBy u)) with
      | none => .error (.page (.page .absent) (a.wordAt off) false false)
      | some j =>
        let rest := seen.filter (fun e => !(e.cell == cell && e.slab == sl))
        let r := j.read off.toNat 1
        if seen.contains ⟨cell, sl, u, true⟩ || (j.tag sl).st == .full then
          .ok (r.1, r.2 == .data, rest ++ [⟨cell, sl, u, true⟩])
        else if (j.tag sl).st == .error then .error (.tag (j.tag sl) sl)
        else .error (.wait (some ⟨cell, sl, u, false⟩))

/-- Marks after bytes with their poison have been written at an offset. -/
def markBytes (marks : List Nat) (off : Nat) (ps : List Bool) (fresh : Bool) : List Nat :=
  let m := if fresh && !ps.any id then marks.filter (· != (off + ps.length - 1) / 64) else marks
  ps.zipIdx.foldl (fun m e => if e.1 then addOnce m ((off + e.2) / 64) else m) m

/-- Bytes written into a carve-out by an engine: they count in their slab (R287, R289). `own` is the region whose rollback
undoes them. -/
def Package.slabWrite (p : Package) (cell uid off : Nat) (bs : List (Byte × Bool)) (fresh : Bool) (own : Option Nat)
    (src ptr : Nat) : Package :=
  let q := p.modJob cell uid (fun j => j.copyWrite own off (bs.map (·.1)) (markBytes j.marks off (bs.map (·.2)) fresh))
  q.arrive cell uid off bs.length (bs.any (·.2)) own src ptr

/-- A write into a carve-out that a target names. -/
def Package.xSlab (p : Package) (v : XEnv) (t : Target) (bs : List (Byte × Bool)) (fresh : Bool) : Package :=
  let src := (ceOf v.e).src
  let ptr := v.ch.ptr.toNat
  match t with
  | .carve off => p.slabWrite v.c.cell v.uid off bs fresh (some v.ch.region) src ptr
  | .cell c off =>
    (match (p.cell c).bind (fun x => x.resident v.who.ctx) with
      | some j => p.slabWrite c j.uid off bs fresh (if j.uid = v.uid then some v.ch.region else none) src ptr
      | none => p)
  | _ => p

/-- Write bytes of one page, with their poison. `whole` says that the transfer writes the whole 4 KiB block; a write to a
lost package leaves a fault record (R288). -/
def State.xWrite (s : State) (v : XEnv) (a : EAddr) (off : Int) (bs : List (Byte × Bool)) (whole fresh : Bool) :
    Except XFail State :=
  if !(v.ch.inFoot a off true && v.ch.inFoot a (off + bs.length - 1) true) then .error (.chain 6)
  else match s.xAt v a off bs.length .engWrite with
    | .error .lost =>
      .ok (s.modPkg v.c.pkg (fun p => p.faultRecord v.who.ctx (placeOfCell v.c.cell) (ceOf v.e).src 0x02 0 v.ch.ptr.toNat
        (a.wordAt off).toNat))
    | .error f => .error f
    | .ok (i, w, t) =>
      match s.pkg i with
      | none => .error .lost
      | some q =>
        match t with
        | .hbm ad va cm =>
          if q.migrating w va then .error (.wait none)
          else if cm && ctagFmt (q.ctag (ad / 4096)) != 0 && !whole then
            .error (.page (.page .compressed) (a.wordAt off) true (a.sp == 3))
          else
            let q1 := q.noteStale w.ctx v.c.cell v.uid t bs.length
            .ok (s.setPkg i { q1 with hbm := memWrite q1.hbm ad (bs.map (·.1)), marks := markBytes q1.marks ad (bs.map (·.2)) fresh })
        | .hostMem fn ad =>
          .ok (s.setPkg i ((q.noteStale w.ctx v.c.cell v.uid t bs.length).writeHost fn ad (bs.map (·.1))))
        | t =>
          if q.mayArriveAt w.ctx v.c.cell v.uid t bs.length then
            .ok (s.setPkg i ((q.noteStale w.ctx v.c.cell v.uid t bs.length).xSlab v t bs fresh))
          else .error (.wait none)

/-- The same where the bytes may cross into a second page; `whole` answers for each block. -/
def State.xWriteAll (s : State) (v : XEnv) (a : EAddr) (off : Int) (bs : List (Byte × Bool)) (whole : Int → Bool)
    (fresh : Bool) : Except XFail State :=
  let b := off / 4096 * 4096
  let k := (b + 4096 - off).toNat
  if bs.length ≤ k then s.xWrite v a off bs (whole b) fresh
  else match s.xWrite v a off (bs.take k) (whole b) fresh with
    | .error f => .error f
    | .ok s1 => s1.xWrite v a (b + 4096) (bs.drop k) (whole (b + 4096)) fresh

/-- Set the compression tag of the block of an address. -/
def State.xTag (s : State) (v : XEnv) (a : EAddr) (off : Int) (tag : BitVec 16) : State :=
  match s.xAt v a off 1 .engWrite with
  | .ok (i, _, .hbm ad _ true) => s.modPkg i (fun q => q.setCtag (ad / 4096) tag)
  | _ => s

/-! ## Forming a piece (R279, R287) -/

/-- One byte of a piece, with its poison; a nibble that is kept is 0 until the write. -/
def State.xByte (s : State) (v : XEnv) (x : Transfer) (seen : List HaloSlab) (b : BSrc) :
    Except XFail (Byte × Bool × List HaloSlab) :=
  let rd (off : Int) (seen : List HaloSlab) : Except XFail (Byte × Bool × List HaloSlab) :=
    match (if x.isHalo then s.haloRead v x.srcA off seen else (s.xRead v x.srcA off 1).map (fun r => (r.1, r.2, seen))) with
    | .error f => .error f
    | .ok (bs, p, l) => .ok (bs.headD 0, p, l)
  let nib (n : NSrc) (seen : List HaloSlab) : Except XFail (Nat × Bool × List HaloSlab) :=
    match n with
    | .fill v => .ok (v, false, seen)
    | .keep => .ok (0, false, seen)
    | .at k =>
      match rd (k / 2) seen with
      | .error f => .error f
      | .ok (b, p, l) => .ok (if k % 2 = 0 then b.toNat % 16 else b.toNat / 16, p, l)
  match b with
  | .fill v => .ok (BitVec.ofNat 8 v, false, seen)
  | .byte off => rd off seen
  | .nibs lo hi =>
    match nib lo seen with
    | .error f => .error f
    | .ok (l, p, seen1) =>
      match nib hi seen1 with
      | .error f => .error f
      | .ok (h, q, seen2) => .ok (BitVec.ofNat 8 (l + 16 * h), p || q, seen2)

/-- The bytes of a piece. -/
def State.xBytes (s : State) (v : XEnv) (x : Transfer) (seen : List HaloSlab) :
    List BSrc → Except XFail (List (Byte × Bool) × List HaloSlab)
  | [] => .ok ([], seen)
  | b :: bs =>
    match s.xByte v x seen b with
    | .error f => .error f
    | .ok (y, p, l) =>
      match s.xBytes v x l bs with
      | .error f => .error f
      | .ok (ys, l') => .ok ((y, p) :: ys, l')

/-- The engine's own check of a held destination, where the transfer uses it (R274); F is checked at its target. -/
def State.xCheck (s : State) (v : XEnv) (x : Transfer) (p : Piece) : Option XFail :=
  if x.direct || x.dstA.sp == 3 || p.bs.isEmpty then none
  else match s.xAt v x.dstA p.off 1 .engWrite, s.xAt v x.dstA (p.off + p.bs.length - 1) 1 .engWrite with
    | .error .lost, _ | _, .error .lost => none
    | .error f, _ | _, .error f => some f
    | _, _ => none

/-- One more piece is formed. -/
def State.formPiece (s : State) (v : XEnv) (x : Transfer) : Except XFail Transfer :=
  let p := x.piece x.at_
  match s.xCheck v x p, s.xBytes v x x.slabs p.bs with
  | some f, _ => .error f
  | none, .error f => .error f
  | none, .ok (bs, seen) => .ok { x with at_ := x.at_ + 1, slabs := seen, formed := x.formed ++ [.piece x.at_ bs] }

/-! ## Writing what has been formed -/

/-- A byte with the nibble that it keeps of what stands there. -/
def BSrc.merge (b : BSrc) (old y : Byte) : Byte :=
  match b with
  | .nibs .keep _ => BitVec.ofNat 8 (old.toNat % 16 + y.toNat / 16 * 16)
  | .nibs _ .keep => BitVec.ofNat 8 (y.toNat % 16 + old.toNat / 16 * 16)
  | _ => y

/-- The bytes that stand where a piece goes. -/
def State.xOld (s : State) (v : XEnv) (x : Transfer) (p : Piece) : List Byte :=
  match s.xAt v x.dstA p.off p.bs.length .engWrite with
  | .ok (i, w, t) => ((s.pkg i).map (fun q => (q.readTarget w.ctx v.c.cell v.uid t p.bs.length).1)).getD []
  | .error _ => []

/-- The engine addresses of the granules marked so far, and those that a run of bytes marks. -/
def Transfer.markRun (x : Transfer) (off : Int) (bs : List (Byte × Bool)) : Transfer :=
  { x with marked := bs.zipIdx.foldl (fun m e =>
      if e.1.2 then addOnce m (x.dstA.wordAt ((off + e.2) / 64 * 64)).toNat else m) x.marked }

/-- Whether the granule that ends at `e` has not been marked by the transfer. -/
def Transfer.unmarked (x : Transfer) (e : Int) : Bool := !x.marked.contains (x.dstA.wordAt ((e - 1) / 64 * 64)).toNat

/-- A piece is written. -/
def State.putPiece (s : State) (v : XEnv) (x : Transfer) (k : Nat) (bs : List (Byte × Bool)) : Except XFail (State × Transfer) :=
  let p := x.piece k
  let old := s.xOld v x p
  let ys := (bs.zip p.bs).zipIdx.map (fun e => (e.1.2.merge ((old[e.2]?).getD 0) e.1.1.1, e.1.1.2))
  match s.xWriteAll v x.dstA p.off ys x.coversBlock (x.freshens k && x.unmarked (p.off + bs.length)) with
  | .error f => .error f
  | .ok s1 =>
    let blocks := [p.off / 4096 * 4096, (p.off + bs.length - 1) / 4096 * 4096].eraseDups
    .ok (blocks.foldl (fun s b => if x.coversBlock b && x.lastInBlock b k then s.xTag v x.dstA b 0 else s) s1, x.markRun p.off bs)

/-! ## SHAPE (R284) and the issue of transfers -/

def EHere.env (h : EHere) : XEnv := ⟨h.id, h.e, h.jb.uid, h.who, h.ch⟩

/-- SHAPE n: one read of 256 bytes. -/
def execWShape (n : BitVec 2) (s : State) : Out :=
  onBody s fun h => h.needs 1 0 fun l h => h.withAddr (topN l 0) 256 [0, 1] .engRead fun a h =>
    match h.close.xRead { h.env with ch := { h.ch with foot := [] } } a a.off 256 with
    | .error (.page f addr _ _) => h.accFail f .engRead (inSpace addr)
    | .error (.chain k) => h.chainFault k
    | .error _ => h
    | .ok (_, true) => h.accFail .poisoned .engRead (inSpace (topN l 0))
    | .ok (r, false) =>
      if shGood r then
        let h1 := h.done 1 []
        { h1 with ch := { h1.ch with shapes := h1.ch.shapes.set n.toFin (some r) } }
      else h.chainFault 7

/-- A transfer issues: the chain goes on without waiting for it. It stalls while the cell holds 8,192 requests (07 R94). -/
def EHere.transfer (h : EHere) (pops : Nat) (kind : Xfer) (src dst : Word) : EHere :=
  let x : Transfer :=
    { id := h.s.nextId, chain := h.ch.id, region := h.region, ptr := h.ch.ptr, kind := kind, src := src, dst := dst
      at_ := 0, formed := [], formedAt := 0, halted := false, blocked := false, slabs := [], marked := [] }
  if 8192 ≤ cellRequests h.ce.ops h.jb then h
  else (({ h with s := { h.s with nextId := h.s.nextId + 1 } }).modEng (fun e => { e with xfers := e.xfers ++ [x] })).done pops []

/-- A byte count fits both spaces (R280). -/
def countFits (n : Nat) (a b : EAddr) : Bool := n != 0 && n < 2 ^ 48 && a.off + n ≤ a.limit && b.off + n ≤ b.limit

/-- COPY. -/
def execWCopy (c : BitVec 8) (s : State) : Out :=
  onBody s fun h =>
    let k := if c = 0 then 1 else 0
    h.needs (k + 2) 0 fun l h =>
      h.withAddr (topN l k) 1 [0, 1, 2, 3] .engWrite fun d h => h.withAddr (topN l (k + 1)) 1 [0, 1, 2, 3] .engRead fun a h =>
        let n := if c = 0 then (topN l 0).toNat else 64 * c.toNat
        if countFits n a d then h.transfer (k + 2) (.copy n) (topN l (k + 1)) (topN l k) else h.chainFault 4

/-- A shape register that must hold a record. -/
def EHere.withShape (h : EHere) (n : BitVec 2) (g : List Byte → EHere → EHere) : EHere :=
  match h.ch.shapes[n.toFin] with
  | some r => g r h
  | none => h.chainFault 7

/-- WALK: the destination on top, then the source. With DD = 1 the destination register must be named 0 (R285). -/
def execWWalk (dd : Bool) (d sr : BitVec 2) (s : State) : Out :=
  onBody s fun h => if dd && d != 0 then h.chainFault 4 else h.needs 2 0 fun l h =>
    h.withAddr (topN l 0) 1 [0, 1, 2, 3] .engWrite fun _ h => h.withAddr (topN l 1) 1 [0, 1, 2, 3] .engRead fun _ h =>
      h.withShape sr fun r h =>
        if dd then h.transfer 2 (.walk r none) (topN l 1) (topN l 0)
        else h.withShape d fun q h =>
          if walkFits r q then h.transfer 2 (.walk r (some q)) (topN l 1) (topN l 0) else h.chainFault 7

/-- HALO. -/
def execWHalo (sr : BitVec 2) (s : State) : Out :=
  onBody s fun h => h.needs 2 0 fun l h =>
    h.withAddr (topN l 0) 1 [0, 1, 2, 3] .engWrite fun _ h => h.withAddr (topN l 1) 1 [1, 2] .engRead fun _ h =>
      h.withShape sr fun r h => h.transfer 2 (.halo r) (topN l 1) (topN l 0)

end Sys2Proof.Machine
end

