-- ==== Sys2Proof/Machine/Codec.lean ====
section
/-!
DEFINITION. The codec routines (19 R294, R295; 05 R72 to R74; 03 R42): what each reads and what it forms. A routine runs whole in
one step.
-/
namespace Sys2Proof.Machine
open Sys2Proof

/-! ## Runs of bytes -/

/-- Read `n` bytes, granule by granule, each byte with its granule's poison. -/
def State.xReadRun (s : State) (v : XEnv) (a : EAddr) : Nat → Int → Nat → Except XFail (List (Byte × Bool))
  | 0, _, _ => .ok []
  | fuel + 1, off, n =>
    if n = 0 then .ok []
    else
      let k := min n (64 - off % 64).toNat
      match s.xRead v a off k with
      | .error f => .error f
      | .ok (bs, p) =>
        match s.xReadRun v a fuel (off + k) (n - k) with
        | .error f => .error f
        | .ok l => .ok (bs.map (fun b => (b, p)) ++ l)

def State.xReads (s : State) (v : XEnv) (a : EAddr) (off : Int) (n : Nat) : Except XFail (List (Byte × Bool)) :=
  s.xReadRun v a (n / 64 + 2) off n

/-- What a routine has formed, in order; what stopped it, or the KIND with which its decode ended (05 R69). -/
structure CRes where
  outs : List XOut
  stop : Option XFail
  err : Option (BitVec 4)

def CRes.none_ : CRes := ⟨[], none, none⟩
def CRes.fail (f : XFail) : CRes := ⟨[], some f, none⟩
def CRes.out (l : List XOut) : CRes := ⟨l, none, none⟩

/-- What comes after: nothing once the routine has stopped. -/
def CRes.andThen (r : CRes) (q : CRes) : CRes :=
  if r.stop.isSome || r.err.isSome then r else ⟨r.outs ++ q.outs, q.stop, q.err⟩

/-- A run of bytes from an offset on. -/
def outRun (off : Int) (bs : List (Byte × Bool)) : XOut := .bytes off off bs

def flagAll (p : Bool) (bs : List Byte) : List (Byte × Bool) := bs.map (fun b => (b, p))
def anyFlag (bs : List (Byte × Bool)) : Bool := bs.any (·.2)

/-! ## Packed elements (03 R44) -/

def packEls (bits : Nat) (l : List Nat) : List Byte :=
  natLe (l.foldr (fun e n => e % 2 ^ bits + 2 ^ bits * n) 0) ((l.length * bits + 7) / 8)

def elsOf (bits n : Nat) (bs : List Byte) : List Nat :=
  let w := leNat bs
  (List.range n).map (fun i => fld w (bits * i) bits)

def padUnits (n : Nat) : Nat := (n + 63) / 64 * 64

/-! ## Decoding a block (05 R72, R73) -/

/-- What a decode writes: its main output, the side list of routine 6 with its declared length, and the error with which it ends. -/
structure Dec where
  out : List Byte
  side : List Byte
  sideLen : Nat
  err : Option (BitVec 4)

/-- The comparison of LEN x 64 with the payload length that the stored header requires: length over, length under
(DESIGN CHOICE, notes/assumptions/26.md for what a short decode has written). -/
def judge (pay : List Byte) (req : Nat) (out side : List Byte) : Dec :=
  if padUnits req < pay.length then ⟨out, side, side.length, some 5⟩
  else if pay.length < padUnits req then ⟨out.take (min (Config.shortOutput pay) (out.length - 1)), [], side.length, some 6⟩
  else ⟨out, side, side.length, none⟩

def Dec.malformed : Dec := ⟨[], [], 0, some 7⟩

/-- The elements of a ZBM block: the stored ones in their places, zero elsewhere. -/
def zbmFill (stored : List Nat) : List Bool → List Nat
  | [] => []
  | b :: bs => if b then stored.headD 0 :: zbmFill stored.tail bs else 0 :: zbmFill stored bs

def decodeZbm (bits : Nat) (pay : List Byte) : Dec :=
  let n := 32768 / bits
  let map := leNat (padTo (n / 8) pay)
  let present := (List.range n).map (bitAt map)
  let k := (present.filter id).length
  let stored := elsOf bits k (pay.drop (n / 8))
  judge pay (n / 8 + (k * bits + 7) / 8) (packEls bits (zbmFill stored present)) []

/-- The codebook of a CB4 block: a 1-byte type has high bytes of zero, and the size is 1 to 16. -/
def cb4Good (bits : Nat) (pay : List Byte) : Bool :=
  1 ≤ rb pay 32 1 && rb pay 32 1 ≤ 16 && allZero ((pay.drop 33).take 31) &&
    (bits != 8 || (List.range 16).all (fun i => rb pay (2 * i + 1) 1 == 0))

def decodeCb4 (bits : Nat) (pay : List Byte) : Dec :=
  let n := 32768 / bits
  if cb4Good bits pay then judge pay (64 + n / 2) (padTo (64 + n / 2) pay) [] else Dec.malformed

/-- Element (i, j) of an LRF block. -/
def lrfElem (q : Nat) (pay : List Byte) (i j : Nat) : Nat :=
  let acc := (List.range q).foldl (fun acc t =>
    let u := fmtBF16.decode (rb pay (64 + 2 * q * i + 2 * t) 2)
    let w := fmtBF16.decode (rb pay (64 + 64 * q + 128 * t + 2 * j) 2)
    rneF32 ((fmtF32.decode acc).add (.mode .rne) (u.mul w))) 0
  (fmtBF16.convert (.mode .rne) false false (fmtF32.decode acc)).1

def decodeLrf (pay : List Byte) : Dec :=
  let q := rb pay 0 1
  if q = 0 || 16 < q || !allZero ((pay.drop 1).take 63) then Dec.malformed
  else judge pay (64 + 192 * q)
    (packEls 16 ((List.range 32).flatMap (fun i => (List.range 64).map (lrfElem q pay i)))) []

/-- The descriptors of an OSQ block. -/
def osqGood (pay : List Byte) : Bool :=
  (List.range 32).all (fun b => rb pay (4 * b + 1) 1 ≤ 8 && rb pay (4 * b + 2) 1 ≤ 56 && rb pay (4 * b + 3) 1 == 0)

/-- The side entries: block by block, each in its own block, ascending. -/
def osqSideGood (counts : List Nat) (ents : List Nat) : Bool :=
  let own := counts.zipIdx.flatMap (fun e => List.replicate e.1 e.2)
  (List.zipWith (fun b e => e % 2 ^ 16 / 64 == b) own ents).all id &&
    (List.zipWith (fun a b => a % 2 ^ 16 < b % 2 ^ 16 || a % 2 ^ 16 / 64 != b % 2 ^ 16 / 64) ents ents.tail).all id

/-- A CO list (05 R75). -/
def coList (ents : List Nat) : List Byte :=
  let head := natLe ents.length 2 ++ natLe 0 2 ++ ents.flatMap (fun e => natLe (e % 2 ^ 16) 2)
  let h8 := padTo ((head.length + 7) / 8 * 8) head
  let vals := ents.flatMap (fun e => natLe (e / 2 ^ 16) 2)
  h8 ++ padTo ((vals.length + 7) / 8 * 8) vals

def decodeOsq (bits : Nat) (pay : List Byte) : Dec :=
  let counts := (List.range 32).map (fun b => rb pay (4 * b + 1) 1)
  let n := counts.foldl (· + ·) 0
  let body := 256 * bits
  let req := 128 + body + 4 * n
  let ents := (List.range n).map (fun i => rb pay (128 + body + 4 * i) 4)
  let scales := (List.range 64).map (fun i => BitVec.ofNat 8 (rb pay (4 * (i / 2)) 1))
  if !osqGood pay || (padUnits req ≤ pay.length && !osqSideGood counts ents) then Dec.malformed
  else judge pay req (padTo body (pay.drop 128) ++ scales) (coList ents)

/-- The format that routines 1, 3, 4 and 6 decode, and the element types it permits (R73). -/
def codecFmt (r : Nat) : Nat :=
  match r with
  | 1 => 1
  | 3 => 2
  | 4 => 3
  | _ => 4

def etPermitted (fmt et : Nat) : Bool :=
  match fmt with
  | 0 | 1 => et ≤ 9
  | 2 => et == 1 || et == 2 || et == 3 || et == 4 || et == 7
  | 3 => et == 1
  | _ => et == 3 || et == 4 || et == 5

/-- The declared size of a block's main output; an element type that is not permitted counts as one byte. -/
def declared (r et : Nat) : Nat :=
  let bits := match etOf et with | some t => etBits t | none => 8
  match r with
  | 1 | 4 => 4096
  | 3 => 64 + (if bits = 16 then 1024 else 2048)
  | _ => if et = 5 then 1088 else 2112

def decodeOf (r et : Nat) (pay : List Byte) : Dec :=
  let bits := match etOf et with | some t => etBits t | none => 8
  match r with
  | 1 => decodeZbm bits pay
  | 3 => decodeCb4 bits pay
  | 4 => decodeLrf pay
  | _ => decodeOsq bits pay

/-- The tag of a source block; a page without CM behaves as RAW. -/
def State.blockTag (s : State) (v : XEnv) (a : EAddr) (off : Int) : Except XFail (BitVec 16) :=
  match s.xAt v a off 1 .engRead with
  | .error f => .error f
  | .ok (i, _, .hbm ad _ true) => .ok (((s.pkg i).map (fun q => q.ctag (ad / 4096))).getD 0)
  | .ok _ => .ok 0

/-- Whether a granule of the source carries a mark. -/
def State.xMarked (s : State) (v : XEnv) (a : EAddr) (off : Int) (n : Nat) : Bool :=
  match s.xAt v a off n .engRead with
  | .ok (i, _, .hbm ad _ _) => ((s.pkg i).map (fun q => marked q.marks ad n)).getD false
  | _ => false

/-- A decoded block as it is written, and its errors entered. -/
def decWrite (d : Dec) (decl : Nat) (poison : Bool) (off side : Nat) : CRes where
  outs := [outRun off (flagAll poison d.out), outRun side (flagAll poison d.side)] ++ (match d.err with
    | some k => [.halt off decl k, .halt side d.sideLen k]
    | none => [])
  stop := none
  err := d.err

/-- One block of a decode (R295): the result, and the length of its side list. A block whose tag has PSN = 1 is decoded, and all that
comes from it is poisoned (R289); a marked granule of another one is consumption (23 R342). -/
def decodeBlock (s : State) (v : XEnv) (x : Transfer) (r : Nat) (i side : Nat) : CRes × Nat :=
  let a := x.srcA
  let off : Int := a.off + 4096 * i
  match s.blockTag v a off with
  | .error f => (CRes.fail f, 0)
  | .ok tag =>
    let et := ctagEt tag
    let out := x.dstA.off + i * declared r et
    let len := ctagLen tag
    let psn := bitAt tag.toNat 4
    if r = 1 && ctagFmt tag = 0 && et ≤ 9 then
      (match s.xReads v a off 4096 with
        | .error f => (CRes.fail f, 0)
        | .ok bs => (CRes.out [outRun out bs], 0))
    else if ctagFmt tag != codecFmt r || !etPermitted (codecFmt r) et || len = 0 || 64 < len then
      (decWrite Dec.malformed (declared r et) false out side, 0)
    else match s.xReads v a off (64 * len) with
      | .error f => (CRes.fail f, 0)
      | .ok pay =>
        if !psn && s.xMarked v a off (64 * len) then (CRes.fail (.page .poisoned (a.wordAt off) false false), 0)
        else
          let d := decodeOf r et (pay.map (·.1))
          (decWrite d (declared r et) psn out side, d.side.length)

/-- The blocks of a decode. -/
def decodeBlocks (s : State) (v : XEnv) (x : Transfer) (r : Nat) : Nat → Nat → Nat → CRes
  | 0, _, _ => CRes.none_
  | n + 1, i, side =>
    match decodeBlock s v x r i side with
    | (c, k) => c.andThen (decodeBlocks s v x r n (i + 1) (side + k))

/-! ## Encoding (05 R73, R74) -/

/-- e8m0_fit (03 R42) of a magnitude m * 2^e. -/
def e8m0Fit (f : Fmt) (m : Nat) (e : Int) : Nat :=
  if m = 0 then 0
  else ((List.range 255).find? (fun (k : Nat) => !magLt f.maxFin.1 (f.maxFin.2 + k - 127) m e)).getD 254

/-- The largest finite magnitude of a list, as a natural number and an exponent. -/
def largest (l : List Num) : Nat × Int :=
  l.foldl (fun b x => match x with
    | .fin _ m e => if magLt b.1 b.2 m e then (m, e) else b
    | _ => b) (0, 0)

/-- x / 2^(k - 127), exactly. -/
def Num.unscale (x : Num) (k : Nat) : Num :=
  match x with
  | .fin a m e => .fin a m (e - ((k : Int) - 127))
  | x => x

def Num.finite (x : Num) : Bool :=
  match x with
  | .fin .. => true
  | _ => false

/-- A list without an element's index more than once, sorted by descending key, then ascending index. -/
def insertKey (e : Nat × Nat) : List (Nat × Nat) → List (Nat × Nat)
  | [] => [e]
  | f :: l => if f.1 < e.1 then e :: f :: l else f :: insertKey e l

/-- The split of one block of 64 BF16 values: scale, side indices, clip count (R74). -/
structure Split where
  e : Nat
  side : List Nat
  clip : Nat

def osqSplit (f : Fmt) (t : Nat) (xs : List Nat) : Split :=
  let ns := xs.map fmtBF16.decode
  let sum := ns.foldl (fun m x => if x.finite then rneF32 ((fmtF32.decode m).add (.mode .rne) x.abs) else m) 0
  let mean := match fmtF32.decode sum with
    | .fin a m e => .fin a m (e - 6)
    | x => x
  let lim := fmtF32.decode (rneF32 ((fmtF16.decode t).mul mean))
  let cand := ns.zipIdx.filter (fun e => !e.1.finite || e.1.abs.cmp lim == some .gt)
  let keyed := cand.map (fun e => (if e.1.finite then (xs[e.2]?).getD 0 % 2 ^ 15 else 2 ^ 15, e.2))
  let order := keyed.foldl (fun l e => insertKey e l) []
  let side := (order.take 8).map (·.2)
  let rest := (ns.zipIdx.filter (fun e => !cand.any (fun c => c.2 == e.2))).map (·.1)
  let m := largest rest
  ⟨e8m0Fit f m.1 m.2, (List.range 64).filter side.contains, cand.length - side.length⟩

/-- Packed elements with the poison of each: a byte has that of the elements in it. -/
def packFlags (bits : Nat) (l : List (Nat × Bool)) : List (Byte × Bool) :=
  (packEls bits (l.map (·.1))).zipIdx.map (fun b =>
    (b.1, (List.range' (8 * b.2 / bits) ((8 * b.2 + 7) / bits + 1 - 8 * b.2 / bits)).any (fun i => ((l[i]?).map (·.2)).getD false)))

/-- The poison of each element of a run of bytes. -/
def elFlags (bits n : Nat) (bs : List (Byte × Bool)) : List (Nat × Bool) :=
  (elsOf bits n (bs.map (·.1))).zipIdx.map (fun e =>
    (e.1, (List.range' (bits * e.2 / 8) ((bits * e.2 + bits - 1) / 8 + 1 - bits * e.2 / 8)).any (fun i =>
      ((bs[i]?).map (·.2)).getD false)))

/-- The payload of an OSQ block; what comes from a block of 64 elements has that block's poison. -/
def osqPayload (et : ET) (t : Nat) (bs : List (Byte × Bool)) : List (Byte × Bool) :=
  let f := (etFmt et).getD fmtE4M3
  let xs := elFlags 16 2048 bs
  let blk (b : Nat) : List Nat := ((xs.drop (64 * b)).take 64).map (·.1)
  let bad (b : Nat) : Bool := ((xs.drop (64 * b)).take 64).any (·.2)
  let sp := (List.range 32).map (fun b => osqSplit f t (blk b))
  let desc := sp.zipIdx.flatMap (fun s =>
    flagAll (bad s.2) (natLe s.1.e 1 ++ natLe s.1.side.length 1 ++ natLe s.1.clip 1 ++ natLe 0 1))
  let body := sp.zipIdx.flatMap (fun s => (blk s.2).zipIdx.map (fun x =>
    (if s.1.side.contains x.2 then 0
      else (f.convert (.mode .rne) false false ((fmtBF16.decode x.1).unscale s.1.e)).1, bad s.2)))
  let side := sp.zipIdx.flatMap (fun s => s.1.side.flatMap (fun i =>
    let x := ((blk s.2)[i]?).getD 0
    flagAll (bad s.2) (natLe (64 * s.2 + i) 2 ++ natLe (if (fmtBF16.decode x).isNan then 0x7FC0 else x) 2)))
  desc ++ packFlags (etBits et) body ++ side

/-- The payload of a ZBM block: every element whose bits are not all zero is stored. A bitmap byte has the poison of its eight elements,
a stored one that of the element (DEDUCED, notes/assumptions/78.md). -/
def zbmPayload (bits : Nat) (bs : List (Byte × Bool)) : List (Byte × Bool) :=
  let n := 32768 / bits
  let xs := elFlags bits n bs
  let map := natLe (xs.foldr (fun x m => bit1 (x.1 != 0) + 2 * m) 0) (n / 8)
  map.zipIdx.map (fun b => (b.1, ((xs.drop (8 * b.2)).take 8).any (·.2))) ++ packFlags bits (xs.filter (fun x => x.1 != 0))

/-- One block of an encode: the payload, then the tag; RAW where it would exceed 64 units. -/
def encodeBlock (s : State) (v : XEnv) (x : Transfer) (fmt : Nat) (et : ET) (pay : List (Byte × Bool) → List (Byte × Bool))
    (i : Nat) : CRes :=
  let dst : Int := x.dstA.off + 4096 * i
  match s.xReads v x.srcA (x.srcA.off + 4096 * i : Nat) 4096 with
  | .error f => CRes.fail f
  | .ok bs =>
    match s.xAt v x.dstA dst 1 .engWrite with
    | .error f => CRes.fail f
    | .ok (_, _, .hbm _ _ true) =>
      let p := pay bs
      let len := padUnits p.length / 64
      let raw : Bool := 64 < len
      let tag : BitVec 16 := if raw then 0
        else BitVec.ofNat 16 (fmt * 2 ^ 12 + len * 2 ^ 5 + bit1 (anyFlag p) * 2 ^ 4 + et.enc)
      CRes.out [outRun dst (if raw then bs else p ++ flagAll false (List.replicate (64 * len - p.length) 0)), .tag dst tag]
    | .ok _ => CRes.fail (.chain 5)

def encodeBlocks (s : State) (v : XEnv) (x : Transfer) (fmt : Nat) (et : ET) (pay : List (Byte × Bool) → List (Byte × Bool))
    (n : Nat) : CRes :=
  (List.range n).foldl (fun c i => c.andThen (encodeBlock s v x fmt et pay i)) CRes.none_

/-! ## The other routines -/

/-- Routine 7: the body and the scales. -/
def requantise (src tgt : ET) (sat : Bool) (bs : List (Byte × Bool)) (n : Nat) : List (Byte × Bool) × List (Byte × Bool) :=
  let fs := (etFmt src).getD fmtF32
  let ft := (etFmt tgt).getD fmtE4M3
  let per := 4 * etBits src
  let run (k : Nat) : List (Byte × Bool) × (Byte × Bool) :=
    let part := (bs.drop (k * per)).take per
    let ns := (elsOf (etBits src) 32 (part.map (·.1))).map fs.decode
    let m := largest ns
    let e := e8m0Fit ft m.1 m.2
    (flagAll (anyFlag part) (packEls (etBits tgt) (ns.map (fun x => (ft.convert (.mode .rne) sat false (x.unscale e)).1))),
      (BitVec.ofNat 8 e, anyFlag part))
  let l := (List.range (n / 32)).map run
  (l.flatMap (·.1), l.map (·.2))

def codecRequantise (s : State) (v : XEnv) (x : Transfer) (p : Nat) : CRes :=
  let n := fld p 0 24
  let src := (etOf (fld p 24 4)).getD .f32
  let tgt := (etOf (fld p 28 4)).getD .e4m3
  match s.xReads v x.srcA x.srcA.off (n * etBits src / 8) with
  | .error f => CRes.fail f
  | .ok bs =>
    let o := requantise src tgt (bitAt p 32) bs n
    CRes.out [outRun x.dstA.off o.1, outRun (x.dstA.off + o.1.length) o.2]

/-- Routine 8: digest and count, then the signature of the management core (25 R375). -/
def codecSeal (s : State) (v : XEnv) (x : Transfer) (p : Nat) : CRes :=
  match s.xReads v x.srcA x.srcA.off (fld p 0 24) with
  | .error f => CRes.fail f
  | .ok bs =>
    let d := sha384 (bs.map (·.1)) ++ natLe (fld p 0 24) 8 ++ natLe 0 8
    CRes.out [outRun x.dstA.off (flagAll (anyFlag bs) d),
      outRun (x.dstA.off + 64) (flagAll (anyFlag bs) ((List.range 96).map (Config.signatureByte v.c.pkg d)))]

/-- Runs of bytes in order, or what stops the first that fails. -/
def gather (l : List (Except XFail (List (Byte × Bool)))) : Except XFail (List (Byte × Bool)) :=
  l.foldr (fun a r => match a, r with
    | .error f, _ => .error f
    | _, .error f => .error f
    | .ok a, .ok b => .ok (a ++ b)) (.ok [])

/-- Routine 9: element (i, j) goes to (j, i). -/
def codecTranspose (s : State) (v : XEnv) (x : Transfer) (p : Nat) : CRes :=
  let es := 4 / 2 ^ fld p 0 2
  let sp := fld p 16 16
  let dp := fld p 32 16
  (List.range 64).foldl (fun c j => c.andThen
    (match gather ((List.range 64).map (fun i => s.xReads v x.srcA (x.srcA.off + i * sp + j * es : Nat) es)) with
      | .error f => CRes.fail f
      | .ok l => CRes.out [outRun (x.dstA.off + j * dp : Nat) l])) CRes.none_

/-- A custom routine: its status ends it as that of a built-in one would (R294). -/
def codecCustom (s : State) (v : XEnv) (x : Transfer) (code : List Byte) (p : Word) : CRes :=
  match s.xReads v x.srcA x.srcA.off (Config.customInput code p) with
  | .error f => CRes.fail f
  | .ok bs =>
    let o := Config.customRoutine code p (bs.map (·.1))
    let run := outRun x.dstA.off (flagAll (anyFlag bs) o.2)
    let kind := BitVec.ofNat 4 (o.1 + 4)
    if 4 ≤ o.1 then CRes.fail (.chain 8)
    else if o.1 = 0 then CRes.out [run]
    else ⟨if x.dstA.sp = 1 then [run, .halt x.dstA.off o.2.length kind] else [run], none, some kind⟩

/-- The custom routine of a number for a world (R294). -/
def Package.routine (p : Package) (num : Nat) (secure : Bool) : Option Routine :=
  p.routines.find? (fun r => r.num == num && r.secure == secure)

/-- What routine `r` of a transfer forms. -/
def runCodec (s : State) (v : XEnv) (x : Transfer) (r : Nat) (par : Word) : CRes :=
  let p := par.toNat
  let b := fld p 0 16
  match r with
  | 1 | 3 | 4 => decodeBlocks s v x r b 0 0
  | 6 => decodeBlocks s v x r b 0 (fld p 16 21)
  | 2 =>
    let et := (etOf (fld p 16 4)).getD .f32
    encodeBlocks s v x 1 et (zbmPayload (etBits et)) b
  | 5 =>
    let et := (etOf (fld p 32 4)).getD .e4m3
    encodeBlocks s v x 4 et (osqPayload et (fld p 16 16)) b
  | 7 => codecRequantise s v x p
  | 8 => codecSeal s v x p
  | 9 => codecTranspose s v x p
  | r =>
    match (s.pkg v.c.pkg).bind (fun q => q.routine r v.who.secure) with
    | some k => codecCustom s v x k.bytes par
    | none => CRes.fail (.chain 8)

/-! ## CODEC words -/

/-- Parameters that a routine admits (R295). -/
def paramGood (r p : Nat) : Bool :=
  match r with
  | 1 | 3 | 4 => p / 2 ^ 16 == 0 && p != 0
  | 2 => p / 2 ^ 20 == 0 && fld p 0 16 != 0 && fld p 16 4 ≤ 9
  | 5 => p / 2 ^ 36 == 0 && fld p 0 16 != 0 && 3 ≤ fld p 32 4 && fld p 32 4 ≤ 5
  | 6 => p / 2 ^ 37 == 0 && fld p 0 16 != 0
  | 7 => p / 2 ^ 33 == 0 && fld p 0 24 % 32 == 0 && fld p 24 4 ≤ 2 && 3 ≤ fld p 28 4 && fld p 28 4 ≤ 5 &&
      !(fld p 28 4 == 5 && bitAt p 32)
  | 8 => p / 2 ^ 24 == 0
  | 9 => fld p 0 2 != 3 && fld p 2 14 == 0 && p / 2 ^ 48 == 0
  | _ => true

/-- A CODEC word: parameter on top, destination, source; their forms, the routine and its parameter. -/
def codecWord (r : Nat) (dAlign : Nat) (dSp : List Nat) (sAlign : Nat) (sSp : List Nat) (s : State) : Out :=
  onBody s fun h => h.needs 3 0 fun l h =>
    h.withAddr (topN l 1) dAlign dSp .engWrite fun _ h => h.withAddr (topN l 2) sAlign sSp .engRead fun _ h =>
      if (if r < 64 then h.pk.firmware else (h.pk.routine r h.who.secure).isSome) && paramGood r (topN l 0).toNat then
        h.transfer 3 (.codec r (topN l 0)) (topN l 2) (topN l 1)
      else h.chainFault 8

/-- CODEC 0: copy. -/
def execWCodecCopy (s : State) : Out :=
  onBody s fun h => h.needs 3 0 fun l h =>
    h.withAddr (topN l 1) 1 [0, 1, 2, 3] .engWrite fun d h => h.withAddr (topN l 2) 1 [0, 1, 2, 3] .engRead fun a h =>
      let n := (topN l 0).toNat
      if !h.pk.firmware || n = 0 || 2 ^ 48 ≤ n then h.chainFault 8
      else if countFits n a d then h.transfer 3 (.copy n) (topN l 2) (topN l 1) else h.chainFault 4

/-- CODEC 1. -/
def execWZbmDecode (s : State) : Out := codecWord 1 64 [1] 4096 [0] s
/-- CODEC 2. -/
def execWZbmEncode (s : State) : Out := codecWord 2 4096 [0] 64 [1] s
/-- CODEC 3. -/
def execWCb4PassThrough (s : State) : Out := codecWord 3 64 [1] 4096 [0] s
/-- CODEC 4. -/
def execWLrfExpand (s : State) : Out := codecWord 4 64 [1] 4096 [0] s
/-- CODEC 5. -/
def execWOsqEncode (s : State) : Out := codecWord 5 4096 [0] 1 [1] s
/-- CODEC 6. -/
def execWOsqDecode (s : State) : Out := codecWord 6 64 [1] 4096 [0] s
/-- CODEC 7. -/
def execWE8m0Requantise (s : State) : Out := codecWord 7 1 [1] 1 [1] s
/-- CODEC 8. -/
def execWPathLogSeal (s : State) : Out := codecWord 8 64 [1] 1 [1] s
/-- CODEC 9. -/
def execWTranspose (s : State) : Out := codecWord 9 1 [1] 1 [1] s
/-- CODEC 64 to 127. -/
def execWCodecCustom (r : BitVec 6) (s : State) : Out := codecWord (64 + r.toNat) 1 [0, 1, 2, 3] 1 [0, 1, 2, 3] s

end Sys2Proof.Machine
end

