-- ==== Sys2Proof/Machine/TransferEvents.lean ====
section
/-!
DEFINITION. The events of copy engines that move bytes: the order of the transfers of a chain (19 R279), a transfer's completion with
its poison record (R289) or its halt (R292), the arrival of one counting write (05 R67, R68), and starvation (R293).
-/
namespace Sys2Proof.Machine
open Sys2Proof

/-! ## What a transfer reads and writes (R279) -/

/-- Bytes of a space from an offset on. -/
structure XSpan where
  a : EAddr
  off : Int
  len : Nat

/-- The bytes of the source that a byte of a piece comes from. -/
def BSrc.reads (a : EAddr) (b : BSrc) : List XSpan :=
  let nib (n : NSrc) : List XSpan := match n with
    | .at k => [⟨a, k / 2, 1⟩]
    | _ => []
  match b with
  | .fill _ => []
  | .byte off => [⟨a, off, 1⟩]
  | .nibs lo hi => nib lo ++ nib hi

/-- What a codec routine reads. -/
def codecReads (a : EAddr) (r p : Nat) : List XSpan :=
  match r with
  | 1 | 2 | 3 | 4 | 5 | 6 => [⟨a, a.off, fld p 0 16 * 4096⟩]
  | 7 => [⟨a, a.off, fld p 0 24 * etBits ((etOf (fld p 24 4)).getD .f32) / 8⟩]
  | 8 => [⟨a, a.off, fld p 0 24⟩]
  | 9 => (List.range 64).map (fun i => ⟨a, a.off + i * fld p 16 16, 256 / 2 ^ fld p 0 2⟩)
  | _ => [⟨a, 0, a.limit⟩]

/-- What a codec routine writes; for routine 6 the most that its blocks can hold. -/
def codecWrites (a : EAddr) (r p : Nat) : List XSpan :=
  match r with
  | 1 | 2 | 3 | 4 | 5 => [⟨a, a.off, fld p 0 16 * 4096⟩]
  | 6 => [⟨a, a.off, fld p 0 16 * 2112⟩, ⟨a, fld p 16 21, fld p 0 16 * 1032⟩]
  | 7 => [⟨a, a.off, fld p 0 24 * 2⟩]
  | 8 => [⟨a, a.off, 160⟩]
  | 9 => (List.range 64).map (fun i => ⟨a, a.off + i * fld p 32 16, 256 / 2 ^ fld p 0 2⟩)
  | _ => [⟨a, 0, a.limit⟩]

/-- What a step of a transfer reads. -/
def Transfer.stepReads (x : Transfer) (k : Nat) : List XSpan :=
  match x.kind with
  | .codec r p => codecReads x.srcA r p.toNat
  | _ => (x.piece k).bs.flatMap (BSrc.reads x.srcA)

/-- What a step of a transfer writes. -/
def Transfer.stepWrites (x : Transfer) (k : Nat) : List XSpan :=
  match x.kind with
  | .codec r p => codecWrites x.dstA r p.toNat
  | _ => [⟨x.dstA, (x.piece k).off, (x.piece k).bs.length⟩]

/-- Where something formed is written. -/
def Transfer.outSpan (x : Transfer) (o : XOut) : List XSpan :=
  match o with
  | .piece k _ => x.stepWrites k
  | .bytes _ off bs => [⟨x.dstA, off, bs.length⟩]
  | .tag .. | .halt .. => []

/-- The bytes that a transfer has still to read, and those that it has still to write. -/
def Transfer.unread (x : Transfer) : List XSpan := (List.range' x.at_ (x.steps - x.at_)).flatMap x.stepReads
def Transfer.unwritten (x : Transfer) : List XSpan :=
  x.formed.flatMap x.outSpan ++ (List.range' x.at_ (x.steps - x.at_)).flatMap x.stepWrites

/-- Where the bytes of a span lie: a space and an offset in it. -/
def Package.whereIs (p : Package) (v : XEnv) (x : XSpan) : List (Nat × Int × Nat) :=
  let g : List (Nat × Int × Nat) := (pages x.off.toNat x.len).map (fun pc =>
    match p.translate v.who pc.1 pc.2 .engRead with
    | .ok t =>
      (match p.asOwn v t with
        | .carve off => (0, (off : Int), pc.2)
        | .cell c off => (10 + c, (off : Int), pc.2)
        | .hbm a _ _ => (1, (a : Int), pc.2)
        | .hostMem _ a => (2, (a : Int), pc.2)
        | _ => (3, (pc.1 : Int), pc.2))
    | .error _ => (4, (pc.1 : Int), pc.2))
  match x.a.sp with
  | 0 => g
  | 1 => [(0, x.off, x.len)]
  | 2 => [(if cellOfPlace x.a.hi = v.c.cell then 0 else 10 + cellOfPlace x.a.hi, x.off, x.len)]
  | _ => if BitVec.ofNat 10 x.a.hi = p.firn.self then g else [(1000 + x.a.hi, x.off, x.len)]

def spansMeet (p : Package) (v : XEnv) (l m : List XSpan) : Bool :=
  (l.flatMap (p.whereIs v)).any (fun a => (m.flatMap (p.whereIs v)).any (fun b =>
    a.1 == b.1 && a.2.1 < b.2.1 + b.2.2 && b.2.1 < a.2.1 + a.2.2))

/-- A step reads its bytes once every earlier transfer of the chain that writes one of them has written it. -/
def Transfer.mayForm (p : Package) (v : XEnv) (earlier : List Transfer) (x : Transfer) (k : Nat) : Bool :=
  earlier.all (fun y => !spansMeet p v (x.stepReads k) y.unwritten)

/-- Bytes are written once every earlier transfer of the chain has read them and has made its own writes to them; a COPY writes no byte
that it has still to read (R280). -/
def Transfer.mayPut (p : Package) (v : XEnv) (earlier : List Transfer) (x : Transfer) (o : XOut) : Bool :=
  earlier.all (fun y => !spansMeet p v (x.outSpan o) (y.unread ++ y.unwritten)) && (match x.kind with
    | .copy _ => !spansMeet p v (x.outSpan o) x.unread
    | _ => true)

/-- The environment of a transfer: its word's pointer and region. -/
def EHere.xenv (h : EHere) (x : Transfer) : XEnv := { h.env with ch := { h.ch with ptr := x.ptr, region := x.region } }

/-- The earlier transfers of the chain. -/
def EHere.earlier (h : EHere) (x : Transfer) : List Transfer :=
  ((h.jb.eng h.e).xfers.takeWhile (fun y => y.id != x.id)).filter (fun y => y.chain == x.chain)

/-- A transfer may work: it is one of the engine's chain, whose faults have been taken. -/
def EHere.xferLive (h : EHere) (x : Transfer) : Bool := x.chain == h.ch.id && !h.jb.trapPending h.dlv

/-! ## Forming and writing (R287) -/

/-- A codec routine forms all that it writes in one step. -/
def State.formCodec (s : State) (v : XEnv) (x : Transfer) (r : Nat) (par : Word) : Except XFail Transfer :=
  let c := runCodec s v x r par
  match c.stop with
  | some f => .error f
  | none => .ok { x with at_ := 1, formed := c.outs, halted := c.err.isSome }

def State.formStep (s : State) (v : XEnv) (x : Transfer) : Except XFail Transfer :=
  match x.kind with
  | .codec r p => s.formCodec v x r p
  | _ => s.formPiece v x

/-- Up to `n` more steps are formed, and what stopped them. -/
def State.formOn (s : State) (p : Package) (v : XEnv) (earlier : List Transfer) : Nat → Transfer → Transfer × Option XFail
  | 0, x => (x, none)
  | n + 1, x =>
    if !x.mayForm p v earlier x.at_ then (x, some (.wait none))
    else match s.formStep v x with
      | .ok x1 => s.formOn p v earlier n x1
      | .error f => (x, some f)

/-- The slabs of a block's output enter ERROR (R292). -/
def State.haltSlabs (s : State) (v : XEnv) (off n : Nat) (kind : BitVec 4) : State :=
  (slabsOf off n).foldl (fun s sl => s.modPkg v.c.pkg (fun p =>
    p.changeTag v.c.cell v.uid sl (fun t => if t.st = .error then t else t.err kind) (some v.ch.region) (ceOf v.e).src
      v.ch.ptr.toNat)) s

/-- An encoding copy, which writes blocks and their tags (05 R72). -/
def Transfer.encodes (x : Transfer) : Bool :=
  match x.kind with
  | .codec 2 _ | .codec 5 _ => true
  | _ => false

/-- The first aligned word of a run is written, and the rest remains. -/
def State.putWord (s : State) (v : XEnv) (x : Transfer) (lo off : Int) (bs : List (Byte × Bool)) :
    Except XFail (State × Transfer × List XOut) :=
  let k := (8 - off % 8).toNat
  let now := bs.take k
  let e := off + now.length
  match s.xWrite v x.dstA off now x.encodes (e % 64 == 0 && lo ≤ e - 64 && x.unmarked e) with
  | .error f => .error f
  | .ok s1 => .ok (s1, x.markRun off now, if bs.length ≤ k then [] else [.bytes lo (off + k) (bs.drop k)])

/-- Something formed is written: the state, the transfer, and what remains of it. -/
def State.putOut (s : State) (v : XEnv) (x : Transfer) (o : XOut) : Except XFail (State × Transfer × List XOut) :=
  match o with
  | .piece k bs => (s.putPiece v x k bs).map (fun r => (r.1, r.2, []))
  | .bytes lo off bs => if bs.isEmpty then .ok (s, x, []) else s.putWord v x lo off bs
  | .tag off t => .ok (s.xTag v x.dstA off t, x, [])
  | .halt off n k => .ok (s.haltSlabs v off n k, x, [])

/-- A page fault of a held write at its target, once the region of the transfer has committed, leaves record 0x03, and the transfer
continues (R288). -/
def State.putLate (s : State) (v : XEnv) (x : Transfer) (f : XFail) : Option State :=
  let late := ((s.pkg v.c.pkg).bind (fun p => (p.cell v.c.cell).bind (fun c => c.jobBy v.uid))).any (fun j => x.region < j.committed)
  match f with
  | .page (.page k) addr true _ =>
    if late && !x.direct then
      some (s.modPkg v.c.pkg (fun p => p.faultRecord v.who.ctx (placeOfCell v.c.cell) (ceOf v.e).src 0x03 k.code x.ptr.toNat
        addr.toNat))
    else none
  | _ => none

/-- The failure of a held write is its target's: the remote flag is set (R288). -/
def XFail.held (f : XFail) : XFail :=
  match f with
  | .page k addr w _ => .page k addr w true
  | f => f

/-- Up to `n` of the things formed are written, in order, and what stopped them. -/
def State.putOn (v : XEnv) (earlier : List Transfer) : Nat → State → Transfer → State × Transfer × Option XFail
  | 0, s, x => (s, x, none)
  | n + 1, s, x =>
    match x.formed with
    | [] => (s, x, none)
    | o :: rest =>
      if !((s.pkg v.c.pkg).any (fun p => x.mayPut p v earlier o)) then (s, x, some (.wait none))
      else match s.putOut v x o with
        | .ok (s1, x1, more) => State.putOn v earlier n s1 { x1 with formed := more ++ rest }
        | .error f =>
          match s.putLate v x f with
          | some s1 => State.putOn v earlier n s1 { x with formed := rest }
          | none => (s, x, some (if x.direct then f else f.held))

/-- The most things that are still to be written one by one. -/
def Transfer.outCount (x : Transfer) : Nat :=
  (x.formed.map (fun o => match o with | .bytes _ _ bs => bs.length + 1 | _ => 1)).sum

/-- The cache takes the leaves under which an engine has accessed G (05 R79). -/
def State.xFill (s : State) (v : XEnv) (l : List XSpan) : State :=
  l.foldl (fun s x => if x.a.sp = 0 then
      (pages x.off.toNat x.len).foldl (fun s pc => s.modPkg v.c.pkg (fun p => p.fillTlb v.who pc.1)) s
    else s) s

/-! ## The end of a transfer -/

/-- A transfer goes on as it stands. The engine counts as blocked from the clk at which its chain or a HALO of it came to stand (R293). -/
def EHere.putXfer (h : EHere) (x : Transfer) : EHere :=
  let clk := h.clk
  h.modEng (fun e =>
    let l := e.xfers.map (fun y => if y.id = x.id then x else y)
    { e with xfers := l, starve := if h.ch.stalled || l.any (·.blocked) then some (e.starve.getD clk) else none })

/-- What stops a transfer (R288, R290, R291). -/
def EHere.xferStop (h : EHere) (x : Transfer) (f : XFail) : EHere :=
  match f with
  | .wait _ => h
  | .page .noFrame _ _ _ => { h with bad := some .noSuchFrame }
  | .page .poisoned addr _ _ => { h with pk := h.pk.lose ⟨h.jb.ctx, 1, placeOfCell h.id.cell, inSpace addr, h.eng.src⟩ }
  | .page f addr w rmt => h.raise (failTrap f (if w then .engWrite else .engRead) h.eng h.dlv (inSpace addr) x.region x.ptr rmt)
  | .chain k => h.raise ({ h.ch with ptr := x.ptr, region := x.region }.trap h.e k)
  | .tag t sl => h.raise (tagTrap t sl h.dlv x.region x.ptr)
  | .lost => h.raise { trapOf 0x05 h.dlv x.region x.ptr [] with psn := 2 }

/-- The poison completion record (R289). -/
def Package.poisonRecord (p : Package) (ctx cell : Nat) (e : BitVec 1) (x : Transfer) : Package :=
  match p.ctx ctx with
  | none => p
  | some c =>
    match p.pushRecord c.who c.faults (natLe (placeOfCell cell) 2 ++ natLe e.toNat 1 ++ natLe 0 1 ++ natLe x.marked.length 4 ++
      wordLe x.ptr ++ natLe (x.marked.headD 0) 8 ++ natLe 0 8) with
    | (p', q) => p'.modCtx ctx (fun c => { c with faults := q })

/-- A halted kicked chain counts as complete once its transfers are over; its launch's post is not made (R292). -/
def EHere.endHalted (h : EHere) : EHere :=
  match h.ch.role with
  | .stream => h
  | .kicked op _ =>
    if h.ch.halted && !(h.jb.eng h.e).xfers.any (fun y => y.chain == h.ch.id) then
      let h1 := { h with ch := { h.ch with live := false, wait := none } }.modEng (fun e => e.leave h.region [])
      { h1 with
        jb := { h1.jb.result h.region h.clk with deferred := h1.jb.deferred.filter (fun d => d.src != some op) }
        ce := h1.ce.completeOp op }
    else h

/-- A transfer is over: its poison record, and the end of a halted kicked chain. -/
def EHere.xferOver (h : EHere) (x : Transfer) : EHere :=
  let h1 := h.modEng (fun e => { e with xfers := e.xfers.filter (fun y => y.id != x.id) })
  let h2 := { h1 with jb := h1.jb.result x.region h.clk }
  (if x.marked.isEmpty then h2 else h2.onPk (fun p => p.poisonRecord h.jb.ctx h.id.cell h.e x)).endHalted

/-- A transfer has completed: progress (01 R36). -/
def EHere.xferDone (h : EHere) (x : Transfer) : EHere :=
  let h1 := (h.putXfer { x with blocked := false }).xferOver x
  { h1 with jb := { h1.jb with progress := h.clk } }

/-- A transfer that ended with its destination in ERROR: the chain executes no further word, which is no progress (R292). -/
def EHere.xferHalt (h : EHere) (x : Transfer) : EHere := { h with ch := { h.ch with halted := true } }.xferOver x

/-! ## TRANSFER_COMPLETE and COUNTING_WRITE_ARRIVAL (05 R67, R68) -/

/-- A HALO that has come to stand at a slab keeps the job that it has resolved there (20 R301). -/
def Transfer.stand (x : Transfer) (f : Option XFail) : Transfer :=
  match f with
  | some (.wait (some e)) =>
    { x with blocked := true, slabs := x.slabs.filter (fun y => !(y.cell == e.cell && y.slab == e.slab)) ++ [e] }
  | _ => { x with blocked := false }

/-- What a transfer has come to. -/
def afterMove (c : CellId) (e : BitVec 1) (s : State) (x : Transfer) (f : Option XFail) : Out :=
  match f, s.ehereAt c e with
  | _, none => .next s
  | some f, some h => ((h.putXfer x).xferStop x f).outcome
  | none, some h =>
    (if x.at_ < x.steps || !x.formed.isEmpty then h.putXfer x
      else if x.halted then h.xferHalt x else h.xferDone x).outcome

/-- Form what can be formed: the transfer, and what stopped it. -/
def EHere.form (h : EHere) (s : State) (x : Transfer) : Transfer × Option XFail :=
  let r := s.formOn h.pkNow (h.xenv x) (h.earlier x) (x.steps - x.at_) x
  ({ r.1 with formedAt := if r.1.at_ = x.at_ then x.formedAt else h.clk }.stand r.2, r.2)

/-- Whether something formed may leave: at once into S, else 160 clk after (R287). -/
def Transfer.mayLeave (x : Transfer) (clk : Nat) : Bool := x.direct || x.formedAt + quake ≤ clk

/-- A transfer forms what it can and writes up to `n` things; a failure while it forms stops it before it writes on. -/
def moveXfer (c : CellId) (e : BitVec 1) (h : EHere) (n : Option Nat) (s : State) (x : Transfer) : Out :=
  match h.form s x with
  | (x1, f) =>
    let s1 := s.xFill (h.xenv x) ((List.range' x.at_ (x1.at_ - x.at_)).flatMap (fun k => x.stepReads k ++ x.stepWrites k))
    match f with
    | none | some (.wait _) =>
      if x1.mayLeave h.clk then
        (match State.putOn (h.xenv x) (h.earlier x) (n.getD x1.outCount) s1 x1 with
          | (s2, x2, g) => afterMove c e s2 x2 (g.or f))
      else afterMove c e s1 x1 f
    | some g => afterMove c e s1 x1 (some g)

/-- A transfer of an engine by its name. -/
def onXfer (s : State) (c : CellId) (e : BitVec 1) (id : Nat) (f : EHere → Transfer → Out) : Out :=
  match s.ehereAt c e with
  | none => .next s
  | some h =>
    match (h.jb.eng e).xfers.find? (fun x => x.id == id) with
    | none => .next s
    | some x => if h.xferLive x then f h x else .next s

/-- TRANSFER_COMPLETE: what is left of a transfer is formed and, once it may leave, written. -/
def execTransferComplete (c : CellId) (e : BitVec 1) (id : Nat) (s : State) : Out :=
  onXfer s c e id fun h x => moveXfer c e h none s x

/-- Whether the next thing that a transfer writes lands in a slab. -/
def State.landsInSlab (s : State) (v : XEnv) (x : Transfer) : Bool :=
  let off : Option Int := match x.formed with
    | .piece k _ :: _ => some (x.piece k).off
    | .bytes _ off _ :: _ => some off
    | _ => none
  match off.map (fun o => s.xAt v x.dstA o 1 .engWrite) with
  | some (.ok (_, _, .carve _)) | some (.ok (_, _, .cell ..)) => true
  | _ => false

/-- One more write of a transfer into a slab. -/
def arriveTransfer (s : State) (c : CellId) (e : BitVec 1) (id : Nat) : Out :=
  onXfer s c e id fun h x =>
    if s.landsInSlab (h.xenv x) (h.form s x).1 then moveXfer c e h (some 1) s x else .next s

/-- One more row of a drain to slabs. -/
def arriveDrain (s : State) (c : CellId) (id : Nat) : Out :=
  eventJob s c fun _ x j => match j.task id with
    | none => .next s
    | some t => s.when_ (j.drainReady x.ops t && (match t.work with | .drain _ _ _ _ (.slabs _) => true | _ => false))
        (s.modPkg c.pkg (fun p => p.drainSlabs c.cell j.uid id 1))

/-- COUNTING_WRITE_ARRIVAL. -/
def execCountingWriteArrival (c : CellId) (w : Writer) (s : State) : Out :=
  match w with
  | .op id => performBy s c id .counting
  | .transfer e id => arriveTransfer s c e id
  | .drain id => arriveDrain s c id

/-! ## CE_STARVATION (R293) -/

/-- Whether the engine stands blocked: on a word's wait, or on that of a HALO. -/
def EHere.stalled (h : EHere) : Bool := h.ch.stalled || (h.jb.eng h.e).xfers.any (·.blocked)

/-- CE_STARVATION. -/
def execCeStarvation (c : CellId) (e : BitVec 1) (s : State) : Out :=
  match s.ehereAt c e with
  | none => .next s
  | some h =>
    let clk := h.clk
    s.when_ ((h.jb.eng e).starve.any (fun t => t + 2 ^ 24 ≤ clk) && h.stalled)
      ((h.modEng (fun x => { x with starve := some clk })).onPk (fun p =>
        p.event s.ns h.jb.ctx 0x04 (ceOf e).src (placeOfCell c.cell) 0)).close

end Sys2Proof.Machine
end

