-- ==== Sys2Proof/Machine/ChainRun.lean ====
section
/-!
DEFINITION. A turn of a chain (19 R272, R276, R291): the engine fetches the word at the chain pointer and executes it.
-/
namespace Sys2Proof.Machine
open Sys2Proof

/-- The meaning of an engine word. -/
def runWord (w : EWord) (s : State) : Out :=
  match w with
  | .lit v => execWLit v s
  | .ext v => execWExt v s
  | .nopw => execWNopw s
  | .dup => execWDup s
  | .drop => execWDrop s
  | .xch => execWXch s
  | .overW => execWOver s
  | .shape n => execWShape n s
  | .copy c => execWCopy c s
  | .walk dd d sr => execWWalk dd d sr s
  | .halo sr => execWHalo sr s
  | .codecCopy => execWCodecCopy s
  | .zbmDecode => execWZbmDecode s
  | .zbmEncode => execWZbmEncode s
  | .cb4PassThrough => execWCb4PassThrough s
  | .lrfExpand => execWLrfExpand s
  | .osqEncode => execWOsqEncode s
  | .osqDecode => execWOsqDecode s
  | .e8m0Requantise => execWE8m0Requantise s
  | .pathLogSeal => execWPathLogSeal s
  | .transpose => execWTranspose s
  | .codecCustom r => execWCodecCustom r s
  | .foot gated write => execWFoot gated write s
  | .waits sr => execWWaits sr s
  | .posts sr => execWPosts sr s
  | .waitr n => execWWaitr n s
  | .postrPost => execWPostrPost s
  | .postrThaw => execWPostrThaw s
  | .stagePair => execWStagePair s
  | .stageIteration => execWStageIteration s
  | .stageSlot => execWStageSlot s
  | .rngaWord q => execWRngaWord q s
  | .rngpWord close q => execWRngpWord close q s
  | .linkJump => execWLinkJump s
  | .linkBoundary => execWLinkBoundary s
  | .endW => execWEnd s

/-- The chain-fault kind of a word that is no engine word (09 R128, 19 R291). -/
def rejectKind (r : Reject) : Nat :=
  match r with
  | .engineArg => 4
  | .engineRoutine => 8
  | _ => 3

/-- The word that a chain meets at its pointer. A fetch from a slab that is FILLING or in ERROR is a race, as of a SHAPE
(DEDUCED, notes/assumptions/27.md). -/
def chainWord (s : State) (h : EHere) : Out :=
  match h.fetch with
  | .error f => (h.accFail f .fetch h.ch.ptr).outcome
  | .ok (_, .data) => (h.accFail .poisoned .fetch h.ch.ptr).outcome
  | .ok (w, .none) =>
    match decodeWord w with
    | .error r => (h.chainFault (rejectKind r)).outcome
    | .ok x => runWord x (s.modPkg h.id.pkg (fun p => p.fillTlb h.who h.ch.ptr.toNat))
  | .ok (_, _) => (h.chainFault 9).outcome

/-- Whether a chain may move: it is live and not halted, no trap of its is outstanding. -/
def EHere.ready (h : EHere) : Bool := h.ch.live && !h.ch.halted && !h.jb.trapPending h.dlv

/-- A turn of the chain of engine `e`. One that cannot move leaves the state as it is (DESIGN CHOICE, notes/assumptions/15.md). -/
def chainTurn (s : State) (c : CellId) (e : BitVec 1) : Out :=
  let s := { s with cur := (c, ceOf e) }
  match s.ehereAt c e with
  | none => .next s
  | some h =>
    if !h.ready then .next s
    else match h.ch.wait with
      | none => chainWord s h
      | some .elastic => h.enter.outcome
      | some _ => .next s

end Sys2Proof.Machine
end

