-- ==== Sys2Proof/Machine/JobStart.lean ====
section
/-!
DEFINITION. A job at its dispatch, before region 0 starts (23 R338, 13 R196, 17 R237, 15 R222).
-/
namespace Sys2Proof.Machine
open Sys2Proof

/-- The reset value of srsx and srsm (03 R50). -/
def srsReset : Word := 0x9E3779B97F4A7C15#64

def VecState.zero : VecState := ⟨Vector.replicate 32 VReg.zero, Vector.replicate 8 MReg.zero, Vector.replicate 4 TReg.zero⟩

def Banks.zero : Banks := ⟨Vector.replicate 32 PVal.zero, Vector.replicate 32 PVal.zero⟩

/-- kps at dispatch (11 R162). -/
def Kps.reset : Kps := ⟨0, 0xFF, 0, 0⟩

def CoreState.start (pc : Word) (regs : Vector PVal 64) : CoreState where
  pc := pc
  live := true
  region := 0
  regs := regs
  busy := 0
  kps := Kps.reset
  nmctl := 0
  srs := srsReset
  rrb := 0
  calls := []
  spilling := false
  loops := []
  rdv := []
  wait := none
  syncTaken := false
  granted := false
  latch := []
  part := 0
  rows := []
  started := true
  saves := []

/-- A stream chain at its prologue entry; an absent chain has entry 0 (09 R133). -/
def EngState.start (id : Nat) (entry : Word) : EngState where
  chain := if entry = 0 then none else
    some ⟨id, .stream, entry, 0, [], Vector.replicate 4 none, [], [], [], false, false, true, none⟩
  kicks := []
  stage := []
  left := []
  xfers := []
  starve := none

/-- The matrix engine of a new job (17 R237). -/
def MeState.start : MeState where
  tiles := Vector.replicate 64 Tile.zero
  slots := Vector.replicate 16 none
  tileSaves := []
  slotSaves := []
  banks := Banks.zero
  jobs := []
  tasks := []
  mgos := 0
  passes := 0
  strv := false

/-- The state of a new job: its record, its header, its trip. The AC's a1 holds the frame pointer (13 R196); `seq1` numbers
start at 1 (23 R335). The first save is that of region 0. -/
def Job.start (uid : Nat) (ctx : Nat) (q : QRec) (hd : Header) (trip : TripSrc) (clk : Nat) : Job :=
  let j : Job := {
    uid := uid
    ctx := ctx
    qrec := q
    hdr := hd
    trip := trip
    prio := q.task.prio
    committed := 0
    decisions := []
    mem := []
    marks := []
    tags := []
    posts := []
    tagSaves := []
    copySaves := []
    markSaves := []
    rings := Vector.replicate 16 Ring.zero
    ringSaves := []
    sems := Vector.replicate 64 ⟨0, []⟩
    lq := Vector.replicate 4 Queue.none
    lqRow := Vector.replicate 4 Queue.none
    sq := Vector.replicate 2 Queue.none
    sqRow := Vector.replicate 2 Queue.none
    ac := CoreState.start hd.ac[0] ((Vector.replicate 64 PVal.zero).set 1 ⟨q.task.frame, .none, []⟩)
    xc := CoreState.start hd.xc[0] (Vector.replicate 64 PVal.zero)
    vec := VecState.zero
    async := []
    me := MeState.start
    ce0 := EngState.start (2 * uid) hd.ce0[0]
    ce1 := EngState.start (2 * uid + 1) hd.ce1[0]
    deferred := []
    seq := 0
    crews := (q.task.crew.map (fun c => [c.toNat])).getD []
    results := []
    traps := []
    held := none
    eretOf := q.handlerOf
    eretAt := none
    eretRead := none
    osNums := Vector.replicate 2 (Vector.replicate 8 1)
    osErr := Vector.replicate 2 0
    inUse := []
    dirty := []
    progress := clk
    readySince := 0
    fitSince := 0 }
  { j with
    ac := { j.ac with saves := [j.save .ac 0] }
    xc := { j.xc with saves := [j.save .xc 0] } }

end Sys2Proof.Machine
end

