-- ==== Sys2Proof/Machine/Waits.lean ====
section
/-!
DEFINITION. The end of a wait: on a semaphore (13 R190, R191), a rime tag (05 R69, 13 R186), a ring (R189), a queue (R181, R193). A
stream that has waited goes on with the word at its pc.
-/
namespace Sys2Proof.Machine
open Sys2Proof

/-- A blocked stream: a core stream, or the chain of an engine, in which no trap is outstanding. -/
def onBlocked (s : State) (c : CellId) (e : Eng) (core : Here → Wait → Here) (chain : EHere → Wait → EHere) : Out :=
  match e.core?, Eng.ceIx e with
  | some k, _ =>
    eventJob s c fun p x j =>
      let h := hereOf s c k p x j
      (match h.st.wait with
        | some w => if h.st.live && !j.trapPending e then (core h w).outcome else .next s
        | none => .next s)
  | none, some i =>
    (match s.ehereAt c i with
      | none => .next s
      | some h =>
        match h.ch.wait with
        | some w => if h.ready then (chain h w).outcome else .next s
        | none => .next s)
  | none, none => .next s

/-- The wait that the word at pc itself makes has ended. -/
def CoreState.grant (c : CoreState) : CoreState := { c with wait := none, granted := true }

/-- The wait has ended; the word at pc is tried again. -/
def CoreState.retry (c : CoreState) : CoreState := { c with wait := none }

/-! ## SEMAPHORE_WAIT_PROCEED -/

/-- The decrement of a wait, once the view reaches 1: of a sync field, or of a SEMW. -/
def semProceed (h : Here) (w : Wait) : Here :=
  match w with
  | .sem q sync =>
    if 1 ≤ h.semView q then
      { h with jb := h.jb.semTake q h.region (h.k == Core.xc) }.modSt (fun c =>
        if sync then { c with wait := none, syncTaken := true } else c.grant)
    else h
  | _ => h

def chainSemProceed (h : EHere) (w : Wait) : EHere :=
  match w with
  | .sem q _ => if 1 ≤ h.semView q then (h.semTake q).done 0 [] else h
  | _ => h

def execSemaphoreWaitProceed (c : CellId) (e : Eng) (s : State) : Out := onBlocked s c e semProceed chainSemProceed

/-! ## RIME_WAIT_PROCEED -/

/-- The tag is FULL, and the wait ends; or it is in ERROR, and the trap is raised. -/
def rimeProceed (h : Here) (w : Wait) : Here :=
  match w with
  | .rime sl _ =>
    match (h.jb.tag sl).st with
    | .full => h.modSt CoreState.grant
    | .error => h.raise (tagTrap (h.jb.tag sl) sl h.k.eng h.region h.st.pc)
    | _ => h
  | _ => h

def chainRimeProceed (h : EHere) (w : Wait) : EHere :=
  match w with
  | .rime sl last =>
    (match (h.jb.tag sl).st with
      | .full | .error => h.rimeWait last (List.range' sl (last + 1 - sl))
      | _ => h)
  | _ => h

def execRimeWaitProceed (c : CellId) (w : RimeWaiter) (s : State) : Out :=
  match w with
  | .stream e => onBlocked s c e rimeProceed chainRimeProceed
  | .me => meTagError s c

/-! ## RING_WAIT_PROCEED -/

/-- What the wait obtains stands in the latch (R188). -/
def ringProceed (h : Here) (w : Wait) : Here :=
  let go (q : BitVec 4) (fill : Bool) : Here := match h.jb.ringTry h.region q fill with
    | some (v, j) => { h with jb := j }.modSt (fun c => { c.grant with latch := [⟨v, .none, []⟩] })
    | none => h
  match w with
  | .ringFree q => go q false
  | .ringFill q => go q true
  | _ => h

def chainRingProceed (h : EHere) (w : Wait) : EHere :=
  match w with
  | .ringFree q =>
    (match h.jb.ringTry h.region q false with
      | some (v, j) => { h with jb := j }.done 0 [v]
      | none => h)
  | _ => h

def execRingWaitProceed (c : CellId) (e : Eng) (s : State) : Out := onBlocked s c e ringProceed chainRingProceed

/-! ## QUEUE_WAIT_PROCEED -/

def PopRes.waits {α : Type} (r : PopRes α) : Bool :=
  match r with
  | .wait => true
  | _ => false

/-- Whether a queue operation would no longer block: it goes on, or it raises its trap. -/
def Job.queueFree (j : Job) (w : Wait) : Bool :=
  match w with
  | .popLq q => !(j.popLq q true).waits
  | .popRow q => !(j.popRow q).waits
  | .popSq q => !(j.popSq q).waits
  | .popSqRow q => !(j.popSqRow q).waits
  | .pushSq q => !j.ac.live || j.sq[q.toFin].ending || j.sq[q.toFin].ents.length < 8
  | .pushRow q => !j.ac.live || j.sqRow[q.toFin].ending || j.sqRow[q.toFin].ents.length < 32
  | .reserve q => !j.xc.live || j.lq[q.toFin].ending || j.lq[q.toFin].ents.length < 8
  | .reserveRow q => !j.xc.live || j.lqRow[q.toFin].ending || j.lqRow[q.toFin].ents.length < 32
  | .flush q => j.qLen q == 0 || j.consumerEnded q
  | _ => false

/-- A QFLUSH that finds its queue empty has waited; every other operation is tried again. -/
def queueProceed (h : Here) (w : Wait) : Here :=
  if !h.jb.queueFree w then h
  else match w with
    | .flush q => if h.jb.qLen q = 0 then h.modSt CoreState.grant else h.modSt CoreState.retry
    | _ => h.modSt CoreState.retry

/-- A STAGE is tried again when its queue holds a pair or can no longer, or when its iteration has been started. -/
def chainQueueProceed (h : EHere) (w : Wait) : EHere :=
  match w with
  | .stage =>
    if !(h.jb.eng h.e).stage.isEmpty || !h.jb.ac.live || h.jb.iterStarted h.region then
      { h with ch := { h.ch with wait := none } } else h
  | _ => h

def execQueueWaitProceed (c : CellId) (e : Eng) (s : State) : Out := onBlocked s c e queueProceed chainQueueProceed

end Sys2Proof.Machine
end

