-- ==== Sys2Proof/Machine/Crews.lean ====
section
/-!
DEFINITION. Crews (01 R29 to R31, 21 R314, R315): joining, leaving, the barrier with its contributions, what a rollback and a commit
do to them, and TNOW and TPRIO (R318).
-/
namespace Sys2Proof.Machine
open Sys2Proof

/-! ## A crew -/

def Crew.new (id : Nat) : Crew := ⟨id, [], 0, [], [], [], []⟩

/-- A barrier is pending once a member has arrived. -/
def Crew.pending (c : Crew) : Bool := !c.arrived.isEmpty

def Crew.has (c : Crew) (job : Nat) : Bool := c.members.any (fun m => m.1 == job)

/-- A member that joins while a barrier is pending takes part from the next generation (R30). -/
def Crew.join (c : Crew) (job : Nat) : Crew :=
  if c.has job then c else { c with members := c.members ++ [(job, if c.pending then c.gen + 1 else c.gen)] }

/-- A member leaves in a region; what the leave changed is kept until it commits. Where a leave completed a generation before it
rolled back, the leave that runs again stands for it (R314): no CRBAR is to pass that generation any more. -/
def Crew.leave (c : Crew) (job region : Nat) : Crew :=
  match c.members.find? (fun m => m.1 == job) with
  | none => c
  | some m =>
    { c with
      members := c.members.filter (fun m => m.1 != job)
      passed := c.passed.map (fun q => if q.job = job && q.region.isNone then { q with region := some region } else q)
      leaves := c.leaves ++ [⟨job, region, m.2, if c.pending && m.2 ≤ c.gen then some c.gen else none, none⟩] }

/-- A job that has ended, or is discarded, is gone from the crew (01 R14). -/
def Crew.drop (c : Crew) (job : Nat) : Crew :=
  { c with
    members := c.members.filter (fun m => m.1 != job)
    arrived := c.arrived.filter (fun m => m.1 != job)
    leaves := c.leaves.filter (fun l => l.job != job)
    passed := c.passed.filter (fun q => q.job != job) }

/-- Rollback of every uncommitted region of a job (R31, R314): arrivals are withdrawn, completed generations will pass
again, the membership is that of the start of the region, and a member whose leave is undone counts as having arrived at
the barrier that its leave completed. -/
def Crew.rollback (c : Crew) (job : Nat) (member : Bool) : Crew :=
  let mine := c.leaves.filter (fun l => l.job == job)
  { c with
    members := if member then
        (if c.has job then c.members else c.members ++ [(job, (mine.head?.map (·.first)).getD c.gen)])
      else c.members.filter (fun m => m.1 != job)
    arrived := c.arrived.filter (fun m => m.1 != job)
    leaves := c.leaves.filter (fun l => l.job != job)
    passed := c.passed.map (fun q => if q.job = job then { q with region := none } else q) ++
      mine.filterMap (fun l => match l.gen, l.done with
        | some g, some cs => some ⟨job, none, l.region, g, cs⟩
        | _, _ => none) }

/-- The commit of a region of a job: its generation has advanced (R31), a generation that it was to pass again and did not
included. -/
def Crew.commit (c : Crew) (job r : Nat) : Crew :=
  { c with
    leaves := c.leaves.filter (fun l => !(l.job == job && l.region ≤ r))
    passed := c.passed.filter (fun q => !(q.job == job && q.region.getD q.made ≤ r)) }

/-- The generation that a rolled-back job passes again: the oldest. -/
def Crew.replay (c : Crew) (job : Nat) : Option CrewPass :=
  (c.passed.filter (fun q => q.job == job && q.region.isNone)).foldl (fun b q =>
    match b with
    | some x => if q.gen < x.gen then some q else b
    | none => some q) none

/-- Every member that takes part has arrived. -/
def Crew.ready (c : Crew) : Bool := c.pending && c.members.all (fun m => c.gen < m.2 || c.arrived.any (fun a => a.1 == m.1))

def Crew.contribs (c : Crew) : List Word := c.arrived.filterMap (fun a => a.2.2)

/-- A generation completes. -/
def Crew.complete (c : Crew) : Crew :=
  { c with
    gen := c.gen + 1
    arrived := []
    passed := c.passed ++ c.arrived.map (fun a => ⟨a.1, some a.2.1, a.2.1, c.gen, c.contribs⟩)
    leaves := c.leaves.map (fun l => if l.gen = some c.gen then { l with done := some c.contribs } else l)
    last := c.contribs }

/-! ## The combining forms (R315) -/

/-- CRBAR's sub field: none, sum, signed minimum and maximum, AND, OR, XOR. -/
inductive CrewOp where
  | none | add | min | max | and | or | xor
  deriving DecidableEq, Repr

def CrewOp.identity (o : CrewOp) : Word :=
  match o with
  | .min => 0x7FFFFFFFFFFFFFFF#64
  | .max => 0x8000000000000000#64
  | .and => -1
  | _ => 0

def CrewOp.apply (o : CrewOp) (x y : Word) : Word :=
  match o with
  | .none => 0
  | .add => x + y
  | .min => aluMin x y
  | .max => aluMax x y
  | .and => x &&& y
  | .or => x ||| y
  | .xor => x ^^^ y

def CrewOp.combine (o : CrewOp) (l : List Word) : Word := l.foldl o.apply o.identity

/-! ## The crews of a context -/

def Context.crew (c : Context) (id : Nat) : Crew := (c.crews.find? (fun x => x.id == id)).getD (Crew.new id)

def Context.putCrew (c : Context) (x : Crew) : Context :=
  if c.crews.any (fun y => y.id == x.id) then { c with crews := c.crews.map (fun y => if y.id = x.id then x else y) }
  else { c with crews := c.crews ++ [x] }

def Package.modCrew (p : Package) (ctx id : Nat) (f : Crew → Crew) : Package :=
  p.modCtx ctx (fun c => c.putCrew (f (c.crew id)))

/-- Change every crew of a context. -/
def Package.modCrews (p : Package) (ctx : Nat) (f : Crew → Crew) : Package :=
  p.modCtx ctx (fun c => { c with crews := c.crews.map f })

def Package.crew (p : Package) (ctx id : Nat) : Crew := ((p.ctx ctx).map (fun c => c.crew id)).getD (Crew.new id)

/-! ## The instructions -/

/-- The crew id in ra: 4,096 or above is a page fault of kind bounds (R311). -/
def Here.withCrew (h : Here) (ra : BitVec 6) (g : Nat → List Nat → Here → Here) : Here :=
  h.withBase ra fun a h => h.unpoisoned [(a, ra.toNat, 0)] fun h =>
    if 4096 ≤ a.v.toNat then h.accFail (.page .bounds) .system a.v else g a.v.toNat a.dep h

/-- The most members of a crew (R314). -/
def crewMax : Nat := 65535

/-- CRJOIN (R314). -/
def execCrjoin (o : OpE1) (s : State) : Out :=
  onCore s fun h => h.withSync o.sy fun h => h.withCrew o.ra fun id deps h =>
    h.room o.f fun h => h.postOk o.sy fun h => h.whenOrdered o.f deps fun h =>
      let c := h.pk.crew h.jb.ctx id
      if !c.has h.jb.uid && crewMax ≤ c.members.length then h.overflow 2 id (c.members.length + 1)
      else
        { h with
          pk := h.pk.modCrew h.jb.ctx id (fun c => c.join h.jb.uid)
          jb := { h.jb with crews := addOnce h.jb.crews id } }.finishPoint o.f o.sy deps

/-- CRLEAVE (R314, R30). -/
def execCrleave (o : OpE1) (s : State) : Out :=
  onCore s fun h => h.withSync o.sy fun h => h.withCrew o.ra fun id deps h =>
    h.room o.f fun h => h.postOk o.sy fun h => h.whenOrdered o.f deps fun h =>
      { h with
        pk := h.pk.modCrew h.jb.ctx id (fun c => c.leave h.jb.uid h.region)
        jb := { h.jb with crews := h.jb.crews.filter (· != id) } }.finishPoint o.f o.sy deps

/-- The CRBAR at pc has its result: rd takes it. -/
def Here.crewDone (h : Here) (op : CrewOp) (rd : BitVec 6) (l : List Word) (f : OrdF) (sy : Sync) (deps : List Nat) : Here :=
  h.finishValue rd (op.combine l) f sy deps

/-- A CRBAR that arrives: it waits for the generation. A member that joined while this one was pending does not move. -/
def Here.crewArrive (h : Here) (id : Nat) (v : Option Word) : Here :=
  let c := h.pk.crew h.jb.ctx id
  if c.members.any (fun m => m.1 == h.jb.uid && c.gen < m.2) then h
  else
    { h with pk := h.pk.modCrew h.jb.ctx id (fun c => { c with arrived := c.arrived ++ [(h.jb.uid, h.region, v)] }) }.block
      (.crew id c.gen)

/-- CRBAR (R30, R31, R315): a completed generation that rolled back passes at once; a job that is no member does not wait;
a member arrives once what the CRBAR releases has been performed (07 R382). -/
def crbar (op : CrewOp) (rd ra : BitVec 6) (rb : Option (BitVec 6)) (f : OrdF) (sy : Sync) (h : Here) : Here :=
  h.withSync sy fun h => h.withCrew ra fun id da h => h.withBase (rb.getD 0) fun b h =>
    h.unpoisoned (rb.toList.map (fun r => (b, r.toNat, 1))) fun h => h.room f fun h =>
      let deps := unionOnce da b.dep
      h.whenPerformed f deps fun h => h.regFree rd fun h => h.postOk sy fun h =>
        let c := h.pk.crew h.jb.ctx id
        if h.st.granted then
          match (c.passed.filter (fun q => q.job == h.jb.uid)).getLast? with
          | some q => h.crewDone op rd q.contribs f sy deps
          | none => h
        else match c.replay h.jb.uid with
          | some q =>
            { h with pk := h.pk.modCrew h.jb.ctx id (fun c => { c with
                passed := c.passed.map (fun x => if x = q then { x with region := some h.region } else x) }) }.crewDone
              op rd q.contribs f sy deps
          | none => if c.has h.jb.uid then h.crewArrive id (rb.map (fun _ => b.v)) else h.crewDone op rd [] f sy deps

/-- CRBAR. -/
def execCrbar (o : OpE1) (s : State) : Out := onCore s (crbar .none 0 o.ra none o.f o.sy)
/-- CRBAR.add. -/
def execCrbarAdd (o : OpCrbar) (s : State) : Out := onCore s (crbar .add o.rd o.ra (some o.rb) o.f o.sy)
/-- CRBAR.min. -/
def execCrbarMin (o : OpCrbar) (s : State) : Out := onCore s (crbar .min o.rd o.ra (some o.rb) o.f o.sy)
/-- CRBAR.max. -/
def execCrbarMax (o : OpCrbar) (s : State) : Out := onCore s (crbar .max o.rd o.ra (some o.rb) o.f o.sy)
/-- CRBAR.and. -/
def execCrbarAnd (o : OpCrbar) (s : State) : Out := onCore s (crbar .and o.rd o.ra (some o.rb) o.f o.sy)
/-- CRBAR.or. -/
def execCrbarOr (o : OpCrbar) (s : State) : Out := onCore s (crbar .or o.rd o.ra (some o.rb) o.f o.sy)
/-- CRBAR.xor. -/
def execCrbarXor (o : OpCrbar) (s : State) : Out := onCore s (crbar .xor o.rd o.ra (some o.rb) o.f o.sy)

/-! ## CREW_BARRIER_COMPLETE -/

/-- A job that waits at a generation proceeds. -/
def Job.crewGrant (j : Job) (id gen : Nat) : Job :=
  if j.ac.wait = some (.crew id gen) then { j with ac := j.ac.grant } else j

/-- CREW_BARRIER_COMPLETE. -/
def execCrewBarrierComplete (p ctx crew : Nat) (s : State) : Out :=
  eventPkg s p fun x =>
    let c := x.crew ctx crew
    let x1 := x.modCrew ctx crew Crew.complete
    s.when_ c.ready (s.setPkg p { x1 with cells := Vector.ofFn (fun i =>
      { x1.cells[i] with job := x1.cells[i].job.map (fun j =>
          if j.ctx = ctx && c.arrived.any (fun a => a.1 == j.uid) then j.crewGrant crew c.gen else j) }) })

/-! ## TNOW and TPRIO (R318) -/

/-- TNOW: the time base in ns, at a point ordered by os and pm only. -/
def execTnow (o : OpTnow) (s : State) : Out :=
  onCore s fun h => h.withSync o.sy fun h => h.room o.f fun h => h.whenOrdered o.f [] fun h =>
    h.regFree o.rd fun h => h.postOk o.sy fun h =>
      h.finishValue o.rd (BitVec.ofNat 64 h.s.ns) o.f o.sy []

/-- TPRIO: bits 1:0 of ra, or 3 when a higher bit is set. -/
def execTprio (o : OpE1) (s : State) : Out :=
  onCore s fun h => h.withSync o.sy fun h => h.withBase o.ra fun a h =>
    h.unpoisoned [(a, o.ra.toNat, 0)] fun h => h.room o.f fun h => h.postOk o.sy fun h => h.whenOrdered o.f a.dep fun h =>
      { h with jb := { h.jb with prio := if 4 ≤ a.v.toNat then 3 else BitVec.ofNat 2 a.v.toNat } }.finishPoint o.f o.sy a.dep

end Sys2Proof.Machine
end

