-- ==== Sys2Proof/Machine/TaskRecord.lean ====
section
/-!
DEFINITION. Task records (21 R303, R304), a cell's queue (R305), readiness (01 R17) and the heat budget (R306, 01 R33, R34).
-/
namespace Sys2Proof.Machine
open Sys2Proof

/-! ## The layout (R303, R304) -/

/-- `n` bytes of a record from an offset, as a number. -/
def recField (b : List Byte) (off n : Nat) : Nat := leNat ((b.drop off).take n)

/-- The fields in which a record is malformed, in the order of their offsets; `secure` is the world of its context. -/
def recordBad (b : List Byte) (secure : Bool) : List Nat :=
  let ctrl := recField b 0x2C 4
  let src := fld ctrl 0 2
  let sel := fld ctrl 2 4
  let bad (off : Nat) (x : Bool) : List Nat := if x then [off] else []
  bad 0x00 (fld (recField b 0 8) 0 7 != 0 || fld (recField b 0 8) 48 16 != 0) ++
  bad 0x10 (fld (recField b 0x10 8) 0 3 != 0) ++
  bad 0x20 (src != 0 && recField b 0x20 4 != 0) ++
  bad 0x2A (fld (recField b 0x2A 2) 12 3 != 0) ++
  bad 0x2C (fld ctrl 13 19 != 0 || src == 3 || (src == 0 && sel != 0) || (src == 1 && 7 < sel) ||
    (bitAt ctrl 12 && bitAt (recField b 0x2A 2) 15) || bitAt ctrl 11 != secure) ++
  bad 0x30 (recField b 0x30 4 != 0) ++
  bad 0x34 (recField b 0x34 1 != 0) ++
  bad 0x35 (recField b 0x35 2 != 0) ++
  bad 0x37 (recField b 0x37 1 != 0) ++
  bad 0x38 (recField b 0x38 8 != 0)

/-- The fields that a writer sets. -/
def readTask (b : List Byte) : TaskRec :=
  let ctrl := recField b 0x2C 4
  let crew := recField b 0x2A 2
  { hdr := BitVec.ofNat 64 (recField b 0 8)
    frame := BitVec.ofNat 64 (recField b 8 8)
    join := BitVec.ofNat 64 (recField b 0x10 8)
    nbt := BitVec.ofNat 64 (recField b 0x18 8)
    trip := BitVec.ofNat 32 (recField b 0x20 4)
    ofsp := BitVec.ofNat 16 (recField b 0x24 2)
    ofsk := BitVec.ofNat 16 (recField b 0x26 2)
    ofse := BitVec.ofNat 16 (recField b 0x28 2)
    crew := if bitAt crew 15 then some (BitVec.ofNat 12 crew) else none
    xs := bitAt ctrl 12
    wld := bitAt ctrl 11
    pin := bitAt ctrl 10
    ecls := BitVec.ofNat 2 (fld ctrl 8 2)
    prio := BitVec.ofNat 2 (fld ctrl 6 2)
    tsel := BitVec.ofNat 4 (fld ctrl 2 4)
    tsrc := BitVec.ofNat 2 (fld ctrl 0 2) }

/-- The handler template with the device's fields set: FRAME, JOIN 0, NBT 0, CV 0, XS 0, PIN 0, PRIO 3 (23 R332). -/
def handlerBytes (b : List Byte) (frame : Nat) : List Byte :=
  let crew := recField b 0x2A 2 % 2 ^ 15
  let ctrl := recField b 0x2C 4
  b.take 8 ++ natLe frame 8 ++ natLe 0 16 ++ (b.drop 0x20).take 0x0A ++ natLe crew 2 ++
    natLe (ctrl - bit1 (bitAt ctrl 12) * 2 ^ 12 - bit1 (bitAt ctrl 10) * 2 ^ 10 - fld ctrl 6 2 * 2 ^ 6 + 3 * 2 ^ 6) 4 ++
    b.drop 0x30

/-! ## Queues (R305) -/

/-- The places of a queue ring. -/
def ringPlaces : Nat := 65536

/-- The places that spawns which have not taken effect reserve (R312). -/
def CellState.reserved (x : CellState) : Nat :=
  let spawn (d : Deferred) : Bool := match d.eff with
    | .spawn _ => true
    | _ => false
  (x.jobs.map (fun j => (j.deferred.filter spawn).length)).sum + (x.due.filter (fun d => spawn d.d)).length

def CellState.hasPlace (x : CellState) : Bool := x.queue.length + x.reserved < ringPlaces

/-- A tick that is not before a time in ns. -/
def dueTick (ns : Nat) : Nat := ns * Config.ticksPerNs

def Context.runs (c : Context) : Bool := c.st == .running

/-- A record as it enters the queue of a cell: when its context runs, it is ready from its time on (01 R17). One that was ready
already keeps the time at which it first became so (21 R307). -/
def enterRecord (now : Nat) (runs : Bool) (q : QRec) : QRec :=
  { q with ready :=
      if runs && !q.await then some (q.ready.getD (max now (dueTick q.notBefore))) else q.ready.filter (fun t => t ≤ now) }

/-- Enter a record: it receives SEQ. -/
def Package.enqueue (p : Package) (now cell : Nat) (q : QRec) : Package :=
  let runs := ((p.ctx q.ctx).map (·.runs)).getD false
  p.modCell cell (fun x => { x with
    queue := x.queue ++ [{ enterRecord now runs q with seq := x.nextSeq }], nextSeq := (x.nextSeq + 1) % 2 ^ 32 })

/-- A new record of a context. -/
def newRecord (t : TaskRec) (ctx : Nat) (notBefore : Nat) : QRec where
  task := t
  seq := 0
  ctx := ctx
  origin := none
  save := none
  await := false
  handlerOf := none
  frameIx := none
  notBefore := max notBefore t.nbt.toNat
  ready := none
  lastFit := none

/-- Whether a record is ready: its time has come and its context runs (R305). -/
def Package.recReady (p : Package) (now : Nat) (q : QRec) : Bool :=
  ((p.ctx q.ctx).map (·.runs)).getD false && !q.await && (match q.ready with
    | some t => t ≤ now
    | none => false)

/-- The tick at which a record first became ready. -/
def QRec.readyAt (q : QRec) : Nat := q.ready.getD 0

/-- Records of a context that has stopped running: those whose time has not come are not yet ready. -/
def suspendRec (now : Nat) (q : QRec) : QRec :=
  match q.ready with
  | some t => if now < t then { q with ready := none } else q
  | none => q

/-- Change every record of a context. -/
def Package.modRecs (p : Package) (ctx : Nat) (f : QRec → QRec) : Package :=
  { p with cells := Vector.ofFn (fun i =>
      { p.cells[i] with queue := p.cells[i].queue.map (fun q => if q.ctx = ctx then f q else q) }) }

/-! ## The heat budget (R306) -/

/-- Units per microsecond that a class draws at a step. -/
def draw (ecls : BitVec 2) (step : Nat) : Nat :=
  match step, ecls.toNat with
  | 0, 0 => 2 | 0, 1 => 5 | 0, 2 => 10 | 0, _ => 18
  | 1, 0 => 2 | 1, 1 => 4 | 1, 2 => 9 | 1, _ => 15
  | 2, 0 => 1 | 2, 1 => 3 | 2, 2 => 7 | 2, _ => 12
  | 3, 0 => 1 | 3, 1 => 3 | 3, 2 => 6 | 3, _ => 10
  | _, 0 => 1 | _, 1 => 2 | _, 2 => 4 | _, _ => 7

/-- The clock step of a die. -/
def Package.step (p : Package) (die : Nat) : Nat := ((p.firn.dies[die]?).map (fun d => d.step.toNat)).getD 4

/-- What the running jobs of a die draw at a step; `but` leaves one cell out. -/
def Package.draws (p : Package) (die step : Nat) (but : Option Nat) : Nat :=
  ((List.range' (96 * die) 96).map (fun i =>
    if but = some i then 0 else (((p.cell i).bind (·.job)).map (fun j => draw j.qrec.task.ecls step)).getD 0)).sum

def Package.budget (p : Package) (die : Nat) : Nat := ((p.dies[die]?).map (·.budget)).getD 0

/-- Whether a class fits a die's free budget at a step. -/
def Package.fitsAt (p : Package) (die step : Nat) (but : Option Nat) (ecls : BitVec 2) : Bool :=
  draw ecls step + p.draws die step but ≤ p.budget die

def Package.fits (p : Package) (die : Nat) (ecls : BitVec 2) : Bool := p.fitsAt die (p.step die) none ecls

/-- Note, before the free budget of a die changes, which ready records and held jobs fit it now (01 R34). -/
def Package.noteFits (p : Package) (now die : Nat) : Package :=
  { p with cells := Vector.ofFn (fun i =>
      if dieOf i.val = die then
        { p.cells[i] with
          queue := p.cells[i].queue.map (fun q => if p.recReady now q && p.fits die q.task.ecls then { q with lastFit := some now } else q)
          heldJob := p.cells[i].heldJob.map (fun j => if p.fits die j.qrec.task.ecls then { j with fitSince := now } else j) }
      else p.cells[i]) }

end Sys2Proof.Machine
end

