-- ==== Sys2Proof/Machine/Recovery.lean ====
section
/-!
DEFINITION. Rollback (01 R26, R27; 14 R197; 17 R236; 23 R337), commit and the deferred effects (01 R21, R23; 07 R382; 13 R190, R191;
21 R313, R320), the end of a job (01 R14), write-outs (21 R310), and the icequake and watchdog events.
-/
namespace Sys2Proof.Machine
open Sys2Proof

/-! ## Rollback of a job -/

/-- The save of the oldest uncommitted region of a core stream. -/
def Job.oldSave (j : Job) (k : Core) : CoreSave :=
  ((j.core k).saves.find? (fun v => v.region == j.committed)).getD (j.save k j.committed)

/-- A core stream at the start of the region of a save (01 R26). -/
def Job.restart (j : Job) (k : Core) (v : CoreSave) : Job :=
  let c : CoreState := { CoreState.start (j.entry k 0) v.regs with
    region := v.region, kps := v.kps, nmctl := v.nmctl, srs := v.srs, rrb := v.rrb, rdv := v.rdv, saves := [v] }
  if v.region = 0 then j.setCore k c else (j.setCore k c).startRegion k v.region

/-- A stream chain at its boundary for region `k`; one that ended in a committed region stays ended. -/
def Chain.restart (c : Chain) (k : Nat) (entry : Word) : Chain :=
  if !c.live && c.region < k then c
  else if k = 0 then
    { c with ptr := entry, region := 0, stack := [], shapes := Vector.replicate 4 none, foot := [], begun := false, halted := false,
             live := true, wait := none }
  else
    { c with region := k, stack := [], shapes := Vector.replicate 4 none, halted := false, live := true, wait := some .elastic }

/-- An engine after a rollback: kicked chains, transfers and the stage queue are gone (19 R273). -/
def EngState.rollback (e : EngState) (k : Nat) (entry : Word) : EngState where
  chain := (e.chain.filter Chain.isStream).map (fun c => c.restart k entry)
  kicks := []
  stage := []
  left := e.left.filter (fun x => x.1 < k)
  xfers := []
  starve := none

/-- An empty queue with the ended state of a save: bit `i` of the issued and of the effective ends. -/
def emptyQueue {α : Type} (v : CoreSave) (i : Nat) : Queue α := ⟨[], v.ending.getLsbD i, v.ended.getLsbD i⟩

/-- The ring descriptors at the start of the region, with every effect since (05 R71). -/
def Job.oldRings (j : Job) : Vector Ring 16 :=
  Vector.ofFn (fun i => ((imageFrom j.ringSaves (BitVec.ofNat 4 i.val) 0).map (·.2.2)).getD j.rings[i])

/-- A semaphore with the decrements of uncommitted regions restored (13 R190). -/
def Sem.rollback (m : Sem) : Sem :=
  { c := m.c + (m.decs.filter (fun d => d.1.isSome)).length, decs := m.decs.filter (fun d => d.1.isNone) }

/-- The tags at the start of the region. -/
def Job.undoTags (j : Job) : Job :=
  (oldImages j.tagSaves).foldl (fun j e => j.putTag e.1 e.2) j

/-- The matrix engine: its jobs and tasks are discarded, each saved image is restored, the banks return (17 R236, R262). -/
def MeState.rollback (m : MeState) (v : CoreSave) : MeState :=
  { m with
    tiles := m.tileSaves.foldl (fun t e => t.setIfInBounds e.2.1 e.2.2) m.tiles
    slots := m.slotSaves.foldl (fun t e => t.setIfInBounds e.2.1 e.2.2) m.slots
    tileSaves := []
    slotSaves := []
    banks := v.banks
    jobs := []
    tasks := []
    mgos := v.mgos }

/-- A job rolled back to its oldest uncommitted region: the part that lies in the job itself. -/
def Job.rollback (j : Job) : Job :=
  let va := j.oldSave .ac
  let vx := j.oldSave .xc
  let k := j.committed
  let j1 := (j.undoCopies.undoTags)
  let j2 := { j1 with
    decisions := j.decisions.filter (fun d => d.1 + 1 < k)
    tagSaves := []
    copySaves := []
    markSaves := []
    rings := j.oldRings
    ringSaves := []
    sems := j.sems.map Sem.rollback
    lq := Vector.ofFn (fun i => emptyQueue va i.val)
    lqRow := Vector.ofFn (fun i => emptyQueue va (i.val + 4))
    sq := Vector.ofFn (fun i => emptyQueue vx i.val)
    sqRow := Vector.ofFn (fun i => emptyQueue vx (i.val + 2))
    vec := vx.vec
    async := j.async.filterMap (fun (w : AsyncWrite) =>
      if w.region < k then some { w with endedBy := w.endedBy.filter (fun r => r < k) } else none)
    me := j.me.rollback va
    ce0 := j.ce0.rollback k j.hdr.ce0[0]
    ce1 := j.ce1.rollback k j.hdr.ce1[0]
    deferred := []
    crews := va.crews
    prio := va.prio
    results := []
    traps := []
    eretAt := j.eretAt.filter (fun r => r < k)
    eretRead := if j.eretAt.any (fun r => r < k) then j.eretRead else none }
  (j2.restart .ac va).restart .xc vx

/-- The operations of a job whose regions from `k` on are discarded: what has not left is gone, what has left stays and
answers nobody (14 R197). A load to another place has left once nothing ordered before it holds it back. -/
def rollbackOps (p : Package) (ops : List MemOp) (uid k : Nat) : List MemOp :=
  let away (t : Target) : Bool := match t with
    | .carve _ | .nowhere => false
    | _ => true
  ops.filterMap (fun o =>
    if o.job = uid && !o.dropped && k ≤ o.region then
      (match o.status with
        | .left | .applied => some { o with dropped := true }
        | .waiting => if o.isLoad && away o.target && p.free ops o then some { o with dropped := true } else none
        | _ => none)
    else some o)

/-- The operations and invalidations of a cell after a rollback. -/
def CellState.rollbackOps (x : CellState) (p : Package) (uid k : Nat) : CellState :=
  let ops := Machine.rollbackOps p x.ops uid k
  { x with ops := tidy ops, invals := x.invals.filter (fun i => i.job != uid || ops.any (fun o => o.id == i.op)) }

/-- ROLLBACK: a job of a cell returns to the start of its oldest uncommitted region (01 R26). -/
def Package.rollback (p : Package) (cell uid : Nat) : Package :=
  match (p.cell cell).bind (fun x => x.jobBy uid) with
  | none => p
  | some j =>
    let member (c : Crew) : Bool := (j.oldSave .ac).crews.contains c.id
    ((p.modJob cell uid Job.rollback).modCell cell (fun x => x.rollbackOps p uid j.committed)).modCrews
      j.ctx (fun c => c.rollback uid (member c))

/-! ## Closing batches (21 R320) -/

/-- A batch is closed: it carries the binding that it was pushed under. -/
def Shadow.close (h : Shadow) (clk : Nat) (flush : List Nat) : Shadow :=
  match h.bind, h.opened with
  | some b, _ :: _ =>
    { h with opened := [], batches := h.batches ++ [⟨b, h.opened, Option.none, clk, flush, false⟩] }
  | _, _ => h

/-- Every open batch of a cell is closed. -/
def CellState.closeBatches (x : CellState) (clk : Nat) : CellState := { x with shadows := x.shadows.map (fun h => h.close clk []) }

/-! ## The end of a job, and jobs that stop -/

/-- A job that is gone: its held stores and incomplete operations are discarded, operations that have left are performed,
it leaves its crews (01 R14, 23 R344, R363, R381). -/
def Package.stopJob (p : Package) (cell : Nat) (j : Job) : Package :=
  (p.modCell cell (fun x => x.rollbackOps p j.uid 0)).modCrews j.ctx (fun c => c.drop j.uid)

/-- A frame returns to the pool of its context. -/
def Package.freeFrame (p : Package) (ctx : Nat) (ix : Option Nat) : Package :=
  match ix with
  | some i => p.modCtx ctx (fun c => { c with framesUsed := c.framesUsed.filter (· != i) })
  | none => p

/-- A save area returns to the pool of its context. -/
def Package.freeArea (p : Package) (ctx area : Nat) : Package := p.modCtx ctx (fun c => { c with saved := dropKey c.saved area })

/-- Where a job that is set aside stands: on a cell, or in a save area that the record of a cell's queue names. -/
inductive Aside where
  | held (cell : Nat) (j : Job)
  | trapped (cell : Nat) (j : Job)
  | saved (cell area : Nat) (j : Job)
  deriving Repr

def Aside.job (a : Aside) : Job :=
  match a with
  | .held _ j | .trapped _ j | .saved _ _ j => j
def Aside.cell (a : Aside) : Nat :=
  match a with
  | .held c _ | .trapped c _ | .saved c _ _ => c

/-- The jobs set aside of a package. -/
def Package.asides (p : Package) : List Aside :=
  (List.range 192).flatMap (fun i => match p.cell i with
    | none => []
    | some x =>
      (x.heldJob.map (Aside.held i)).toList ++ (x.trapped.map (Aside.trapped i)).toList ++
      x.queue.filterMap (fun q => match q.save, p.ctx q.ctx with
        | some a, some c => (look c.saved a).map (Aside.saved i a)
        | _, _ => none))

def Package.aside (p : Package) (uid : Nat) : Option Aside := p.asides.find? (fun a => a.job.uid == uid)

/-- Take a job that is set aside away. -/
def Package.removeAside (p : Package) (a : Aside) : Package :=
  match a with
  | .held c _ => p.modCell c (fun x => { x with heldJob := none })
  | .trapped c _ => p.modCell c (fun x => { x with trapped := none })
  | .saved c k j =>
    (p.modCell c (fun x => { x with queue := x.queue.filter (fun q => !(q.ctx == j.ctx && q.save == some k)) })).freeArea j.ctx k

/-- Change a job that is set aside where it stands. -/
def Package.modAside (p : Package) (a : Aside) (f : Job → Job) : Package :=
  match a with
  | .held c j | .trapped c j => p.modJob c j.uid f
  | .saved _ k j => p.modCtx j.ctx (fun c => { c with saved := c.saved.map (fun e => if e.1 = k then (k, f e.2) else e) })

def Job.modHeld (j : Job) (f : Held → Held) : Job := { j with held := j.held.map f }

/-- A task is abandoned: it is discarded without a join decrement, its frame returns, and event 0x07 is written; where it was
itself a handler, the task that it handled is abandoned too (23 R358). -/
def Package.abandon (p : Package) (ns fuel uid : Nat) : Package :=
  match fuel with
  | 0 => p
  | fuel + 1 =>
    match p.aside uid with
    | none => p
    | some a =>
      let j := a.job
      let p1 := ((p.removeAside a).stopJob a.cell j).freeFrame j.ctx (j.held.bind (·.frame))
      let p2 := p1.event ns j.ctx 0x07 6 (placeOfCell a.cell) 0
      match j.eretOf, j.eretAt.any (fun r => r < j.committed) with
      | some u, false => p2.abandon ns fuel u
      | _, _ => p2

/-- A handler that ends without a committed ERET abandons its faulted task. -/
def Package.endHandler (p : Package) (ns : Nat) (j : Job) : Package :=
  match j.eretOf, j.eretAt.any (fun r => r < j.committed) with
  | some u, false => p.abandon ns 256 u
  | _, _ => p

/-- The running place of a cell falls idle. -/
def CellState.idle (x : CellState) : CellState := { x with job := none, preempt := false }

/-! ## The commit of an ERET (R358, R339) -/

/-- The live-ins that ERET read, within the masks of the header. -/
def Job.withFrameRegs (j : Job) (e : EretRead) : Job :=
  let core (j : Job) (k : Core) (r : Vector PVal 64) : Job :=
    let regs := maskRegs (j.hdr.live k) (r.map (fun v => { v with dep := [] }))
    j.setCore k { j.core k with
      regs := regs.set 0 PVal.zero
      saves := (j.core k).saves.map (fun v => { v with regs := regs.set 0 PVal.zero }) }
  core (core j .ac e.regsA) .xc e.regsX

/-- A job runs again: its frame returns to the pool, and its watchdog count starts anew (01 R36). -/
def Package.resumed (p : Package) (cell : Nat) (j : Job) : Package :=
  (p.modCell cell (fun x => { x with job := some { j with held := none, progress := p.clkOf cell } })).freeFrame j.ctx
    (j.held.bind (·.frame))

/-- RETURN FROM AN EXCEPTION: the faulted job becomes ready with the live-ins that the handler's frame held; one that keeps a
running place resumes there at once, one that was written out becomes ready where its record lies. -/
def Package.release (p : Package) (now uid : Nat) (e : EretRead) : Package :=
  match p.aside uid with
  | none => p
  | some a =>
    let f (j : Job) : Job := { (j.withFrameRegs e).modHeld (fun h => { h with released := true }) with
      readySince := now, fitSince := now }
    match a with
    | .held .. => p.modAside a f
    | .trapped c j => ((p.noteFits now (dieOf c)).modCell c (fun x => { x with trapped := none })).resumed c (f j)
    | .saved c k j =>
      (p.modAside a f).modCell c (fun x => { x with queue := x.queue.map (fun q =>
        if q.ctx = j.ctx && q.save = some k then { q with await := false, ready := some now } else q) })

/-! ## Region commit (01 R21) -/

/-- Every engine stream has passed the end of region `r`. -/
def Job.passed (j : Job) (r : Nat) : Bool :=
  let core (c : CoreState) : Bool := !c.live || r < c.region
  let chain (e : EngState) : Bool := match e.chain with
    | some c => !c.isStream || !c.live || r < c.region
    | none => true
  core j.ac && core j.xc && chain j.ce0 && chain j.ce1

/-- Whether an operation of a job will still write architectural state of the job. -/
def MemOp.writesBack (o : MemOp) : Bool :=
  o.incomplete && !o.dropped && (match o.what with
    | .load _ _ d => d != .none
    | .atomic _ _ _ _ _ d => d != .none
    | .launchChain .. | .launchMe _ | .launchDrain _ => true
    | _ => false)

/-- No operation, engine job or asynchronous write of the regions up to `r` is outstanding. -/
def Job.settled (j : Job) (ops : List MemOp) (r : Nat) : Bool :=
  let eng (e : EngState) : Bool :=
    e.kicked.all (fun c => r < c.region) && e.xfers.all (fun x => r < x.region)
  ops.all (fun o => o.job != j.uid || r < o.region || !o.writesBack) &&
  j.me.jobs.all (fun m => r < m.region) && j.me.tasks.all (fun t => r < t.region) &&
  j.async.all (fun w => w.complete || r < w.region) && eng j.ce0 && eng j.ce1

/-- The conditions of R21 for the oldest uncommitted region; a trap that is outstanding comes first (23 R336). -/
def Job.canCommit (j : Job) (ops : List MemOp) (clk : Nat) : Bool :=
  j.traps.isEmpty && j.passed j.committed && j.settled ops j.committed &&
    j.results.all (fun e => j.committed < e.1 || e.2 + quake ≤ clk)

/-- A semaphore after the commit of region `r`: its decrements are settled; they are kept only while a pending set counts
them. -/
def Sem.commit (m : Sem) (r : Nat) (keep : Bool) : Sem :=
  let ds := m.decs.map (fun d => match d.1 with
    | some q => if q ≤ r then (none, d.2) else d
    | none => d)
  { m with decs := if keep then ds else ds.filter (fun d => d.1.isSome) }

/-- Whether a set of a semaphore is pending. -/
def setPending (ds : List Deferred) (s : Nat) : Bool :=
  ds.any (fun d => match d.eff with
    | .semSet q _ => q.toNat == s
    | _ => false)

/-- A job after the commit of region `r`: the images of the region are dropped. -/
def Job.commit (j : Job) (due : List Due) (r : Nat) : Job :=
  let eng (e : EngState) : EngState :=
    { e with left := (e.left.filter (fun x => x.1 ≤ r)).getLast?.toList ++ e.left.filter (fun x => r < x.1) }
  let core (c : CoreState) : CoreState := { c with saves := c.saves.filter (fun v => r < v.region) }
  { j with
    committed := r + 1
    deferred := j.deferred.filter (fun d => r < d.region)
    tagSaves := j.tagSaves.filter (fun e => r < e.1)
    copySaves := j.copySaves.filter (fun e => r < e.1)
    markSaves := j.markSaves.filter (fun e => r < e.1)
    ringSaves := j.ringSaves.filter (fun e => r < e.1)
    sems := Vector.ofFn (fun i => j.sems[i].commit r (setPending (semPending due j) i.val))
    me := { j.me with
      tileSaves := j.me.tileSaves.filter (fun e => r < e.1)
      slotSaves := j.me.slotSaves.filter (fun e => r < e.1) }
    results := j.results.filter (fun e => r < e.1)
    async := j.async.filter (fun w => r < w.region || !w.complete || (w.sem.isSome && w.endedBy.all (fun q => r < q)))
    ac := core j.ac
    xc := core j.xc
    ce0 := eng j.ce0
    ce1 := eng j.ce1 }

/-- The deferred effects of region `r` become due. -/
def Job.dueOf (j : Job) (r : Nat) : List Due := (j.deferred.filter (fun d => d.region ≤ r)).map (fun d => ⟨j.uid, j.ctx, d⟩)

/-- No stream of the job is live. -/
def Job.noneLive (j : Job) : Bool :=
  let chain (e : EngState) : Bool := match e.chain with
    | some c => !c.isStream || !c.live
    | none => true
  !j.ac.live && !j.xc.live && chain j.ce0 && chain j.ce1

/-- The join decrement of a job that has ended releases everything that the job did (01 R14, 21 R313). -/
def Job.joinDue (j : Job) (ops : List MemOp) : List Due :=
  if j.qrec.task.join = 0 then []
  else
    [⟨j.uid, j.ctx, ⟨j.seq, j.committed, .ac, 0, none, (ops.filter (fun o => o.job == j.uid && !o.dropped)).map (·.id), none,
      .joinDec j.qrec.task.join j.qrec.origin⟩⟩]

/-- JOB_END. -/
def Package.jobEnd (p : Package) (now ns cell : Nat) (j : Job) : Package :=
  let clk := p.clkOf cell
  let p1 := (p.noteFits now (dieOf cell)).modCell cell (fun x =>
    { (x.idle).closeBatches clk with due := x.due ++ j.joinDue x.ops })
  (p1.modCrews j.ctx (fun c => c.drop j.uid)).endHandler ns j

/-- The commit of the region of an ERET: the faulted job becomes ready (23 R358). -/
def Package.eretCommit (p : Package) (now : Nat) (j : Job) (r : Nat) : Package :=
  match j.eretOf, j.eretAt, j.eretRead with
  | some u, some q, some e => if q = r then p.release now u e else p
  | _, _, _ => p

/-- REGION_COMMIT of the running job of a cell. Its effects fall due in issue order, behind those of the regions that committed before
it (DESIGN CHOICE, notes/assumptions/86.md). -/
def Package.commitJob (p : Package) (now ns cell : Nat) (x : CellState) (j : Job) : Package :=
  let r := j.committed
  let j1 := j.commit x.due r
  let p0 := (p.setCell cell { x with job := some j1, due := x.due ++ j.dueOf r }).modCrews j.ctx (fun c => c.commit j.uid r)
  let p1 := p0.eretCommit now j r
  if j.inEpilogue r && j1.noneLive then p1.jobEnd now ns cell j1 else p1.meSettle cell j.uid

/-- REGION_COMMIT. -/
def execRegionCommit (c : CellId) (s : State) : Out :=
  eventJob s c fun p x j =>
    s.when_ (j.canCommit x.ops (p.clkOf c.cell)) (s.setPkg c.pkg (p.commitJob s.now s.ns c.cell x j))

/-! ## Write-out (21 R310) -/

def Context.areaFree (c : Context) : Option Nat :=
  if c.saved.length < c.saves then (List.range c.saves).find? (fun a => (look c.saved a).isNone) else none

/-- Trap-held: until the handler's ERET commits (23 R339). -/
def Job.trapHeld (j : Job) : Bool := j.held.any (fun h => !h.released)

/-- The cell is done with what a job has issued in its own carve-out and with its due effects. -/
def CellState.quietFor (x : CellState) (j : Job) : Bool :=
  x.due.all (fun d => d.job != j.uid) &&
  x.ops.all (fun o => o.job != j.uid || o.status == .complete || o.status == .applied || (match o.target, o.what with
    | _, .point => true
    | .carve _, _ => false
    | _, _ => true))

/-- The free save area that a job can be written out to. -/
def Package.area (p : Package) (j : Job) : Option Nat := (p.ctx j.ctx).bind Context.areaFree

/-- Whether a cell can write out a job that has an area now: the queue has a place for its continuation record, and what the job
has issued in its own carve-out has been made. -/
def CellState.mayWriteOut (x : CellState) (j : Job) : Bool := x.quietFor j && x.hasPlace

/-- The area to which a job can be written out from a cell now. -/
def Package.canWriteOut (p : Package) (x : CellState) (j : Job) : Option Nat := if x.mayWriteOut j then p.area j else none

/-- CONTINUATION_WRITE_OUT: the job goes to a save area, its continuation record to the cell's queue; the caller takes the
job from its place. -/
def Package.writeOut (p : Package) (now cell area : Nat) (j : Job) : Package :=
  let q : QRec := { j.qrec with
    task := { j.qrec.task with prio := j.prio }
    save := some area
    await := j.trapHeld
    notBefore := 0
    ready := if j.trapHeld then none else some now
    lastFit := none }
  (p.modCtx j.ctx (fun c => { c with saved := c.saved ++ [(area, j)] })).enqueue now cell q

/-- What a held image holds of a job: the state that is in use; the rest reads zero without poison when the job runs again. Nothing is
dirty once it has been copied (23 R337). -/
def Job.image (j : Job) : Job :=
  { j with
    dirty := []
    vec := { j.vec with
      v := Vector.ofFn (fun i => if j.inUse.contains (.v i.val) then j.vec.v[i] else VReg.zero)
      m := Vector.ofFn (fun i => if j.inUse.contains (.m i.val) then j.vec.m[i] else MReg.zero)
      tb := Vector.ofFn (fun i => if j.inUse.contains (.tb i.val) then j.vec.tb[i] else TReg.zero) }
    me := { j.me with
      tiles := Vector.ofFn (fun i => if j.inUse.contains (.tile i.val) then j.me.tiles[i] else Tile.zero)
      slots := Vector.ofFn (fun i => if j.inUse.contains (.slot i.val) then j.me.slots[i] else none)
      banks := ⟨if j.inUse.contains (.bank 0) then j.me.banks.shadow else Banks.zero.shadow,
        if j.inUse.contains (.bank 1) then j.me.banks.prev else Banks.zero.prev⟩ } }

/-- A job becomes the held job of its cell. -/
def Package.hold (p : Package) (now cell : Nat) (j : Job) : Package :=
  (p.noteFits now (dieOf cell)).modCell cell (fun x =>
    { x.idle with heldJob := some { j.image with readySince := now, fitSince := now } })

/-! ## PREEMPTION (01 R28) -/

/-- PREEMPTION: the running job rolls back and is held; an older held job is written out first, or the request waits. -/
def execPreemption (c : CellId) (s : State) : Out :=
  eventJob s c fun p x j =>
    if !(x.preempt && j.traps.isEmpty) then .next s
    else
      let take (p : Package) : State :=
        let p1 := (p.rollback c.cell j.uid).modCell c.cell (fun x => x.closeBatches (p.clkOf c.cell))
        (match (p1.cell c.cell).bind (·.job) with
          | some j1 => s.setPkg c.pkg (p1.hold s.now c.cell j1)
          | none => s)
      match x.heldJob with
      | none => .next (take p)
      | some o =>
        match p.canWriteOut x o with
        | some a => .next (take ((p.modCell c.cell (fun x => { x with heldJob := none })).writeOut s.now c.cell a o))
        | none => .next s

/-! ## ICEQUAKE_REPORT (23 R346) -/

/-- Every named cell rolls back its running job; recoverable traps of it are discarded (R336). -/
def Package.icequake (p : Package) (cells : List Nat) : Package :=
  cells.foldl (fun p i => match (p.cell i).bind (·.job) with
    | some j => p.rollback i j.uid
    | none => p) p

/-- ICEQUAKE_REPORT: it comes at most 96 clk after the strike. -/
def execIcequakeReport (p : Nat) (cells : List Nat) (ago : Nat) (s : State) : Out :=
  eventPkg s p fun x => s.when_ (ago ≤ 96) (s.setPkg p (x.icequake cells))

/-! ## WATCHDOG (01 R36) -/

/-- WATCHDOG: no progress for 2^26 clk; the count starts anew. -/
def execWatchdog (c : CellId) (s : State) : Out :=
  eventJob s c fun p _ j =>
    s.when_ (j.progress + 2 ^ 26 ≤ p.clkOf c.cell)
      (s.setPkg c.pkg ((p.modJob c.cell j.uid (fun j => { j with progress := p.clkOf c.cell })).event s.ns j.ctx 0x02 6
        (placeOfCell c.cell) 0))

/-! ## HALT (23 R363) -/

/-- HALT: rolled back and discarded; a handler that halts abandons its faulted task. -/
def Package.halt (p : Package) (now ns cell : Nat) (j : Job) (pc : Word) : Package :=
  let p1 := (p.rollback cell j.uid).stopJob cell j
  let p2 := ((p1.noteFits now (dieOf cell)).modCell cell (fun x => (x.idle).closeBatches (p.clkOf cell))).event ns j.ctx 0x08 2
    (placeOfCell cell) (pc.toNat % 2 ^ 32)
  p2.endHandler ns j

/-- HALT. -/
def execHalt (sy : Sync) (s : State) : Out :=
  match s.here with
  | none => .next s
  | some h =>
    let h1 := h.withSync sy fun h => h.postOk sy fun h => h.modSt (fun c => { c with granted := true })
    if h1.st.granted && h1.bad.isNone then
      .next (h1.s.setPkg h.id.pkg (h1.pkNow.halt h.s.now h.s.ns h.id.cell h1.jb h.st.pc))
    else h1.outcome

end Sys2Proof.Machine
end

