-- ==== Sys2Proof/Machine/Traps.lean ====
section
/-!
DEFINITION. TAKING AN EXCEPTION: a recoverable trap rolls its job back and holds it (23 R332, R336, R339), the trap frame is written
and the handler record entered (R333 to R335), and ERET releases the job (R358).
-/
namespace Sys2Proof.Machine
open Sys2Proof

/-! ## Which trap decides (R336) -/

/-- The order of two traps of a window: the older region, then AC, XC, CE0, CE1. -/
def Trap.before (a b : Trap) : Bool := a.region < b.region || (a.region == b.region && a.dlv.code < b.dlv.code)

def firstTrap (l : List Trap) : Option Trap :=
  l.foldl (fun b t => match b with
    | some x => if t.before x then some t else b
    | none => some t) none

/-! ## What the frame records (R333, R335) -/

/-- The program counters of the streams; 0 for one that is absent or has ended. -/
def Job.pcs (j : Job) : Vector Word 4 :=
  let core (c : CoreState) : Word := if c.live then c.pc else 0
  let chain (e : EngState) : Word := match e.chain with
    | some c => if c.isStream && c.live then c.ptr else 0
    | none => 0
  #v[core j.ac, core j.xc, chain j.ce0, chain j.ce1]

/-- QOCC: the entries of each queue. -/
def Job.qocc (j : Job) : Word :=
  let sum (l : List Nat) (w : Nat) : Nat := l.zipIdx.foldl (fun n e => n + e.1 * 2 ^ (w * e.2)) 0
  BitVec.ofNat 64 (sum (j.lq.toList.map (·.ents.length)) 4 + sum (j.lqRow.toList.map (·.ents.length)) 6 * 2 ^ 16 +
    sum (j.sq.toList.map (·.ents.length)) 4 * 2 ^ 40 + sum (j.sqRow.toList.map (·.ents.length)) 6 * 2 ^ 48)

/-- An entry of OSA or OSX: LAST and ERR. -/
def osEntry (ops : List MemOp) (j : Job) (k : Core) (os : BitVec 3) : Word :=
  let open_ := (ops.filter (fun o => o.job == j.uid && o.eng == k.eng && o.os == os && o.incomplete)).map (·.num)
  let next := j.osNum k os
  -- the oldest is the one furthest behind the next number, modulo 2^32
  let last := open_.foldl (fun l n => if (next + 2 ^ 32 - l) % 2 ^ 32 < (next + 2 ^ 32 - n) % 2 ^ 32 then n else l) next
  BitVec.ofNat 64 ((last + 2 ^ 32 - 1) % 2 ^ 32 + bit1 (j.osErr[coreIx k].getLsbD os.toNat) * 2 ^ 63)

def osEntries (ops : List MemOp) (j : Job) (k : Core) : Vector Word 8 := Vector.ofFn (fun i => osEntry ops j k (BitVec.ofNat 3 i.val))

/-! ## RECOVERABLE_TRAP -/

/-- The place of a job that traps (R339). -/
inductive TrapPlace where
  | held                        -- no older job is held
  | older (area : Nat) (o : Job)   -- step 1: the older held job is written out
  | itself (area : Nat)         -- step 2: the trapping job is written out
  | running                     -- step 3: it keeps the running place

/-- The first step of R339 that a free save area allows. -/
def Package.trapPlace (p : Package) (x : CellState) (j : Job) : TrapPlace :=
  match x.heldJob with
  | none => .held
  | some o =>
    match p.area o, p.area j with
    | some a, _ => .older a o
    | none, some a => .itself a
    | none, none => .running

/-- Whether the write-out that a place takes can be made now. -/
def CellState.placeReady (x : CellState) (j : Job) (t : TrapPlace) : Bool :=
  match t with
  | .held | .running => true
  | .older _ o => x.mayWriteOut o
  | .itself _ => x.mayWriteOut j

/-- The trapping job goes to its place. -/
def Package.placeTrapped (p : Package) (now cell : Nat) (j : Job) (t : TrapPlace) : Package :=
  match t with
  | .held => p.hold now cell j
  | .older a o => ((p.modCell cell (fun x => { x with heldJob := none })).writeOut now cell a o).hold now cell j
  | .itself a => ((p.noteFits now (dieOf cell)).modCell cell (fun x => x.idle)).writeOut now cell a j
  | .running => (p.noteFits now (dieOf cell)).modCell cell (fun x => { x.idle with trapped := some j })

/-- TAKE A RECOVERABLE TRAP (R332, steps 1 and 2): the job rolls back, it becomes trap-held, the other traps of the window are
discarded, and a pending pre-emption request is absorbed. The rollback completes once a write-out that it needs can be made
(DESIGN CHOICE, notes/assumptions/72.md). -/
def Package.takeTrap (p : Package) (now cell : Nat) (j : Job) (t : Trap) : Package :=
  let p1 := p.rollback cell j.uid
  match p1.cell cell with
  | none => p
  | some x =>
    match x.job with
    | none => p
    | some j1 =>
      if !x.placeReady j1 (p1.trapPlace x j1) then p
      else
      let h : Held :=
        { trap := t, frame := none, filled := false, written := false, pcs := j.pcs, qocc := j.qocc
          last := osEntries x.ops j1 .ac, lastX := osEntries x.ops j1 .xc, released := false }
      (p1.modCell cell (fun x => { x with job := none, preempt := false })).placeTrapped now cell
        { j1.image with held := some h, osErr := Vector.replicate 2 0 } (p1.trapPlace x j1)

/-- RECOVERABLE_TRAP. -/
def execRecoverableTrap (c : CellId) (s : State) : Out :=
  eventJob s c fun p _ j =>
    match firstTrap j.traps with
    | none => .next s
    | some t => .next (s.setPkg c.pkg (p.takeTrap s.now c.cell j t))

/-! ## The trap frame (R333, R334) -/

/-- CAUSE. -/
def Trap.cause (t : Trap) (cell ctx : Nat) : Nat :=
  placeOfCell cell * 2 ^ 32 + ctx * 2 ^ 24 + bit1 t.rmt * 2 ^ 23 + t.dlv.code * 2 ^ 20 + t.psn * 2 ^ 18 + t.sub * 2 ^ 8 + t.code

/-- Two-bit poison codes of 64 registers, packed. -/
def packPoison (r : Vector PVal 64) : List Byte :=
  natLe (r.toList.zipIdx.foldl (fun n e => n + e.1.p.code * 4 ^ e.2) 0) 16

/-- The 1,536 bytes of a frame. -/
def frameBytesOf (cell : Nat) (j : Job) (h : Held) : List Byte :=
  let a := (j.oldSave .ac).regs
  let x := (j.oldSave .xc).regs
  natLe (h.trap.cause cell j.ctx) 8 ++ wordLe h.trap.faddr ++ h.pcs.toList.flatMap wordLe ++
  natLe j.committed 4 ++ natLe h.trap.region 4 ++ wordLe h.qocc ++ h.last.toList.flatMap wordLe ++ h.lastX.toList.flatMap wordLe ++
  packPoison a ++ packPoison x ++ h.trap.krec ++ a.toList.flatMap (fun v => wordLe v.v) ++ x.toList.flatMap (fun v => wordLe v.v) ++
  natLe (j.hdr.liveV.toNat + j.hdr.liveM.toNat * 2 ^ 32) 8 ++ natLe 0 248

/-- The address of a frame of a pool: frames lie 2,048 bytes apart (25 R370). -/
def Context.frameAt (c : Context) (ix : Nat) : Word := c.frameBase + BitVec.ofNat 64 (2048 * ix)

def Context.frameFree (c : Context) : Option Nat := (List.range c.frameCount).find? (fun i => !c.framesUsed.contains i)

/-- A context with no usable handler is lost (R332); a translation that meets data poison is consumption. -/
def Package.noHandler (p : Package) (c : Context) (cell : Nat) (f : Option AccFail) (va : Word) : Package :=
  match f with
  | some .poisoned => p.lose ⟨c.id, 1, placeOfCell cell, va, 6⟩
  | _ => p.lose ⟨c.id, 2, 0xFFFF, 0, 6⟩

/-- The frame is taken from the pool and written; where its page cannot be written the context is lost. -/
def Package.fillFrame (p : Package) (c : Context) (a : Aside) (h : Held) : Package :=
  match c.frameFree with
  | none => p
  | some ix =>
    match p.gFail c.who (c.frameAt ix).toNat 1536 .store with
    | some f => p.noHandler c a.cell (some f) (c.frameAt ix)
    | none =>
      ((p.writeG c.who (c.frameAt ix).toNat (frameBytesOf a.cell a.job h)).modCtx c.id (fun c => { c with
        framesUsed := c.framesUsed ++ [ix] })).modAside a (fun j => j.modHeld (fun h => { h with frame := some ix, filled := true }))

/-- The handler record is entered into the faulted cell's queue (R332, step 4). -/
def Package.enterHandler (p : Package) (now : Nat) (c : Context) (a : Aside) (ix : Nat) : Package :=
  if !((p.cell a.cell).map (·.hasPlace)).getD false then p
  else if c.handler.toNat % 64 != 0 then p.noHandler c a.cell none 0
  else match p.readG c.who c.handler.toNat 64 .load with
    | .error (f, va) => p.noHandler c a.cell (some f) (BitVec.ofNat 64 va)
    | .ok (_, .data) => p.noHandler c a.cell (some .poisoned) c.handler
    | .ok (bs, _) =>
      let b := handlerBytes bs (c.frameAt ix).toNat
      if !(recordBad b c.secure).isEmpty then p.noHandler c a.cell none 0
      else
        (p.enqueue now a.cell { newRecord (readTask b) c.id 0 with handlerOf := some a.job.uid, frameIx := some ix }).modAside a
          (fun j => j.modHeld (fun h => { h with written := true }))

/-- The trap-held job of a cell whose frame or handler record comes next: a job whose context has no free frame waits alone. -/
def Package.frameDue (p : Package) (cell : Nat) : Option Aside :=
  p.asides.find? (fun a => a.cell == cell && a.job.held.any (fun h =>
    !h.written && (h.filled || ((p.ctx a.job.ctx).bind Context.frameFree).isSome)))

/-- TRAP_FRAME_WRITE: steps 3 and 4 of R332; each waits while it must. -/
def execTrapFrameWrite (c : CellId) (s : State) : Out :=
  eventPkg s c.pkg fun p =>
    match p.frameDue c.cell with
    | none => .next s
    | some a =>
      match a.job.held, p.ctx a.job.ctx with
      | some h, some cx =>
        let p1 := if h.filled then p else p.fillFrame cx a h
        (match h.frame, cx.frameFree, p1.losses.length == p.losses.length with
          | some ix, _, _ => .next (s.setPkg c.pkg (p1.enterHandler s.now cx a ix))
          | none, some ix, true => .next (s.setPkg c.pkg (p1.enterHandler s.now cx a ix))
          | none, some _, false => .next (s.setPkg c.pkg p1)
          | none, none, _ => .next s)
      | _, _ => .next s

end Sys2Proof.Machine
end

