-- ==== Sys2Proof/Machine/Effects.lean ====
section
/-!
DEFINITION. DEFERRED_EFFECT: the effects of a committed region take place in issue order, each once its predecessors have been
performed (01 R23, 07 R382).
-/
namespace Sys2Proof.Machine
open Sys2Proof

/-- The overflow record of an effect (23 R340, type 0x04), under the word that issued it and its ordering stream (R335). -/
def Package.effectRecord (p : Package) (cell : Nat) (d : Due) (detail : Nat) : Package :=
  (match d.d.os with
    | some os => p.modJob cell d.job (fun j => j.setErr d.d.eng os)
    | none => p).faultRecord d.ctx (placeOfCell cell) d.d.eng.src 0x04 detail d.d.pc.toNat 0

/-- A post at its commit (13 R191). -/
def Package.semPost (p : Package) (cell : Nat) (d : Due) (s : BitVec 6) (a : Nat) : Package :=
  match (p.cell cell).bind (fun x => x.jobBy d.job) with
  | none => p
  | some j =>
    let c := j.sems[s.toFin].c + a
    let put (v : Int) : Package :=
      p.modJob cell d.job (fun j => { j with sems := j.sems.set s.toFin { j.sems[s.toFin] with c := v } })
    if (semMax : Int) < c then (put semMax).effectRecord cell d s.toNat else put c

/-- A set at its commit (13 R190). -/
def Package.semSet (p : Package) (cell : Nat) (d : Due) (s : BitVec 6) (v : Nat) : Package :=
  p.modJob cell d.job (fun j => { j with sems := j.sems.set s.toFin { j.sems[s.toFin] with
    c := (v : Int) - j.sems[s.toFin].decsAfter d.d.seq } })

/-- A publish or a release (05 R71). -/
def Package.ringCount (p : Package) (cell : Nat) (d : Due) (r : BitVec 4) (fill : Bool) (f : Ring → Ring) : Package :=
  match (p.cell cell).bind (fun x => x.jobBy d.job) with
  | none => p
  | some j =>
    let p1 := p.modJob cell d.job (fun j => j.changeRing r none f)
    if (if fill then (j.ring r).fill else (j.ring r).free) = 255 then
      p1.effectRecord cell d (256 + r.toNat)
    else p1

/-- The entries of a batch (21 R320). -/
def batchEntries : Nat := 64

/-- A pushed entry enters its shadow (21 R316, R320). -/
def CellState.push (x : CellState) (now clk : Nat) (n : BitVec 4) (e : List Byte) : CellState :=
  let h := x.shadows[n.toFin]
  let h1 := { h with opened := h.opened ++ [e], openedAt := if h.opened.isEmpty then now else h.openedAt }
  { x with shadows := x.shadows.set n.toFin (if batchEntries ≤ h1.opened.length then h1.close clk [] else h1) }

/-- A flush closes the open batch; it is complete when no batch is left to send (21 R317). -/
def CellState.flush (x : CellState) (clk : Nat) (n : BitVec 4) (op : Nat) : CellState :=
  let h := (x.shadows[n.toFin]).close clk []
  if h.batches.isEmpty then { x with shadows := x.shadows.set n.toFin h }.completeOp op
  else
    let bs := modLast (fun _ => true) (fun b => { b with flush := b.flush ++ [op] }) h.batches
    { x with shadows := x.shadows.set n.toFin { h with batches := bs } }

/-! ## JOIN_DECREMENT (21 R313) -/

/-- The package that a decrement reaches, and the accessor there; none where the target is lost. -/
def State.joinAt (s : State) (c : CellId) (ctx : Nat) (origin : Option (BitVec 10)) : Option (Nat × Who) :=
  match s.pkg c.pkg with
  | none => none
  | some p =>
    let secure := ((p.ctx ctx).map (·.secure)).getD false
    match origin with
    | none => some (c.pkg, ⟨ctx, secure, some c.cell⟩)
    | some co =>
      if s.reaches p co then
        match s.pkgAt (p.firn.physical co) with
        | some i => if ((s.pkg i).map (fun q => q.answers co ctx secure)).getD false then some (i, ⟨ctx, secure, none⟩) else none
        | none => none
      else none

/-- Where the counter lies: a moved page is followed (05 R78). -/
def State.joinTarget (s : State) (i : Nat) (w : Who) (va : Nat) : Except AccFail (Nat × Target) :=
  match s.pkg i with
  | none => .error (.page .notPresent)
  | some q =>
    if va / 2 ^ 48 != 0 then .error (.page .bounds)
    else match (if w.cell.isNone then q.forward w.ctx va else none) with
      | some m =>
        (match s.forwardTo i q m w va .atomic with
          | .error f => .error f
          | .ok (.peer k a v cm) => .ok (k, .hbm a v cm)
          | .ok t => .ok (i, t))
      | none => (q.translate w va 8 .atomic).map (fun t => (i, t))

/-- Subtract 1 from the counter: one that holds 0 stays and writes a join-underflow record, a fault writes its kind. -/
def State.joinDec (s : State) (c : CellId) (ctx : Nat) (addr : Word) (origin : Option (BitVec 10)) : Out :=
  let note (s : State) (type detail : Nat) : State :=
    s.modPkg c.pkg (fun p => p.faultRecord ctx (placeOfCell c.cell) 6 type detail 0 addr.toNat)
  match s.joinAt c ctx origin with
  | none => .next (note s 0x02 0)
  | some (i, w) =>
    match s.joinTarget i w addr.toNat with
    | .error .noFrame => .fault .noSuchFrame
    | .error .poisoned => .next (s.modPkg c.pkg (fun p => p.lose ⟨ctx, 1, placeOfCell c.cell, addr, 6⟩))
    | .error (.page k) => .next (note s 0x05 k.code)
    | .error .sealedWrite => .next (note s 0x05 0x07)
    | .ok (i, t) =>
      match s.pkg i with
      | none => .next (note s 0x02 0)
      | some q =>
        let v := leNat (q.readTarget w.ctx c.cell 0 t 8).1
        if v = 0 then .next (note s 0x05 0)
        else .next (s.setPkg i (q.storeBytes w c.cell 0 t (natLe (v - 1) 8)))

/-- A page in motion holds a decrement back until the switch (05 R78). -/
def State.joinHeld (s : State) (c : CellId) (ctx : Nat) (addr : Word) (origin : Option (BitVec 10)) : Bool :=
  match s.joinAt c ctx origin with
  | some (i, w) => ((s.pkg i).map (fun q => q.migrating w addr.toNat)).getD false
  | none => false

/-! ## The effects -/

/-- One due effect, already taken from the list. -/
def State.effect (s : State) (c : CellId) (d : Due) : Out :=
  let pk (f : Package → Package) : Out := .next (s.modPkg c.pkg f)
  let clk := ((s.pkg c.pkg).map (fun p => p.clkOf c.cell)).getD 0
  match d.d.eff with
  | .thaw slab => pk fun p => p.changeTag c.cell d.job slab (fun _ => Tag.zero) none d.d.eng.src d.d.pc.toNat
  | .semPost q a => pk fun p => p.semPost c.cell d q a
  | .semSet q v => pk fun p => p.semSet c.cell d q v
  | .ringPublish r close => pk fun p => p.ringCount c.cell d r true (fun x => x.publish close)
  | .ringFree r => pk fun p => p.ringCount c.cell d r false Ring.release
  | .spawn t => pk fun p => p.enqueue s.now c.cell (newRecord t d.ctx 0)
  | .pqPush n e => pk fun p => p.modCell c.cell (fun x => x.push s.now clk n e)
  | .pqFlush n op => pk fun p => p.modCell c.cell (fun x => x.flush clk n op)
  | .joinDec a o => s.joinDec c d.ctx a o

/-- Whether an effect has nothing else to wait for. -/
def State.effectOpen (s : State) (c : CellId) (d : Due) : Bool :=
  match d.d.eff with
  | .joinDec a o => !s.joinHeld c d.ctx a o
  | _ => true

/-- DEFERRED_EFFECT: the first due effect of a job, once its predecessors have been performed. -/
def execDeferredEffect (c : CellId) (job : Nat) (s : State) : Out :=
  eventCell s c fun _ x =>
    match x.due.find? (fun d => d.job == job) with
    | none => .next s
    | some d =>
      if d.d.ready x.ops && s.effectOpen c d then
        (s.modCell c (fun x => { x with due := x.due.erase d })).effect c d
      else .next s

end Sys2Proof.Machine
end

