-- ==== Sys2Proof/Machine/Losses.lean ====
section
/-!
DEFINITION. A context becomes lost (23 R344, R345; 25 R371, R383).
-/
namespace Sys2Proof.Machine
open Sys2Proof

/-! ## The frames that a context maps -/

/-- The runs of HBM frames that a table maps: first frame and count. -/
def Package.mapped (p : Package) (left frame : Nat) : List (Nat × Nat) :=
  match left with
  | 0 => []
  | left + 1 =>
    (List.range 512).flatMap (fun i => match p.pte frame i with
      | .ok e =>
        if !bitAt e 0 || pteBad (4 - left) e then []
        else if bitAt e 1 then (if fld e 9 2 = 0 then [(fld e 12 40, pageBytes (4 - left) / 4096)] else [])
        else p.mapped left (fld e 12 40)
      | .error _ => [])

def Package.mappedBy (p : Package) (c : Context) : List (Nat × Nat) :=
  (if c.ptBase = 0 then c.table.filterMap (fun e => if fld e.2.toNat 9 2 = 0 then some (fld e.2.toNat 12 40, 512) else none)
   else p.mapped 4 c.ptBase) ++ (c.seals.flatMap (·.frames)).map (fun f => (fld f.2 12 40, 1))

/-- The 4 KiB frames that a context maps and that hold a marked granule. -/
def Package.markedFrames (p : Package) (c : Context) : List Nat :=
  match p.marks with
  | [] => []
  | ms =>
    let m := p.mappedBy c
    (ms.foldl (fun l g => addOnce l (g / 64)) []).filter (fun f => m.any (fun r => r.1 ≤ f && f < r.1 + r.2))

/-! ## The owner's lost ring (25 R371) -/

/-- Records of a 4 KiB ring. -/
def lostRecords : Nat := 63

/-- A context-lost record goes to the owner's ring by DMA, and MSI-X vector 0 is signalled. -/
def Package.lostRecord (p : Package) (fn : Fn) (ring : Word) (rec : List Byte) : Package :=
  p.modFn fn (fun x =>
    let used := leNat (memRead x.mem (ring.toNat + 8) 4)
    let fits := (x.lostWritten + 2 ^ 32 - used) % 2 ^ 32 < lostRecords
    let x1 := if fits then
        { x with mem := memWrite x.mem (ring.toNat + 32 + 64 * (x.lostWritten % lostRecords)) rec, lostWritten := (x.lostWritten + 1) % 2 ^ 32 }
      else { x with lostDropped := (x.lostDropped + 1) % 2 ^ 32 }
    { x1 with mem := memWrite x1.mem ring.toNat (natLe x1.lostWritten 4 ++ natLe x1.lostDropped 4), msix := x.msix + 1 })

/-- The record (23 R345). -/
def lostBytes (l : Loss) (firn : BitVec 32) (ns retired evicted : Nat) : List Byte :=
  padTo 64 (natLe l.ctx 1 ++ natLe l.reason 1 ++ natLe l.place 2 ++ natLe firn.toNat 4 ++ natLe ns 8 ++ wordLe l.vaddr ++
    natLe l.src 1 ++ natLe 0 3 ++ natLe retired 4 ++ natLe evicted 4)

/-! ## The loss of an instance (23 R344) -/

/-- The batches of a shadow without those of a context; the flushes that waited for one of them wait for the batch before it, or,
where none is left before it, are over (21 R317). -/
def dropBatches (ctx : Nat) (l : List Batch) : List Batch × List Nat :=
  l.foldl (fun r b =>
    if b.bind.ctx != ctx then (r.1 ++ [b], r.2)
    else match r.1.getLast? with
      | some k => (r.1.dropLast ++ [{ k with flush := k.flush ++ b.flush }], r.2)
      | none => (r.1, r.2 ++ b.flush)) ([], [])

/-- A cell without what belongs to a context. -/
def CellState.loseCtx (x : CellState) (p : Package) (ctx : Nat) : CellState :=
  let mine (j : Option Job) : Bool := j.any (fun j => j.ctx == ctx)
  let x1 := (x.jobs.filter (fun j => j.ctx == ctx)).foldl (fun x j => x.rollbackOps p j.uid 0) x
  let x2 := if mine x.job then x1.idle else x1
  let x3 : CellState := { x2 with
    queue := x2.queue.filter (fun q => q.ctx != ctx)
    heldJob := if mine x.heldJob then none else x2.heldJob
    trapped := if mine x.trapped then none else x2.trapped
    due := x2.due.filter (fun d => d.ctx != ctx)
    ops := tidy (x2.ops.filter (fun o => o.ctx != ctx || o.dropped || o.status == .left || o.status == .applied))
    shadows := x2.shadows.map (fun h =>
      if h.bind.any (fun b => b.ctx == ctx) then { h with bind := none, opened := [], batches := (dropBatches ctx h.batches).1 }
      else { h with batches := (dropBatches ctx h.batches).1 }) }
  (x.shadows.toList.flatMap (fun h => (dropBatches ctx h.batches).2)).foldl CellState.completeOp x3

/-- The context after its loss: its crews and its frame, save and held-image areas are released; its seal list stays. -/
def Context.lose (c : Context) : Context :=
  { c with st := .lost, framesUsed := [], saves := 0, saved := [], deadlines := [], pendingVers := [], stale := [], crews := [] }

/-- The instance of a context on a package is lost. -/
def Package.loseCtx (p : Package) (now : Nat) (c : Context) (l : Loss) : Package :=
  let frames := p.markedFrames c
  let evicted := (p.cells.toList.flatMap CellState.jobs).filter (fun j => j.ctx == c.id)
  let p1 := (p.noteFits now 0).noteFits now 1
  let p2 := { p1 with
    cells := p1.cells.map (fun (x : CellState) => x.loseCtx p c.id)
    retired := unionOnce p1.retired frames
    migrations := p1.migrations.filter (fun m => m.ctx != c.id)
    savesUsed := p1.savesUsed - c.saves }
  (p2.modCtx c.id Context.lose).lostRecord c.owner c.lostRing
    (lostBytes l p.firn.version (now / Config.ticksPerNs) frames.length evicted.length)

/-- Every instance of a context of a world is lost; the place and the address are known where the consumption took place. -/
def State.loseEverywhere (s : State) (i : Nat) (secure : Bool) (l : Loss) : State :=
  { s with pkgs := s.pkgs.mapIdx (fun k p => match p.ctx l.ctx with
      | some c =>
        if c.secure == secure && c.st != .lost then
          p.loseCtx s.now c (if k = i then l else { l with place := 0xFFFF, vaddr := 0 })
        else p
      | none => p) }

/-- The oldest consumption of package `i` is answered; a second one of a lost context writes no further record. -/
def State.loseHead (s : State) (i : Nat) : State :=
  match s.pkg i with
  | none => s
  | some p =>
    match p.losses with
    | [] => s
    | l :: rest =>
      let s1 := s.setPkg i { p with losses := rest }
      match p.ctx l.ctx with
      | some c => if c.st = .lost then s1 else s1.loseEverywhere i c.secure l
      | none => s1

/-- The package in which a consumption waits for its answer. -/
def State.lossPending (s : State) : Option Nat := s.pkgs.findIdx? (fun p => !p.losses.isEmpty)

/-- CONTEXT_LOST (23 R344). -/
def execContextLost (p : Nat) (s : State) : Out := .next (s.loseHead p)

end Sys2Proof.Machine
end

