-- ==== Sys2Proof/Machine/Tasks.lean ====
section
/-!
DEFINITION. TSPAWN, TJOIN, PQPUSH and PQFLUSH (21 R311 to R313, R316, R317).
-/
namespace Sys2Proof.Machine
open Sys2Proof

/-- Bytes that an instruction reads itself, as a load of the stream would (13 R175, 07 R96): with the stores ordered before it
laid over them, and their worst poison. -/
def Here.readNow (h : Here) (f : OrdF) (deps : List Nat) (t : Target) (va : Word) (n : Nat) : List Byte × Poison :=
  let o := h.mkOp 0 f (.load n false .none) t (h.preds f deps) .waiting va
  let race : Bool := match o.engineAddr with
    | some (sp, a) => h.jb.racesEngine h.ce.ops o sp a n
    | none => false
  let r := h.pkNow.loadBytes h.who h.id.cell h.jb.uid t n n (fun _ => race)
  (overlay h.ce.ops o r.1, worst r.2)

/-! ## TSPAWN (R312) -/

/-- The record that was read: poison, shape fault, or the spawn, deferred. -/
def Here.spawn (h : Here) (o : OpE1) (deps : List Nat) (r : List Byte × Poison) : Here :=
  match r.2, recordBad r.1 h.who.secure with
  | .none, [] => (h.defer (some o.f.os) (h.preds o.f deps) none (.spawn (readTask r.1))).finishPoint o.f o.sy deps
  | .none, off :: _ => h.raise (trapOf 0x09 h.k.eng h.region h.st.pc (natLe off 1 ++ natLe 1 1))
  | p, _ => h.useTrap p o.ra.toNat 0

/-- TSPAWN. -/
def execTspawn (o : OpE1) (s : State) : Out :=
  onCore s fun h => h.withSync o.sy fun h => h.withBase o.ra fun a h =>
    h.unpoisoned [(a, o.ra.toNat, 0)] fun h =>
      if !{ h.ce with job := some h.jb }.hasPlace then h
      else h.withAddr .g 0 a.v 64 .load fun t h => h.room o.f fun h => h.postOk o.sy fun h => h.whenOrdered o.f a.dep fun h =>
        h.spawn o a.dep (h.readNow o.f a.dep t a.v 64)

/-! ## TJOIN (R313) -/

/-- What TJOIN does with the word it has read. -/
def Here.joinRead (h : Here) (r : List Byte × Poison) (ra : Nat) (zero other : Here → Here) : Here :=
  match r.2 with
  | .none => if leNat r.1 = 0 then zero h else other h
  | p => h.useTrap p ra 0

/-- TJOIN. -/
def execTjoin (o : OpE1) (s : State) : Out :=
  onCore s fun h => h.withSync o.sy fun h => h.withBase o.ra fun a h =>
    h.unpoisoned [(a, o.ra.toNat, 0)] fun h => h.withAddr .g 0 a.v 8 .load fun t h =>
      h.room o.f fun h => h.whenPerformed o.f a.dep fun h =>
        let done (h : Here) : Here := h.postOk o.sy fun h => h.finishPoint o.f o.sy a.dep
        if h.st.granted then done h
        else h.joinRead (h.readNow o.f a.dep t a.v 8) o.ra.toNat done
          (fun h => h.block (.join a.v.toNat))

/-- The ordering fields of a read that follows everything. -/
def OrdF.plain : OrdF := ⟨0, 0, .plain, .package⟩

/-- JOIN_OBSERVED: the word is read again; at 0 the wait ends. -/
def execJoinObserved (c : CellId) (s : State) : Out :=
  eventJob s c fun p x j =>
    let h := hereOf s c .ac p x j
    match h.st.wait with
    | some (.join va) =>
      if !h.st.live || j.trapPending .ac then .next s
      else (h.withAddr .g 0 (BitVec.ofNat 64 va) 8 .load fun t h =>
        h.joinRead (h.readNow OrdF.plain [] t (BitVec.ofNat 64 va) 8) 0
          (fun h => h.modSt CoreState.grant) id).outcome
    | _ => .next s

/-! ## Proxy queues (R316, R317) -/

/-- A shadow whose binding is not enabled: page fault of kind not present, with its number as fault address. -/
def Here.withShadow (h : Here) (n : BitVec 4) (g : Here → Here) : Here :=
  if h.ce.shadows[n.toFin].bind.isNone then h.accFail (.page .notPresent) .system (n.setWidth 64) else g h

def isPush (n : BitVec 4) (d : Deferred) : Bool :=
  match d.eff with
  | .pqPush m _ => m == n
  | _ => false

/-- Committed and unsent entries of a shadow, and the pushes that have not taken effect. -/
def Here.unsent (h : Here) (n : BitVec 4) : Nat :=
  let sh := h.ce.shadows[n.toFin]
  sh.opened.length + ((sh.batches.filter (fun b => b.sent.isNone)).map (fun b => b.entries.length)).sum +
    ((semPending h.ce.due h.jb).filter (isPush n)).length

/-- PQPUSH. -/
def execPqpush (o : OpPq) (s : State) : Out :=
  onCore s fun h => h.withSync o.sy fun h => h.withBase o.ra fun a h =>
    h.unpoisoned [(a, o.ra.toNat, 0)] fun h => h.withS a.v 64 64 .load fun x h => h.withShadow o.shadow fun h =>
      h.room o.f fun h => h.postOk o.sy fun h => h.whenOrdered o.f a.dep fun h =>
        let r := h.readS o.f a.dep x 64
        match worst r.2 with
        | .none =>
          if 128 ≤ h.unsent o.shadow then h
          else (h.defer (some o.f.os) (h.preds o.f a.dep) none (.pqPush o.shadow r.1)).finishPoint o.f o.sy a.dep
        | p => h.useTrap p o.ra.toNat 0

/-- PQFLUSH: its operation completes with the last batch that it waits for. -/
def execPqflush (o : OpPq) (s : State) : Out :=
  onCore s fun h => h.withSync o.sy fun h => h.withShadow o.shadow fun h =>
    h.room o.f fun h => h.postOk o.sy fun h => h.whenOrdered o.f [] fun h =>
      let preds := h.preds o.f []
      h.issue o.f .point .nowhere preds .waiting 0 fun id h =>
        (h.defer (some o.f.os) preds none (.pqFlush o.shadow id)).issued o.sy preds id

end Sys2Proof.Machine
end

