-- ==== Sys2Proof/Machine/Batches.lean ====
section
/-!
DEFINITION. The calving engine: closing, sending and completing batches (21 R320).
-/
namespace Sys2Proof.Machine
open Sys2Proof

/-! ## An F access of the device for a context -/

/-- Why such an access does not arrive. -/
inductive FFail where
  | lost
  | wait
  | acc (f : AccFail)
  deriving DecidableEq, Repr

/-- The package, the accessor and the target of `n` bytes at a fabric address (05 R61, R63; 25 R383). -/
def State.fabricAt (s : State) (i ctx : Nat) (secure : Bool) (a : Word) (n : Nat) (acc : Acc) :
    Except FFail (Nat × Who × Target) :=
  match s.pkg i with
  | none => .error .lost
  | some p =>
    match checkF p a.toNat n with
    | .error f => .error (.acc f)
    | .ok _ =>
      let co := BitVec.ofNat 10 (a.toNat / 2 ^ 48)
      let va := a.toNat % 2 ^ 48
      let k := (s.pkgAt (p.firn.physical co)).getD 0
      match s.pkg k with
      | none => .error .lost
      | some q =>
        let w : Who := ⟨ctx, secure, none⟩
        if !(s.reaches p co && q.answers co ctx secure) then .error .lost
        else match q.forward ctx va with
          | some m =>
            (match s.forwardTo k q m w va acc with
              | .error f => .error (.acc f)
              | .ok (.peer l b v cm) => .ok (l, w, .hbm b v cm)
              | .ok t => .ok (k, w, t))
          | none =>
            match q.translate w va n acc with
            | .error f => .error (.acc f)
            | .ok t => if q.atMigrating w t then .error .wait else .ok (k, w, t)

/-! ## The batch at the head of a shadow -/

def Package.modShadow (p : Package) (cell : Nat) (n : BitVec 4) (f : Shadow → Shadow) : Package :=
  p.modCell cell (fun x => { x with shadows := x.shadows.set n.toFin (f x.shadows[n.toFin]) })

/-- The head batch is over: the flushes that waited for it complete. -/
def Package.dropBatch (p : Package) (cell : Nat) (n : BitVec 4) (b : Batch) : Package :=
  b.flush.foldl (fun p op => p.modCell cell (fun x => x.completeOp op))
    (p.modShadow cell n (fun h => { h with batches := h.batches.drop 1 }))

def batchRecord (p : Package) (cell ctx type detail addr : Nat) : Package := p.faultRecord ctx (placeOfCell cell) 5 type detail 0 addr

/-- An event of a shadow of a cell. -/
def eventShadow (s : State) (c : CellId) (n : BitVec 4) (f : Package → Shadow → Out) : Out :=
  eventCell s c fun p x => f p x.shadows[n.toFin]

/-- BATCH_CLOSE: 2 microseconds after the first entry entered, or at 64 entries. -/
def execBatchClose (c : CellId) (n : BitVec 4) (s : State) : Out :=
  eventShadow s c n fun p h =>
    s.when_ (!h.opened.isEmpty && (h.openedAt + dueTick 2000 ≤ s.now || batchEntries ≤ h.opened.length))
      (s.setPkg c.pkg (p.modShadow c.cell n (fun h => h.close (p.clkOf c.cell) [])))

/-- The AADD at TAILA, held 160 clk; an error drops the batch. -/
def State.sendBatch (s : State) (c : CellId) (n : BitVec 4) (p : Package) (b : Batch) : Out :=
  let drop_ : Out := .next (s.setPkg c.pkg (batchRecord (p.dropBatch c.cell n b) c.cell b.bind.ctx 0x06 n.toNat b.bind.taila.toNat))
  match s.fabricAt c.pkg b.bind.ctx b.bind.secure b.bind.taila 8 .atomic with
  | .error .wait => .next s
  | .error (.acc .noFrame) => .fault .noSuchFrame
  | .error (.acc .poisoned) => .next (s.setPkg c.pkg (p.lose ⟨b.bind.ctx, 1, placeOfCell c.cell, b.bind.taila, 5⟩))
  | .error _ => drop_
  | .ok (i, w, t) =>
    match s.pkg i with
    | none => drop_
    | some q =>
      let old := leNat (q.readTarget w.ctx 0 0 t 8).1
      let s1 := s.setPkg i (q.storeBytes w 0 0 t (natLe ((old + b.entries.length) % 2 ^ 64) 8))
      .next (s1.modPkg c.pkg (fun p => p.modShadow c.cell n (fun h => { h with
        batches := { b with sent := some old, sentAt := p.clkOf c.cell } :: h.batches.drop 1 })))

/-- BATCH_SEND: the first closed batch of the shadow, when no earlier one is left. -/
def execBatchSend (c : CellId) (n : BitVec 4) (s : State) : Out :=
  eventShadow s c n fun p h => match h.batches with
    | [] => .next s
    | b :: _ => if b.sent.isNone && b.sentAt + quake ≤ p.clkOf c.cell then s.sendBatch c n p b else .next s

/-- One entry written: into a slab it counts (13 R179). -/
def State.writeEntry (s : State) (c : CellId) (b : Batch) (a : Word) (e : List Byte) : Except FFail State :=
  match s.fabricAt c.pkg b.bind.ctx b.bind.secure a 64 .store with
  | .error f => .error f
  | .ok (i, w, t) =>
    match s.pkg i with
    | none => .error .lost
    | some q =>
      let q1 := q.storeBytes w 0 0 t e
      .ok (s.setPkg i (match q1.slabAt w.ctx 0 0 t with
        | some (k, u, off) => q1.arrive k u off e.length false none 5 0
        | none => q1))

/-- The entries of a batch from position `t` on: an error leaves its record and goes on. -/
def State.writeEntries (s : State) (c : CellId) (b : Batch) (t : Nat) : List (List Byte) → Except FFail State
  | [] => .ok s
  | e :: es =>
    let a := b.bind.qbase + BitVec.ofNat 64 (64 * (t % b.bind.cap))
    let note (type detail : Nat) : State := s.modPkg c.pkg (fun p => batchRecord p c.cell b.bind.ctx type detail a.toNat)
    match s.writeEntry c b a e with
    | .ok s1 => s1.writeEntries c b (t + 1) es
    | .error .wait => .error .wait
    | .error (.acc .noFrame) => .error (.acc .noFrame)
    | .error .lost => (note 0x02 0).writeEntries c b (t + 1) es
    | .error (.acc .poisoned) =>
      (s.modPkg c.pkg (fun p => p.lose ⟨b.bind.ctx, 1, placeOfCell c.cell, a, 5⟩)).writeEntries c b (t + 1) es
    | .error (.acc (.page k)) => (note 0x03 k.code).writeEntries c b (t + 1) es
    | .error (.acc .sealedWrite) => (note 0x03 0x07).writeEntries c b (t + 1) es

/-- The address of entry `i` of a batch whose AADD returned `t`. -/
def Batch.entryAt (b : Batch) (t i : Nat) : Word := b.bind.qbase + BitVec.ofNat 64 (64 * ((t + i) % b.bind.cap))

/-- The writes of a batch in flight that a dead port or a lost package has answered: a record each (21 R324, 13 R176). -/
def Batch.lostWrites (b : Batch) (t : Nat) (p : Package) (cell : Nat) : Package :=
  (List.range b.entries.length).foldl (fun p i => batchRecord p cell b.bind.ctx 0x02 0 (b.entryAt t i).toNat) p

/-- BATCH_COMPLETE: every write of the head batch is performed, 160 clk after the AADD. -/
def execBatchComplete (c : CellId) (n : BitVec 4) (s : State) : Out :=
  eventShadow s c n fun p h => match h.batches with
    | [] => .next s
    | b :: _ =>
      match b.sent with
      | some t =>
        if b.lost then .next (s.modPkg c.pkg (fun p => (b.lostWrites t p c.cell).dropBatch c.cell n b))
        else if b.sentAt + quake ≤ p.clkOf c.cell then
          (match s.writeEntries c b t b.entries with
            | .error (.acc .noFrame) => .fault .noSuchFrame
            | .error _ => .next s
            | .ok s1 => .next (s1.modPkg c.pkg (fun p => p.dropBatch c.cell n b)))
        else .next s
      | none => .next s

end Sys2Proof.Machine
end

