-- ==== Sys2Proof/Machine/Select.lean ====
section
/-!
DEFINITION. Selection and dispatch of tasks (21 R307; 09 R133, R134; 21 R319; 22 R326; 23 R338), clock steps (01 R34), stealing (02
R37, R38; 21 R308), pre-emption requests (21 R309).
-/
namespace Sys2Proof.Machine
open Sys2Proof

/-! ## Candidates and their order (R307, 01 R33) -/

/-- A candidate: a ready record of the queue, or the held job. -/
inductive Cand where
  | rec_ (q : QRec)
  | held (j : Job)

def Cand.prio (c : Cand) : Nat :=
  match c with
  | .rec_ q => q.task.prio.toNat
  | .held j => j.prio.toNat
def Cand.ready (c : Cand) : Nat :=
  match c with
  | .rec_ q => q.readyAt
  | .held j => j.readySince
/-- SEQ, the held job below every record. -/
def Cand.seq (c : Cand) : Nat :=
  match c with
  | .rec_ q => q.seq + 1
  | .held _ => 0
def Cand.ecls (c : Cand) : BitVec 2 :=
  match c with
  | .rec_ q => q.task.ecls
  | .held j => j.qrec.task.ecls
def Cand.ctx (c : Cand) : Nat :=
  match c with
  | .rec_ q => q.ctx
  | .held j => j.ctx
def Cand.lastFit (c : Cand) : Nat :=
  match c with
  | .rec_ q => q.lastFit.getD q.readyAt
  | .held j => j.fitSince

/-- The effective priority: one level for each 64 microseconds of waiting, up to 3. -/
def effPrio (now prio ready : Nat) : Nat := min 3 (prio + (now - ready) / dueTick 64000)

def Cand.ep (now : Nat) (c : Cand) : Nat := effPrio now c.prio c.ready

/-- The order of selection. -/
def Cand.before (now : Nat) (a b : Cand) : Bool :=
  b.ep now < a.ep now || (a.ep now == b.ep now && (a.ready < b.ready || (a.ready == b.ready && a.seq < b.seq)))

def insertCand (now : Nat) (a : Cand) : List Cand → List Cand
  | [] => [a]
  | b :: l => if a.before now b then a :: b :: l else b :: insertCand now a l

def sortCands (now : Nat) : List Cand → List Cand
  | [] => []
  | a :: l => insertCand now a (sortCands now l)

/-- The slabs of a record's carve-out, where they can be known: of its header, or of the job that its save area holds. -/
def Package.slabsOf (p : Package) (q : QRec) : Nat :=
  match p.ctx q.ctx with
  | none => 0
  | some c =>
    match q.save with
    | some a => ((look c.saved a).map (fun j => j.hdr.slabs)).getD 0
    | none =>
      match p.readG c.who (q.task.hdr.toNat + 0x46) 2 .load with
      | .ok (bs, _) => if 1024 < leNat bs then 0 else leNat bs
      | .error _ => 0

/-- Whether the carve-out of a candidate fits beside the held job (05 R62), on a cell of its world (23 R351). -/
def Package.candFits (p : Package) (x : CellState) (c : Cand) : Bool :=
  (((p.ctx c.ctx).map (·.secure)).getD false == x.secure) && (match c with
    | .held _ => true
    | .rec_ q => p.slabsOf q + ((x.heldJob.map (fun j => j.hdr.slabs)).getD 0) ≤ 1024)

def Package.cands (p : Package) (now : Nat) (x : CellState) : List Cand :=
  (x.heldJob.filter (fun j => !j.trapHeld && ((p.ctx j.ctx).map (·.runs)).getD false)).toList.map Cand.held ++
  (x.queue.filter (p.recReady now)).map Cand.rec_

/-- 10 ms (01 R34). -/
def fitWait : Nat := dueTick 10000000

/-- A clock step of a die begins. -/
def Package.beginStep (p : Package) (now die : Nat) : Package :=
  match p.dies[die]? with
  | some d => { p with dies := p.dies.setIfInBounds die { d with since := now } }
  | none => p

/-- select: the candidate, and whether it needs a lower step. -/
def Package.select (p : Package) (now die : Nat) (x : CellState) : List Cand → Option (Cand × Bool)
  | [] => none
  | c :: l =>
    if !p.candFits x c then p.select now die x l
    else if p.fits die c.ecls then some (c, false)
    else if c.lastFit + fitWait ≤ now then some (c, true)
    else p.select now die x l

def Package.selectFor (p : Package) (now cell : Nat) (x : CellState) : Option (Cand × Bool) :=
  p.select now (dieOf cell) x (sortCands now (p.cands now x))

/-! ## Clock steps -/

def Package.setStep (p : Package) (now die step : Nat) : Package :=
  ((p.noteFits now die).beginStep now die).publish now chClock (fun f => { f with
    dies := f.dies.setIfInBounds die { (f.dies[die]?).getD default with step := BitVec.ofNat 3 step } })

/-- HEAT_FALLBACK (01 R34): the clock step falls by one, where it can. -/
def Package.heatFallback (p : Package) (now die : Nat) : Package :=
  if p.step die < 4 then p.setStep now die (p.step die + 1) else p

/-- STEP_RAISE: the budget allows the higher step. -/
def execStepRaise (p : Nat) (die : BitVec 1) (s : State) : Out :=
  eventPkg s p fun x =>
    let d := die.toNat
    s.when_ (x.firn.level != 0 && 0 < x.step d && x.draws d (x.step d - 1) none ≤ x.budget d)
      (s.setPkg p (x.setStep s.now d (x.step d - 1)))

/-! ## The job header and its images (09 R133, R134) -/

/-- A signed offset added to a base. -/
def offWord (base : Word) (o : Int) : Word := BitVec.ofInt 64 (base.toNat + o)

/-- An entry of a core: the effective offset, which must be a multiple of 8 and nonzero. -/
def coreEntry (hdr : Word) (b : List Byte) (off : Nat) (ofs : BitVec 16) : Option Word :=
  let o := sint 32 (recField b off 4) + 8 * ofs.toInt
  if o % 8 != 0 || o == 0 then none else some (offWord hdr o)

/-- An entry of a chain: a multiple of 2, 0 for absent. -/
def chainEntry (hdr : Word) (b : List Byte) (off : Nat) : Option Word :=
  let o := sint 32 (recField b off 4)
  if o % 2 != 0 then none else if o == 0 then some 0 else some (offWord hdr o)

def three (a b c : Option Word) : Option (Vector Word 3) :=
  match a, b, c with
  | some a, some b, some c => some #v[a, b, c]
  | _, _, _ => none

/-- The entries of a chain: without a prologue there is no kernel and no epilogue. -/
def chainEntries (hdr : Word) (b : List Byte) (off : Nat) : Option (Vector Word 3) :=
  (three (chainEntry hdr b off) (chainEntry hdr b (off + 4)) (chainEntry hdr b (off + 8))).filter (fun v =>
    v[0] != 0 || (v[1] == 0 && v[2] == 0))

def coreEntries (hdr : Word) (b : List Byte) (off : Nat) (t : TaskRec) : Option (Vector Word 3) :=
  three (coreEntry hdr b off t.ofsp) (coreEntry hdr b (off + 4) t.ofsk) (coreEntry hdr b (off + 8) t.ofse)

/-- The header of a record, or a rejection. -/
def readHeader (t : TaskRec) (b : List Byte) : Option Header :=
  match coreEntries t.hdr b 0 t, coreEntries t.hdr b 0x0C t, chainEntries t.hdr b 0x18, chainEntries t.hdr b 0x24 with
  | some ac, some xc, some c0, some c1 =>
    let slabs := recField b 0x46 2
    let wa := recField b 0x48 2
    let wx := recField b 0x4A 2
    if recField b 0x52 2 != 1 || recField b 0x45 1 != 0 || !(b.drop 0x54).all (· == 0) || slabs == 0 || 1024 < slabs ||
        slabs < wa + wx then none
    else some
      { ac := ac, xc := xc, ce0 := c0, ce1 := c1
        liveA := BitVec.ofNat 64 (recField b 0x30 8), liveX := BitVec.ofNat 64 (recField b 0x38 8)
        liveV := BitVec.ofNat 32 (recField b 0x40 4), liveM := BitVec.ofNat 8 (recField b 0x44 1)
        slabs := slabs, wsa := wa, wsx := wx }
  | _, _, _, _ => none

/-- Why a record does not start: it is rejected, it met data poison, or a frame outside HBM. -/
inductive NoStart where
  | reject
  | poison (va : Word)
  | noFrame
  deriving DecidableEq, Repr

/-- Bytes of G read at dispatch. -/
def Package.dispatchRead (p : Package) (w : Who) (va : Word) (n : Nat) : Except NoStart (List Byte) :=
  if 2 ^ 48 < va.toNat + n then .error .reject
  else match p.readG w va.toNat n .load with
    | .error (.noFrame, _) => .error .noFrame
    | .error (.poisoned, a) => .error (.poison (BitVec.ofNat 64 a))
    | .error _ => .error .reject
    | .ok (_, .data) => .error (.poison va)
    | .ok (bs, _) => .ok bs

/-- A slab image: slab, bytes, whether FULL. -/
structure Image where
  slab : Nat
  bytes : List Byte
  full : Bool

/-- One image entry and its bytes. -/
def Package.image (p : Package) (w : Who) (hdr : Word) (slabs : Nat) (e : List Byte) : Except NoStart Image :=
  let len := recField e 6 2
  let st := recField e 8 1
  if slabs ≤ recField e 4 2 || len == 0 || 2048 < len || !(st == 0 || st == 2) || !(e.drop 9).all (· == 0) then .error .reject
  else match p.dispatchRead w (offWord hdr (sint 32 (recField e 0 4))) len with
    | .error x => .error x
    | .ok bs => .ok ⟨recField e 4 2, bs, st == 2⟩

/-- The images of a table, in order. -/
def Package.images (p : Package) (w : Who) (hdr : Word) (slabs : Nat) (table : Word) : Nat → Nat → Except NoStart (List Image)
  | 0, _ => .ok []
  | n + 1, i =>
    match p.dispatchRead w (table + BitVec.ofNat 64 (16 * i)) 16 with
    | .error x => .error x
    | .ok e =>
      match p.image w hdr slabs e with
      | .error x => .error x
      | .ok m =>
        match p.images w hdr slabs table n (i + 1) with
        | .error x => .error x
        | .ok l => .ok (m :: l)

/-- SLAB_IMAGE_LOAD: the slab holds the image and zeros, and its tag is set. -/
def Job.loadImage (j : Job) (m : Image) : Job :=
  { j with mem := memWrite j.mem (2048 * m.slab) (padTo 2048 m.bytes) }.putTag m.slab
    (if m.full then ⟨.full, false, true, 0, BitVec.ofNat 12 m.bytes.length, BitVec.ofNat 12 m.bytes.length⟩ else Tag.zero)

/-- The trip of a job: immediate, read from the mailbox now, or elastic (01 R20). -/
def tripOf (x : CellState) (t : TaskRec) : TripSrc :=
  match t.tsrc.toNat with
  | 0 => .counted t.trip.toNat
  | 1 => .counted (x.mb[t.tsel.toNat % 8]?.getD 0).toNat
  | _ => .elastic t.tsel

/-- A stream chain with the words that its engine has fetched ahead at the dispatch (19 R272). -/
def EngState.fetchAhead (e : EngState) (p : Package) (w : Who) (cell uid : Nat) : EngState :=
  { e with chain := e.chain.map (fun c => { c with old := p.fetchedAhead w cell uid c.id }) }

/-- A new job with them. -/
def Job.fetchAhead (j : Job) (p : Package) (w : Who) (cell : Nat) : Job :=
  { j with ce0 := j.ce0.fetchAhead p w cell j.uid, ce1 := j.ce1.fetchAhead p w cell j.uid }

/-- The header and the images of a record read through its context, and the job that they make. -/
def Package.newJob (p : Package) (uid cell : Nat) (x : CellState) (c : Context) (q : QRec) : Except NoStart Job :=
  match p.dispatchRead c.who q.task.hdr 128 with
  | .error e => .error e
  | .ok b =>
    match readHeader q.task b with
    | none => .error .reject
    | some hd =>
      let off := recField b 0x4C 4
      let table := offWord q.task.hdr (sint 32 off)
      match p.images c.who q.task.hdr hd.slabs table (if off = 0 then 0 else recField b 0x50 2) 0 with
      | .error e => .error e
      | .ok ms => .ok ((ms.foldl Job.loadImage (Job.start uid c.id q hd (tripOf x q.task) (p.clkOf cell))).fetchAhead p
          ⟨c.id, c.secure, some cell⟩ cell)

/-! ## PROXY_BINDING (21 R319) -/

/-- A power of two from 64 to 65,536. -/
def capOk (n : Nat) : Bool := (List.range' 6 11).any (fun k => n == 2 ^ k)

/-- One entry of the proxy table: the binding, or none; and whether a fault record is due. -/
def bindOf (c : Context) (e : List Byte) : Option Binding × Bool :=
  let en := recField e 0x14 1
  let rsvd := !(e.drop 0x15).all (· == 0) || en / 2 != 0
  if en % 2 = 0 then (none, rsvd)
  else if rsvd || recField e 0 8 % 64 != 0 || recField e 8 8 % 8 != 0 || !capOk (recField e 0x10 4) then (none, true)
  else (some ⟨c.id, BitVec.ofNat 64 (recField e 0 8), BitVec.ofNat 64 (recField e 8 8), recField e 0x10 4, c.secure⟩, false)

/-- Entry `n` as the cell reads it at dispatch. -/
def Package.readBinding (p : Package) (c : Context) (n : Nat) : Option Binding × Bool :=
  match p.readG c.who (c.proxy.toNat + 32 * n) 32 .load with
  | .ok (bs, .none) => bindOf c bs
  | _ => (none, true)

/-- The device's read of a page-table entry on the way to entry `n` meets data poison: that is consumption (23 R342). -/
def Package.bindingPoison (p : Package) (cell : Nat) (c : Context) (n : Nat) : Option Loss :=
  match p.readG c.who (c.proxy.toNat + 32 * n) 32 .load with
  | .error (.poisoned, va) => some ⟨c.id, 1, placeOfCell cell, BitVec.ofNat 64 va, 6⟩
  | _ => none

/-- Each shadow closes what is open and takes its binding; refused ones write record 0x07. -/
def Package.bindShadows (p : Package) (cell : Nat) (c : Context) : Package :=
  let clk := p.clkOf cell
  let p1 := p.modCell cell (fun x =>
    { x.closeBatches clk with shadows := (x.closeBatches clk).shadows.mapIdx (fun i h => { h with bind := (p.readBinding c i).1 }) })
  let p2 := (List.range 16).foldl (fun q n =>
    if (p.readBinding c n).2 then q.faultRecord c.id (placeOfCell cell) 6 0x07 n 0 (c.proxy.toNat + 32 * n) else q) p1
  ((List.range 16).filterMap (p.bindingPoison cell c)).foldl Package.lose p2

/-! ## DISPATCH -/

/-- A dispatch of a context starts the deadlines of the versions that were published while it had no resident job
(23 R349). -/
def Package.startDeadlines (p : Package) (now ctx : Nat) : Package :=
  p.modCtx ctx (fun c => { c with
    deadlines := c.deadlines ++ c.pendingVers.map (fun v => (v, now + dueTick 1000000)), pendingVers := [] })

/-- What every dispatch does first. -/
def Package.beforeRun (p : Package) (now cell : Nat) (c : Context) : Package :=
  (((p.noteFits now (dieOf cell)).bindShadows cell c).startDeadlines now c.id).modCell cell (fun x => { x with preempt := false })

/-- A record of a queue is taken. -/
def Package.takeRec (p : Package) (cell : Nat) (q : QRec) : Package :=
  p.modCell cell (fun x => { x with queue := x.queue.filter (fun r => r != q) })

/-- A record that starts a job: it joins its crew, and its streams start region 0. -/
def Package.dispatchNew (p : Package) (now ns cell uid : Nat) (x : CellState) (c : Context) (q : QRec) : Except NoStart Package :=
  let p0 := p.takeRec cell q
  match p.newJob uid cell x c q with
  | .error .reject => .ok (p0.event ns c.id 0x01 6 (placeOfCell cell) 0)
  | .error (.poison va) => .ok (p0.lose ⟨c.id, 1, placeOfCell cell, va, 6⟩)
  | .error .noFrame => .error .noFrame
  | .ok j =>
    let p1 := (p0.beforeRun now cell c).modCell cell (fun x => { x with job := some j })
    .ok (match q.task.crew with
      | some k => p1.modCrew c.id k.toNat (fun w => w.join uid)
      | none => p1)

/-- A continuation record: the saved job resumes, and its area returns to the pool (21 R310). -/
def Package.dispatchSaved (p : Package) (now cell area : Nat) (c : Context) (q : QRec) : Package :=
  match look c.saved area with
  | none => p.takeRec cell q
  | some j => (((p.takeRec cell q).beforeRun now cell c).freeArea c.id area).resumed cell j

def Package.dispatchHeld (p : Package) (now cell : Nat) (c : Context) (j : Job) : Package :=
  ((p.beforeRun now cell c).modCell cell (fun x => { x with heldJob := none })).resumed cell j

/-- No push or flush of an earlier job is still to take effect: the shadows may be bound anew. -/
def CellState.bindable (x : CellState) : Bool :=
  x.due.all (fun d => match d.d.eff with
    | .pqPush .. | .pqFlush .. => false
    | _ => true)

/-- The dispatch of a selected candidate. -/
def State.dispatch (s : State) (c : CellId) (p : Package) (x : CellState) (k : Cand) : Out :=
  match p.ctx k.ctx, k with
  | none, _ => .next s
  | some cx, .held j => .next (s.setPkg c.pkg (p.dispatchHeld s.now c.cell cx j))
  | some cx, .rec_ q =>
    match q.save with
    | some a => .next (s.setPkg c.pkg (p.dispatchSaved s.now c.cell a cx q))
    | none =>
      match p.dispatchNew s.now s.ns c.cell s.nextId x cx q with
      | .ok p1 => .next { s.setPkg c.pkg p1 with nextId := s.nextId + 1 }
      | .error _ => .fault .noSuchFrame

/-- A cell that a trapping job keeps busy tries its write-out again (23 R339, step 3). -/
def Package.retryTrapped (p : Package) (now cell : Nat) (x : CellState) (j : Job) : Package :=
  let free := { x with trapped := none }
  let t := p.trapPlace free j
  if free.placeReady j t then (p.modCell cell (fun x => { x with trapped := none })).placeTrapped now cell j t else p

/-- TASK_SELECT: an idle, live cell selects and dispatches. -/
def execTaskSelect (c : CellId) (s : State) : Out :=
  eventCell s c fun p x =>
    match x.job, x.trapped with
    | some _, _ => .next s
    | none, some j => .next (s.setPkg c.pkg (p.retryTrapped s.now c.cell x j))
    | none, none =>
      if !(p.live c.cell && x.bindable) then .next s
      else match p.selectFor s.now c.cell x with
        | none => .next s
        | some (k, low) => s.dispatch c (if low then p.heatFallback s.now (dieOf c.cell) else p) x k

/-! ## STEAL (02 R37, R38; 21 R308) -/

/-- The stealable backlog of a cell. -/
def Package.backlog (p : Package) (now : Nat) (x : CellState) : List QRec :=
  x.queue.filter (fun q => p.recReady now q && !q.task.pin)

/-- What a thief on another package may take. -/
def Package.awayBacklog (p thief : Package) (now : Nat) (x : CellState) : List QRec :=
  (p.backlog now x).filter (fun q => q.task.xs && q.task.crew.isNone && q.save.isNone && (match thief.ctx q.ctx, p.ctx q.ctx with
    | some c, some d => c.secure == d.secure && c.st != .lost
    | _, _ => false))

/-- The records that move: the max(1, b/2) that the victim would dispatch last. -/
def stolen (now : Nat) (l : List QRec) : List QRec :=
  let ordered := (sortCands now (l.map Cand.rec_)).filterMap (fun c => match c with
    | .rec_ q => some q
    | .held _ => none)
  ordered.drop (ordered.length - max 1 (ordered.length / 2))

/-- A victim: package, cell, what may be taken, and its rank among victims of equal backlog. -/
structure Victim where
  pkg : Nat
  cell : Nat
  loot : List QRec
  rank : Nat × Nat

/-- The victim with the largest backlog, ties to the lowest rank. -/
def bestVictim (l : List Victim) : Option Victim :=
  (l.filter (fun v => !v.loot.isEmpty)).foldl (fun b v => match b with
    | none => some v
    | some x =>
      if x.loot.length < v.loot.length || (x.loot.length == v.loot.length &&
          (v.rank.1 < x.rank.1 || (v.rank.1 == x.rank.1 && v.rank.2 < x.rank.2))) then some v else b) none

/-- The cells of a row and a column. -/
def rowColumn (cell : Nat) : List Nat :=
  (List.range' (96 * dieOf cell) 96).filter (fun i => i != cell && (i % 96 / 12 == cell % 96 / 12 || i % 12 == cell % 12))

def Package.victims (p : Package) (i : Nat) (cells : List Nat) (f : CellState → List QRec) : List Victim :=
  (cells.filter p.live).filterMap (fun k => (p.cell k).map (fun x => ⟨i, k, f x, (p.firn.self.toNat, placeOfCell k)⟩))

/-- The packages one hop away that are live. -/
def State.neighbours (s : State) (p : Package) : List Nat :=
  (List.range 6).foldl (fun l port =>
    match s.pkgAt (p.firn.hop p.coord (port / 2) (port % 2 == 0)) with
    | some k =>
      (match s.pkg k with
        | some q => if q.coord != p.coord && !p.portDead port && !p.firn.isLost q.firn.self then addOnce l k else l
        | none => l)
    | none => l) []

/-- The second stage: the other die, and the neighbours. -/
def State.farVictims (s : State) (c : CellId) (p : Package) : List Victim :=
  p.victims c.pkg (List.range' (96 * (1 - dieOf c.cell)) 96) (p.backlog s.now) ++
  (s.neighbours p).flatMap (fun k => match s.pkg k with
    | some q => q.victims k (List.range 192) (q.awayBacklog p s.now)
    | none => [])

/-- Move the records: one that crosses packages receives ORIGIN, where it has none. A record keeps its ready time and the last
time its class fitted, which lasts until the steal where it fits the victim's die (01 R34). The thief's queue takes every record
that moves, even beyond its 65,536 places (DESIGN CHOICE, notes/assumptions/84.md), and the two packages share one time base
(DESIGN CHOICE, notes/assumptions/83.md). -/
def State.steal (s : State) (c : CellId) (v : Victim) : State :=
  let fitted (r : QRec) : QRec := ((s.pkg v.pkg).map (fun q =>
    if q.fits (dieOf v.cell) r.task.ecls then { r with lastFit := some s.now } else r)).getD r
  let l := stolen s.now v.loot
  let self := (s.pkg v.pkg).map (fun q => q.firn.self)
  let s1 := s.modPkg v.pkg (fun q => l.foldl (fun q r => q.takeRec v.cell r) q)
  s1.modPkg c.pkg (fun p => l.foldl (fun p r =>
    p.enqueue s.now c.cell (if v.pkg = c.pkg then fitted r else { fitted r with origin := r.origin.or self })) p)

/-- STEAL: select found nothing, and the queue holds no ready record. -/
def execSteal (c : CellId) (s : State) : Out :=
  eventCell s c fun p x =>
    if x.job.isSome || x.trapped.isSome || !p.live c.cell || (p.selectFor s.now c.cell x).isSome || x.queue.any (p.recReady s.now) then
      .next s
    else
      match bestVictim (p.victims c.pkg (rowColumn c.cell) (p.backlog s.now)) with
      | some v => .next (s.steal c v)
      | none =>
        match bestVictim (s.farVictims c p) with
        | some v => .next (s.steal c v)
        | none => .next s

/-! ## PREEMPTION_REQUEST (R309) -/

/-- A ready record whose class would fit, at least two levels above the running task. -/
def Package.outranked (p : Package) (now cell : Nat) (x : CellState) (j : Job) : Bool :=
  x.queue.any (fun q => p.recReady now q && p.fitsAt (dieOf cell) (p.step (dieOf cell)) (some cell) q.task.ecls &&
    j.prio.toNat + 2 ≤ effPrio now q.task.prio.toNat q.readyAt)

/-- PREEMPTION_REQUEST: by a better record, or for a context that is suspended; PREEMPT makes the host's. -/
def execPreemptionRequest (c : CellId) (s : State) : Out :=
  eventJob s c fun p x j =>
    s.when_ (!x.preempt && (p.outranked s.now c.cell x j || ((p.ctx j.ctx).map (fun k => k.st == .suspended)).getD false))
      (s.modCell c (fun x => { x with preempt := true }))

/-! ## Suspension -/

/-- A context becomes suspended (01 R16; 23 R349): its records are no longer ready, event 0x06 is written. -/
def Package.suspend (p : Package) (now ctx : Nat) : Package :=
  ((p.modCtx ctx (fun c => { c with st := .suspended })).modRecs ctx (suspendRec now)).event (now / Config.ticksPerNs) ctx 0x06 6 0 0

/-- HOST_SUSPEND_REQUEST (01 R16). -/
def execHostSuspendRequest (p ctx : Nat) (s : State) : Out :=
  eventPkg s p fun x => match x.ctx ctx with
    | some c => s.when_ (c.st == .running) (s.setPkg p (x.suspend s.now ctx))
    | none => .next s

end Sys2Proof.Machine
end

