-- ==== Sys2Proof/Machine/HostOps.lean ====
section
/-!
DEFINITION. What the host does through BAR0 and BAR2 (25 R366 to R368; 26 R377, R378; 23 R353).
-/
namespace Sys2Proof.Machine
open Sys2Proof

/-- An event of a host function of a package. -/
def eventFn (s : State) (p : Nat) (fn : Fn) (f : Package → FnState → Out) : Out :=
  eventPkg s p fun x => match x.fns[fn]? with
    | some y => f x y
    | none => .next s

/-- A context that a function owns and that is not lost. -/
def Package.ownedCtx (p : Package) (fn : Fn) (id : Nat) : Option Context := (p.ctx id).filter (fun c => c.owner == fn && c.st != .lost)

/-! ## BAR2 -/

/-- The accessor that a host access is: the function's world (R366). -/
def hostWho (fn : Fn) (ctx : Nat) : Who := ⟨ctx, Config.fnSecure fn, none⟩

def onesBytes (n : Nat) : List Byte := List.replicate n 0xFF

/-- The bytes that a BAR2 read returns; all ones where it fails. -/
def Package.bar2Read (p : Package) (fn : Fn) (y : FnState) (addr n : Nat) : Except (AccFail × Nat) (List Byte) :=
  match p.ownedCtx fn y.w2ctx.toNat with
  | none => .ok (onesBytes n)
  | some c =>
    if y.bar2 < addr + n then .ok (onesBytes n)
    else match p.readG (hostWho fn c.id) addr n .load with
      | .ok (bs, _) => .ok bs
      | .error e => .error e

/-- HOST_BAR2_READ. -/
def execHostBar2Read (p : Nat) (fn : Fn) (addr n : Nat) (s : State) : Out :=
  eventFn s p fn fun x y =>
    let put (x : Package) (bs : List Byte) : Out := .next (s.setPkg p (x.modFn fn (fun y => { y with scratch := bs })))
    match x.bar2Read fn y addr n with
    | .ok bs => put x bs
    | .error (.noFrame, _) => .fault .noSuchFrame
    | .error (.poisoned, va) => put (x.lose ⟨y.w2ctx.toNat, 1, 0xFFFF, BitVec.ofNat 64 va, 7⟩) (onesBytes n)
    | .error _ => put x (onesBytes n)

/-- A page of the run is migrating. -/
def Package.runMigrating (p : Package) (w : Who) (va n : Nat) : Bool := (pages va n).any (fun pc => p.migrating w pc.1)

/-- HOST_BAR2_WRITE: a failing write is discarded; one to a sealed frame leaves record 0x08 (23 R353). -/
def execHostBar2Write (p : Nat) (fn : Fn) (addr : Nat) (bytes : List Byte) (s : State) : Out :=
  eventFn s p fn fun x y => match x.ownedCtx fn y.w2ctx.toNat with
    | none => .next s
    | some c =>
      let w := hostWho fn c.id
      if y.bar2 < addr + bytes.length then .next s
      else match x.gFail w addr bytes.length .store with
        | some .noFrame => .fault .noSuchFrame
        | some .poisoned => .next (s.setPkg p (x.lose ⟨c.id, 1, 0xFFFF, BitVec.ofNat 64 addr, 7⟩))
        | some .sealedWrite => .next (s.setPkg p (x.faultRecord c.id 0 7 0x08 fn 0 addr))
        | some _ => .next s
        | none => s.when_ (!x.runMigrating w addr bytes.length) (s.setPkg p (x.writeG w addr bytes))

/-! ## BAR0 registers without a behaviour of their own -/

/-- The cell of a slot index j = place >> 4. -/
def cellOfSlot (j : Nat) : Option Nat := if 12 ≤ j % 16 || 256 ≤ j then none else some (cellOfPlace (16 * j))

/-- The launch status of a cell (R368). -/
def FnState.status (y : FnState) (cell : Nat) : Word := (look y.lstat cell).getD 0

def FnState.copying (y : FnState) (cell : Nat) : Bool := (y.status cell).toNat % 2 == 1

/-- A byte written into the launch slot of a cell; the first write of a word during a copy keeps the word as it stood (R368). -/
def FnState.writeSlot (y : FnState) (c off : Nat) (b : Byte) : FnState :=
  let a := 1024 * c + off / 8 * 8
  { y with
    slotOld := if y.copying c && (look y.slotOld a).isNone then y.slotOld ++ [(a, memRead y.slots a 8)] else y.slotOld
    slots := memSet y.slots (1024 * c + off) b }

/-- One byte written into BAR0: W2CTX, CMD, a launch slot; elsewhere it is ignored. -/
def FnState.writeByte (y : FnState) (off : Nat) (b : Byte) : FnState :=
  if off = 0x10 then { y with w2ctx := b }
  else if 0x1000 ≤ off && off < 0x1100 then { y with cmd := y.cmd.setIfInBounds (off - 0x1000) b }
  else if 0x1000000 ≤ off && off < 0x1040000 then
    (match cellOfSlot ((off - 0x1000000) / 1024) with
      | some c => y.writeSlot c (off % 1024) b
      | none => y)
  else y

/-- A write that sets DOOR to 1: the command in CMD is accepted while READY, and ignored while one is running (R366, R367, R369). -/
def doorWritten (off : Nat) (bytes : List Byte) : Bool := off ≤ 0x1100 && 0x1108 ≤ off + bytes.length &&
  leNat ((bytes.drop (0x1100 - off)).take 8) == 1

/-- REGISTER_WRITE. -/
def execRegisterWrite (p : Nat) (fn : Fn) (off : Nat) (bytes : List Byte) (s : State) : Out :=
  eventFn s p fn fun x y =>
    let y1 := (bytes.zipIdx).foldl (fun y e => y.writeByte (off + e.2) e.1) y
    let y2 := { y1 with busy := y1.busy || (x.ready && doorWritten off bytes) }
    .next (s.setPkg p { x with fns := x.fns.setIfInBounds fn y2 })

/-! ## What a read of BAR0 returns (R366 to R368) -/

/-- DSTAT (R367). -/
def Package.dstat (p : Package) (fn : Fn) : Nat :=
  p.firn.version.toNat * 2 ^ 32 + bit1 p.fatal * 2 ^ 7 + p.level.toNat * 2 ^ 2 + bit1 (p.ready && Config.fnSecure fn) * 2 + bit1 p.ready

/-- CSTAT (R366). -/
def FnState.cstat (y : FnState) : Nat := y.result.toNat * 2 ^ 8 + bit1 y.busy

/-- The word at an offset that is a multiple of 8. DOOR, MBOX and every other offset read zero. -/
def Package.bar0Word (p : Package) (ns : Nat) (fn : Fn) (y : FnState) (off : Nat) : Nat :=
  if off = 0 then p.dstat fn
  else if off = 8 then ns % 2 ^ 64
  else if off = 0x10 then y.w2ctx.toNat
  else if 0x1000 ≤ off && off < 0x1100 then leNat ((y.cmd.toList.drop (off - 0x1000)).take 8)
  else if off = 0x1108 then y.cstat
  else if 0x1200 ≤ off && off < 0x1300 then leNat ((y.resp.toList.drop (off - 0x1200)).take 8)
  else if 0x1000000 ≤ off && off < 0x1040000 then
    (match cellOfSlot ((off - 0x1000000) / 1024) with
      | some c => leNat (memRead y.slots (1024 * c + off % 1024) 8)
      | none => 0)
  else if 0x1400000 ≤ off && off < 0x1400800 then
    (match cellOfSlot ((off - 0x1400000) / 8) with
      | some c => (y.status c).toNat
      | none => 0)
  else 0

/-- The bytes that a read of BAR0 returns. -/
def Package.bar0Read (p : Package) (ns : Nat) (fn : Fn) (off n : Nat) : List Byte :=
  match p.fns[fn]? with
  | some y => (List.range n).map (fun i =>
      BitVec.ofNat 8 (fld (p.bar0Word ns fn y ((off + i) / 8 * 8)) (8 * ((off + i) % 8)) 8))
  | none => onesBytes n

/-! ## Launch (R368, R378; 01 R17) -/

def FnState.putStatus (y : FnState) (cell : Nat) (w : Word) : FnState :=
  { y with lstat := if w = 0 then dropKey y.lstat cell else put y.lstat cell w }

/-- Words of the slot of a cell that a copy has found written no longer have an old form. -/
def FnState.newCopy (y : FnState) (cell : Nat) : FnState := { y with slotOld := y.slotOld.filter (fun e => e.1 / 1024 != cell) }

/-- LDOOR: a write of 1 starts the copy; any other value is ignored. While the device is not ready there is no context, so the packet
names none: it is rejected whole (R378). -/
def execLdoor (p : Nat) (fn : Fn) (cell : Nat) (v : Word) (s : State) : Out :=
  eventFn s p fn fun x y =>
    s.when_ (v == 1 && cell < 192 && !y.copying cell)
      (s.setPkg p (x.modFn fn (fun y => (y.newCopy cell).putStatus cell (if x.ready then 1 else 0x100))))

/-- The packet that a copy at tick `now` takes from the slot of a cell: a word written meanwhile in its old or its new form
(R368; DESIGN CHOICE, notes/assumptions/76.md). -/
def FnState.packet (y : FnState) (now cell : Nat) : List Byte :=
  (List.range 128).flatMap (fun i =>
    let a := 1024 * cell + 8 * i
    match look y.slotOld a with
    | some old => if Config.slotOld now a then old else memRead y.slots a 8
    | none => memRead y.slots a 8)

def packetCtx (b : List Byte) : Nat := recField b 0 1
def packetCount (b : List Byte) : Nat := recField b 1 1

/-- Whether the header keeps its layout. -/
def packetGood (b : List Byte) : Bool :=
  1 ≤ packetCount b && packetCount b ≤ 15 && recField b 2 6 == 0 && ((b.drop 16).take 48).all (· == 0)

/-- The records of a packet, one after the other: what is accepted enters the queue; the rejected ones as REJ bits. -/
def Package.launchRecords (p : Package) (now cell : Nat) (c : Context) (b : List Byte) : Nat → Nat → Nat → Package × Nat
  | 0, _, rej => (p, rej)
  | n + 1, i, rej =>
    let r := (b.drop (64 + 64 * i)).take 64
    if (recordBad r c.secure).isEmpty && ((p.cell cell).map (·.hasPlace)).getD false then
      (p.enqueue now cell (newRecord (readTask r) c.id (recField b 8 8))).launchRecords now cell c b n (i + 1) rej
    else p.launchRecords now cell c b n (i + 1) (rej + 2 ^ i)

/-- A launch-reject event (23 R341). -/
def Package.rejectEvent (p : Package) (ns ctx cell : Nat) : Package := p.event ns ctx 0x01 7 (placeOfCell cell) 0

/-- The copy of a packet. -/
def Package.launch (p : Package) (now ns : Nat) (fn : Fn) (cell : Nat) (b : List Byte) : Package :=
  let done (p : Package) (w : Nat) : Package := p.modFn fn (fun y => y.putStatus cell (BitVec.ofNat 64 w))
  match p.ownedCtx fn (packetCtx b) with
  | none => done p 0x100
  | some c =>
    if !packetGood b || !p.live cell then done (p.rejectEvent ns c.id cell) 0x100
    else
      let r := p.launchRecords now cell c b (packetCount b) 0 0
      if r.2 = 0 then done r.1 0
      else done ((List.range (packetCount b)).foldl (fun q i => if bitAt r.2 i then q.rejectEvent ns c.id cell else q) r.1)
        (0x200 + r.2 * 2 ^ 16)

/-- LAUNCH_COPY_COMPLETE. -/
def execLaunchCopyComplete (p : Nat) (fn : Fn) (cell : Nat) (s : State) : Out :=
  eventFn s p fn fun x y => s.when_ (y.copying cell) (s.setPkg p (x.launch s.now s.ns fn cell (y.packet s.now cell)))

/-! ## MBOX (R366, R378) -/

/-- Whether a function has work on a cell: a resident job, a queued record, or a packet on its way, of a context it owns. -/
def Package.hasWork (p : Package) (fn : Fn) (y : FnState) (cell : Nat) (x : CellState) : Bool :=
  let mine (ctx : Nat) : Bool := (p.ctx ctx).any (fun c => c.owner == fn)
  x.jobs.any (fun j => mine j.ctx) || x.queue.any (fun q => mine q.ctx) ||
    (y.copying cell && mine (packetCtx (memRead y.slots (1024 * cell) 1)))

/-- MBOX. -/
def execMbox (p : Nat) (fn : Fn) (cell : Nat) (n : BitVec 3) (v : Word) (s : State) : Out :=
  eventFn s p fn fun x y => match x.cell cell with
    | none => .next s
    | some k => s.when_ (x.hasWork fn y cell k) (s.setPkg p (x.modCell cell (fun k => { k with mb := k.mb.set n.toFin v })))

end Sys2Proof.Machine
end

