-- ==== Sys2Proof/Machine/Commands.lean ====
section
/-!
DEFINITION. The management commands, each with the DOOR write that runs it (25 R369 to R372, R376; 26 R377; 25 R383).
-/
namespace Sys2Proof.Machine
open Sys2Proof

/-- The command in CMD: its code, and an argument word. -/
def FnState.code (y : FnState) : Nat := leNat (y.cmd.toList.take 8)
def FnState.arg (y : FnState) (n : Nat) : Nat := leNat ((y.cmd.toList.drop (8 + 8 * n)).take 8)
def FnState.args (y : FnState) : List Byte := y.cmd.toList.drop 8

/-- CSTAT's results (R366). -/
def resDone : Byte := 0
def resRefused : Byte := 1
def resBad : Byte := 2
def resNotOwner : Byte := 3

/-- A command ends with a result and the bytes of RESP. -/
def FnState.finish (y : FnState) (r : Byte) (resp : List Byte) : FnState :=
  { y with busy := false, result := r, resp := Vector.ofFn (fun i => (resp[i.val]?).getD 0) }

def Package.answer (p : Package) (fn : Fn) (r : Byte) (resp : List Byte) : Package := p.modFn fn (fun y => y.finish r resp)

/-- A DOOR write of 1 with a command of some code in CMD, accepted while READY. -/
def onCommand (s : State) (p : Nat) (fn : Fn) (code : Nat) (f : Package → FnState → State) : Out :=
  eventFn s p fn fun x y => if x.ready && y.code == code then .next (f x y) else .next s

/-- UNKNOWN_COMMAND. -/
def execUnknownCommand (p : Nat) (fn : Fn) (s : State) : Out :=
  eventFn s p fn fun x y => s.when_ (x.ready && (y.code == 0 || 7 < y.code)) (s.setPkg p (x.answer fn resBad []))

/-! ## CTXNEW (R370, R377, R383) -/

/-- A record or frame count. -/
def countOk (n : Nat) : Bool := (List.range' 4 13).any (fun k => n == 2 ^ k)

/-- Whether a descriptor of a function keeps R370. -/
def descriptorOk (b : List Byte) (fn : Fn) : Bool :=
  recField b 0x1C 4 == 0 && recField b 0x2C 4 == 0 && ((b.drop 0x52).take 46).all (· == 0) &&
  countOk (recField b 0x18 4) && countOk (recField b 0x28 4) && countOk (recField b 0x38 4) && recField b 0x3C 4 ≤ 4096 &&
  recField b 0x50 1 == bit1 (Config.fnSecure fn)

/-- The id that a request gives: the lowest free one for 0, else itself if it is free. -/
def Package.freeId (p : Package) (want : Nat) : Option Nat :=
  if want = 0 then (List.range' 1 255).find? (fun i => (p.ctx i).isNone)
  else if (p.ctx want).isNone then some want else none

/-- The runs of 2 MiB below the fatal dump (R376). -/
def freshRuns : Nat := dumpBase / 2 ^ 21

/-- `n` fresh runs from a run on, none of them with a retired frame. -/
def takeRuns (retired : List Nat) : Nat → Nat → Nat → Option (List Nat)
  | 0, _, _ => none
  | _, 0, _ => some []
  | fuel + 1, n + 1, r =>
    if freshRuns ≤ r then none
    else if retired.any (fun f => f / 512 == r) then takeRuns retired fuel (n + 1) (r + 1)
    else (takeRuns retired fuel n (r + 1)).map (fun l => r :: l)

/-- A run's bytes, marks and compression tags are those of fresh, zeroed memory. -/
def Package.zeroFrames (p : Package) (frames : Nat → Bool) : Package :=
  { p with
    hbm := p.hbm.filter (fun e => !frames (e.1 / 4096))
    marks := p.marks.filter (fun g => !frames (g / 64))
    ctags := p.ctags.filter (fun e => !frames e.1) }

/-- The leaf of a run (R377): KIND 0, CM 0, WR 1, SW the world. -/
def freshLeaf (run : Nat) (secure : Bool) : Word := BitVec.ofNat 64 (run * 2 ^ 21 + 0x0B + bit1 secure * 2 ^ 4)

/-- The tables that the MC builds for a descriptor with base 0; none where no frames are left. -/
def Package.buildTable (p : Package) (base bar2 : Nat) (secure : Bool) : Option (Package × List (Nat × Word)) :=
  if base != 0 then some (p, [])
  else
    let n := bar2 / 2 ^ 21
    match takeRuns p.retired (n + p.retired.length + 1) n p.nextFrame with
    | none => none
    | some rs =>
      some ({ p.zeroFrames (fun f => rs.contains (f / 512)) with nextFrame := (rs.getLast?.getD p.nextFrame) + 1 },
        rs.zipIdx.map (fun e => (e.2, freshLeaf e.1 secure)))

/-- The new context. -/
def newContext (id : Nat) (fn : Fn) (b : List Byte) (table : List (Nat × Word)) (ver : BitVec 32) : Context where
  id := id
  secure := Config.fnSecure fn
  st := .running
  owner := fn
  ptBase := recField b 0 8 / 4096
  table := table
  handler := BitVec.ofNat 64 (recField b 8 8)
  faults := ⟨BitVec.ofNat 64 (recField b 0x10 8), recField b 0x18 4, 0, 0⟩
  events := ⟨BitVec.ofNat 64 (recField b 0x20 8), recField b 0x28 4, 0, 0⟩
  frameBase := BitVec.ofNat 64 (recField b 0x30 8)
  frameCount := recField b 0x38 4
  framesUsed := []
  saves := recField b 0x3C 4
  saved := []
  proxy := BitVec.ofNat 64 (recField b 0x40 8)
  lostRing := BitVec.ofNat 64 (recField b 0x48 8)
  ack := ver
  deadlines := []
  pendingVers := []
  seals := []
  stale := []
  crews := []

def Package.ctxnew (p : Package) (fn : Fn) (b : List Byte) : Package :=
  if !descriptorOk b fn then p.answer fn resBad []
  else match p.freeId (recField b 0x51 1) with
    | none => p.answer fn resRefused []
    | some id =>
      if Config.saveAreas < p.savesUsed + recField b 0x3C 4 then p.answer fn resRefused []
      else match p.buildTable (recField b 0 8 / 4096) (((p.fns[fn]?).map (·.bar2)).getD 0) (Config.fnSecure fn) with
        | none => p.answer fn resRefused []
        | some (p1, t) =>
          { p1 with
            ctxs := p1.ctxs ++ [newContext id fn b t p1.firn.version]
            savesUsed := p1.savesUsed + recField b 0x3C 4 }.answer fn resDone (natLe id 8)

/-- CTXNEW. -/
def execCtxnew (p : Nat) (fn : Fn) (s : State) : Out :=
  onCommand s p fn 0x01 fun x y => s.setPkg p (x.ctxnew fn (y.args.take 128))

/-! ## Commands on a context -/

/-- A command on the context that argument 0 names: result 2 where it is no id, 3 where the function does not own it. -/
def onOwned (s : State) (p : Nat) (fn : Fn) (x : Package) (y : FnState) (f : Context → State) : State :=
  if y.arg 0 == 0 || 255 < y.arg 0 then s.setPkg p (x.answer fn resBad [])
  else match (x.ctx (y.arg 0)).filter (fun c => c.owner == fn) with
    | none => s.setPkg p (x.answer fn resNotOwner [])
    | some c => f c

/-- The seal list is cleared, its frames scrubbed (R369, 23 R352). -/
def Package.clearSeals (p : Package) (c : Context) : Package :=
  let fs := (c.seals.flatMap (·.frames)).map (fun f => fld f.2 12 40)
  (p.zeroFrames fs.contains).modCtx c.id (fun c => { c with seals := [] })

/-- CTXKILL. -/
def execCtxkill (p : Nat) (fn : Fn) (s : State) : Out :=
  onCommand s p fn 0x02 fun x y => onOwned s p fn x y fun c =>
    let s1 := if c.st = .lost then s else s.loseEverywhere p c.secure ⟨c.id, 3, 0xFFFF, 0, 7⟩
    s1.modPkg p (fun x => (x.clearSeals c).answer fn resDone [])

/-- A context runs again: ACK := VER; its records are ready from now or from their time on (R369, 23 R349). -/
def Package.resume (p : Package) (now : Nat) (c : Context) : Package :=
  (p.modCtx c.id (fun c => { c with st := .running, ack := p.firn.version, deadlines := [], pendingVers := [] })).modRecs c.id (fun q =>
    if q.ready.isNone && !q.await then { q with ready := some (max now (dueTick q.notBefore)) } else q)

/-- RESUME: a context that is not suspended stays as it is; a lost one is refused. -/
def execResume (p : Nat) (fn : Fn) (s : State) : Out :=
  onCommand s p fn 0x03 fun x y => onOwned s p fn x y fun c =>
    match c.st with
    | .suspended => s.setPkg p ((x.resume s.now c).answer fn resDone [])
    | .running => s.setPkg p (x.answer fn resDone [])
    | .lost => s.setPkg p (x.answer fn resRefused [])

/-- The cells whose running job is of a context and has no request pending. -/
def Package.preemptible (p : Package) (ctx : Nat) : List Nat :=
  (List.range 192).filter (fun i => ((p.cell i).map (fun x => !x.preempt && x.job.any (fun j => j.ctx == ctx))).getD false)

/-- PREEMPT. -/
def execPreempt (p : Nat) (fn : Fn) (s : State) : Out :=
  onCommand s p fn 0x04 fun x y => onOwned s p fn x y fun c =>
    let l := x.preemptible c.id
    s.setPkg p ((l.foldl (fun x i => x.modCell i (fun k => { k with preempt := true })) x).answer fn resDone (natLe l.length 8))

/-! ## ROUTINE (R369, R372; 19 R294) -/

def routineBytes : Nat := 48 * 1024

/-- The measurement after one more link of its chain. -/
def extend (m : Vector Byte 48) (number : Nat) (secure : Bool) (digest : List Byte) : Vector Byte 48 :=
  let d := sha384 (m.toList ++ natLe number 1 ++ natLe (bit1 secure) 1 ++ digest)
  Vector.ofFn (fun i => (d[i.val]?).getD 0)

def Package.loadRoutine (p : Package) (fn : Fn) (number addr len : Nat) : Package :=
  let secure := Config.fnSecure fn
  if number < 64 || 127 < number || routineBytes < len then p.answer fn resBad []
  else
    let others := p.routines.filter (fun r => !(r.num == number && r.secure == secure))
    let used := (others.map (fun r => r.bytes.length)).sum
    if routineBytes < used + len then p.answer fn resRefused []
    else
      let bs := memRead (p.hostMem fn) addr len
      let m := extend p.meas number secure (if len = 0 then List.replicate 48 0 else sha384 bs)
      { p with
        routines := if len = 0 then others else others ++ [(⟨number, secure, bs⟩ : Routine)]
        meas := m }.answer fn resDone (m.toList ++ natLe (routineBytes - used - len) 4)

/-- A transfer of a custom routine is under way on some engine. -/
def Package.routineRuns (p : Package) : Bool :=
  p.cells.toList.any (fun x => x.jobs.any (fun j => (j.ce0.xfers ++ j.ce1.xfers).any (fun t => match t.kind with
    | .codec r _ => 64 ≤ r
    | _ => false)))

/-- ROUTINE: it is taken once no engine runs a custom routine (R369). -/
def execRoutine (p : Nat) (fn : Fn) (s : State) : Out :=
  onCommand s p fn 0x05 fun x y =>
    if x.routineRuns then s else s.setPkg p (x.loadRoutine fn (y.arg 0) (y.arg 1) (y.arg 2))

/-! ## ATTEST (R372) and DUMPRD (R376) -/

/-- The first 160 bytes of a quote. -/
def Package.quoteBody (p : Package) (fn : Fn) (nonce : List Byte) : List Byte :=
  padTo 32 nonce ++ natLe p.firn.version.toNat 4 ++ natLe (bit1 (Config.fnSecure fn)) 1 ++ natLe 0 3 ++ p.meas.toList ++ natLe 0 72

/-- A signature by the identity key of a package over a digest. -/
def signature (pkg : Nat) (digest : List Byte) : List Byte := (List.range 96).map (Config.signatureByte pkg digest)

/-- ATTEST. -/
def execAttest (p : Nat) (fn : Fn) (s : State) : Out :=
  onCommand s p fn 0x06 fun x y =>
    let q := x.quoteBody fn (y.args.take 32)
    s.setPkg p (x.answer fn resDone (q ++ signature p (sha384 q)))

/-- DUMPRD: refused to a VF and while FATAL is not set. -/
def execDumprd (p : Nat) (fn : Fn) (s : State) : Out :=
  onCommand s p fn 0x07 fun x y =>
    s.setPkg p (if fn != 0 || !x.fatal then x.answer fn resRefused []
      else if 256 < y.arg 1 || dumpBytes < y.arg 0 + y.arg 1 then x.answer fn resBad []
      else x.answer fn resDone (memRead x.hbm (dumpBase + y.arg 0) (y.arg 1)))

end Sys2Proof.Machine
end

