-- ==== Sys2Proof/Machine/Links.lean ====
section
/-!
DEFINITION. Fabric links: flits and their slot returns, replays, retrains, dead links and ports (21 R322, R324, 22 R328).
-/
namespace Sys2Proof.Machine
open Sys2Proof

/-! ## A link by name -/

def Package.link (p : Package) (port link : Nat) : Option Link := (p.links[port]?).bind (fun v => v[link]?)

def Package.setLink (p : Package) (port link : Nat) (l : Link) : Package :=
  match p.links[port]? with
  | some v => { p with links := p.links.setIfInBounds port (v.setIfInBounds link l) }
  | none => p

/-- An event of a link. -/
def eventLink (s : State) (p port link : Nat) (f : Package → Link → State) : Out :=
  eventPkg s p fun x => match x.link port link with
    | some l => .next (f x l)
    | none => .next s

/-- The state of a link in PORTS (23 R348). -/
def LinkSt.code (l : LinkSt) : Nat :=
  match l with
  | .up => 0
  | .retraining => 1
  | .dead => 2

def LinkSt.ofCode (n : Nat) : LinkSt :=
  match n with
  | 0 => .up
  | 1 => .retraining
  | _ => .dead

/-- A port's byte: link 0, link 1, and whether both are dead. -/
def portByte (v : Vector Link 2) : Byte :=
  BitVec.ofNat 8 (v[0].st.code + 4 * v[1].st.code + 16 * bit1 (v.all (fun l => l.st == .dead)))

def Package.portBytes (p : Package) : Vector Byte 6 := p.links.map portByte

/-! ## Synthesised errors (21 R324) -/

/-- The physical package to which an operation goes, when it goes to another one. -/
def State.opDest (s : State) (p : Package) (o : MemOp) : Option (BitVec 10) :=
  match o.target with
  | .fabric c _ => some (p.firn.physical (BitVec.ofNat 10 c))
  | .peer i _ _ _ => (s.pkg i).map (·.coord)
  | _ => none

/-- A request whose response has not arrived: one that has left its cell, or a load that nothing holds back. -/
def State.outstanding (s : State) (p : Package) (x : CellState) (o : MemOp) : Bool :=
  match o.status with
  | .left | .applied => true
  | .waiting => o.isLoad && s.free p x.ops o
  | _ => false

/-- The physical package to which a batch in flight goes. -/
def Batch.dest (b : Batch) (p : Package) : BitVec 10 := p.firn.physical (BitVec.ofNat 10 (b.bind.qbase.toNat / 2 ^ 48))

/-- Each outstanding request of a package of whose destination and route `hit` holds will be answered by a synthesised error,
its own response is discarded, and so are the writes of a batch that has been sent. Routes are those of the state before the
change. -/
def Package.failRoutes (p : Package) (old : State) (q : Package) (hit : BitVec 10 → List (BitVec 10 × Nat) → Bool) : Package :=
  let crosses (d : BitVec 10) : Bool := hit d (old.route q.firn q.coord d)
  { p with cells := p.cells.map (fun (x : CellState) => { x with
      ops := x.ops.map (fun o =>
        if old.outstanding p x o && (old.opDest q o).any crosses then { o with fail := some .lost } else o)
      shadows := x.shadows.map (fun h => { h with
        batches := h.batches.map (fun b => if b.sent.isSome && crosses (b.dest q) then { b with lost := true } else b) }) }) }

def State.failRoutes (s old : State) (hit : BitVec 10 → List (BitVec 10 × Nat) → Bool) : State :=
  { s with pkgs := s.pkgs.mapIdx (fun i p => p.failRoutes old ((old.pkg i).getD p) hit) }

/-! ## Changes of state -/

/-- A logical package is lost, as package `p` records it (R324). -/
def State.losePeer (s : State) (p : Nat) (x : Package) (i : Nat) : State :=
  let d := x.firn.physical (coordOfIndex i)
  (s.setPkg p (x.publish s.now chPeers (fun f => { f with lost := addOnce f.lost i }))).modPkg p (fun y =>
    y.failRoutes s x (fun e _ => e == d))

/-- A package whose six ports are dead is lost: every other package of the domain records it. -/
def State.islandLost (s : State) (p : Nat) (x : Package) : State :=
  (List.range s.pkgs.length).foldl (fun s k => match s.pkg k with
    | some y =>
      if k != p && y.ready && y.firn.inExtent x.firn.self && y.firn.physical x.firn.self == x.coord && !y.firn.isLost x.firn.self then
        s.losePeer k y (coordIndex x.firn.self) else s
    | none => s) s

/-- All six ports are dead. -/
def Package.island (p : Package) : Bool := (List.range 6).all p.portDead

/-- A link changes, which is a new version; a port that dies with it answers what was to cross it, and a package that loses its
last port is lost. -/
def State.linkChange (s : State) (p : Nat) (x : Package) (port link : Nat) (l : Link) : State :=
  let x1 := x.setLink port link l
  let s1 := s.setPkg p (x1.publish s.now chLinks (fun f => { f with ports := x1.portBytes }))
  let s2 := if x1.portDead port && !x.portDead port then s1.failRoutes s (fun _ r => r.contains (x.coord, port)) else s1
  if x1.island && !x.island then s2.islandLost p x1 else s2

/-- LINK_RETRAIN: a link that is up loses lock; one that is retraining has failed and begins again. -/
def execLinkRetrain (p port link : Nat) (s : State) : Out :=
  eventLink s p port link fun x l => match l.st with
    | .up => s.linkChange p x port link { l with st := .retraining, fails := 0 }
    | .retraining => s.setPkg p (x.setLink port link { l with fails := min 2 (l.fails + 1) })
    | .dead => s

/-- LINK_RETRAIN_DONE. -/
def execLinkRetrainDone (p port link : Nat) (s : State) : Out :=
  eventLink s p port link fun x l => match l.st with
    | .retraining => s.linkChange p x port link { l with st := .up, fails := 0, replays := 0 }
    | _ => s

/-- LINK_DEAD: the third consecutive retrain has failed. -/
def execLinkDead (p port link : Nat) (s : State) : Out :=
  eventLink s p port link fun x l => match l.st with
    | .retraining => if l.fails = 2 then s.linkChange p x port link { l with st := .dead, fails := 3 } else s
    | _ => s

/-! ## Flits (R322, R328) -/

/-- One byte into a CRC-64 over the ECMA-182 polynomial, most significant bit first (PRESUMED, notes/assumptions/70.md). -/
def crc64Step (c : BitVec 64) (b : Byte) : BitVec 64 :=
  (List.range 8).foldl (fun c _ => if c.msb then (c <<< 1) ^^^ 0x42F0E1EBA9EA3693#64 else c <<< 1) (c ^^^ (b.setWidth 64 <<< 56))

def crc64 (bs : List Byte) : BitVec 64 := bs.foldl crc64Step 0

/-- Bytes 0 to 247 of a flit. -/
def flitBody (f : Flit) : List Byte :=
  natLe (f.fseq.toNat + f.typ.toNat * 2 ^ 12) 2 ++
  natLe (f.srt.toList.zipIdx.foldl (fun n e => n + e.1.toNat * 2 ^ (12 * e.2)) 0) 9 ++
  natLe f.ack.toNat 2 ++ natLe 0 3 ++ padTo 232 f.payload

/-- The 256 bytes of a flit. -/
def flitBytes (f : Flit) : List Byte := flitBody f ++ natLe f.crc.toNat 8

/-- Whether a flit's CRC holds. -/
def flitGood (f : Flit) : Bool := f.crc == crc64 (flitBody f)

/-- A flit with the CRC of its bytes. -/
def flitSealed (f : Flit) : Flit := { f with crc := crc64 (flitBody f) }

/-- What the other end has received in order is no longer kept for a replay. -/
def Link.ackFlits (l : Link) (a : BitVec 12) : Link :=
  if l.unacked.any (fun f => f.fseq == a) then
    { l with unacked := (l.unacked.dropWhile (fun f => f.fseq != a)).drop 1, replays := 0 }
  else l

/-- A flit received: the next one in order whose CRC holds is taken, and its returns supersede the earlier ones; any other
is discarded, and its returns are not applied. -/
def Link.receive (l : Link) (f : Flit) : Link :=
  if flitGood f && f.fseq == l.rxSeq + 1 then { l with rxSeq := f.fseq, srtIn := f.srt }.ackFlits f.ack else l

/-- FLIT_RECEIVE. -/
def execFlitReceive (p port link : Nat) (f : Flit) (s : State) : Out :=
  eventLink s p port link fun x l => match l.st with
    | .up => s.setPkg p (x.setLink port link (l.receive f))
    | _ => s

/-- A replayed flit: FSEQ, type and payload as first sent, the header fields of the moment. -/
def Link.refresh (l : Link) (f : Flit) : Flit := flitSealed { f with srt := l.freed, ack := l.rxSeq }

/-- FLIT_REPLAY: from ACK + 1 on; a link that needs its 16th consecutive replay retrains (R324). -/
def execFlitReplay (p port link : Nat) (s : State) : Out :=
  eventLink s p port link fun x l => match l.st with
    | .up =>
      if l.replays < 15 then s.setPkg p (x.setLink port link { l with unacked := l.unacked.map l.refresh, replays := l.replays + 1 })
      else s.linkChange p x port link { l with st := .retraining, fails := 0, replays := 0 }
    | _ => s

end Sys2Proof.Machine
end

