-- ==== Sys2Proof/Machine/Service.lean ====
section
/-!
DEFINITION. The management core: bring-up (25 R372, R373), power (25 R374, 21 R306), the fatal dump (23 R354, R355; 25 R376), the
versions that it publishes (23 R347 to R349, R351, R381; 21 R324, R325).
-/
namespace Sys2Proof.Machine
open Sys2Proof

/-! ## Bring-up -/

/-- Live cells of rows 0 and 1 of a die. -/
def coldCells : BitVec 96 := BitVec.ofNat 96 (2 ^ 24 - 1)

/-- The physical place of each logical cell: its own, where it is live. -/
def placesOf (dies : Vector DieMap 2) : Vector (Option (BitVec 12)) 192 :=
  Vector.ofFn (fun i =>
    if ((dies[i.val / 96]?).map (fun d => d.live.getLsbD (i.val % 96))).getD false then some (BitVec.ofNat 12 (placeOfCell i.val))
    else none)

/-- The map of cold service (R373). With extents 1, 1, 1 the package's own logical coordinate is (0, 0, 0). -/
def Firn.cold (f : Firn) (coord : BitVec 10) : Firn :=
  let dies : Vector DieMap 2 := Vector.replicate 2 ⟨4, coldCells, 0⟩
  { f with
    level := 0
    mefmt := 0x07
    ext := (1, 1, 1)
    self := 0
    dies := dies
    stackMaps := Vector.replicate 8 ⟨allBanks, false, 0, false⟩
    ports := Vector.replicate 6 0x1A
    lost := []
    relabel := if coord = 0 then [] else [(0, coord)]
    places := placesOf dies }

/-- Version 1: cold service. -/
def Package.coldService (x : Package) (now p : Nat) : Package :=
  { x with
    ready := true
    level := 1
    firmware := true
    meas := Vector.ofFn (fun i => Config.bootMeasurementByte p i.val)
    dies := x.dies.map (fun (d : Die) => { d with since := now }) }.publish now 0 (fun f => f.cold x.coord)

/-- POWER_ON: a failed check of the image leaves READY at 0. -/
def execPowerOn (p : Nat) (imageGood : Bool) (s : State) : Out :=
  eventPkg s p fun x => s.when_ (imageGood && x.level == 0) (s.setPkg p (x.coldService s.now p))

/-- The live cells of a die at full service: those of cold service, and every other one that has trained. -/
def trainedCells (d : DieMap) (die : Nat) (cells : List Nat) : BitVec 96 :=
  (List.range 96).foldl (fun v i => if cells.contains (96 * die + i) then v ||| (1#96 <<< i) else v) d.live

/-- The links after training. -/
def trainedLinks (l : List (Nat × Nat)) : Vector (Vector Link 2) 6 :=
  Vector.ofFn (fun i => Vector.ofFn (fun k =>
    { Link.reset with st := if l.contains (i.val, k.val) then .up else .dead }))

def Firn.full (f : Firn) (t : Trained) (coord : BitVec 10) (ports : Vector Byte 6) : Firn :=
  let dies := Vector.ofFn (fun (i : Fin 2) => { f.dies[i] with step := 0, live := trainedCells f.dies[i] i.val t.cells })
  { f with
    level := 1
    mefmt := 0x1F
    ext := (BitVec.ofNat 8 t.ext.1, BitVec.ofNat 8 t.ext.2.1, BitVec.ofNat 8 t.ext.2.2)
    self := coord
    relabel := []
    dies := dies
    stackMaps := f.stackMaps.map (fun x => { x with full := true })
    ports := ports
    places := placesOf dies }

/-- The extents that a domain may have (21 R321). -/
def Trained.good (t : Trained) : Bool :=
  1 ≤ t.ext.1 && t.ext.1 ≤ 16 && 1 ≤ t.ext.2.1 && t.ext.2.1 ≤ 8 && 1 ≤ t.ext.2.2 && t.ext.2.2 ≤ 8

/-- FULL_SERVICE: HBM and link training have ended. -/
def execFullService (p : Nat) (t : Trained) (s : State) : Out :=
  eventPkg s p fun x =>
    let x0 := (x.noteFits s.now 0).noteFits s.now 1
    let x1 := { x0 with level := 2, links := trainedLinks t.links, dies := x0.dies.map (fun (d : Die) => { d with since := s.now }) }
    s.when_ (x.level == 1 && Trained.good t) (s.setPkg p (x1.publish s.now 0x1F (fun f => f.full t x.coord x1.portBytes)))

/-! ## Power (R374) -/

/-- BUDGET_PUBLISH. -/
def execBudgetPublish (p : Nat) (die : BitVec 1) (units : Nat) (s : State) : Out :=
  eventPkg s p fun x => match (x.noteFits s.now die.toNat).dies[die.toNat]? with
    | some d => s.when_ x.ready (s.setPkg p { x.noteFits s.now die.toNat with
        dies := (x.noteFits s.now die.toNat).dies.setIfInBounds die.toNat { d with budget := units } })
    | none => .next s

/-- POWER_STEP_DOWN: every 50 microseconds while the draws exceed the budget. -/
def execPowerStepDown (p : Nat) (die : BitVec 1) (s : State) : Out :=
  eventPkg s p fun x =>
    let d := die.toNat
    let x1 := x.setStep s.now d (x.step d + 1)
    match x.dies[d]?, x1.dies[d]? with
    | some old, some y =>
      s.when_ (x.step d < 4 && old.budget < x.draws d (x.step d) none && old.lastDown + dueTick 50000 ≤ s.now)
        (s.setPkg p { x1 with dies := x1.dies.setIfInBounds d { y with lastDown := s.now } })
    | _, _ => .next s

/-! ## Device-fatal errors (23 R354, R355; 25 R376) -/

/-- CAUSE. -/
def fatalCode (c : FatalCause) : Nat :=
  match c with
  | .firmware => 1
  | .icequake => 2
  | .watchdog => 3
  | .stack => 4
  | .power => 5
  | .assertion => 6

/-- The dump: header, then what firmware records. -/
def Package.dumpOf (x : Package) (p ns cause die place : Nat) : List Byte :=
  let n := (Config.dumpShape p x.boots).1 % (dumpBytes - 256)
  let body := (List.range n).map (Config.dumpByte p x.boots)
  let head := natLe 0x504D55444C544146 8 ++ natLe (256 + n) 4 ++ natLe 1 2 ++ natLe cause 1 ++ natLe die 1 ++ natLe ns 8 ++
    natLe x.firn.version.toNat 4 ++ natLe x.boots 4 ++ natLe place 2 ++ natLe 0 2 ++
    natLe (Config.dumpShape p x.boots).2.1 4 ++ natLe (Config.dumpShape p x.boots).2.2 8 ++ sha384 body
  head ++ signature p head ++ natLe 0 64 ++ body

/-- The dump is written and the package resets: of what it held, the dump and the frames retired remain; host memory is not
its own. -/
def Package.fatalReset (x : Package) (p ns cause die place : Nat) : Package :=
  { Package.reset p with
    coord := x.coord
    boots := x.boots + 1
    fatal := true
    hbm := memWrite [] dumpBase (x.dumpOf p ns cause die place)
    retired := x.retired
    fns := x.fns.map (fun y => { FnState.reset with mem := y.mem }) }

def State.fatal (s : State) (p : Nat) (x : Package) (cause : FatalCause) (die place : Nat) : State :=
  s.setPkg p (x.fatalReset p s.ns (fatalCode cause) die place)

/-- DEVICE_FATAL. -/
def execDeviceFatal (p : Nat) (cause : FatalCause) (die place : Nat) (s : State) : Out :=
  eventPkg s p fun x => s.when_ (die < 2 || die == 0xFF) (s.fatal p x cause die (min place 0xFFFF))

/-- A die has stood at step 4 for 1 ms. -/
def Package.atStep4 (x : Package) (now : Nat) : Bool :=
  (List.range 2).any (fun d => x.step d == 4 && (x.dies[d]?).any (fun y => y.since + dueTick 1000000 ≤ now))

/-- POWER_TRIP: the module has been above 1,600 W for 1 ms at step 4. -/
def execPowerTrip (p : Nat) (s : State) : Out :=
  eventPkg s p fun x => s.when_ (x.ready && x.atStep4 s.now) (s.fatal p x .power 0xFF 0xFFFF)

/-- POWER_REMOVAL: nothing that the package held survives. -/
def execPowerRemoval (p : Nat) (s : State) : Out :=
  eventPkg s p fun x => .next (s.setPkg p { Package.reset p with
    coord := x.coord, fns := x.fns.map (fun y => { FnState.reset with mem := y.mem }) })

/-! ## A lost cell (23 R381) -/

/-- A job on a lost cell stops, and its task is abandoned. -/
def Package.stopLost (p : Package) (ns cell uid : Nat) : Package :=
  match (p.cell cell).bind (fun x => x.jobBy uid) with
  | none => p
  | some j =>
    let gone (o : Option Job) : Option Job := o.filter (fun k => k.uid != uid)
    let p1 := (p.stopJob cell j).modCell cell (fun x => { x with
      job := gone x.job, heldJob := gone x.heldJob, trapped := gone x.trapped })
    ((p1.freeFrame j.ctx (j.held.bind (·.frame))).event ns j.ctx 0x07 6 (placeOfCell cell) 0).endHandler ns j

def Package.stopCell (p : Package) (now ns cell : Nat) : Package :=
  match p.cell cell with
  | none => p
  | some x =>
    (x.jobs.foldl (fun p j => p.stopLost ns cell j.uid) (p.noteFits now (dieOf cell))).modCell cell (fun x =>
      { x with preempt := false }.closeBatches (p.clkOf cell))

/-- Where the records of a lost cell go: the cell that its logical place now has, else the live cell of the die with the
lowest place. -/
def Package.heir (p : Package) (cell : Nat) (spare : Option Nat) : Option Nat :=
  spare.or ((List.range' (96 * dieOf cell) 96).find? (fun i => i != cell && p.live i))

def Package.moveRecords (p : Package) (now cell : Nat) (dst : Option Nat) : Package :=
  match dst, p.cell cell with
  | some d, some x => x.queue.foldl (fun p q => p.enqueue now d q) (p.modCell cell (fun x => { x with queue := [] }))
  | _, _ => p

/-- The map without a cell; its logical place has the spare. -/
def Firn.loseCell (f : Firn) (cell : Nat) (spare : Option Nat) : Firn :=
  { f with
    dies := Vector.ofFn (fun i =>
      if i.val = dieOf cell then { f.dies[i] with live := f.dies[i].live &&& ~~~(1#96 <<< (cell % 96)) } else f.dies[i])
    places := f.places.map (fun e =>
      if e = some (BitVec.ofNat 12 (placeOfCell cell)) then spare.map (fun k => BitVec.ofNat 12 (placeOfCell k)) else e) }

def Package.loseCell (p : Package) (now ns cell : Nat) (spare : Option Nat) : Package :=
  let p1 := p.stopCell now ns cell
  (p1.moveRecords now cell (p1.heir cell spare)).publish now chCells (fun f => f.loseCell cell spare)

/-! ## A cell's world (23 R351) -/

/-- Idle: no job stands on it, none waits in its queue. -/
def CellState.empty (x : CellState) : Bool := x.jobs.isEmpty && x.queue.isEmpty && x.due.isEmpty && x.ops.all (fun o => !o.incomplete)

/-- The world changes; the scratchpad and the accumulator bank lie in the jobs of a cell, of which an idle one has none. -/
def Package.setWorld (p : Package) (now cell : Nat) (secure : Bool) : Package :=
  (p.modCell cell (fun x => { x with secure := secure })).publish now chCells (fun f => { f with
    dies := Vector.ofFn (fun i =>
      if i.val = dieOf cell then
        { f.dies[i] with secure :=
            if secure then f.dies[i].secure ||| (1#96 <<< (cell % 96)) else f.dies[i].secure &&& ~~~(1#96 <<< (cell % 96)) }
      else f.dies[i]) })

/-! ## Peers (21 R324, R325) -/

/-- A logical coordinate is reassigned to a package, which is then not lost. -/
def Firn.reassign (f : Firn) (i : Nat) (physical own : BitVec 10) : Firn :=
  { f with
    relabel := if physical = coordOfIndex i then dropKey f.relabel i else put f.relabel i physical
    lost := f.lost.filter (· != i)
    self := if physical = own then coordOfIndex i else f.self }

/-! ## FIRN_PUBLISH -/

/-- FIRN_PUBLISH: the changes that the management core makes on its own account. -/
def execFirnPublish (p : Nat) (ch : FirnChange) (s : State) : Out :=
  eventPkg s p fun x =>
    if !x.ready then .next s
    else match ch with
      | .clockStep die step => s.when_ (die < 2 && step ≤ 4 && x.step die != step) (s.setPkg p (x.setStep s.now die step))
      | .cellLost cell spare =>
        s.when_ (x.live cell && spare.all (fun k => x.live k && k != cell)) (s.setPkg p (x.loseCell s.now s.ns cell spare))
      | .cellWorld cell secure =>
        s.when_ (x.live cell && ((x.cell cell).map (fun k => k.empty && k.secure != secure)).getD false)
          (s.setPkg p (x.setWorld s.now cell secure))
      | .linkState port link state =>
        (match x.link port link with
          | some l => s.when_ (l.st != LinkSt.ofCode state) (s.linkChange p x port link { l with st := LinkSt.ofCode state, fails := 0 })
          | none => .next s)
      | .peerLost i => s.when_ (i < 1024 && !x.firn.lost.contains i && coordOfIndex i != x.firn.self) (s.losePeer p x i)
      | .relabel i physical => s.when_ (i < 1024 && physical < 1024)
          (s.setPkg p (x.publish s.now chPeers (fun f => f.reassign i (BitVec.ofNat 10 physical) x.coord)))

/-- FIRNACK_DEADLINE: a deadline has passed unmet. -/
def execFirnackDeadline (p : Nat) (ctx : Nat) (s : State) : Out :=
  eventPkg s p fun x => match x.ctx ctx with
    | none => .next s
    | some c =>
      s.when_ (c.st == .running && c.deadlines.any (fun d => d.2 ≤ s.now))
        (s.setPkg p ((x.modCtx ctx (fun c => { c with deadlines := c.deadlines.filter (fun d => s.now < d.2) })).suspend s.now ctx))

end Sys2Proof.Machine
end

