-- ==== Sys2Proof/Machine/Repair.lean ====
section
/-!
DEFINITION. HBM: bank repair (23 R350), scrubs (23 R342), page migration and its forwarding entries (05 R77, R78, R80, R81).
-/
namespace Sys2Proof.Machine
open Sys2Proof

/-! ## Bank repair -/

/-- The banks of a stack that have failed. -/
def StackMap.failed (t : StackMap) : Nat := ((List.range 68).filter (fun i => !t.banks.getLsbD i)).length

def Package.modStack (p : Package) (now stack : Nat) (f : StackMap → StackMap) : Package :=
  p.publish now chHbm (fun m => match m.stackMaps[stack]? with
    | some t => { m with stackMaps := m.stackMaps.setIfInBounds stack (f t) }
    | none => m)

/-- BANK_FAILED: the re-stripe starts; a fifth failed bank of a stack is device-fatal. -/
def execBankFailed (p stack bank : Nat) (s : State) : Out :=
  eventPkg s p fun x => match x.firn.stackMaps[stack]? with
    | none => .next s
    | some t =>
      if !(x.ready && bank < 68 && t.banks.getLsbD bank) then .next s
      else if 4 ≤ t.failed then .next (s.fatal p x .stack 0xFF 0xFFFF)
      else .next (s.setPkg p (x.modStack s.now stack (fun t =>
        { t with banks := t.banks &&& ~~~(1#68 <<< bank), restriping := true, wmark := 0 })))

/-- RESTRIPE_STEP: 4 GiB have moved; after the twelfth step the state returns to 0. -/
def execRestripeStep (p stack : Nat) (s : State) : Out :=
  eventPkg s p fun x => match x.firn.stackMaps[stack]? with
    | none => .next s
    | some t => s.when_ t.restriping (s.setPkg p (x.modStack s.now stack (fun t =>
        { t with wmark := t.wmark + 1, restriping := t.wmark + 1 < 12 })))

def PVal.mark (v : PVal) : PVal := { v with p := .data }

/-- Mark an entry of a queue that holds data. -/
def Queue.mark {α : Type} (q : Queue α) (n : Nat) (f : α → α) : Queue α :=
  { q with ents := q.ents.modify n (fun e => { e with data := e.data.map f }) }

def RowVal.mark (r : RowVal) : RowVal := { r with p := Vector.replicate 32 .data }

/-- An uncorrectable error in what a cell holds of a job (R343): the granule, the register or the row takes data poison. Register
0 has no storage. -/
def Job.eccMark (j : Job) (r : EccRow) : Job :=
  match r with
  | .pad g => if g < j.hdr.slabs * 32 then { j with marks := addOnce j.marks g } else j
  | .scalar k n => j.setCore k ((j.core k).setReg n ((j.core k).reg n).mark)
  | .vector n row =>
    let r := j.vec.v[n.toFin]
    { j with vec := { j.vec with v := j.vec.v.set n.toFin { r with p := r.p.set row.toFin .data } } }
  | .mask m => { j with vec := { j.vec with m := j.vec.m.set m.toFin { j.vec.m[m.toFin] with p := .data } } }
  | .table t => { j with vec := { j.vec with tb := j.vec.tb.set t.toFin { j.vec.tb[t.toFin] with p := .data } } }
  | .tile t row =>
    let r := j.me.tiles[t.toFin]
    { j with me := { j.me with tiles := j.me.tiles.set t.toFin { r with p := r.p.set row.toFin .data } } }
  | .queue (.lq n) e =>
    if n.toNat < 4 then { j with lq := j.lq.set (n.setWidth 2).toFin (j.lq[(n.setWidth 2).toFin].mark e PVal.mark) }
    else { j with lqRow := j.lqRow.set (n.setWidth 2).toFin (j.lqRow[(n.setWidth 2).toFin].mark e RowVal.mark) }
  | .queue (.sq n) e =>
    if n.toNat < 2 then { j with sq := j.sq.set (n.setWidth 1).toFin (j.sq[(n.setWidth 1).toFin].mark e PVal.mark) }
    else { j with sqRow := j.sqRow.set (n.setWidth 1).toFin (j.sqRow[(n.setWidth 1).toFin].mark e RowVal.mark) }
  | .bank prev w =>
    let f (v : Vector PVal 32) : Vector PVal 32 := v.set w.toFin v[w.toFin].mark
    let b := j.me.banks
    { j with me := { j.me with banks := if prev then { b with prev := f b.prev } else { b with shadow := f b.shadow } } }

/-- SCRUB_UNCORRECTABLE: what the error stands in is marked, nothing else happens (R342, R343). -/
def execScrubUncorrectable (p : Nat) (place : EccAt) (s : State) : Out :=
  eventPkg s p fun x => match place with
    | .hbm g => s.when_ (g < hbmBytes / 64) (s.setPkg p { x with marks := addOnce x.marks g })
    | .job cell uid r => .next (s.setPkg p (x.modJob cell uid (fun j => j.eccMark r)))

/-! ## The leaf of a page, where it stands -/

/-- Where a walk finds the leaf: the address of its entry in HBM. -/
def Package.leafAddr (p : Package) (va : Nat) (left frame : Nat) : Option Nat :=
  match left with
  | 0 => none
  | left + 1 =>
    match p.pte frame (fld va (12 + 9 * left) 9) with
    | .error _ => none
    | .ok e =>
      if !bitAt e 0 || pteBad (4 - left) e then none
      else if bitAt e 1 then some (frame * 4096 + 8 * fld va (12 + 9 * left) 9)
      else p.leafAddr va left (fld e 12 40)

/-- The migration engine writes the leaf of a page of a context. -/
def Package.putLeaf (p : Package) (c : Context) (va leaf : Nat) : Package :=
  if c.ptBase = 0 then p.modCtx c.id (fun c => { c with table := put c.table (va / 2 ^ 21) (BitVec.ofNat 64 leaf) })
  else match p.leafAddr va 4 c.ptBase with
    | some a => p.writeHbm a (natLe leaf 8)
    | none => p

/-- The leaf bits. -/
def leafMG : Nat := 2 ^ 7
def leafFrame (leaf frame : Nat) : Nat := leaf - fld leaf 12 40 * 4096 + frame * 4096

/-- The 4 KiB frames of a page. -/
def framesOf (frame level : Nat) : List Nat := List.range' frame (pageBytes level / 4096)

/-! ## MIGRATION_START (R78) -/

/-- Whether a page of a context may begin to move: an HBM page that is present and well-formed, not migrating, none of whose frames is
listed (23 R352). -/
def Package.canMigrate (p : Package) (c : Context) (va : Nat) (target : MigTarget) : Option (Nat × Nat) :=
  match p.walk c va with
  | .error _ => none
  | .ok (e, level) =>
    let n := pageBytes level / 4096
    let goodTarget : Bool := match target with
      | .hbm _ f => f % n == 0 && (f + n) * 4096 ≤ dumpBase
      | .host f => f % n == 0 && f + n ≤ 2 ^ 40
    if fld e 9 2 == 0 && !bitAt e 7 && !bitAt e 5 && (fld e 12 40 + n) * 4096 ≤ dumpBase && goodTarget &&
        !p.ctxs.any (fun c => c.seals.any (fun r => r.frames.any (fun f =>
          fld e 12 40 ≤ fld f.2 12 40 && fld f.2 12 40 < fld e 12 40 + n))) then some (e, level)
    else none

/-- MIGRATION_START: MG is set in the leaf. -/
def execMigrationStart (p ctx va : Nat) (target : MigTarget) (s : State) : Out :=
  eventPkg s p fun x => match x.alive ctx with
    | none => .next s
    | some c =>
      match x.canMigrate c va target with
      | none => .next s
      | some (e, level) =>
        let there : Bool := match target with
          | .hbm q _ => (s.pkg q).isSome
          | .host _ => true
        let m : Migration := ⟨s.nextId, ctx, va / pageBytes level * pageBytes level, level, fld e 12 40, target, none, 0⟩
        s.when_ (there && va < 2 ^ 48)
          { s.setPkg p { x.putLeaf c va (e + leafMG) with migrations := x.migrations ++ [m] } with nextId := s.nextId + 1 }

/-! ## MIGRATION_SWITCH (R78, R80) -/

/-- The elements of a CB4 block (05 R73, 03 R43): the codebook entry that each index selects; none where an index is not below the
declared size. -/
def cb4Elements (bits : Nat) (pay : List Byte) : Option (List Nat) :=
  let ix := elsOf 4 (32768 / bits) (pay.drop 64)
  if ix.all (fun k => k < rb pay 32 1) then some (ix.map (fun k => rb pay (2 * k) 2)) else none

/-- The BF16 elements of an OSQ block (05 R73): body value times block scale, rounded to nearest even (DEDUCED,
notes/assumptions/80.md), or the value of the element's side entry. -/
def osqElements (et : ET) (pay : List Byte) : List Nat :=
  let f := (etFmt et).getD fmtE4M3
  let n := ((List.range 32).map (fun b => rb pay (4 * b + 1) 1)).sum
  let side := (List.range n).map (fun i => rb pay (128 + 256 * etBits et + 4 * i) 4)
  (elsOf (etBits et) 2048 (pay.drop 128)).zipIdx.map (fun e =>
    match side.find? (fun x => x % 2 ^ 16 == e.2) with
    | some x => x / 2 ^ 16
    | none => (fmtBF16.convert (.mode .rne) false false ((f.decode e.1).e8m0 (rb pay (4 * (e.2 / 64)) 1))).1)

/-- The elements of a payload as 4,096 bytes; none where it is malformed or its length is not the one that its header requires. -/
def rawOf (fmt : Nat) (et : ET) (pay : List Byte) : Option (List Byte) :=
  match fmt with
  | 1 => if (decodeZbm (etBits et) pay).err.isNone then some (decodeZbm (etBits et) pay).out else none
  | 2 => if (decodeCb4 (etBits et) pay).err.isNone then (cb4Elements (etBits et) pay).map (packEls (etBits et)) else none
  | 3 => if (decodeLrf pay).err.isNone then some (decodeLrf pay).out else none
  | _ => if (decodeOsq (etBits et) pay).err.isNone then some (packEls 16 (osqElements et pay)) else none

/-- A 4 KiB block as it goes to the host: decoded to RAW first (R78). Of a block that does not decode the spec says nothing: its bytes
are free values (DESIGN CHOICE, notes/assumptions/80.md). -/
def Package.rawBlock (p : Package) (cm : Bool) (frame : Nat) : List Byte :=
  let t := p.ctag frame
  let pay := memRead p.hbm (frame * 4096) (64 * ctagLen t)
  if !cm || ctagFmt t == 0 then memRead p.hbm (frame * 4096) 4096
  else match (etOf (ctagEt t)).filter (fun _ => ctagFmt t ≤ 4 && etPermitted (ctagFmt t) (ctagEt t) && ctagLen t ≤ 64) with
    | none => (List.range 4096).map (Config.undecodedByte pay)
    | some et => (rawOf (ctagFmt t) et pay).getD ((List.range 4096).map (Config.undecodedByte pay))

/-- The listed bytes of frames, moved to other frames. -/
def moveBytes (hbm : List Host.Cell) (src dst n : Nat) (dest : List Host.Cell) : List Host.Cell :=
  (hbm.filter (fun e => src * 4096 ≤ e.1 && e.1 < (src + n) * 4096)).foldl
    (fun m e => memSet m (e.1 - src * 4096 + dst * 4096) e.2)
    (dest.filter (fun e => !(dst * 4096 ≤ e.1 && e.1 < (dst + n) * 4096)))

/-- Frames copied with their marks and their compression tags. -/
def Package.copyFrames (q src : Package) (from_ dest n : Nat) : Package :=
  let inSrc (k : Nat) (a : Nat) : Bool := from_ * k ≤ a && a < (from_ + n) * k
  let inDst (k : Nat) (a : Nat) : Bool := dest * k ≤ a && a < (dest + n) * k
  { q with
    hbm := moveBytes src.hbm from_ dest n q.hbm
    marks := q.marks.filter (fun g => !inDst 64 g) ++ (src.marks.filter (inSrc 64)).map (fun g => g - from_ * 64 + dest * 64)
    ctags := q.ctags.filter (fun e => !inDst 1 e.1) ++ (src.ctags.filter (fun e => inSrc 1 e.1)).map (fun e => (e.1 - from_ + dest, e.2)) }

/-- The page's bytes reach their new place. -/
def State.movePage (s : State) (p : Nat) (x : Package) (c : Context) (m : Migration) (cm : Bool) : State :=
  let n := pageBytes m.level / 4096
  match m.target with
  | .hbm q f => s.modPkg q (fun y => y.copyFrames x m.source f n)
  | .host f => s.setPkg p ((List.range n).foldl (fun y i => y.writeHost c.owner ((f + i) * 4096) (x.rawBlock cm (m.source + i))) x)

/-- The leaf after the switch: the new frame; a host-backed one, whose CM is 0; or not present, where the page has left the
package. -/
def Migration.newLeaf (m : Migration) (p leaf : Nat) : Nat :=
  let e := leaf - (if bitAt leaf 7 then leafMG else 0)
  match m.target with
  | .hbm q f => if q = p then leafFrame e f else e - e % 2
  | .host f => leafFrame (e - (if bitAt e 6 then 2 ^ 6 else 0)) f + 2 ^ 9

/-- Whether an address lies in the page. -/
def Migration.covers (m : Migration) (va : Nat) : Bool := m.va ≤ va && va < m.va + pageBytes m.level

/-- Operations in flight go to the new place. -/
def Migration.retarget (m : Migration) (p owner : Nat) (o : MemOp) : MemOp :=
  match o.target with
  | .hbm _ va cm =>
    if o.ctx = m.ctx && m.covers va && o.status != .complete && o.status != .applied then
      { o with target := m.newTarget p owner va cm } else o
  | _ => o

/-- The cells after the switch: no cached leaf of the page, and the operations at their new place. -/
def Package.switchCells (x : Package) (p owner : Nat) (m : Migration) : Package :=
  { x with cells := x.cells.map (fun (k : CellState) => { k with
      tlb := k.tlb.filter (fun t => !(t.ctx == m.ctx && m.covers (t.vpn * 4096)))
      ops := k.ops.map (m.retarget p owner) }) }

/-- A forwarding entry stays where the page has left the package. -/
def Package.endMigration (x : Package) (p now leaf : Nat) (m : Migration) : Package :=
  let stays : Bool := match m.target with
    | .hbm q _ => q != p
    | .host _ => false
  { x with migrations :=
      if stays then x.migrations.map (fun k => if k.id = m.id then { k with switched := some now, leaf := leaf } else k)
      else x.migrations.filter (fun k => k.id != m.id) }

/-- MIGRATION_SWITCH. The leaf of the source package alone is written: a page that leaves the package is mapped on the target by
whoever sets that package's tables (DESIGN CHOICE, notes/assumptions/81.md). -/
def execMigrationSwitch (p id : Nat) (s : State) : Out :=
  eventPkg s p fun x => match x.migrations.find? (fun m => m.id == id && m.switched.isNone) with
    | none => .next s
    | some m =>
      match x.alive m.ctx with
      | none => .next s
      | some c =>
        let leaf := match x.walk c m.va with
          | .ok (e, _) => e
          | .error _ => 0
        -- a frame that was listed meanwhile is never moved (23 R352): the migration ends where it stands
        if (framesOf m.source m.level).any x.frameSealed then
          .next (s.setPkg p ({ x with migrations := x.migrations.filter (fun k => k.id != id) }.putLeaf c m.va
            (leaf - (if bitAt leaf 7 then leafMG else 0))))
        else .next ((s.movePage p x c m (bitAt leaf 6)).modPkg p (fun y =>
          (((y.putLeaf c m.va (m.newLeaf p leaf)).switchCells p c.owner m).endMigration p s.now leaf m)))

/-- FORWARDING_LAPSE: 1 ms after the switch (R81). -/
def execForwardingLapse (p id : Nat) (s : State) : Out :=
  eventPkg s p fun x =>
    s.when_ (x.migrations.any (fun m => m.id == id && m.switched.any (fun t => t + dueTick 1000000 ≤ s.now)))
      (s.setPkg p { x with migrations := x.migrations.filter (fun m => m.id != id) })

end Sys2Proof.Machine
end

