-- ==== Sys2Proof/Machine/Dispatch.lean ====
section
/-!
DEFINITION. The meaning of each step: one arm per constructor of Instr, in the order of spec/opcode_table.json.
-/
namespace Sys2Proof.Machine
open Sys2Proof

def exec (i : Instr) (s : State) : Host.Outcome State Fault Refusal :=
  match i with
  | .nop sy => Sys2Proof.Machine.execNop sy s
  | .trap n sy => Sys2Proof.Machine.execTrap n sy s
  | .eret sy => Sys2Proof.Machine.execEret sy s
  | .firnack ra sy => Sys2Proof.Machine.execFirnack ra sy s
  | .tlbinv o => Sys2Proof.Machine.execTlbinv o s
  | .tlbinvAll f sy => Sys2Proof.Machine.execTlbinvAll f sy s
  | .seal ra rb f sy => Sys2Proof.Machine.execSeal ra rb f sy s
  | .world rd sy => Sys2Proof.Machine.execWorld rd sy s
  | .halt sy => Sys2Proof.Machine.execHalt sy s
  | .csrr rd csr sy => Sys2Proof.Machine.execCsrr rd csr sy s
  | .csrw ra csr sy => Sys2Proof.Machine.execCsrw ra csr sy s
  | .mbr rd n sy => Sys2Proof.Machine.execMbr rd n sy s
  | .pchk o => Sys2Proof.Machine.execPchk o s
  | .add o => Sys2Proof.Machine.execAdd o s
  | .sub o => Sys2Proof.Machine.execSub o s
  | .and o => Sys2Proof.Machine.execAnd o s
  | .or o => Sys2Proof.Machine.execOr o s
  | .xor o => Sys2Proof.Machine.execXor o s
  | .andn o => Sys2Proof.Machine.execAndn o s
  | .orn o => Sys2Proof.Machine.execOrn o s
  | .shl o => Sys2Proof.Machine.execShl o s
  | .shr o => Sys2Proof.Machine.execShr o s
  | .sra o => Sys2Proof.Machine.execSra o s
  | .rol o => Sys2Proof.Machine.execRol o s
  | .ror o => Sys2Proof.Machine.execRor o s
  | .min o => Sys2Proof.Machine.execMin o s
  | .max o => Sys2Proof.Machine.execMax o s
  | .minu o => Sys2Proof.Machine.execMinu o s
  | .maxu o => Sys2Proof.Machine.execMaxu o s
  | .seq o => Sys2Proof.Machine.execSeq o s
  | .sne o => Sys2Proof.Machine.execSne o s
  | .slt o => Sys2Proof.Machine.execSlt o s
  | .sltu o => Sys2Proof.Machine.execSltu o s
  | .mul o => Sys2Proof.Machine.execMul o s
  | .mulh o => Sys2Proof.Machine.execMulh o s
  | .mulhu o => Sys2Proof.Machine.execMulhu o s
  | .div o => Sys2Proof.Machine.execDiv o s
  | .divu o => Sys2Proof.Machine.execDivu o s
  | .rem o => Sys2Proof.Machine.execRem o s
  | .remu o => Sys2Proof.Machine.execRemu o s
  | .clmul o => Sys2Proof.Machine.execClmul o s
  | .clmulh o => Sys2Proof.Machine.execClmulh o s
  | .clz o => Sys2Proof.Machine.execClz o s
  | .ctz o => Sys2Proof.Machine.execCtz o s
  | .popc o => Sys2Proof.Machine.execPopc o s
  | .exts o => Sys2Proof.Machine.execExts o s
  | .extz o => Sys2Proof.Machine.execExtz o s
  | .bfx o => Sys2Proof.Machine.execBfx o s
  | .bfi o => Sys2Proof.Machine.execBfi o s
  | .sel o => Sys2Proof.Machine.execSel o s
  | .addi o => Sys2Proof.Machine.execAddi o s
  | .andi o => Sys2Proof.Machine.execAndi o s
  | .ori o => Sys2Proof.Machine.execOri o s
  | .xori o => Sys2Proof.Machine.execXori o s
  | .shli o => Sys2Proof.Machine.execShli o s
  | .shri o => Sys2Proof.Machine.execShri o s
  | .srai o => Sys2Proof.Machine.execSrai o s
  | .slti o => Sys2Proof.Machine.execSlti o s
  | .sltui o => Sys2Proof.Machine.execSltui o s
  | .seqi o => Sys2Proof.Machine.execSeqi o s
  | .li rd imm sy => Sys2Proof.Machine.execLi rd imm sy s
  | .lihi o => Sys2Proof.Machine.execLihi o s
  | .lea rd ra rb sh sy => Sys2Proof.Machine.execLea rd ra rb sh sy s
  | .place rd ra place sy => Sys2Proof.Machine.execPlace rd ra place sy s
  | .fadr rd ra coord sy => Sys2Proof.Machine.execFadr rd ra coord sy s
  | .br disp hint => Sys2Proof.Machine.execBr disp hint s
  | .beq o => Sys2Proof.Machine.execBeq o s
  | .bne o => Sys2Proof.Machine.execBne o s
  | .blt o => Sys2Proof.Machine.execBlt o s
  | .bge o => Sys2Proof.Machine.execBge o s
  | .bltu o => Sys2Proof.Machine.execBltu o s
  | .bgeu o => Sys2Proof.Machine.execBgeu o s
  | .jmp ra sy => Sys2Proof.Machine.execJmp ra sy s
  | .call disp ss => Sys2Proof.Machine.execCall disp ss s
  | .callr ra ss sy => Sys2Proof.Machine.execCallr ra ss sy s
  | .ret sy => Sys2Proof.Machine.execRet sy s
  | .loop trip imm sy => Sys2Proof.Machine.execLoop trip imm sy s
  | .kloop sr sy => Sys2Proof.Machine.execKloop sr sy s
  | .rdv n sy => Sys2Proof.Machine.execRdv n sy s
  | .tdone sy => Sys2Proof.Machine.execTdone sy s
  | .faddS o => Sys2Proof.Machine.execFaddS o s
  | .fmulS o => Sys2Proof.Machine.execFmulS o s
  | .ffmaS o => Sys2Proof.Machine.execFfmaS o s
  | .fminS o => Sys2Proof.Machine.execFminS o s
  | .fmaxS o => Sys2Proof.Machine.execFmaxS o s
  | .fcmpEq o => Sys2Proof.Machine.execFcmpEq o s
  | .fcmpNe o => Sys2Proof.Machine.execFcmpNe o s
  | .fcmpLt o => Sys2Proof.Machine.execFcmpLt o s
  | .fcmpLe o => Sys2Proof.Machine.execFcmpLe o s
  | .fcvt o => Sys2Proof.Machine.execFcvt o s
  | .lds o => Sys2Proof.Machine.execLds o s
  | .ldsRow o => Sys2Proof.Machine.execLdsRow o s
  | .sts o => Sys2Proof.Machine.execSts o s
  | .stsRow o => Sys2Proof.Machine.execStsRow o s
  | .ldn o => Sys2Proof.Machine.execLdn o s
  | .ldnRow o => Sys2Proof.Machine.execLdnRow o s
  | .stn o => Sys2Proof.Machine.execStn o s
  | .stnArr o => Sys2Proof.Machine.execStnArr o s
  | .stnRow o => Sys2Proof.Machine.execStnRow o s
  | .stnRowArr o => Sys2Proof.Machine.execStnRowArr o s
  | .ldg o => Sys2Proof.Machine.execLdg o s
  | .ldgRow o => Sys2Proof.Machine.execLdgRow o s
  | .stg o => Sys2Proof.Machine.execStg o s
  | .stgRow o => Sys2Proof.Machine.execStgRow o s
  | .ldf o => Sys2Proof.Machine.execLdf o s
  | .ldfRow o => Sys2Proof.Machine.execLdfRow o s
  | .stf o => Sys2Proof.Machine.execStf o s
  | .stfArr o => Sys2Proof.Machine.execStfArr o s
  | .stfRow o => Sys2Proof.Machine.execStfRow o s
  | .stfRowArr o => Sys2Proof.Machine.execStfRowArr o s
  | .ldc o => Sys2Proof.Machine.execLdc o s
  | .stc o => Sys2Proof.Machine.execStc o s
  | .aadd o => Sys2Proof.Machine.execAadd o s
  | .aand o => Sys2Proof.Machine.execAand o s
  | .aor o => Sys2Proof.Machine.execAor o s
  | .axor o => Sys2Proof.Machine.execAxor o s
  | .amin o => Sys2Proof.Machine.execAmin o s
  | .amax o => Sys2Proof.Machine.execAmax o s
  | .aminu o => Sys2Proof.Machine.execAminu o s
  | .amaxu o => Sys2Proof.Machine.execAmaxu o s
  | .aswap o => Sys2Proof.Machine.execAswap o s
  | .acas o => Sys2Proof.Machine.execAcas o s
  | .rpost o => Sys2Proof.Machine.execRpost o s
  | .rwait o => Sys2Proof.Machine.execRwait o s
  | .rthaw o => Sys2Proof.Machine.execRthaw o s
  | .rstat o => Sys2Proof.Machine.execRstat o s
  | .rnga o => Sys2Proof.Machine.execRnga o s
  | .rngp o => Sys2Proof.Machine.execRngp o s
  | .rngw o => Sys2Proof.Machine.execRngw o s
  | .rngf o => Sys2Proof.Machine.execRngf o s
  | .semw o => Sys2Proof.Machine.execSemw o s
  | .semp o => Sys2Proof.Machine.execSemp o s
  | .semset o => Sys2Proof.Machine.execSemset o s
  | .semrd o => Sys2Proof.Machine.execSemrd o s
  | .qend o => Sys2Proof.Machine.execQend o s
  | .qflush o => Sys2Proof.Machine.execQflush o s
  | .mcfg n ra sy => Sys2Proof.Machine.execMcfg n ra sy s
  | .mcfgs o => Sys2Proof.Machine.execMcfgs o s
  | .mgo o => Sys2Proof.Machine.execMgo o s
  | .mtabCb o => Sys2Proof.Machine.execMtabCb o s
  | .mtabPt o => Sys2Proof.Machine.execMtabPt o s
  | .mzero tile sy => Sys2Proof.Machine.execMzero tile sy s
  | .mdrain o => Sys2Proof.Machine.execMdrain o s
  | .mdrainQ o => Sys2Proof.Machine.execMdrainQ o s
  | .mdrainV o => Sys2Proof.Machine.execMdrainV o s
  | .mabort high sy => Sys2Proof.Machine.execMabort high sy s
  | .mstat rd sy => Sys2Proof.Machine.execMstat rd sy s
  | .ckick o => Sys2Proof.Machine.execCkick o s
  | .clink o => Sys2Proof.Machine.execClink o s
  | .cstage e ra rb sy => Sys2Proof.Machine.execCstage e ra rb sy s
  | .cabort e sy => Sys2Proof.Machine.execCabort e sy s
  | .tspawn o => Sys2Proof.Machine.execTspawn o s
  | .tjoin o => Sys2Proof.Machine.execTjoin o s
  | .crjoin o => Sys2Proof.Machine.execCrjoin o s
  | .crleave o => Sys2Proof.Machine.execCrleave o s
  | .crbar o => Sys2Proof.Machine.execCrbar o s
  | .crbarAdd o => Sys2Proof.Machine.execCrbarAdd o s
  | .crbarMin o => Sys2Proof.Machine.execCrbarMin o s
  | .crbarMax o => Sys2Proof.Machine.execCrbarMax o s
  | .crbarAnd o => Sys2Proof.Machine.execCrbarAnd o s
  | .crbarOr o => Sys2Proof.Machine.execCrbarOr o s
  | .crbarXor o => Sys2Proof.Machine.execCrbarXor o s
  | .pqpush o => Sys2Proof.Machine.execPqpush o s
  | .pqflush o => Sys2Proof.Machine.execPqflush o s
  | .tnow o => Sys2Proof.Machine.execTnow o s
  | .tprio o => Sys2Proof.Machine.execTprio o s
  | .vadd o => Sys2Proof.Machine.execVadd o s
  | .vsub o => Sys2Proof.Machine.execVsub o s
  | .vmul o => Sys2Proof.Machine.execVmul o s
  | .vfma o => Sys2Proof.Machine.execVfma o s
  | .vfms o => Sys2Proof.Machine.execVfms o s
  | .vmin o => Sys2Proof.Machine.execVmin o s
  | .vmax o => Sys2Proof.Machine.execVmax o s
  | .vabs o => Sys2Proof.Machine.execVabs o s
  | .vneg o => Sys2Proof.Machine.execVneg o s
  | .vrcp o => Sys2Proof.Machine.execVrcp o s
  | .vrsq o => Sys2Proof.Machine.execVrsq o s
  | .vnot o => Sys2Proof.Machine.execVnot o s
  | .vpopc o => Sys2Proof.Machine.execVpopc o s
  | .vclz o => Sys2Proof.Machine.execVclz o s
  | .vmov o => Sys2Proof.Machine.execVmov o s
  | .vcvt o => Sys2Proof.Machine.execVcvt o s
  | .vand o => Sys2Proof.Machine.execVand o s
  | .vor o => Sys2Proof.Machine.execVor o s
  | .vxor o => Sys2Proof.Machine.execVxor o s
  | .vshl o => Sys2Proof.Machine.execVshl o s
  | .vshr o => Sys2Proof.Machine.execVshr o s
  | .vsra o => Sys2Proof.Machine.execVsra o s
  | .vcmpEq o => Sys2Proof.Machine.execVcmpEq o s
  | .vcmpNe o => Sys2Proof.Machine.execVcmpNe o s
  | .vcmpLt o => Sys2Proof.Machine.execVcmpLt o s
  | .vcmpLe o => Sys2Proof.Machine.execVcmpLe o s
  | .vcmpGt o => Sys2Proof.Machine.execVcmpGt o s
  | .vcmpGe o => Sys2Proof.Machine.execVcmpGe o s
  | .vsel o => Sys2Proof.Machine.execVsel o s
  | .vmvx o => Sys2Proof.Machine.execVmvx o s
  | .vmxv o => Sys2Proof.Machine.execVmxv o s
  | .vrotr o => Sys2Proof.Machine.execVrotr o s
  | .vbcr o => Sys2Proof.Machine.execVbcr o s
  | .vrotc o => Sys2Proof.Machine.execVrotc o s
  | .vbcc o => Sys2Proof.Machine.execVbcc o s
  | .vredrAdd o => Sys2Proof.Machine.execVredrAdd o s
  | .vredrMin o => Sys2Proof.Machine.execVredrMin o s
  | .vredrMax o => Sys2Proof.Machine.execVredrMax o s
  | .vredrAnd o => Sys2Proof.Machine.execVredrAnd o s
  | .vredrOr o => Sys2Proof.Machine.execVredrOr o s
  | .vredrXor o => Sys2Proof.Machine.execVredrXor o s
  | .vscanrAdd o => Sys2Proof.Machine.execVscanrAdd o s
  | .vscanrMin o => Sys2Proof.Machine.execVscanrMin o s
  | .vscanrMax o => Sys2Proof.Machine.execVscanrMax o s
  | .vscanrAnd o => Sys2Proof.Machine.execVscanrAnd o s
  | .vscanrOr o => Sys2Proof.Machine.execVscanrOr o s
  | .vscanrXor o => Sys2Proof.Machine.execVscanrXor o s
  | .vredcAdd o => Sys2Proof.Machine.execVredcAdd o s
  | .vredcMin o => Sys2Proof.Machine.execVredcMin o s
  | .vredcMax o => Sys2Proof.Machine.execVredcMax o s
  | .vredcAnd o => Sys2Proof.Machine.execVredcAnd o s
  | .vredcOr o => Sys2Proof.Machine.execVredcOr o s
  | .vredcXor o => Sys2Proof.Machine.execVredcXor o s
  | .vscancAdd o => Sys2Proof.Machine.execVscancAdd o s
  | .vscancMin o => Sys2Proof.Machine.execVscancMin o s
  | .vscancMax o => Sys2Proof.Machine.execVscancMax o s
  | .vscancAnd o => Sys2Proof.Machine.execVscancAnd o s
  | .vscancOr o => Sys2Proof.Machine.execVscancOr o s
  | .vscancXor o => Sys2Proof.Machine.execVscancXor o s
  | .vpermr o => Sys2Proof.Machine.execVpermr o s
  | .viota o => Sys2Proof.Machine.execViota o s
  | .vclmul o => Sys2Proof.Machine.execVclmul o s
  | .vtli o => Sys2Proof.Machine.execVtli o s
  | .vtld o => Sys2Proof.Machine.execVtld o s
  | .vpack24 o => Sys2Proof.Machine.execVpack24 o s
  | .vunpk24 o => Sys2Proof.Machine.execVunpk24 o s
  | .vldq o => Sys2Proof.Machine.execVldq o s
  | .vstq o => Sys2Proof.Machine.execVstq o s
  | .mand o => Sys2Proof.Machine.execMand o s
  | .mor o => Sys2Proof.Machine.execMor o s
  | .mxor o => Sys2Proof.Machine.execMxor o s
  | .mnot o => Sys2Proof.Machine.execMnot o s
  | .mpopc o => Sys2Proof.Machine.execMpopc o s
  | .wLit v => Sys2Proof.Machine.execWLit v s
  | .wExt v => Sys2Proof.Machine.execWExt v s
  | .wNopw => Sys2Proof.Machine.execWNopw s
  | .wDup => Sys2Proof.Machine.execWDup s
  | .wDrop => Sys2Proof.Machine.execWDrop s
  | .wXch => Sys2Proof.Machine.execWXch s
  | .wOver => Sys2Proof.Machine.execWOver s
  | .wShape n => Sys2Proof.Machine.execWShape n s
  | .wCopy c => Sys2Proof.Machine.execWCopy c s
  | .wWalk dd d sr => Sys2Proof.Machine.execWWalk dd d sr s
  | .wHalo sr => Sys2Proof.Machine.execWHalo sr s
  | .wCodecCopy => Sys2Proof.Machine.execWCodecCopy s
  | .wZbmDecode => Sys2Proof.Machine.execWZbmDecode s
  | .wZbmEncode => Sys2Proof.Machine.execWZbmEncode s
  | .wCb4PassThrough => Sys2Proof.Machine.execWCb4PassThrough s
  | .wLrfExpand => Sys2Proof.Machine.execWLrfExpand s
  | .wOsqEncode => Sys2Proof.Machine.execWOsqEncode s
  | .wOsqDecode => Sys2Proof.Machine.execWOsqDecode s
  | .wE8m0Requantise => Sys2Proof.Machine.execWE8m0Requantise s
  | .wPathLogSeal => Sys2Proof.Machine.execWPathLogSeal s
  | .wTranspose => Sys2Proof.Machine.execWTranspose s
  | .wCodecCustom r => Sys2Proof.Machine.execWCodecCustom r s
  | .wFoot gated write => Sys2Proof.Machine.execWFoot gated write s
  | .wWaits sr => Sys2Proof.Machine.execWWaits sr s
  | .wPosts sr => Sys2Proof.Machine.execWPosts sr s
  | .wWaitr n => Sys2Proof.Machine.execWWaitr n s
  | .wPostrPost => Sys2Proof.Machine.execWPostrPost s
  | .wPostrThaw => Sys2Proof.Machine.execWPostrThaw s
  | .wStagePair => Sys2Proof.Machine.execWStagePair s
  | .wStageIteration => Sys2Proof.Machine.execWStageIteration s
  | .wStageSlot => Sys2Proof.Machine.execWStageSlot s
  | .wRngaWord q => Sys2Proof.Machine.execWRngaWord q s
  | .wRngpWord close q => Sys2Proof.Machine.execWRngpWord close q s
  | .wLinkJump => Sys2Proof.Machine.execWLinkJump s
  | .wLinkBoundary => Sys2Proof.Machine.execWLinkBoundary s
  | .wEnd => Sys2Proof.Machine.execWEnd s
  | .transferComplete c e id => Sys2Proof.Machine.execTransferComplete c e id s
  | .kickedChainStart c e => Sys2Proof.Machine.execKickedChainStart c e s
  | .chainBegin c e => Sys2Proof.Machine.execChainBegin c e s
  | .ceStarvation c e => Sys2Proof.Machine.execCeStarvation c e s
  | .hostBar2Read p fn addr n => Sys2Proof.Machine.execHostBar2Read p fn addr n s
  | .hostBar2Write p fn addr bytes => Sys2Proof.Machine.execHostBar2Write p fn addr bytes s
  | .ldoor p fn cell v => Sys2Proof.Machine.execLdoor p fn cell v s
  | .launchCopyComplete p fn cell => Sys2Proof.Machine.execLaunchCopyComplete p fn cell s
  | .mbox p fn cell n v => Sys2Proof.Machine.execMbox p fn cell n v s
  | .registerWrite p fn off bytes => Sys2Proof.Machine.execRegisterWrite p fn off bytes s
  | .ctxnew p fn => Sys2Proof.Machine.execCtxnew p fn s
  | .ctxkill p fn => Sys2Proof.Machine.execCtxkill p fn s
  | .resume p fn => Sys2Proof.Machine.execResume p fn s
  | .preempt p fn => Sys2Proof.Machine.execPreempt p fn s
  | .routine p fn => Sys2Proof.Machine.execRoutine p fn s
  | .attest p fn => Sys2Proof.Machine.execAttest p fn s
  | .dumprd p fn => Sys2Proof.Machine.execDumprd p fn s
  | .unknownCommand p fn => Sys2Proof.Machine.execUnknownCommand p fn s
  | .powerOn p imageGood => Sys2Proof.Machine.execPowerOn p imageGood s
  | .fullService p t => Sys2Proof.Machine.execFullService p t s
  | .budgetPublish p die units => Sys2Proof.Machine.execBudgetPublish p die units s
  | .powerStepDown p die => Sys2Proof.Machine.execPowerStepDown p die s
  | .powerTrip p => Sys2Proof.Machine.execPowerTrip p s
  | .deviceFatal p cause die place => Sys2Proof.Machine.execDeviceFatal p cause die place s
  | .taskSelect c => Sys2Proof.Machine.execTaskSelect c s
  | .stepRaise p die => Sys2Proof.Machine.execStepRaise p die s
  | .steal c => Sys2Proof.Machine.execSteal c s
  | .preemptionRequest c => Sys2Proof.Machine.execPreemptionRequest c s
  | .preemption c => Sys2Proof.Machine.execPreemption c s
  | .regionCommit c => Sys2Proof.Machine.execRegionCommit c s
  | .deferredEffect c job => Sys2Proof.Machine.execDeferredEffect c job s
  | .storeDeparture c id => Sys2Proof.Machine.execStoreDeparture c id s
  | .memoryPerformed c id => Sys2Proof.Machine.execMemoryPerformed c id s
  | .memoryResponse c id r => Sys2Proof.Machine.execMemoryResponse c id r s
  | .countingWriteArrival c w => Sys2Proof.Machine.execCountingWriteArrival c w s
  | .stampedWriteApply c id => Sys2Proof.Machine.execStampedWriteApply c id s
  | .semaphoreWaitProceed c e => Sys2Proof.Machine.execSemaphoreWaitProceed c e s
  | .rimeWaitProceed c w => Sys2Proof.Machine.execRimeWaitProceed c w s
  | .ringWaitProceed c e => Sys2Proof.Machine.execRingWaitProceed c e s
  | .queueWaitProceed c e => Sys2Proof.Machine.execQueueWaitProceed c e s
  | .queueEndEffect c q => Sys2Proof.Machine.execQueueEndEffect c q s
  | .rendezvousRelease c => Sys2Proof.Machine.execRendezvousRelease c s
  | .crewBarrierComplete p ctx crew => Sys2Proof.Machine.execCrewBarrierComplete p ctx crew s
  | .joinObserved c => Sys2Proof.Machine.execJoinObserved c s
  | .elasticIteration c k => Sys2Proof.Machine.execElasticIteration c k s
  | .spillFrame c k => Sys2Proof.Machine.execSpillFrame c k s
  | .fillFrame c k => Sys2Proof.Machine.execFillFrame c k s
  | .asyncWriteComplete c id => Sys2Proof.Machine.execAsyncWriteComplete c id s
  | .meJobStart c => Sys2Proof.Machine.execMeJobStart c s
  | .passEnd c => Sys2Proof.Machine.execPassEnd c s
  | .elasticLevelIteration c => Sys2Proof.Machine.execElasticLevelIteration c s
  | .partialArrival c job buf => Sys2Proof.Machine.execPartialArrival c job buf s
  | .meJobComplete c job => Sys2Proof.Machine.execMeJobComplete c job s
  | .pathLogPublish c job => Sys2Proof.Machine.execPathLogPublish c job s
  | .metadataFault c => Sys2Proof.Machine.execMetadataFault c s
  | .meStarvation c => Sys2Proof.Machine.execMeStarvation c s
  | .mdrainComplete c id => Sys2Proof.Machine.execMdrainComplete c id s
  | .tlbinvComplete c id => Sys2Proof.Machine.execTlbinvComplete c id s
  | .sealComplete c id => Sys2Proof.Machine.execSealComplete c id s
  | .batchClose c shadow => Sys2Proof.Machine.execBatchClose c shadow s
  | .batchSend c shadow => Sys2Proof.Machine.execBatchSend c shadow s
  | .batchComplete c shadow => Sys2Proof.Machine.execBatchComplete c shadow s
  | .icequakeReport p cells ago => Sys2Proof.Machine.execIcequakeReport p cells ago s
  | .recoverableTrap c => Sys2Proof.Machine.execRecoverableTrap c s
  | .trapFrameWrite c => Sys2Proof.Machine.execTrapFrameWrite c s
  | .contextLost p => Sys2Proof.Machine.execContextLost p s
  | .watchdog c => Sys2Proof.Machine.execWatchdog c s
  | .firnPublish p ch => Sys2Proof.Machine.execFirnPublish p ch s
  | .firnackDeadline p ctx => Sys2Proof.Machine.execFirnackDeadline p ctx s
  | .flitReceive p port link f => Sys2Proof.Machine.execFlitReceive p port link f s
  | .flitReplay p port link => Sys2Proof.Machine.execFlitReplay p port link s
  | .linkRetrain p port link => Sys2Proof.Machine.execLinkRetrain p port link s
  | .linkDead p port link => Sys2Proof.Machine.execLinkDead p port link s
  | .bankFailed p stack bank => Sys2Proof.Machine.execBankFailed p stack bank s
  | .restripeStep p stack => Sys2Proof.Machine.execRestripeStep p stack s
  | .migrationSwitch p id => Sys2Proof.Machine.execMigrationSwitch p id s
  | .forwardingLapse p id => Sys2Proof.Machine.execForwardingLapse p id s
  | .scrubUncorrectable p place => Sys2Proof.Machine.execScrubUncorrectable p place s
  | .powerRemoval p => Sys2Proof.Machine.execPowerRemoval p s
  | .hostSuspendRequest p ctx => Sys2Proof.Machine.execHostSuspendRequest p ctx s
  | .migrationStart p ctx va target => Sys2Proof.Machine.execMigrationStart p ctx va target s
  | .linkRetrainDone p port link => Sys2Proof.Machine.execLinkRetrainDone p port link s

end Sys2Proof.Machine
end

