-- ==== Sys2Proof/Machine/Turn.lean ====
section
/-!
DEFINITION. One turn: what a stream does when it moves, and what an event does. Step.lean only calls it.
-/
namespace Sys2Proof.Machine
open Sys2Proof

/-- The events: steps that are no instruction word of a core and no engine word. -/
def Instr.isEvent (i : Instr) : Bool :=
  match i with
  | .transferComplete .. | .kickedChainStart .. | .chainBegin .. | .ceStarvation .. | .hostBar2Read ..
  | .hostBar2Write .. | .ldoor .. | .launchCopyComplete .. | .mbox .. | .registerWrite .. | .ctxnew ..
  | .ctxkill .. | .resume .. | .preempt .. | .routine .. | .attest .. | .dumprd .. | .unknownCommand ..
  | .powerOn .. | .fullService .. | .budgetPublish .. | .powerStepDown .. | .powerTrip .. | .deviceFatal ..
  | .taskSelect .. | .stepRaise .. | .steal .. | .preemptionRequest .. | .preemption .. | .regionCommit ..
  | .deferredEffect .. | .storeDeparture .. | .memoryPerformed .. | .memoryResponse ..
  | .countingWriteArrival .. | .stampedWriteApply .. | .semaphoreWaitProceed .. | .rimeWaitProceed ..
  | .ringWaitProceed .. | .queueWaitProceed .. | .queueEndEffect .. | .rendezvousRelease ..
  | .crewBarrierComplete .. | .joinObserved .. | .elasticIteration .. | .spillFrame .. | .fillFrame ..
  | .asyncWriteComplete .. | .meJobStart .. | .passEnd .. | .elasticLevelIteration .. | .partialArrival ..
  | .meJobComplete .. | .pathLogPublish .. | .metadataFault .. | .meStarvation .. | .mdrainComplete ..
  | .tlbinvComplete .. | .sealComplete .. | .batchClose .. | .batchSend .. | .batchComplete ..
  | .icequakeReport .. | .recoverableTrap .. | .trapFrameWrite .. | .contextLost .. | .watchdog ..
  | .firnPublish .. | .firnackDeadline .. | .flitReceive .. | .flitReplay .. | .linkRetrain .. | .linkDead ..
  | .bankFailed .. | .restripeStep .. | .migrationSwitch .. | .forwardingLapse .. | .scrubUncorrectable ..
  | .powerRemoval .. | .hostSuspendRequest .. | .migrationStart .. | .linkRetrainDone .. => true
  | _ => false

/-- Whether a core stream may move: it is live, it waits for nothing, and no trap that it raised is outstanding
(07 R95, 23 R332, R336). -/
def Here.ready (h : Here) : Bool :=
  h.st.live && h.st.wait.isNone && !h.jb.trapPending h.k.eng

/-- The state in which a fetched word runs: the cell's cache holds the leaf of its page (05 R79). -/
def State.fetched (s : State) (h : Here) : State := s.modPkg h.id.pkg (fun p => p.fillTlb h.who h.st.pc.toNat)

/-- The word that a core stream meets at its pc: a failing fetch (11 R153), a word that is no instruction of the core
(09 R126), or the instruction's meaning. The fetch of race-poisoned bytes names register 0 and operand 0 in its record (DESIGN CHOICE,
notes/assumptions/85.md). -/
def coreWord (s : State) (h : Here) : Out :=
  match h.fetch with
  | .error f => (h.accFail f .fetch h.st.pc).outcome
  | .ok (_, .data) => .next (h.consume h.st.pc).close
  | .ok (w, .none) =>
    match decodeCore w.toNat with
    | .error _ => .next h.illegal.close
    | .ok i => if i.allowedOn h.k then exec i (s.fetched h) else .next h.illegal.close
  | .ok (_, p) => .next (h.useTrap p 0 0).close

/-- A turn of a core stream. One that cannot move leaves the state as it is (DESIGN CHOICE, notes/assumptions/15.md); at the end of the
prologue it passes the boundary (01 R19); else it runs the word at its pc. -/
def coreTurn (s : State) : Out :=
  match s.here with
  | none => .next s
  | some h =>
    if !h.ready then .next s
    else if h.jb.atPrologueEnd h.k then .next h.prologueEnd.close
    else coreWord s h

/-- A stream moves. -/
def streamTurn (s : State) (c : CellId) (e : Eng) : Out :=
  match e with
  | .ac | .xc => coreTurn { s with cur := (c, e) }
  | .ce0 => chainTurn s c 0
  | .ce1 => chainTurn s c 1

/-- A turn of the agenda. -/
def runAct (s : State) (a : Act) : Out :=
  match a with
  | .stream c e => streamTurn s c e
  | .event i => if Instr.isEvent i then exec i s else .next s

def runTurn (s : State) (t : Turn) : Out := runAct (s.advance t.dt) t.act

/-- The next turn: the head of the agenda, else the schedule's (DESIGN CHOICE, notes/assumptions/1.md). -/
def State.nextTurn (s : State) : Option Turn × State :=
  match s.agenda with
  | t :: ts => (some t, { s with agenda := ts })
  | [] => (Config.schedule s.turns, { s with turns := s.turns + 1 })

def State.turn (s : State) : Out :=
  match s.nextTurn with
  | (some t, s') => runTurn s' t
  | (none, s') => .next s'

end Sys2Proof.Machine
end

