-- ==== Sys2Proof/Machine/Placement.lean ====
section
/-!
DEFINITION. The host's placement of an instruction: what a task of one context and one cell holds when its first word is next
(DESIGN CHOICE, notes/assumptions/18.md).
-/
namespace Sys2Proof.Machine
open Sys2Proof

/-- The virtual address of the word, and the run of HBM frames onto which page 0 of the context is mapped. -/
def placeVa : Nat := 0x1000
def placeRun : Nat := 256

/-- The context: id 1 of the physical function, with tables that the management core built (26 R377). -/
def placeCtx (ver : BitVec 32) : Context := newContext 1 0 [] [(0, freshLeaf placeRun false)] ver

/-- The header: every entry stream begins at the word; kernel and epilogue stand elsewhere. -/
def placeHeader : Header where
  ac := #v[0x1000, 0x3000, 0x4000]
  xc := #v[0x1000, 0x3000, 0x4000]
  ce0 := #v[0x1000, 0x3000, 0x4000]
  ce1 := #v[0, 0, 0]
  liveA := 0
  liveX := 0
  liveV := 0
  liveM := 0
  slabs := 1024
  wsa := 0
  wsx := 0

def placeTask : TaskRec where
  hdr := 0x800
  frame := 0
  join := 0
  nbt := 0
  trip := 2
  ofsp := 0
  ofsk := 0
  ofse := 0
  crew := none
  xs := false
  wld := false
  pin := false
  ecls := 0
  prio := 0
  tsel := 0
  tsrc := 0

/-- The job, its chain begun and with operands on its stack. -/
def placeJob (uid clk : Nat) : Job :=
  let j := Job.start uid 1 (newRecord placeTask 1 0) placeHeader (.counted 2) clk
  { j with ce0 := { j.ce0 with chain := j.ce0.chain.map (fun c => { c with begun := true, stack := List.replicate 4 0 }) } }

/-- The stream that runs a word. -/
def placeEng (nbits w : Nat) : Eng :=
  if nbits ≤ 16 then .ce0
  else match decodeCore w with
    | .ok i => if i.allowedOn .ac then .ac else .xc
    | .error _ => .ac

/-- The package with the context, the word in memory, and the job on cell 0. -/
def placePackage (p : Package) (uid nbits w : Nat) : Package :=
  let bs := if nbits ≤ 16 then natLe w 2 else natLe w 8
  { p.setCell 0 { CellState.reset with job := some (placeJob uid (p.clkOf 0)) } with
    ctxs := p.ctxs.filter (fun c => c.id != 1) ++ [placeCtx p.firn.version]
    hbm := memWrite p.hbm (placeRun * 2 ^ 21 + placeVa) bs
    marks := clearMarks p.marks (placeRun * 2 ^ 21 + placeVa / 64 * 64) 64
    nextFrame := placeRun + 1 }

def placeWord (s : State) (nbits w : Nat) : State :=
  { s with
    pkgs := (s.pkgs.map (fun p => { p with losses := [] })).modify 0 (fun p => placePackage p s.nextId nbits w)
    cur := (⟨0, 0⟩, placeEng nbits w)
    agenda := [⟨0, .stream ⟨0, 0⟩ (placeEng nbits w)⟩]
    nextId := s.nextId + 1 }

end Sys2Proof.Machine
end

