-- ==== Sys2Proof/Machine/Step.lean ====
section
/-!
DEFINITION. One step of the machine, and the host's placement of an instruction.
-/
namespace Sys2Proof.Machine
open Sys2Proof

/-- One step: a consumption of data poison is answered at once (23 R344), else the next turn is taken. -/
def step (s : State) : Host.Outcome State Fault Refusal :=
  match s.lossPending with
  | some p => execContextLost p s
  | none => s.turn

/-- The state with an instruction of `nbits` bits placed where the next step fetches it: a context whose tables map page 0
onto a fresh frame, a job on cell 0 of package 0, the word in memory, and the agenda naming the stream that runs it
(DESIGN CHOICE, notes/assumptions/18.md). -/
def State.withFetchWord (s : State) (nbits w : Nat) : State := placeWord s nbits w

end Sys2Proof.Machine
end

