-- ==== Sys2Proof/Safety.lean ====
section
/-!
DEFINITION. What a safe run is, and the terms in which the statements of Certificates/ are written: when the word at pc meets its
operands, and what a stream, its job and the state are after it.
-/
namespace Sys2Proof.Machine
open Sys2Proof

/-! ## The invariant -/

/-- Every HBM, every host memory, every array of launch slots and every carve-out, of the jobs on cells and of the saved ones, is in
canonical form. -/
def Package.memOk (p : Package) : Prop :=
  Memory.wf p.hbm ∧ (∀ f ∈ p.fns.toList, Memory.wf f.mem ∧ Memory.wf f.slots) ∧ (∀ c ∈ p.cells.toList, ∀ j ∈ c.jobs, Memory.wf j.mem) ∧
    ∀ c ∈ p.ctxs, ∀ e ∈ c.saved, Memory.wf e.2.mem

def State.memOk (s : State) : Prop := ∀ p ∈ s.pkgs, p.memOk

/-! ## The job of the moving stream -/

/-- The state with the job of the moving stream's cell replaced, and nothing else. -/
def State.putJob (s : State) (j : Job) : State := s.modCell s.cur.1 (fun x => { x with job := some j })

/-! ## Before: the sync wait and the operands of a core word (09 R113, R114) -/

/-- Whether the word at pc still has its sync wait to make. -/
def Here.waits (h : Here) (sy : Sync) : Bool := sy.wait && !h.st.syncTaken

/-- The stream after its sync wait. -/
def Here.synced (h : Here) (sy : Sync) : Here :=
  if h.waits sy then
    { h with jb := h.jb.semTake sy.sem h.region (h.k == Core.xc) }.modSt (fun c => { c with syncTaken := true })
  else h

/-- The moving stream is the core stream `h`; its word's sync wait proceeds, its operands `l` are there with values `vs`,
and its sync post does not overflow. `h1` is the stream with the operands taken. -/
structure Meets (s : State) (sy : Sync) (l : List Src) (h : Here) (vs : List PVal) (h1 : Here) : Prop where
  here : s.here = some h
  sync : h.waits sy = true → 1 ≤ h.semView sy.sem
  srcs : (h.synced sy).srcs 0 l = .ok (vs, h1)
  post : sy.post = true → (h1.semView sy.sem).toNat + 1 ≤ semMax

/-- The destination may be written: a register that no load in flight names, or room in a queue whose sides are open. -/
def DstFree (h : Here) (rd : Dst) : Prop :=
  match rd with
  | .reg n => h.st.isBusy n = false
  | .push q => h.jb.ac.live = true ∧ h.jb.sq[q.toFin].ending = false ∧ h.jb.sq[q.toFin].ents.length < 8

/-! ## After -/

/-- The registers with a result written: register 0 discards it (11 R138). -/
def writtenRegs (r : Vector PVal 64) (rd : Dst) (v : PVal) : Vector PVal 64 :=
  match rd with
  | .reg n => if n = 0 then r else r.set n.toFin v
  | .push _ => r

/-- sq0 and sq1 with a result pushed. -/
def pushedSq (q : Vector (Queue PVal) 2) (rd : Dst) (v : PVal) : Vector (Queue PVal) 2 :=
  match rd with
  | .reg _ => q
  | .push n => q.set n.toFin { q[n.toFin] with ents := q[n.toFin].ents ++ [⟨0, some { v with dep := [] }⟩] }

/-- The parts of a job that a core word without an access of its own may change: the moving stream, the counts, the
queues between the cores, the pending effects, and the accounts of 01 R21 and R36. -/
structure Parts where
  core : CoreState
  sems : Vector Sem 64
  async : List AsyncWrite
  seq : Nat
  lq : Vector (Queue PVal) 4
  sq : Vector (Queue PVal) 2
  deferred : List Deferred
  results : List (Nat × Nat)
  progress : Nat

def Job.parts (j : Job) (k : Core) : Parts :=
  ⟨j.core k, j.sems, j.async, j.seq, j.lq, j.sq, j.deferred, j.results, j.progress⟩

/-- The job with those parts replaced, and nothing else: the other core, the carve-out, tags, rings, vector and matrix
state, engines and traps are the same. -/
def Job.withParts (j : Job) (k : Core) (x : Parts) : Job :=
  let j' : Job := { j with
    sems := x.sems, async := x.async, seq := x.seq, lq := x.lq, sq := x.sq, deferred := x.deferred, results := x.results
    progress := x.progress }
  j'.setCore k x.core

/-- The sync field of a word has been served (09 R114, 13 R190): the wait has taken one from its count, every other
semaphore is as it was, and the post is pending, as an effect of the region, after `preds` and the operation `src`. `d` are the
pending effects before it. -/
structure SyncDone (h : Here) (sy : Sync) (preds : List Nat) (src : Option Nat) (d : List Deferred) (j : Job) : Prop where
  count : ∀ n : BitVec 6, j.sems[n.toFin].c = h.jb.sems[n.toFin].c - (if h.waits sy && n == sy.sem then 1 else 0)
  sems : ∀ n : BitVec 6, (h.waits sy && n == sy.sem) = false → j.sems[n.toFin] = h.jb.sems[n.toFin]
  posts : sy.post = false → j.deferred = d
  post : sy.post = true →
    ∃ n, j.deferred = d ++ [⟨n, h.region, h.k.eng, h.st.pc, none, preds, src, .semPost sy.sem 1⟩]

/-- What a core word leaves of its job: the moving stream is `c`, sq0 and sq1 are `sq`, the sync field is served, its post after the
operations that gave its operands and all that is ordered before these (07 R86, R88), its pops have been made, and nothing else of
the job has changed but the accounts. -/
structure Leaves (h h1 : Here) (sy : Sync) (l : List Src) (preds : List Nat) (c : CoreState) (sq : Vector (Queue PVal) 2)
    (d : List Deferred) (j : Job) : Prop where
  rest : ∃ x, j = h.jb.withParts h.k x
  stream : j.core h.k = c
  popped : j.lq = h1.jb.lq
  queues : ∀ q : BitVec 2, Src.pop q ∉ l → j.lq[q.toFin] = h.jb.lq[q.toFin]
  pushed : j.sq = sq
  sync : SyncDone h sy (withPreds h1.ce.ops preds) none d j

/-- The stream after a word at pc that transfers no control, with registers `r` and nmctl `nm` (11 R160). -/
def CoreState.after (c : CoreState) (r : Vector PVal 64) (nm : BitVec 10) : CoreState :=
  { c.clear with
    pc := (endCheck c.pc c.calls.length c.loops).1, loops := (endCheck c.pc c.calls.length c.loops).2
    regs := r, nmctl := nm }

end Sys2Proof.Machine
end

