-- ==== Sys2Proof/Certificates/Slice0/Obligations.lean ====
section
/-!
DEFINITION. The statements for the provers, each with the rule of spec/ that it formalises; before each, the terms that it alone
uses.
-/
namespace Sys2Proof.Claims
open Sys2Proof Sys2Proof.Machine

/-- What a core word with result `f` does: it completes, writes `f` of its operands to its destination, and leaves the rest
of its job, its cell, its package and the machine as they are, but for its sync field, its pops, and its pc. -/
def Computes (i : Instr) (sy : Sync) (rd : Dst) (l : List Src) (f : Here → List PVal → PVal) : Prop :=
  ∀ s h vs h1, Meets s sy l h vs h1 → DstFree h1 rd →
    ∃ j, exec i s = .next (s.putJob j) ∧
      Leaves h h1 sy l (joinDep vs) (h.st.after (writtenRegs h.st.regs rd (f h1 vs)) h.st.nmctl)
        (pushedSq h.jb.sq rd (f h1 vs)) h.jb.deferred j

/-- A result from one, two or three operands, with the most severe poison kind among them (11 R140). -/
def of1 (f : Word → Word) (vs : List PVal) : PVal := result vs (f (nth vs 0))
def of2 (f : Word → Word → Word) (vs : List PVal) : PVal := result vs (f (nth vs 0) (nth vs 1))
def of3 (f : Word → Word → Word → Word) (vs : List PVal) : PVal := result vs (f (nth vs 0) (nth vs 1) (nth vs 2))

def Rrr (c : OpRRR → Instr) (f : Word → Word → Word) : Prop :=
  ∀ o : OpRRR, Computes (c o) o.sy o.rd [o.ra, o.rb] (fun _ => of2 f)

/-- sh of R142. -/
def sh (y : Word) : Nat := (y.extractLsb' 0 6).toNat

/-- The products of R143, 128 bits wide. -/
def sprod (x y : Word) : BitVec 128 := x.signExtend 128 * y.signExtend 128
def uprod (x y : Word) : BitVec 128 := x.setWidth 128 * y.setWidth 128
def xprod (x y : Word) : BitVec 128 :=
  (List.range 64).foldl (fun a i => if y.getLsbD i then a ^^^ (x.setWidth 128 <<< i) else a) 0

def quot (x y : Word) : Word := if y = 0 then BitVec.allOnes 64 else x.sdiv y

/-- The field control of R144: p, w, and the mask of w one bits. -/
def fp (c : Word) : Nat := (c.extractLsb' 0 6).toNat
def fw (c : Word) : Nat := min (c.extractLsb' 8 7).toNat (64 - fp c)
def fm (c : Word) : Word := BitVec.ofNat 64 (2 ^ fw c - 1)

/-- How the operands of a core word are read, in the order ra, rb (09 R111, R113; 11 R138): register 0 reads 0, register n its value; a
pop gives the head of its queue and removes it, a peek gives it and leaves it; a pop or peek after a pop meets the next entry. -/
def ReadsOperands (h : Here) : Prop :=
  (∀ n : BitVec 6, h.st.isBusy n = false →
    h.srcs 0 [.reg n] = .ok ([if n = 0 then PVal.zero else h.st.regs[n.toFin]], h)) ∧
  ∀ (q : BitVec 2) (e e' : Entry PVal) (es : List (Entry PVal)) (v v' : PVal), h.st.latch = [] →
    h.jb.lq[q.toFin].ents = e :: e' :: es → e.data = some v → e'.data = some v' →
    let reads (l : List Src) (vs : List PVal) (left : List (Entry PVal)) : Prop :=
      ∃ h1, h.srcs 0 l = .ok (vs, h1) ∧ h1.jb.lq = h.jb.lq.set q.toFin { h.jb.lq[q.toFin] with ents := left }
    reads [.pop q] [v] (e' :: es) ∧ reads [.peek q] [v] (e :: e' :: es) ∧ reads [.pop q, .pop q] [v, v'] es ∧
    reads [.pop q, .peek q] [v, v'] (e' :: es) ∧ reads [.peek q, .pop q] [v, v] (e' :: es) ∧
    reads [.peek q, .peek q] [v, v] (e :: e' :: es) ∧
    (∀ n : BitVec 6, h.st.isBusy n = false →
      reads [.reg n, .pop q] [h.reg n, v] (e' :: es) ∧ reads [.pop q, .reg n] [v, h.reg n] (e' :: es))

def extWidth (e : ExtW) : Nat :=
  match e with
  | .b => 8
  | .h => 16
  | .w => 32

end Sys2Proof.Claims

open Sys2Proof Sys2Proof.Machine Sys2Proof.Claims

/-- The register forms of opcode 0x10 (11 R142), for every operand form of 09 R111: a register, a pop, a push; and what each operand
form reads, ra before rb (09 R113). -/
def Obligations.RegisterArithmetic : Prop :=
  (∀ h : Here, ReadsOperands h) ∧
  Rrr .add (fun x y => x + y) ∧ Rrr .sub (fun x y => x - y) ∧ Rrr .and (fun x y => x &&& y) ∧
  Rrr .or (fun x y => x ||| y) ∧ Rrr .xor (fun x y => x ^^^ y) ∧ Rrr .andn (fun x y => x &&& ~~~y) ∧
  Rrr .orn (fun x y => x ||| ~~~y) ∧ Rrr .shl (fun x y => x <<< sh y) ∧ Rrr .shr (fun x y => x >>> sh y) ∧
  Rrr .sra (fun x y => x.sshiftRight (sh y)) ∧ Rrr .rol (fun x y => x.rotateLeft (sh y)) ∧
  Rrr .ror (fun x y => x.rotateRight (sh y)) ∧
  Rrr .min (fun x y => if x.toInt ≤ y.toInt then x else y) ∧ Rrr .max (fun x y => if x.toInt ≤ y.toInt then y else x) ∧
  Rrr .minu (fun x y => if x.toNat ≤ y.toNat then x else y) ∧ Rrr .maxu (fun x y => if x.toNat ≤ y.toNat then y else x) ∧
  Rrr .seq (fun x y => if x = y then 1 else 0) ∧ Rrr .sne (fun x y => if x ≠ y then 1 else 0) ∧
  Rrr .slt (fun x y => if x.toInt < y.toInt then 1 else 0) ∧ Rrr .sltu (fun x y => if x.toNat < y.toNat then 1 else 0)

/-- The forms of opcode 0x11 (11 R143): products, quotients and remainders with their corners, carry-less products. -/
def Obligations.MultiplyDivide : Prop :=
  Rrr .mul (fun x y => x * y) ∧ Rrr .mulh (fun x y => (sprod x y).extractLsb' 64 64) ∧
  Rrr .mulhu (fun x y => (uprod x y).extractLsb' 64 64) ∧ Rrr .div quot ∧
  Rrr .divu (fun x y => if y = 0 then BitVec.allOnes 64 else x / y) ∧ Rrr .rem (fun x y => x - quot x y * y) ∧
  Rrr .remu (fun x y => if y = 0 then x else x % y) ∧ Rrr .clmul (fun x y => (xprod x y).extractLsb' 0 64) ∧
  Rrr .clmulh (fun x y => (xprod x y).extractLsb' 64 64)

/-- The forms of opcode 0x12 (11 R144). -/
def Obligations.BitFields : Prop :=
  (∀ o : OpRR, Computes (.clz o) o.sy o.rd [o.ra] (fun _ => of1 BitVec.clz)) ∧
  (∀ o : OpRR, Computes (.ctz o) o.sy o.rd [o.ra] (fun _ => of1 BitVec.ctz)) ∧
  (∀ o : OpRR, Computes (.popc o) o.sy o.rd [o.ra] (fun _ => of1 BitVec.cpop)) ∧
  (∀ o : OpExt, Computes (.exts o) o.sy o.rd [o.ra] (fun _ => of1 fun x => (x.setWidth (extWidth o.w)).signExtend 64)) ∧
  (∀ o : OpExt, Computes (.extz o) o.sy o.rd [o.ra] (fun _ => of1 fun x => (x.setWidth (extWidth o.w)).setWidth 64)) ∧
  Rrr .bfx (fun x c => (x >>> fp c) &&& fm c) ∧
  (∀ o : OpRRRR, Computes (.bfi o) o.sy o.rd [o.ra, o.rb, o.rc]
    (fun _ => of3 fun x c d => (d &&& ~~~(fm c <<< fp c)) ||| ((x &&& fm c) <<< fp c))) ∧
  ∀ o : OpRRRR, Computes (.sel o) o.sy o.rd [o.ra, o.rb, o.rc] (fun _ => of3 fun x y c => if c ≠ 0 then x else y)

/-- The immediate forms (11 R145), and LEA, PLACE and FADR (R146): k is the immediate sign-extended from 32 bits. -/
def Obligations.ImmediateForms : Prop :=
  let ri (c : OpRI → Instr) (f : Word → Word → Word) : Prop :=
    ∀ o : OpRI, Computes (c o) o.sy o.rd [o.ra] (fun _ => of1 fun x => f x (o.imm.signExtend 64))
  let rs (c : OpSh → Instr) (f : Word → Nat → Word) : Prop :=
    ∀ o : OpSh, Computes (c o) o.sy o.rd [o.ra] (fun _ => of1 fun x => f x o.sh.toNat)
  ri .addi (fun x k => x + k) ∧ ri .andi (fun x k => x &&& k) ∧ ri .ori (fun x k => x ||| k) ∧
  ri .xori (fun x k => x ^^^ k) ∧ ri .slti (fun x k => if x.toInt < k.toInt then 1 else 0) ∧
  ri .sltui (fun x k => if x.toNat < k.toNat then 1 else 0) ∧ ri .seqi (fun x k => if x = k then 1 else 0) ∧
  rs .shli (fun x n => x <<< n) ∧ rs .shri (fun x n => x >>> n) ∧ rs .srai (fun x n => x.sshiftRight n) ∧
  (∀ rd imm sy, Computes (.li rd imm sy) sy rd [] (fun _ _ => ⟨imm.signExtend 64, .none, []⟩)) ∧
  (∀ o : OpRI, Computes (.lihi o) o.sy o.rd [o.ra] (fun _ => of1 fun x => o.imm ++ x.setWidth 32)) ∧
  (∀ rd ra rb n sy, Computes (.lea rd ra rb n sy) sy (.reg rd) [.reg ra, .reg rb]
    (fun _ => of2 fun x y => x + y <<< n.toNat)) ∧
  (∀ rd ra (pl : Place) sy, Computes (.place rd ra pl sy) sy (.reg rd) [.reg ra]
    (fun _ => of1 fun x => ((pl.die ++ pl.row ++ pl.col ++ (0 : BitVec 4)) ++ x.setWidth 21).setWidth 64)) ∧
  ∀ rd ra (xyz : BitVec 10) sy, Computes (.fadr rd ra xyz sy) sy (.reg rd) [.reg ra]
    (fun _ => of1 fun x => (xyz ++ x.setWidth 48).setWidth 64)

namespace Sys2Proof.Claims

/-- As Computes, for a word of the XC that also accumulates flags in nmctl (03 R51). -/
def ComputesFl (i : Instr) (sy : Sync) (rd : Dst) (l : List Src) (f : BitVec 10 → List PVal → Word × Fl) : Prop :=
  ∀ s h vs h1, Meets s sy l h vs h1 → DstFree h1 rd →
    ∃ j, exec i s = .next (s.putJob j) ∧
      Leaves h h1 sy l (joinDep vs)
        (h.st.after (writtenRegs h.st.regs rd (result vs (f h.st.nmctl vs).1)) (h.st.nmctl ||| (f h.st.nmctl vs).2))
        (pushedSq h.jb.sq rd (result vs (f h.st.nmctl vs).1)) h.jb.deferred j

/-! ### The numbers of 03 R39 to R49, as rationals -/

/-- The formats of R39. -/
def formats : List Fmt := [fmtF32, fmtBF16, fmtF16, fmtE4M3, fmtE5M2, fmtE2M1]

/-- (-1)^neg * m * 2^e. -/
def ratOf (neg : Bool) (m : Nat) (e : Int) : ℚ := (if neg then -1 else 1) * m * 2 ^ e

/-- The code of the largest finite value (R39). -/
def largest (f : Fmt) : Nat :=
  if f = fmtF32 then 0x7F7FFFFF else if f = fmtBF16 then 0x7F7F else if f = fmtF16 then 0x7BFF
  else if f = fmtE4M3 then 0x7E else if f = fmtE5M2 then 0x7B else 0x7

/-- The canonical NaN; E2M1 has none and takes +0 (R47). -/
def canonicalNaN (f : Fmt) : Nat :=
  if f = fmtF32 then 0x7FC00000 else if f = fmtBF16 then 0x7FC0 else if f = fmtF16 then 0x7E00
  else if f = fmtE4M3 then 0x7F else if f = fmtE5M2 then 0x7E else 0

/-- A code with its sign; the bits below the sign. -/
def signedCode (f : Fmt) (neg : Bool) (c : Nat) : Nat := (if neg then 2 ^ (f.eb + f.mb) else 0) + c
abbrev FinCode (f : Fmt) (c : Nat) : Prop := c < 2 ^ (f.eb + f.mb + 1) ∧ c % 2 ^ (f.eb + f.mb) ≤ largest f

/-- The value of a code of a finite number: sign, exponent field, mantissa with its implicit 1 (R39). -/
def codeRat (f : Fmt) (c : Nat) : ℚ :=
  let x := c / 2 ^ f.mb % 2 ^ f.eb
  ratOf (c.testBit (f.eb + f.mb)) (c % 2 ^ f.mb + if x = 0 then 0 else 2 ^ f.mb) ((max 1 x : Nat) - f.bias - f.mb)

def minNormal (f : Fmt) : ℚ := 2 ^ (1 - f.bias : Int)

/-- What decoding gives (R39, R40). -/
def Decodes : Prop :=
  formats.map (fun f => (f.eb, f.mb, f.bias)) = [(8, 23, 127), (8, 7, 127), (5, 10, 15), (4, 3, 7), (5, 2, 15), (2, 1, 1)] ∧
  ∀ f ∈ formats, ∀ c, c < 2 ^ (f.eb + f.mb + 1) →
    (FinCode f c → ∃ m e, f.decode c = .fin (c.testBit (f.eb + f.mb)) m e ∧
      ratOf (c.testBit (f.eb + f.mb)) m e = codeRat f c) ∧
    (¬FinCode f c → f.decode c =
      if f ≠ fmtE4M3 ∧ c % 2 ^ f.mb = 0 then .inf (c.testBit (f.eb + f.mb)) else .nan)

/-- What a mode makes of an exact number `x` (R45): of the finite codes, `y` is the one that IEEE 754 names. -/
def Rounded (f : Fmt) (md : Mode) (x : ℚ) (y : Nat) : Prop :=
  FinCode f y ∧ match md with
    | .rne => ∀ c, FinCode f c → |x - codeRat f y| ≤ |x - codeRat f c| ∧
        (|x - codeRat f y| = |x - codeRat f c| → codeRat f c = codeRat f y ∨ y % 2 = 0)
    | .rtz => |codeRat f y| ≤ |x| ∧ ∀ c, FinCode f c → |codeRat f c| ≤ |x| → |codeRat f c| ≤ |codeRat f y|
    | .rup => x ≤ codeRat f y ∧ ∀ c, FinCode f c → x ≤ codeRat f c → codeRat f y ≤ codeRat f c
    | .rdn => codeRat f y ≤ x ∧ ∀ c, FinCode f c → codeRat f c ≤ x → codeRat f c ≤ codeRat f y

/-- Rounding to a float within its range (R45, R49, R51, R52): the sign stays, NX where the result is not exact, UF where it is also
tiny; a stochastic rounding goes to the next higher value where the draw lies below the share of the gap; FTZ makes a subnormal result
a zero of its sign. -/
def RoundsFloat : Prop :=
  ∀ f ∈ formats, ∀ (S neg : Bool) (m : Nat) (e : Int), let x := ratOf neg m e
    (|x| ≤ codeRat f (largest f) → ∀ md, let y := f.roundFin (.mode md) S false neg m e
      Rounded f md x y.1 ∧ y.1.testBit (f.eb + f.mb) = neg ∧
      y.2 = (if codeRat f y.1 = x then flNone else flNX) ||| (if codeRat f y.1 ≠ x ∧ |x| < minNormal f then flUF else flNone)) ∧
    (|x| ≤ codeRat f (largest f) → ∀ u, let y := f.roundFin (.sr u) S false neg m e
      FinCode f y.1 ∧ y.1.testBit (f.eb + f.mb) = neg ∧ ((∃ c, FinCode f c ∧ codeRat f c = x) → codeRat f y.1 = x) ∧
      ∀ lo hi, FinCode f lo → FinCode f hi → codeRat f lo < x → x < codeRat f hi →
        (∀ c, FinCode f c → codeRat f c ≤ codeRat f lo ∨ codeRat f hi ≤ codeRat f c) →
        codeRat f y.1 = if (u : Int) < ⌊(x - codeRat f lo) * 2 ^ 32 / (codeRat f hi - codeRat f lo)⌋ then codeRat f hi
          else codeRat f lo) ∧
    ∀ r, f.roundFin r S true neg m e =
      let y := f.roundFin r S false neg m e
      if FinCode f y.1 ∧ 0 < |codeRat f y.1| ∧ |codeRat f y.1| < minNormal f then (signedCode f neg 0, flUF ||| flNX) else y

/-- Rounding beyond the largest finite value (R46): what rounds back to it is inexact; a mode toward zero keeps it; else the field S
decides. -/
def Overflows : Prop :=
  ∀ f ∈ formats, ∀ (S neg : Bool) (m : Nat) (e : Int), let x := |ratOf neg m e|
    let top := codeRat f (largest f)
    let ulp : ℚ := 2 ^ ((largest f / 2 ^ f.mb : Nat) - f.bias - f.mb : Int)
    let beyond : Nat × Fl :=
      if f = fmtE2M1 ∨ ((f = fmtE4M3 ∨ f = fmtE5M2) ∧ S = false) ∨ ((f = fmtF32 ∨ f = fmtBF16 ∨ f = fmtF16) ∧ S = true) then
        (signedCode f neg (largest f), flOF ||| flNX ||| flSAT)
      else if f = fmtE4M3 then (0x7F, flOF ||| flNX) else (signedCode f neg (largest f + 1), flOF ||| flNX)
    top < x →
    (∀ md, f.roundFin (.mode md) S false neg m e =
      if md = .rtz ∨ (md = .rup ∧ neg = true) ∨ (md = .rdn ∧ neg = false) then
        (signedCode f neg (largest f), if top + ulp ≤ x then flOF ||| flNX else flNX)
      else if md = .rne ∧ (x < top + ulp / 2 ∨ (x = top + ulp / 2 ∧ largest f % 2 = 0)) then
        (signedCode f neg (largest f), flNX)
      else beyond) ∧
    (top + ulp ≤ x → ∀ u, f.roundFin (.sr u) S false neg m e = beyond)

/-- The special inputs of a conversion and of an arithmetic result (R46, R47), and the zeros. -/
def SpecialInputs : Prop :=
  ∀ f ∈ formats, ∀ r (S ftz neg : Bool),
    f.convert r S ftz .nan = (canonicalNaN f, if f = fmtE2M1 then flNV else flNone) ∧
    f.convert r S ftz (.inf neg) =
      (if f = fmtE2M1 ∨ ((f = fmtF32 ∨ f = fmtBF16 ∨ f = fmtF16) ∧ S = true) ∨ (f = fmtE4M3 ∧ S = false) ∨
          (f = fmtE5M2 ∧ S = false) then (signedCode f neg (largest f), flSAT)
      else if f = fmtE4M3 then (0x7F, flNV) else (signedCode f neg (largest f + 1), flNone)) ∧
    (∀ e, f.roundFin r S ftz neg 0 e = (signedCode f neg 0, flNone)) ∧
    (∀ m e, f.convert r S ftz (.fin neg m e) = f.roundFin r S ftz neg m e ∧
      f.result r S ftz (.fin neg m e) = f.roundFin r S ftz neg m e) ∧
    f.result r S ftz .nan = (canonicalNaN f, flNone) ∧
    (f ≠ fmtE4M3 → f ≠ fmtE2M1 → f.result r S ftz (.inf neg) = (signedCode f neg (largest f + 1), flNone))

/-- The integer targets: widths, ranges, and what rounding to an integer asks (R43, R48, R49). -/
def intFormats : List (IFmt × Int × Int) :=
  [(etIfmt .i32, -2 ^ 31, 2 ^ 31 - 1), (etIfmt .i8, -128, 127), (etIfmt .u8, 0, 255), (etIfmt .i4, -8, 7),
    (⟨64, true⟩, -2 ^ 63, 2 ^ 63 - 1)]

def RoundedInt (r : Rnd) (x : ℚ) (i : Int) : Prop :=
  match r with
  | .mode .rne => |x - i| < 1 / 2 ∨ (|x - i| = 1 / 2 ∧ Even i)
  | .mode .rtz => i = if x < 0 then ⌈x⌉ else ⌊x⌋
  | .mode .rup => i = ⌈x⌉
  | .mode .rdn => i = ⌊x⌋
  | .sr u => i = if (u : Int) < ⌊(x - ⌊x⌋) * 2 ^ 32⌋ then ⌊x⌋ + 1 else ⌊x⌋

def RoundsInt : Prop :=
  ∀ f ∈ intFormats, ∀ r,
    f.1.convert r .nan = (0, flNV) ∧ f.1.convert r (.inf true) = (f.2.1, flSAT) ∧ f.1.convert r (.inf false) = (f.2.2, flSAT) ∧
    ∀ (neg : Bool) (m : Nat) (e : Int), ∃ i : Int, RoundedInt r (ratOf neg m e) i ∧
      (f.1.convert r (.fin neg m e)).1 = max f.2.1 (min f.2.2 i) ∧
      (f.2.1 ≤ i → i ≤ f.2.2 → (f.1.convert r (.fin neg m e)).2 = if (i : ℚ) = ratOf neg m e then flNone else flNX)

/-- Exact sums, products and comparisons (R53). -/
def ExactOps : Prop :=
  (∀ r (a b : Bool) (m n : Nat) (e d : Int),
    (∃ c k g, Machine.Num.add r (.fin a m e) (.fin b n d) = .fin c k g ∧ ratOf c k g = ratOf a m e + ratOf b n d ∧
      (k = 0 → c = if a = b ∧ m = 0 ∧ n = 0 then a else decide (r = .mode .rdn))) ∧
    (∃ k g, Machine.Num.mul (.fin a m e) (.fin b n d) = .fin (a != b) k g ∧
      ratOf (a != b) k g = ratOf a m e * ratOf b n d) ∧
    Machine.Num.cmp (.fin a m e) (.fin b n d) = some (compare (ratOf a m e) (ratOf b n d))) ∧
  (∀ r x, Machine.Num.add r .nan x = .nan ∧ Machine.Num.add r x .nan = .nan ∧ Machine.Num.mul .nan x = .nan ∧
    Machine.Num.mul x .nan = .nan ∧ Machine.Num.cmp .nan x = none ∧ Machine.Num.cmp x .nan = none ∧
    Machine.Num.min .nan x = .nan ∧ Machine.Num.min x .nan = .nan ∧ Machine.Num.max .nan x = .nan ∧
    Machine.Num.max x .nan = .nan) ∧
  (∀ r (a b : Bool) (n : Nat) (d : Int),
    Machine.Num.add r (.inf a) (.fin b n d) = .inf a ∧ Machine.Num.add r (.fin b n d) (.inf a) = .inf a ∧
    Machine.Num.add r (.inf a) (.inf b) = (if a = b then .inf a else .nan) ∧
    Machine.Num.mul (.inf a) (.fin b n d) = (if n = 0 then .nan else .inf (a != b)) ∧
    Machine.Num.mul (.fin b n d) (.inf a) = (if n = 0 then .nan else .inf (b != a)) ∧
    Machine.Num.mul (.inf a) (.inf b) = .inf (a != b) ∧
    Machine.Num.cmp (.inf a) (.fin b n d) = (if a then some .lt else some .gt)) ∧
  (∀ r a b c, Machine.Num.fma r a b c = Machine.Num.add r (Machine.Num.mul a b) c) ∧
  ∀ x y : Machine.Num, x ≠ .nan → y ≠ .nan →
    (x.cmp y = some .lt → x.min y = x ∧ x.max y = y) ∧ (x.cmp y = some .gt → x.min y = y ∧ x.max y = x) ∧
    (x.cmp y = some .eq → x.min y = (if x.isNeg then x else y) ∧ x.max y = (if x.isNeg then y else x))

/-- The elements that FCVT and VCVT read and write (11 R150; 03 R43, R49, R52). -/
def Elements : Prop :=
  [ET.f32, .bf16, .f16, .e4m3, .e5m2, .e2m1].map etFmt = formats.map some ∧
  (∀ t f nm w, etFmt t = some f → etIn t nm w =
    let c := w % 2 ^ (f.eb + f.mb + 1)
    if nm.getLsbD 3 = true ∧ FinCode f c ∧ 0 < |codeRat f c| ∧ |codeRat f c| < minNormal f then
      .fin (c.testBit (f.eb + f.mb)) 0 0
    else f.decode c) ∧
  (∀ nm w, etIn .i32 nm w = numOfInt (BitVec.ofNat 32 w).toInt ∧ etIn .i8 nm w = numOfInt (BitVec.ofNat 8 w).toInt ∧
    etIn .i4 nm w = numOfInt (BitVec.ofNat 4 w).toInt ∧ etIn .u8 nm w = numOfInt (w % 256 : Nat)) ∧
  (∀ i : Int, ∃ m, numOfInt i = .fin (decide (i < 0)) m 0 ∧ ratOf (decide (i < 0)) m 0 = i) ∧
  (∀ t nm w, cvtIn (.et t) nm w = etIn t nm w.toNat ∧ cvtIn .i64 nm w = numOfInt w.toInt) ∧
  (∀ t f nm r S x, etFmt t = some f →
    let y := f.convert r S (nm.getLsbD 4 && decide (t = .f32 ∨ t = .bf16 ∨ t = .f16)) x
    etOut t nm r S x = y ∧ cvtOut (.et t) nm r S x = (BitVec.ofNat 64 y.1, y.2)) ∧
  (∀ t nm r S x, etFmt t = none → let y := (etIfmt t).convert r x
    cvtOut (.et t) nm r S x = (BitVec.ofInt 64 y.1, y.2) ∧
    etOut t nm r S x = ((BitVec.ofInt 64 y.1).toNat % 2 ^ (etIfmt t).w, y.2)) ∧
  (∀ nm r S x, let y := (IFmt.mk 64 true).convert r x
    cvtOut .i64 nm r S x = (BitVec.ofInt 64 y.1, y.2)) ∧
  (∀ nm s, rndOf .sr nm s = .sr ((nextDraw s).toNat / 2 ^ 32) ∧ rndOf .rne nm s = .mode .rne ∧ rndOf .rtz nm s = .mode .rtz ∧
    rndOf .rup nm s = .mode .rup ∧ rndOf .rdn nm s = .mode .rdn ∧
    rndOf .dyn nm s = .mode (if nm.toNat % 8 = 1 then .rtz else if nm.toNat % 8 = 2 then .rup
      else if nm.toNat % 8 = 3 then .rdn else .rne)) ∧
  ∀ s, nextDraw s =
    let a := s ^^^ (s <<< 13)
    let b := a ^^^ (a >>> 7)
    b ^^^ (b <<< 17)

/-- The numbers of 03 R39 to R53. -/
structure Numbers : Prop where
  decodes : Decodes
  rounds : RoundsFloat
  overflows : Overflows
  special : SpecialInputs
  ints : RoundsInt
  exact : ExactOps
  elements : Elements

/-- An FP32 operand as an exact number: bits 31:0, a subnormal read as a zero of its sign under DAZ (11 R147). -/
def fin32 (nm : BitVec 10) (vs : List PVal) (n : Nat) : Machine.Num := fmtF32.input (nm.getLsbD 3) ((nth vs n).extractLsb' 0 32).toNat

/-- An exact result rounded once to FP32, with its flags; NV where it is a NaN and no operand is (03 R45, R46, R51 to R53). -/
def fout32 (nm : BitVec 10) (rm : Rm) (sat : Bool) (ins : List Machine.Num) (x : Machine.Num) : Word × Fl :=
  let y := fmtF32.result (.mode (modeOf rm nm)) sat (nm.getLsbD 4) x
  (BitVec.ofNat 64 y.1, y.2 ||| (if x = .nan ∧ Machine.Num.nan ∉ ins then flNV else flNone))

/-- A minimum or maximum: never rounded; NV for a NaN input (11 R148). -/
def fpick32 (f : Machine.Num → Machine.Num → Machine.Num) (nm : BitVec 10) (vs : List PVal) : Word × Fl :=
  (BitVec.ofNat 64 (fmtF32.result (.mode .rne) false false (f (fin32 nm vs 0) (fin32 nm vs 1))).1,
    if fin32 nm vs 0 = .nan ∨ fin32 nm vs 1 = .nan then flNV else flNone)

/-- A comparison: `ordered` ones set NV for a NaN input (11 R149). -/
def fcmp32 (ordered : Bool) (f : Option Ordering → Prop) [DecidablePred f] (nm : BitVec 10) (vs : List PVal) : Word × Fl :=
  (if f ((fin32 nm vs 0).cmp (fin32 nm vs 1)) then 1 else 0,
    if ordered = true ∧ (fin32 nm vs 0 = .nan ∨ fin32 nm vs 1 = .nan) then flNV else flNone)

/-- The word at pc stalls: nothing changes beyond what it has taken. -/
def Stalls (i : Instr) (s : State) (h : Here) : Prop := exec i s = .next (s.putJob h.jb)

/-- Illegal Instruction at the word (23 R330, code 0x01): the word and the stream's number go to the record; the stream stays. -/
def Illegal (i : Instr) (s : State) (h : Here) : Prop :=
  exec i s = .next (s.putJob { h.jb with
    traps := h.jb.traps ++ [⟨0x01, 0, 0, padTo 32 (natLe h.word.toNat 8 ++ [BitVec.ofNat 8 h.k.eng.code]), h.k.eng, 0, false,
      h.region, h.st.pc⟩] })

/-- The use of a poisoned operand in register `reg`, operand field `field` (07 R97): race or peer poison raises its trap (23 R330,
codes 0x04 and 0x05), data poison loses the context (R342, R344). -/
def UsesPoison (i : Instr) (s : State) (h : Here) (p : Poison) (reg field : Nat) : Prop :=
  (p = .race ∨ p = .peer → exec i s = .next (s.putJob { h.jb with
    traps := h.jb.traps ++ [⟨if p = .race then 0x04 else 0x05, 0, 0, padTo 32 [BitVec.ofNat 8 reg, BitVec.ofNat 8 field],
      h.k.eng, p.code, false, h.region, h.st.pc⟩] })) ∧
  (p = .data → exec i s = .next ((s.modPkg s.cur.1.pkg fun x =>
    x.lose ⟨h.jb.ctx, 1, placeOfCell s.cur.1.cell, 0, match h.k with | .ac => 2 | .xc => 3⟩).putJob h.jb))

/-- Every value without poison. -/
def Clean (vs : List PVal) : Prop := ∀ v ∈ vs, v.p = .none

/-- A word that writes no register completes: its stream becomes `c`. -/
def Goes (i : Instr) (s : State) (h h1 : Here) (sy : Sync) (l : List Src) (preds : List Nat) (c : CoreState) : Prop :=
  ∃ j, exec i s = .next (s.putJob j) ∧ Leaves h h1 sy l preds c h.jb.sq h.jb.deferred j

/-- The stream after a word that transfers no control. -/
def passed (c : CoreState) : CoreState := c.after c.regs c.nmctl

/-- The stream after a transfer of control to `t`: the entries of the loop stack at this depth whose body does not hold the
target are left, innermost first (11 R161). -/
def jumped (c : CoreState) (t : Word) : CoreState :=
  { c.clear with
    pc := t
    loops := c.loops.dropWhile fun e => decide (e.depth = c.calls.length ∧ ¬(e.first ≤ t ∧ t ≤ e.last)) }

/-- A conditional branch: taken or not; of poisoned operands the more severe kind traps, ra's where both carry it (DEDUCED,
notes/assumptions/20.md). -/
def Branch (c : OpBr → Instr) (test : Word → Word → Prop) [∀ x y, Decidable (test x y)] : Prop :=
  ∀ o s h vs h1, Meets s Sync.zero [o.ra, o.rb] h vs h1 → h.st.atLoopEnd = false →
    (Clean vs → Goes (c o) s h h1 Sync.zero [o.ra, o.rb] []
      (if test (nth vs 0) (nth vs 1) then jumped h.st (h.st.pc + o.disp.signExtend 64 * 8) else passed h.st)) ∧
    ∀ a b, vs = [a, b] → if b.p.code ≤ a.p.code then UsesPoison (c o) s h1 a.p (srcReg o.ra) 0
      else UsesPoison (c o) s h1 b.p (srcReg o.rb) 1

/-- The registers that a callee with window shift `w` names (11 R154). -/
def Callee (w : Nat) (r r' : Vector PVal 64) : Prop :=
  ∀ n : Fin 64, r'[n] = if n.val < 16 then r[n] else if h : n.val + w < 64 then r[n.val + w] else PVal.zero

/-- The stream after a call to `t` with shift code `ss`. -/
def Called (c c' : CoreState) (ss : BitVec 2) (t : Word) : Prop :=
  c' = { c.clear with pc := t, spilling := true, regs := c'.regs, calls := c'.calls } ∧
  Callee (8 * (ss.toNat + 1)) c.regs c'.regs ∧
  c'.calls = ⟨c.pc + 8, ss, (c.regs.toList.drop 16).take (8 * (ss.toNat + 1)), false⟩ :: c.calls

/-- A call may be made: no load in flight names a register, the depth is below 65,535, and at most 64 hidden registers are
resident after it (11 R155, R157). -/
def MayCall (c : CoreState) (ss : BitVec 2) : Prop :=
  c.busy = 0 ∧ c.calls.length < 65535 ∧
  ((c.calls.filter (fun r => !r.spilled)).map (fun r => r.hidden.length)).sum + 8 * (ss.toNat + 1) ≤ 64

end Sys2Proof.Claims

/-- FP32 arithmetic, minimum, maximum and comparison of the XC (11 R147 to R149), and FCVT (R150): the operands as exact
numbers, one rounding, the flags; FCVT with rm=sr takes one draw from srsx. With them the numbers themselves (03 R39 to R53): what a
code stands for, rounding in each mode and by a draw, overflow and saturation, special inputs, integer targets, exact sums and
products, elements in their registers. -/
def Obligations.ScalarFloat : Prop :=
  Numbers ∧
  (∀ o : OpF, ComputesFl (.faddS o) o.sy o.rd [o.ra, o.rb] fun nm vs =>
    fout32 nm o.rm o.sat [fin32 nm vs 0, fin32 nm vs 1]
      ((fin32 nm vs 0).add (.mode (modeOf o.rm nm)) (fin32 nm vs 1))) ∧
  (∀ o : OpF, ComputesFl (.fmulS o) o.sy o.rd [o.ra, o.rb] fun nm vs =>
    fout32 nm o.rm o.sat [fin32 nm vs 0, fin32 nm vs 1] ((fin32 nm vs 0).mul (fin32 nm vs 1))) ∧
  (∀ o : OpF3, ComputesFl (.ffmaS o) o.sy o.rd [o.ra, o.rb, o.rc] fun nm vs =>
    fout32 nm o.rm o.sat [fin32 nm vs 0, fin32 nm vs 1, fin32 nm vs 2]
      (Machine.Num.fma (.mode (modeOf o.rm nm)) (fin32 nm vs 0) (fin32 nm vs 1) (fin32 nm vs 2))) ∧
  (∀ o : OpRRR, ComputesFl (.fminS o) o.sy o.rd [o.ra, o.rb] (fpick32 Machine.Num.min)) ∧
  (∀ o : OpRRR, ComputesFl (.fmaxS o) o.sy o.rd [o.ra, o.rb] (fpick32 Machine.Num.max)) ∧
  (∀ o : OpRRR, ComputesFl (.fcmpEq o) o.sy o.rd [o.ra, o.rb] (fcmp32 false (· = some .eq))) ∧
  (∀ o : OpRRR, ComputesFl (.fcmpNe o) o.sy o.rd [o.ra, o.rb] (fcmp32 false (· ≠ some .eq))) ∧
  (∀ o : OpRRR, ComputesFl (.fcmpLt o) o.sy o.rd [o.ra, o.rb] (fcmp32 true (· = some .lt))) ∧
  (∀ o : OpRRR, ComputesFl (.fcmpLe o) o.sy o.rd [o.ra, o.rb] (fcmp32 true (fun c => c = some .lt ∨ c = some .eq))) ∧
  ∀ (o : OpCvt) s h vs h1, Meets s o.sy [o.ra] h vs h1 → DstFree h1 o.rd →
    let nm := h.st.nmctl
    let y := cvtOut o.dt nm (rndOf o.rm nm h.st.srs) o.sat (cvtIn o.st nm (nth vs 0))
    ∃ j, exec (.fcvt o) s = .next (s.putJob j) ∧
      Leaves h h1 o.sy [o.ra] (joinDep vs)
        { h.st.after (writtenRegs h.st.regs o.rd (result vs y.1)) (nm ||| y.2) with
          srs := if o.rm = .sr then nextDraw h.st.srs else h.st.srs }
        (pushedSq h.jb.sq o.rd (result vs y.1)) h.jb.deferred j

/-- Branches (11 R151, R161) and JMP (R152), not the last word of an active loop: where operands without poison send them, a JMP target
having bits 2:0 zero; and the trap of a poisoned operand (11 R140). Which of two poisoned operands the record names is the model's
choice (DEDUCED, notes/assumptions/20.md). -/
def Obligations.Branches : Prop :=
  (∀ disp hint s h, s.here = some h → h.st.atLoopEnd = false →
    Goes (.br disp hint) s h h Sync.zero [] [] (jumped h.st (h.st.pc + disp.signExtend 64 * 8))) ∧
  Branch .beq (fun x y => x = y) ∧ Branch .bne (fun x y => x ≠ y) ∧
  Branch .blt (fun x y => x.toInt < y.toInt) ∧ Branch .bge (fun x y => y.toInt ≤ x.toInt) ∧
  Branch .bltu (fun x y => x.toNat < y.toNat) ∧ Branch .bgeu (fun x y => y.toNat ≤ x.toNat) ∧
  ∀ ra sy s h vs h1, Meets s sy [ra] h vs h1 → h.st.atLoopEnd = false →
    (Clean vs → (nth vs 0).extractLsb' 0 3 = 0 → Goes (.jmp ra sy) s h h1 sy [ra] (joinDep vs) (jumped h.st (nth vs 0))) ∧
    ∀ a, vs = [a] → UsesPoison (.jmp ra sy) s h1 a.p (srcReg ra) 0

/-- CALL, CALLR and RET (11 R154, R155, R161): the record pushed or popped, the registers that the window names, the pc; RET
leaves the loops of the depth it leaves. While a load or an atomic in flight will write a register, and for RET while its frame is
spilled, the word stalls (R155, R157). -/
def Obligations.CallsAndReturns : Prop :=
  (∀ disp ss s h, s.here = some h → h.st.atLoopEnd = false → h.st.busy ≠ 0 → Stalls (.call disp ss) s h) ∧
  (∀ ra ss sy s h vs h1, Meets s sy [ra] h vs h1 → h.st.atLoopEnd = false → Clean vs →
    (nth vs 0).extractLsb' 0 3 = 0 → h.st.busy ≠ 0 → Stalls (.callr ra ss sy) s h1) ∧
  (∀ sy s h h1 r rs, Meets s sy [] h [] h1 → h.st.atLoopEnd = false → h.st.calls = r :: rs →
    h.st.busy ≠ 0 ∨ r.spilled = true → Stalls (.ret sy) s h1) ∧
  (∀ disp ss s h, s.here = some h → h.st.atLoopEnd = false → MayCall h.st ss →
    ∃ c, Called h.st c ss (h.st.pc + disp.signExtend 64 * 8) ∧ Goes (.call disp ss) s h h Sync.zero [] [] c) ∧
  (∀ ra ss sy s h vs h1, Meets s sy [ra] h vs h1 → h.st.atLoopEnd = false → Clean vs →
    (nth vs 0).extractLsb' 0 3 = 0 → MayCall h.st ss →
    ∃ c, Called h.st c ss (nth vs 0) ∧ Goes (.callr ra ss sy) s h h1 sy [ra] (joinDep vs) c) ∧
  ∀ sy s h h1 r rs, Meets s sy [] h [] h1 → h.st.atLoopEnd = false → h.st.busy = 0 → h.st.calls = r :: rs →
    r.spilled = false →
    ∃ c, c = { h.st.clear with
          pc := r.ret, spilling := false, calls := rs, regs := c.regs
          loops := h.st.loops.filter (fun l => l.depth ≠ rs.length + 1) } ∧
      (∀ n : Fin 64, c.regs[n] = if n.val < 16 then h.st.regs[n]
        else if _ : n.val - 16 < r.hidden.length then r.hidden[n.val - 16]
        else h.st.regs[n.val - r.hidden.length]'(by omega)) ∧
      Goes (.ret sy) s h h1 sy [] [] c

/-- LOOP (11 R159, R160): room on the loop stack, no body that outlives the loop around it, a trip count without poison. The
zero trip passes over the body and checks the end of its last word; any other trip pushes the loop. -/
def Obligations.LoopEntry : Prop :=
  ∀ (t : Trip) (imm : BitVec 32) sy s h vs h1, Meets s sy (tripSrcs t) h vs h1 →
    h.st.loops.length < 3 → h.st.atLoopEnd = false →
    (∀ e es, h.st.loops = e :: es → e.depth = h.st.calls.length → (h.st.pc + 8 * imm.setWidth 64).toNat ≤ e.last.toNat) →
    Clean vs →
    let last := h.st.pc + 8 * imm.setWidth 64
    let v : Word := match t with
      | .mbox n => h.ce.mb[n.toFin]
      | _ => nth vs 0
    Goes (.loop t imm sy) s h h1 sy (tripSrcs t) (joinDep vs)
      (if v = 0 then
        { h.st.clear with
          pc := (endCheck last h.st.calls.length h.st.loops).1
          loops := (endCheck last h.st.calls.length h.st.loops).2 }
      else { h.st.clear with pc := h.st.pc + 8, loops := ⟨h.st.pc + 8, last, v, h.st.calls.length⟩ :: h.st.loops })

/-- end_check (11 R160): an entry of another end or depth stops it; a count above 1 goes back to the first word; a count of 1
pops the entry and goes on with the next. -/
def Obligations.EndCheck : Prop :=
  ∀ (e : Word) (d : Nat) (t : LoopRec) (ts : List LoopRec),
    endCheck e d [] = (e + 8, []) ∧
    (¬(t.last = e ∧ t.depth = d) → endCheck e d (t :: ts) = (e + 8, t :: ts)) ∧
    (t.last = e → t.depth = d → t.count ≠ 1 → endCheck e d (t :: ts) = (t.first, { t with count := t.count - 1 } :: ts)) ∧
    (t.last = e → t.depth = d → t.count = 1 → endCheck e d (t :: ts) = endCheck e d ts)

namespace Sys2Proof.Claims

/-- The word at pc waits: its stream keeps what it has taken and stands blocked on `w`; nothing else changes. -/
def Blocks (i : Instr) (s : State) (h : Here) (w : Wait) : Prop :=
  exec i s = .next (s.putJob (h.jb.setCore h.k { h.st with wait := some w }))

/-- What passing the end of a region leaves of a stream (01 R19, R26; 11 R162 to R164): region `r + 1`, no call and no loop,
the registers as they were, the save of the new region with the live-ins alone, the entry it goes to, and kps there. -/
structure PassesTo (j : Job) (k : Core) (c c' : CoreState) : Prop where
  region : c'.region = c.region + 1
  regs : c'.regs = c.regs
  flat : c'.calls = [] ∧ c'.loops = []
  kept : c'.nmctl = c.nmctl ∧ c'.srs = c.srs ∧ c'.rdv = c.rdv ∧ c'.live = c.live
  save : ∃ v, c'.saves = c.saves ++ [v] ∧ v.region = c.region + 1 ∧ v.kps = c.kps ∧ v.nmctl = c.nmctl ∧ v.srs = c.srs ∧
    ∀ n : Fin 64, v.regs[n] = if (match k with | .ac => j.hdr.liveA | .xc => j.hdr.liveX).getLsbD n then c.regs[n] else PVal.zero
  epilogue : j.inEpilogue (c.region + 1) = true → c'.pc = (j.hdr.entries k)[2] ∧ c'.wait = none ∧
    c'.kps.iter = 0 ∧ c'.kps.slot = 0xFF ∧ c'.kps.stg = c.kps.stg ∧
    match j.trip with
    | .counted _ => c'.kps.ps = c.kps.ps
    | .elastic _ => ∀ b : Fin 8, c'.kps.ps.getLsbD b =
        (decide (0 < c.region ∧ 0 < b.val ∧ b.val ≤ c.kps.stg.toNat) && c.kps.ps.getLsbD (b.val - 1))
  counted : j.inEpilogue (c.region + 1) = false → ∀ t, j.trip = .counted t → c'.pc = (j.hdr.entries k)[1] ∧ c'.wait = none ∧
    c'.kps.iter = BitVec.ofNat 32 c.region ∧ c'.kps.slot = 0xFF ∧ c'.kps.stg = c.kps.stg ∧
    ∀ b : Fin 8, c'.kps.ps.getLsbD b =
      if b.val = 0 then decide (c.region + c.kps.stg.toNat + 1 ≤ t)
      else decide (0 < c.region) && decide (b.val ≤ c.kps.stg.toNat) && c.kps.ps.getLsbD (b.val - 1)
  elastic : j.inEpilogue (c.region + 1) = false → ∀ r, j.trip = .elastic r → c'.pc = (j.hdr.entries k)[1] ∧
    c'.wait = some .elastic ∧ c'.kps = c.kps

/-- The CSRs that a core may name (11 R168), with the layouts of R71, R162, R169 and 23 R349. -/
def ringWord (r : Ring) : Word :=
  (0 : BitVec 8) ++ BitVec.ofBool r.cls ++ r.cix ++ r.pix ++ r.fill ++ r.free ++ r.cnt ++ r.ssz ++ r.base ++ (0 : BitVec 1)

def csrValue (h : Here) (n : Nat) : Word :=
  if n = 0x040 then h.st.nmctl.setWidth 64
  else if n = 0x041 ∨ n = 0x042 then h.st.srs
  else if n = 0x044 then h.st.kps.iter ++ (0 : BitVec 8) ++ h.st.kps.slot ++ (0 : BitVec 5) ++ h.st.kps.stg ++ h.st.kps.ps
  else if n = 0x045 then BitVec.ofNat 64 ((h.st.calls.countP (·.spilled)) * 2 ^ 16 + h.st.calls.length)
  else if n = 0x046 then
    BitVec.ofNat 64 (h.jb.ctx * 2 ^ 12 + h.id.cell / 96 * 2 ^ 11 + h.id.cell % 96 / 12 * 2 ^ 8 + h.id.cell % 12 * 2 ^ 4)
  else if n = 0x050 then ((h.ctx.map (·.ack)).getD 0 ++ if h.pk.firn.version = 0 then 1 else h.pk.firn.version)
  else if n < 0x080 then 0 else ringWord h.jb.rings[(BitVec.ofNat 4 n).toFin]

/-- A stream in region `n` is blocked on ring `r`: by its word, or by the elastic trip on it, whose decision for this iteration has not
been taken. -/
def OnRing (j : Job) (r : BitVec 4) (n : Nat) (w : Option Wait) : Prop :=
  w = some (.ringFree r) ∨ w = some (.ringFill r) ∨
    (w = some .elastic ∧ j.trip = .elastic r ∧ look j.decisions (n - 1) = none)

/-- The waits on ring `r` that a write of CNT = 0 ends, and the trap of each (13 R379): Illegal Instruction in a core stream, a chain
fault of kind argument, a shape fault against the AC that names the elastic level's first word, or word 21 for the path log. -/
structure EndsRingWaits (h : Here) (r : BitVec 4) (l : List Trap) : Prop where
  core : ∀ k, OnRing h.jb r (h.jb.core k).region (h.jb.core k).wait →
    ∃ t ∈ l, t.code = 0x01 ∧ t.dlv = k.eng ∧ t.region = (h.jb.core k).region ∧ t.pc = (h.jb.core k).pc
  chain : ∀ e c, (h.jb.eng e).chain = some c → OnRing h.jb r c.region c.wait → c.trap e 4 ∈ l
  walker : ∀ m, h.jb.running = some m →
    (∀ v, h.jb.walkerWait h.ce.ops = some (.level v) → levRing m.lnt v = r →
      ⟨0x09, 0, 0, padTo 32 [BitVec.ofNat 8 (2 + 2 * v), 0], .ac, 0, false, m.region, m.pc⟩ ∈ l) ∧
    (h.jb.walkerWait h.ce.ops = some .log → lntPring m.lnt = r →
      ⟨0x09, 0, 0, padTo 32 [21, 0], .ac, 0, false, m.region, m.pc⟩ ∈ l)
  only : ∀ t ∈ l, (∃ k, OnRing h.jb r (h.jb.core k).region (h.jb.core k).wait ∧ t.code = 0x01 ∧ t.dlv = k.eng) ∨
    (∃ e c, (h.jb.eng e).chain = some c ∧ OnRing h.jb r c.region c.wait ∧ t = c.trap e 4) ∨
    (t.code = 0x09 ∧ ∃ w, h.jb.walkerWait h.ce.ops = some w ∧ ∀ s, w ≠ .slab s)

/-- A context's instance with a version acknowledged: ACK, and the deadlines that this meets (23 R349, R359). -/
def acked (now : Nat) (v : Word) (ver : BitVec 32) (c : Context) : Context :=
  if c.ack.toNat < v.toNat ∧ v.toNat ≤ ver.toNat then
    { c with
      ack := v.setWidth 32
      deadlines := c.deadlines.filter (fun d => v.toNat < d.1 ∨ d.2 < now)
      pendingVers := c.pendingVers.filter (fun d => v.toNat < d) }
  else c

end Sys2Proof.Claims

/-- KLOOP (11 R164, 01 R19, R22): in a kernel iteration, with the stage count of kps, at depth 0 and outside loops, the
stream passes to the next region, and on the XC the names v24 to v31 turn; while four regions are uncommitted it stalls. RDV
(R165) blocks until its meeting and then passes. TDONE (R166) in the epilogue ends its stream, which is the end of a region too and
stalls as KLOOP does (01 R19, R22). -/
def Obligations.RegionEnds : Prop :=
  (∀ stg sy s h h1, Meets s sy [] h [] h1 → h.jb.inKernel h.region = true → stg = h.st.kps.stg → h.st.flat = true →
    h.region < h.jb.committed + 3 →
    ∃ j, exec (.kloop stg sy) s = .next (s.putJob j) ∧ (∃ x, j = h.jb.withParts h.k x) ∧ j.lq = h.jb.lq ∧ j.sq = h.jb.sq ∧
      SyncDone h sy [] none h.jb.deferred j ∧ PassesTo h.jb h.k h.st (j.core h.k) ∧
      (j.core h.k).rrb = match h.k with
        | .xc => h.st.rrb + 7
        | .ac => h.st.rrb) ∧
  (∀ stg sy s h h1, Meets s sy [] h [] h1 → h.jb.inKernel h.region = true → stg = h.st.kps.stg → h.st.flat = true →
    h.jb.committed + 3 ≤ h.region → Stalls (.kloop stg sy) s h1) ∧
  (∀ n sy s h h1, Meets s sy [] h [] h1 → h.st.granted = false → Blocks (.rdv n sy) s h1 (.rdv n)) ∧
  (∀ n sy s h h1, Meets s sy [] h [] h1 → h.st.granted = true → Goes (.rdv n sy) s h h1 sy [] [] (passed h.st)) ∧
  ∀ sy s h h1, Meets s sy [] h [] h1 → h.jb.inEpilogue h.region = true → h.st.flat = true →
    (h.region < h.jb.committed + 3 → Goes (.tdone sy) s h h1 sy [] [] { h.st.clear with live := false }) ∧
    (h.jb.committed + 3 ≤ h.region → Stalls (.tdone sy) s h1)

/-- NOP makes its sync wait and post only (09 R116); PCHK gives the poison kind of its operand and is itself never poisoned
(11 R167); MBR gives the mailbox (R171); CSRR gives the register named (R168), fver with VER 1 until a version is published (23 R349). -/
def Obligations.StatusReads : Prop :=
  (∀ sy s h h1, Meets s sy [] h [] h1 → Goes (.nop sy) s h h1 sy [] [] (passed h.st)) ∧
  (∀ o : OpRR, Computes (.pchk o) o.sy o.rd [o.ra] fun _ vs =>
    ⟨match (vs[0]?.getD PVal.zero).p with
      | .none => 0
      | .race => 1
      | .peer => 2
      | .data => 3, .none, joinDep vs⟩) ∧
  (∀ rd (n : BitVec 3) sy, Computes (.mbr rd n sy) sy rd [] fun h _ => ⟨h.ce.mb[n.toFin], .none, []⟩) ∧
  ∀ rd (csr : BitVec 12) sy, Computes (.csrr rd csr sy) sy rd [] fun h _ => ⟨csrValue h csr.toNat, .none, []⟩

/-- WORLD (23 R362): bit 0 is the context's world, bit 1 the world of this cell, bits 63:2 are zero. -/
def Obligations.WorldBits : Prop :=
  ∀ rd sy, Computes (.world rd sy) sy rd [] fun h _ =>
    ⟨(0 : BitVec 62) ++ BitVec.ofBool h.ce.secure ++ BitVec.ofBool ((h.ctx.map (·.secure)).getD false), .none, []⟩

/-- CSRW (11 R168, R162; 03 R50, R51; 05 R71) of a value without poison: nmctl keeps its flags where 0 is written and RM for
4 to 7; a generator never holds 0; kps takes STG alone, and in the prologue alone; a ring takes its fields, or only CNT = 0
where its slots would leave the program part, and with CNT = 0 every wait blocked on it ends in the trap of its form (13 R379); a
read-only register is left as it is. -/
def Obligations.CsrWrites : Prop :=
  ∀ ra (csr : BitVec 12) sy s h vs h1, Meets s sy [ra] h vs h1 → Clean vs →
    let v := nth vs 0
    let now := passed h.st
    (csr = 0x040 → ∃ nm : BitVec 10,
      (∀ b : Fin 10, nm.getLsbD b =
        if b.val < 3 then (if 4 ≤ v.toNat % 8 then h.st.nmctl else v.setWidth 10).getLsbD b
        else if b.val < 5 then v.getLsbD b else h.st.nmctl.getLsbD b && !v.getLsbD b) ∧
      Goes (.csrw ra csr sy) s h h1 sy [ra] (joinDep vs) { now with nmctl := nm }) ∧
    (csr = 0x041 ∨ csr = 0x042 → Goes (.csrw ra csr sy) s h h1 sy [ra] (joinDep vs)
      { now with srs := if v = 0 then 0x9E3779B97F4A7C15#64 else v }) ∧
    (csr = 0x044 → h.region = 0 → Goes (.csrw ra csr sy) s h h1 sy [ra] (joinDep vs)
      { now with kps := { h.st.kps with stg := v.extractLsb' 8 3 } }) ∧
    (csr = 0x045 ∨ csr = 0x046 ∨ csr = 0x050 → Goes (.csrw ra csr sy) s h h1 sy [ra] (joinDep vs) now) ∧
    ∀ r : BitVec 4, csr = 0x080 + r.setWidth 12 →
      let x : Ring := ⟨v.getLsbD 55, v.extractLsb' 47 8, v.extractLsb' 39 8, v.extractLsb' 31 8, v.extractLsb' 23 8,
        v.extractLsb' 15 8, v.extractLsb' 11 4, v.extractLsb' 1 10⟩
      let y : Ring := if x.base.toNat + x.cnt.toNat * (x.ssz.toNat + 1) ≤ h.jb.hdr.slabs - h.jb.hdr.wsa - h.jb.hdr.wsx then x
        else { h.jb.rings[r.toFin] with cnt := 0 }
      ∃ j l, exec (.csrw ra csr sy) s = .next (s.putJob j) ∧ j.rings = h.jb.rings.set r.toFin y ∧ j.core h.k = now ∧
        SyncDone h sy (withPreds h1.ce.ops (joinDep vs)) none h.jb.deferred j ∧ j.lq = h1.jb.lq ∧ j.sq = h.jb.sq ∧
        j.traps = h.jb.traps ++ l ∧ (y.cnt ≠ 0 → l = []) ∧ (y.cnt = 0 → EndsRingWaits h1 r l) ∧
        (∃ x, j = { h.jb.withParts h.k x with rings := j.rings, ringSaves := j.ringSaves, me := j.me, traps := j.traps }) ∧
        j.me = { h.jb.me with jobs := j.me.jobs } ∧
        j.me.jobs.map (fun m => { m with stall := none }) = h.jb.me.jobs.map (fun m => { m with stall := none })

/-- TRAP (23 R357) raises the software trap 0x0F with its number, precise at the word, after its sync wait; its post is not
made, and the stream stays at the word. -/
def Obligations.SoftwareTrap : Prop :=
  ∀ (n : BitVec 16) sy s h, s.here = some h → (h.waits sy = true → 1 ≤ h.semView sy.sem) →
    let h1 := h.synced sy
    exec (.trap n sy) s = .next (s.putJob { h1.jb with
      traps := h1.jb.traps ++ [⟨0x0F, 0, 0, padTo 32 (natLe n.toNat 2), h.k.eng, 0, false, h.region, h.st.pc⟩] })

/-- FIRNACK (23 R359): ACK of the context's instance on this package becomes the operand when it lies above ACK and is at most
VER; any other value has no effect. Every other context, cell and package is unchanged. -/
def Obligations.Firnack : Prop :=
  ∀ ra sy s h vs h1, Meets s sy [.reg ra] h vs h1 → Clean vs →
    ∃ j, exec (.firnack ra sy) s = .next ((s.modPkg s.cur.1.pkg fun p => p.modCtx h.jb.ctx
        (acked s.now (nth vs 0) p.firn.version)).putJob j) ∧
      Leaves h h1 sy [.reg ra] (joinDep vs) (passed h.st) h.jb.sq h.jb.deferred j

namespace Sys2Proof.Claims

/-- Room for one more operation: 1,024 of the ordering stream and 8,192 of the cell, transfers of the copy engines among them, have not
completed (07 R94; the unit of the second count is a DESIGN CHOICE, notes/assumptions/77.md). -/
def HasRoom (h : Here) (f : OrdF) : Prop :=
  (h.ce.ops.filter (fun o => o.job == h.jb.uid && o.eng == h.k.eng && o.os == f.os && o.status != .complete)).length < 1024 ∧
  (h.ce.ops.filter (fun o => o.status != .complete)).length + h.jb.ce0.xfers.length + h.jb.ce1.xfers.length < 8192

/-- The state with operation `op` under the next name in the moving stream's cell, whose job is then `j`; `ch` is what else
the word changes in its cell. -/
def issuedState (s : State) (op : MemOp) (j : Job) (ch : CellState → CellState) : State :=
  { s.modCell s.cur.1 (fun x => ch { x with job := some j, ops := tidy x.ops ++ [op] }) with nextId := s.nextId + 1 }

/-- What a post of the word of operation `op` releases: all that is ordered before it (07 R86, R88). -/
def released (h : Here) (op : MemOp) : List Nat := withPreds (tidy h.ce.ops ++ [op]) op.preds

/-- What a word with ordering fields leaves of its job: the stream is `c`, lq0 to lq3 and sq0 and sq1 are as given, its sync
field is served (a post follows what is ordered before `op` and the operation `src`, after the pending effects `d`), its ordering
stream counts one more, `J` is made, and nothing else has changed but the accounts. -/
structure Issued (h : Here) (sy : Sync) (f : OrdF) (op : MemOp) (src : Option Nat) (c : CoreState) (d : List Deferred)
    (lq : Vector (Queue PVal) 4) (sq : Vector (Queue PVal) 2) (J : Job → Job) (j : Job) : Prop where
  stream : j.core h.k = c
  lq : j.lq = lq
  sq : j.sq = sq
  sync : SyncDone h sy (released h op) src d j
  num : ∀ (k : Core) (os : BitVec 3), j.osNum k os =
    if k = h.k ∧ os = f.os then (h.jb.osNum k os + 1) % 2 ^ 32 else h.jb.osNum k os
  rest : ∃ x, j = J { h.jb.withParts h.k x with osNums := j.osNums }

/-- A memory instruction issues (13 R173): its operation joins the cell's list under the next name, its stream goes on as
`c`, and its sync post follows the operation. No byte of any memory changes now: a load is performed and a store or atomic
leaves its cell by later events. `g` says whether the access may enter a translation in the cell's cache (05 R79). -/
def IssuesOp (i : Instr) (s : State) (h : Here) (sy : Sync) (f : OrdF) (op : MemOp) (c : CoreState)
    (lq : Vector (Queue PVal) 4) (lqRow : Vector (Queue RowVal) 4) (sq : Vector (Queue PVal) 2)
    (sqRow : Vector (Queue RowVal) 2) (g : Bool) : Prop :=
  ∃ j tlb, exec i s = .next (issuedState s op j fun x => { x with tlb := tlb }) ∧ (g = false → tlb = h.ce.tlb) ∧
    Issued h sy f op (some op.id) c h.jb.deferred lq sq (fun y => { y with lqRow := lqRow, sqRow := sqRow }) j

/-- A load's destination may be taken: a register that no operation in flight will write, or an entry of an open queue. -/
def LdFree (h : Here) (d : LdDst) : Prop :=
  match d with
  | .reg n => h.st.isBusy n = false
  | .lq q => h.jb.xc.live = true ∧ h.jb.lq[q.toFin].ending = false ∧ h.jb.lq[q.toFin].ents.length < 8

/-- The registers that wait for data: the destination is added, but for a0. -/
def busyWith (c : CoreState) (n : BitVec 6) : BitVec 64 := if n = 0 then c.busy else c.busy ||| (1#64 <<< n.toNat)

/-- A scalar load with address `addr` of its base (13 R173, R177, R181, R182): where its address passes the checks of 05 R380
and there is room, a load of `bytes` bytes issues; its register waits for the data, or an entry is reserved last in its
queue. -/
def LoadIssues (i : Instr) (dst : LdDst) (base : BitVec 6) (addr : Word → Word) (pl : Nat) (sp : Space) (bytes : Nat)
    (signed : Bool) (f : OrdF) (sy : Sync) : Prop :=
  ∀ s h h1 t, Meets s sy [] h [] h1 → h.k = .ac → LdFree h1 dst → h.st.isBusy base = false → (h.reg base).p = .none →
    h1.checkAt sp pl (addr (h.reg base).v) bytes .load = .ok t → HasRoom h1 f →
    let id := s.nextId
    let op := h1.mkOp id f (.load bytes signed (opDst dst id)) (h1.ownTarget t) (h1.preds f (h.reg base).dep) .waiting
      (addr (h.reg base).v)
    IssuesOp i s h sy f op
      (match dst with
        | .reg n => { passed h.st with busy := busyWith h.st n }
        | .lq _ => passed h.st)
      (match dst with
        | .reg _ => h.jb.lq
        | .lq q => h.jb.lq.set q.toFin { h.jb.lq[q.toFin] with ents := h.jb.lq[q.toFin].ents ++ [⟨id, none⟩] })
      h.jb.lqRow h.jb.sq h.jb.sqRow (sp == .g)

/-- A row load: 256 bytes into a new entry of a row queue. -/
def RowLoadIssues (i : Instr) (q : BitVec 2) (base : BitVec 6) (addr : Word → Word) (pl : Nat) (sp : Space) (f : OrdF)
    (sy : Sync) : Prop :=
  ∀ s h h1 t, Meets s sy [] h [] h1 → h.k = .ac → h.jb.xc.live = true → h.jb.lqRow[q.toFin].ending = false →
    h.jb.lqRow[q.toFin].ents.length < 32 → h.st.isBusy base = false → (h.reg base).p = .none →
    h1.checkAt sp pl (addr (h.reg base).v) 256 .load = .ok t → HasRoom h1 f →
    let id := s.nextId
    let op := h1.mkOp id f (.load 256 false (.row q id)) (h1.ownTarget t) (h1.preds f (h.reg base).dep) .waiting
      (addr (h.reg base).v)
    IssuesOp i s h sy f op (passed h.st) h.jb.lq
      (h.jb.lqRow.set q.toFin { h.jb.lqRow[q.toFin] with ents := h.jb.lqRow[q.toFin].ents ++ [⟨id, none⟩] })
      h.jb.sq h.jb.sqRow (sp == .g)

/-- The data of a scalar store: a register, or the oldest entry of sq0 or sq1, popped now or already (13 R173, R194). -/
def StoreData (h : Here) (d : StSrc) (v : PVal) (sq : Vector (Queue PVal) 2) : Prop :=
  match d with
  | .reg n => h.st.isBusy n = false ∧ v = h.reg n ∧ sq = h.jb.sq
  | .sq q => (h.st.latch.head? = some v ∧ sq = h.jb.sq) ∨
      (h.st.latch = [] ∧ ∃ e es, h.jb.sq[q.toFin].ents = e :: es ∧ e.data = some v ∧
        sq = h.jb.sq.set q.toFin { h.jb.sq[q.toFin] with ents := es })

/-- A scalar store (13 R173, R177, R179, R182): the low `bytes` bytes of its data are held in the cell. -/
def StoreIssues (i : Instr) (src : StSrc) (base : BitVec 6) (addr : Word → Word) (pl : Nat) (sp : Space) (bytes : Nat)
    (arr : Bool) (f : OrdF) (sy : Sync) : Prop :=
  ∀ s h h1 t d sq, Meets s sy [] h [] h1 → h.k = .ac → StoreData h1 src d sq → h.st.isBusy base = false →
    (h.reg base).p = .none → d.p = .none → h1.checkAt sp pl (addr (h.reg base).v) bytes .store = .ok t → HasRoom h1 f →
    let op := h1.mkOp s.nextId f (.store (natLe d.v.toNat bytes) arr) (h1.ownTarget t)
      (h1.preds f (unionOnce (h.reg base).dep d.dep)) .held (addr (h.reg base).v)
    IssuesOp i s h sy f op (passed h.st) h.jb.lq h.jb.lqRow sq h.jb.sqRow (sp == .g)

/-- The row of a row store. -/
def RowData (h : Here) (q : BitVec 1) (v : RowVal) (sq : Vector (Queue RowVal) 2) : Prop :=
  (h.st.rows.head? = some v ∧ sq = h.jb.sqRow) ∨
    (h.st.rows = [] ∧ ∃ e es, h.jb.sqRow[q.toFin].ents = e :: es ∧ e.data = some v ∧
      sq = h.jb.sqRow.set q.toFin { h.jb.sqRow[q.toFin] with ents := es })

/-- A row store: the whole entry is held. -/
def RowStoreIssues (i : Instr) (q : BitVec 1) (base : BitVec 6) (addr : Word → Word) (pl : Nat) (sp : Space) (arr : Bool)
    (f : OrdF) (sy : Sync) : Prop :=
  ∀ s h h1 t r sq, Meets s sy [] h [] h1 → h.k = .ac → RowData h1 q r sq → h.st.isBusy base = false →
    (h.reg base).p = .none → (∀ p ∈ r.p.toList, p = .none) →
    h1.checkAt sp pl (addr (h.reg base).v) 256 .store = .ok t → HasRoom h1 f →
    let op := h1.mkOp s.nextId f (.store (rowBytes r.w) arr) (h1.ownTarget t) (h1.preds f (h.reg base).dep) .held
      (addr (h.reg base).v)
    IssuesOp i s h sy f op (passed h.st) h.jb.lq h.jb.lqRow h.jb.sq sq (sp == .g)

/-- The address of an atomic: for N the place stands in bits 32:21 of the base and bits 63:33 are zero (09 R107). -/
def AtomicAt (h : Here) (sp : Space) (a : Word) (bytes : Nat) (t : Target) : Prop :=
  match sp with
  | .n => a.toNat % bytes = 0 ∧ a.toNat < 2 ^ 33 ∧
      h.checkAt .n (fld a.toNat 21 12) (BitVec.ofNat 64 (fld a.toNat 0 21)) bytes .atomic = .ok t
  | sp => h.checkAt sp 0 a bytes .atomic = .ok t

/-- An atomic (13 R173, R183): held in the cell with its operand and, for ACAS, the value compared; rd waits for the old
value. -/
def AtomicIssues (c : OpAt → Instr) (op : AtOp) : Prop :=
  ∀ (o : OpAt) s h h1 t, Meets s o.sy [] h [] h1 → h.k = .ac → h.st.isBusy o.base = false → h.st.isBusy o.rb = false →
    h.st.isBusy o.rd = false → (h.reg o.base).p = .none → (h.reg o.rb).p = .none → (op = .cas → (h.reg o.rd).p = .none) →
    AtomicAt h1 o.sp (h.reg o.base).v (if o.dbl then 8 else 4) t → HasRoom h1 o.f →
    let preds := h1.preds o.f (unionOnce (unionOnce (h.reg o.base).dep (h.reg o.rb).dep)
      (if op = .cas then (h.reg o.rd).dep else []))
    let m := h1.mkOp s.nextId o.f (.atomic op o.dbl (h.reg o.rb).v (h.reg o.rd).v o.fo (opDst (.reg o.rd) 0))
      (h1.ownTarget t) preds .held (h.reg o.base).v
    IssuesOp (c o) s h o.sy o.f m { passed h.st with busy := busyWith h.st o.rd } h.jb.lq h.jb.lqRow h.jb.sq h.jb.sqRow
      (o.sp == .g)

/-- The sizes of R177, and the addresses of R107: base + sext(offset), base + nofs * size. -/
def szOf (z : Sz) : Nat :=
  match z with
  | .b => 1
  | .h => 2
  | .w => 4
  | .d => 8

def atOff (off : BitVec 16) (b : Word) : Word := b + off.signExtend 64
def atNofs (n : BitVec 4) (bytes : Nat) (b : Word) : Word := b + BitVec.ofNat 64 (n.toNat * bytes)
def pl12 (p : Place) : Nat := (p.die ++ p.row ++ p.col ++ (0 : BitVec 4)).toNat

def Ld (c : OpLd → Instr) (sp : Space) : Prop :=
  ∀ o : OpLd, LoadIssues (c o) o.dst o.base (atOff o.off) 0 sp (szOf o.sz) (!o.uns) o.f o.sy
def LdRow (c : OpLdRow → Instr) (sp : Space) : Prop :=
  ∀ o : OpLdRow, RowLoadIssues (c o) o.lq o.base (atOff o.off) 0 sp o.f o.sy
def St (c : OpSt → Instr) (sp : Space) (arr : Bool) : Prop :=
  ∀ o : OpSt, StoreIssues (c o) o.src o.base (atOff o.off) 0 sp (szOf o.sz) arr o.f o.sy
def StRow (c : OpStRow → Instr) (sp : Space) (arr : Bool) : Prop :=
  ∀ o : OpStRow, RowStoreIssues (c o) o.sq o.base (atOff o.off) 0 sp arr o.f o.sy
def StN (c : OpStN → Instr) (arr : Bool) : Prop :=
  ∀ o : OpStN, StoreIssues (c o) o.src o.base (atNofs o.nofs (szOf o.sz)) (pl12 o.place) .n (szOf o.sz) arr o.f o.sy
def StRowN (c : OpStRowN → Instr) (arr : Bool) : Prop :=
  ∀ o : OpStRowN, RowStoreIssues (c o) o.sq o.base (atNofs o.nofs 256) (pl12 o.place) .n arr o.f o.sy

end Sys2Proof.Claims

/-- Loads of S, N, G, F and C (13 R173, R177, R178, R181, R182; 09 R107). -/
def Obligations.LoadsIssue : Prop :=
  Ld .lds .s ∧ Ld .ldg .g ∧ Ld .ldf .f ∧ LdRow .ldsRow .s ∧ LdRow .ldgRow .g ∧ LdRow .ldfRow .f ∧
  (∀ o : OpLdN, LoadIssues (.ldn o) o.dst o.base (atNofs o.nofs (szOf o.sz)) (pl12 o.place) .n (szOf o.sz) (!o.uns) o.f
    o.sy) ∧
  (∀ o : OpLdRowN, RowLoadIssues (.ldnRow o) o.lq o.base (atNofs o.nofs 256) (pl12 o.place) .n o.f o.sy) ∧
  ∀ o : OpLdc, LoadIssues (.ldc o) o.dst o.base (atOff o.off) 0 .c (if o.dbl then 8 else 4) false o.f o.sy

/-- Stores of S, N, G, F and C, the counting ones among them (13 R173, R177 to R179, R182; 01 R24). -/
def Obligations.StoresIssue : Prop :=
  St .sts .s false ∧ St .stg .g false ∧ St .stf .f false ∧ St .stfArr .f true ∧
  StRow .stsRow .s false ∧ StRow .stgRow .g false ∧ StRow .stfRow .f false ∧ StRow .stfRowArr .f true ∧
  StN .stn false ∧ StN .stnArr true ∧ StRowN .stnRow false ∧ StRowN .stnRowArr true ∧
  ∀ o : OpStc, StoreIssues (.stc o) o.src o.base (atOff o.off) 0 .c (if o.dbl then 8 else 4) false o.f o.sy

/-- The atomics (13 R183 to R185). -/
def Obligations.AtomicsIssue : Prop :=
  AtomicIssues .aadd .add ∧ AtomicIssues .aand .and ∧ AtomicIssues .aor .or ∧ AtomicIssues .axor .xor ∧
  AtomicIssues .amin .min ∧ AtomicIssues .amax .max ∧ AtomicIssues .aminu .minu ∧ AtomicIssues .amaxu .maxu ∧
  AtomicIssues .aswap .swap ∧ AtomicIssues .acas .cas

/-- An S address (05 R61, R62; 11 R156; 13 R178): a multiple of its size below the window stacks goes to the carve-out; else
the access traps at the word with a page fault of kind alignment or bounds, and nothing issues. -/
def Obligations.ScratchpadChecks : Prop :=
  ∀ (j : Job) (a n : Nat), 0 < n →
    let top := (j.hdr.slabs - j.hdr.wsa - j.hdr.wsx) * 2048
    (a % n = 0 → a < 2 ^ 21 → a + n ≤ top → checkS j a n = .ok (.carve a)) ∧
    (a % n ≠ 0 → checkS j a n = .error (.page .alignment)) ∧
    (a % n = 0 → (2 ^ 21 ≤ a ∨ top < a + n) → checkS j a n = .error (.page .bounds)) ∧
    ∀ (o : OpLd) s h h1 e, Meets s o.sy [] h [] h1 → LdFree h1 o.dst → h.st.isBusy o.base = false →
      (h.reg o.base).p = .none → checkS h1.jb (atOff o.off (h.reg o.base).v).toNat (szOf o.sz) = .error (.page e) →
      exec (.lds o) s = .next (s.putJob { h1.jb with
        traps := h1.jb.traps ++ [⟨0x0D, e.code, atOff o.off (h.reg o.base).v, padTo 32 [0, BitVec.ofNat 8 h.k.eng.code],
          h.k.eng, 0, false, h.region, h.st.pc⟩] })

namespace Sys2Proof.Claims

/-- The place of a word without an access among the operations of its stream: complete at once, ordered after `deps` and what
its fields name (07 R84, R86). -/
def pointOf (s : State) (h : Here) (f : OrdF) (deps : List Nat) : MemOp :=
  h.mkOp s.nextId f .point .nowhere (h.preds f deps) .complete 0

/-- A word without an access completes: the stream is `c`, the pending effects before its post are `d`, `J` is made. -/
def PointDone (i : Instr) (s : State) (h h1 : Here) (sy : Sync) (f : OrdF) (deps : List Nat) (c : CoreState)
    (d : List Deferred) (J : Job → Job) : Prop :=
  ∃ j, exec i s = .next (issuedState s (pointOf s h1 f deps) j id) ∧
    Issued h sy f (pointOf s h1 f deps) none c d h1.jb.lq h.jb.sq J j

/-- The pending effects of the job with one more of the moving stream, after its predecessors (01 R23, 07 R382). -/
def Pends (h h1 : Here) (f : OrdF) (deps : List Nat) (e : Effect) (d : List Deferred) : Prop :=
  ∃ n, d = h.jb.deferred ++ [⟨n, h.region, h.k.eng, h.st.pc, some f.os, h1.preds f deps, none, e⟩]

/-- Whether what is ordered before a word no longer holds it back (07 R92, R94; 13 R184). -/
def Unheld (h : Here) (f : OrdF) (deps : List Nat) : Prop := (h.preds f deps).all (opOrdered h.ce.ops) = true

/-- The stream with a result in a scalar register. -/
def passedWith (c : CoreState) (rd : BitVec 6) (v : PVal) : CoreState := c.after (writtenRegs c.regs (.reg rd) v) c.nmctl

/-- An S address of a slab of the program part (05 R61; 13 R186). -/
def SlabAt (h : Here) (a : Word) : Prop :=
  a.toNat % 2048 = 0 ∧ a.toNat < 2 ^ 21 ∧ a.toNat + 2048 ≤ (h.jb.hdr.slabs - h.jb.hdr.wsa - h.jb.hdr.wsx) * 2048

/-- The tag word of 05 R66: ST, PSN, PST, KIND, EXP, CNT. -/
def tagWord (t : Tag) : BitVec 32 :=
  (match t.st with
    | .empty => 0#2
    | .filling => 1
    | .full => 2
    | .error => 3) ++ BitVec.ofBool t.psn ++ BitVec.ofBool t.pst ++ t.kind ++ t.exp ++ t.cnt

/-- The RPOST column of 05 R68, with the KIND of R69: the tag `t` becomes `t'` where `n` is posted. -/
structure Posted (t : Tag) (n : Nat) (t' : Tag) : Prop where
  error : t.st = .error → t' = t
  bad : t.st ≠ .error → 2048 < n → t' = { t with st := .error, kind := 4, pst := true }
  empty : t.st = .empty → n ≤ 2048 →
    t' = { t with st := if n = 0 then .full else .filling, pst := true, exp := BitVec.ofNat 12 n }
  filling : t.st = .filling → t.pst = false → n ≤ 2048 →
    t' = { t with
      st := if n = t.cnt.toNat then .full else if t.cnt.toNat < n then .filling else .error
      kind := if n < t.cnt.toNat then 1 else t.kind
      pst := true, exp := BitVec.ofNat 12 n }
  twice : t.st = .full ∨ (t.st = .filling ∧ t.pst = true) → n ≤ 2048 → t' = { t with st := .error, kind := 3 }

/-- The trap of a wait on a tag in ERROR (05 R69; 23 R330, codes 0x06 and 0x07): the KIND, the tag word and the slab's address. -/
def tagFault (t : Tag) (slab : Nat) (e : Eng) (region : Nat) (pc : Word) : Trap :=
  ⟨if t.kind.toNat < 5 then 0x06 else 0x07, t.kind.toNat, 0,
    padTo 32 (natLe (tagWord t).toNat 4 ++ [0, 0, 0, 0] ++ natLe (slab * 2048) 8), e, 0, false, region, pc⟩

/-- A core word's sync wait proceeds and its operands are there; its post is still to be checked. -/
structure Takes (s : State) (sy : Sync) (l : List Src) (h : Here) (vs : List PVal) (h1 : Here) : Prop where
  here : s.here = some h
  sync : h.waits sy = true → 1 ≤ h.semView sy.sem
  srcs : (h.synced sy).srcs 0 l = .ok (vs, h1)

/-- With `h2` as the stream after the word's own change of its semaphore (09 R114), its sync post does not overflow (13 R191). -/
def PostFits (h2 : Here) (sy : Sync) : Prop := sy.post = true → (h2.semView sy.sem).toNat + 1 ≤ 2 ^ 32 - 1

/-- Semaphore overflow at the word (23 R330, code 0x0C): what, which, the value refused; nothing is made. -/
def Overflow (i : Instr) (s : State) (h : Here) (n : BitVec 6) (v : Nat) : Prop :=
  exec i s = .next (s.putJob { h.jb with
    traps := h.jb.traps ++ [⟨0x0C, 0, 0, padTo 32 ([0, BitVec.ofNat 8 n.toNat, 0, 0, 0, 0, 0, 0] ++ natLe v 8), h.k.eng, 0, false,
      h.region, h.st.pc⟩] })

end Sys2Proof.Claims

/-- RPOST, RWAIT, RTHAW and RSTAT (13 R186, R187; 05 R66, R68, R69): RPOST changes the tag at once by the table of R68, once its
predecessors have been performed, and marks its ordering stream where that sends the tag to ERROR (23 R335); RWAIT passes on FULL,
blocks on EMPTY and FILLING, and traps on ERROR; RTHAW is pending until its commit; RSTAT reads the tag word. -/
def Obligations.RimeWords : Prop :=
  (∀ (o : OpRpost) s h h1, Meets s o.sy [] h [] h1 → h.st.isBusy o.ra = false → h.st.isBusy o.rb = false →
    (h.reg o.ra).p = .none → (h.reg o.rb).p = .none → SlabAt h (h.reg o.ra).v → HasRoom h1 o.f →
    let deps := unionOnce (h.reg o.ra).dep (h.reg o.rb).dep
    predsDone h1.ce.ops (h1.preds o.f deps) = true →
    let slab := (h.reg o.ra).v.toNat / 2048
    ∃ u t, exec (.rpost o) s = .next u ∧ u.nextId = s.nextId + 1 ∧ Posted (h.jb.tag slab) (h.reg o.rb).v.toNat t ∧
      ∃ x j, u.cell s.cur.1 = some x ∧ x.job = some j ∧ j.tag slab = t ∧ (∀ n, n ≠ slab → j.tag n = h.jb.tag n) ∧
        j.core h.k = passed h.st ∧ (t.st ≠ .error → j.mem = h.jb.mem) ∧ j.rings = h.jb.rings ∧
        ((h.jb.tag slab).st ≠ .error → t.st = .error → j.osErr[coreIx h.k].getLsbD o.f.os.toNat = true) ∧
        j.core h.k.other = h.jb.core h.k.other) ∧
  (∀ (o : OpRime) s h h1, Meets s o.sy [] h [] h1 → h.st.isBusy o.ra = false → (h.reg o.ra).p = .none →
    SlabAt h (h.reg o.ra).v → HasRoom h1 o.f → Unheld h1 o.f (h.reg o.ra).dep → h.st.granted = false →
    let slab := (h.reg o.ra).v.toNat / 2048
    ((h.jb.tag slab).st = .full →
      PointDone (.rwait o) s h h1 o.sy o.f (h.reg o.ra).dep (passed h.st) h.jb.deferred id) ∧
    ((h.jb.tag slab).st = .empty ∨ (h.jb.tag slab).st = .filling → Blocks (.rwait o) s h1 (.rime slab slab)) ∧
    ((h.jb.tag slab).st = .error → exec (.rwait o) s = .next (s.putJob { h1.jb with
      traps := h1.jb.traps ++ [tagFault (h.jb.tag slab) slab h.k.eng h.region h.st.pc] }))) ∧
  (∀ (o : OpRime) s h h1, Meets s o.sy [] h [] h1 → h.st.isBusy o.ra = false → (h.reg o.ra).p = .none →
    SlabAt h (h.reg o.ra).v → HasRoom h1 o.f →
    ∃ d, Pends h h1 o.f (h.reg o.ra).dep (.thaw ((h.reg o.ra).v.toNat / 2048)) d ∧
      PointDone (.rthaw o) s h h1 o.sy o.f (h.reg o.ra).dep (passed h.st) d id) ∧
  ∀ (o : OpRstat) s h h1, Meets s o.sy [] h [] h1 → h.st.isBusy o.ra = false → h.st.isBusy o.rd = false →
    (h.reg o.ra).p = .none → SlabAt h (h.reg o.ra).v → HasRoom h1 o.f → Unheld h1 o.f (h.reg o.ra).dep →
    PointDone (.rstat o) s h h1 o.sy o.f (h.reg o.ra).dep
      (passedWith h.st o.rd ⟨(tagWord (h.jb.tag ((h.reg o.ra).v.toNat / 2048))).setWidth 64, .none, [s.nextId]⟩)
      h.jb.deferred id

/-- RNGA, RNGP, RNGW and RNGF (13 R188; 05 R71): on a ring with CNT > 0 an acquire or a wait takes a slot at once, gives the
closed indication, or blocks; a publish or a release is pending until its commit. -/
def Obligations.RingWords : Prop :=
  (∀ (o : OpRngT) s h h1, Meets s o.sy [] h [] h1 → h.st.isBusy o.rd = false → HasRoom h1 o.f → Unheld h1 o.f [] →
    h.st.granted = false →
    let r := h.jb.rings[o.ring.toFin]
    let took (v : Word) (r' : Ring) (i : Instr) : Prop :=
      ∃ sv, PointDone i s h h1 o.sy o.f [] (passedWith h.st o.rd ⟨v, .none, [s.nextId]⟩) h.jb.deferred
        (fun y => { y with rings := h.jb.rings.set o.ring.toFin r', ringSaves := sv })
    r.cnt ≠ 0 →
    (r.cls = true → took (-1) r (.rnga o)) ∧
    (r.cls = false → r.free ≠ 0 → took (r.pix.setWidth 64)
      { r with free := r.free - 1, pix := BitVec.ofNat 8 ((r.pix.toNat + 1) % r.cnt.toNat) } (.rnga o)) ∧
    (r.cls = false → r.free = 0 → Blocks (.rnga o) s h1 (.ringFree o.ring)) ∧
    (r.fill ≠ 0 → took (r.cix.setWidth 64)
      { r with fill := r.fill - 1, cix := BitVec.ofNat 8 ((r.cix.toNat + 1) % r.cnt.toNat) } (.rngw o)) ∧
    (r.fill = 0 → r.cls = true → took (-1) r (.rngw o)) ∧
    (r.fill = 0 → r.cls = false → Blocks (.rngw o) s h1 (.ringFill o.ring))) ∧
  ∀ (o : OpRngG) s h vs h1, Meets s o.sy [o.ra] h vs h1 → Clean vs → HasRoom h1 o.f →
    let r := h.jb.rings[o.ring.toFin]
    r.cnt ≠ 0 → (nth vs 0).toNat < r.cnt.toNat →
    (r.fill.toNat + ringPending h1.ce.due h1.jb o.ring true + 1 ≤ 255 →
      ∃ d, Pends h h1 o.f (joinDep vs) (.ringPublish o.ring o.close) d ∧
        PointDone (.rngp o) s h h1 o.sy o.f (joinDep vs) (passed h.st) d id) ∧
    (r.free.toNat + ringPending h1.ce.due h1.jb o.ring false + 1 ≤ 255 →
      ∃ d, Pends h h1 o.f (joinDep vs) (.ringFree o.ring) d ∧
        PointDone (.rngf o) s h h1 o.sy o.f (joinDep vs) (passed h.st) d id)

/-- SEMW, SEMP, SEMSET and SEMRD (13 R190, R191; 09 R114): SEMW takes one from C when the view is at least 1 and else blocks; SEMP and
SEMSET are pending until their commit, and past 2^32 - 1 overflow; a sync post is checked on the view after the word's own change;
SEMRD reads the view, and what uses the value is ordered after it. The value that an overflow's record names is the model's choice
(notes/assumptions/44.md). -/
def Obligations.SemaphoreWords : Prop :=
  (∀ (o : OpSemw) s h h1, Takes s o.sy [] h [] h1 → HasRoom h1 o.f → Unheld h1 o.f [] → h.st.granted = false →
    let h2 : Here := { h1 with jb := h1.jb.semTake o.sem h.region (h.k == Core.xc) }
    (1 ≤ h1.semView o.sem → PostFits h2 o.sy →
      ∃ j, exec (.semw o) s = .next (issuedState s (pointOf s h1 o.f []) j id) ∧
        (∀ n : BitVec 6, j.sems[n.toFin].c = h1.jb.sems[n.toFin].c - (if n = o.sem then 1 else 0)) ∧
        (∀ n : BitVec 6, n ≠ o.sem → j.sems[n.toFin] = h1.jb.sems[n.toFin]) ∧
        (o.sy.post = false → j.deferred = h.jb.deferred) ∧
        (o.sy.post = true → ∃ n, j.deferred = h.jb.deferred ++
          [⟨n, h.region, h.k.eng, h.st.pc, none, released h (pointOf s h1 o.f []), none, .semPost o.sy.sem 1⟩]) ∧
        j.core h.k = passed h.st ∧ j.lq = h.jb.lq ∧ j.sq = h.jb.sq ∧ ∃ x, j = { h.jb.withParts h.k x with osNums := j.osNums }) ∧
    (1 ≤ h1.semView o.sem → ¬PostFits h2 o.sy →
      Overflow (.semw o) s h1 o.sy.sem ((h2.semView o.sy.sem).toNat + 1)) ∧
    (h1.semView o.sem < 1 → Blocks (.semw o) s h1 (.sem o.sem false))) ∧
  (∀ (o : OpSemp) s h vs h1, Takes s o.sy [o.ra] h vs h1 → Clean vs → HasRoom h1 o.f →
    let v := (nth vs 0).toNat
    (let h2 := h1.defer (some o.f.os) (h1.preds o.f (joinDep vs)) none (.semPost o.sem v)
     (h1.semView o.sem + v ≤ 2 ^ 32 - 1 → PostFits h2 o.sy →
      ∃ d, Pends h h1 o.f (joinDep vs) (.semPost o.sem v) d ∧
        PointDone (.semp o) s h h1 o.sy o.f (joinDep vs) (passed h.st) d id) ∧
     (h1.semView o.sem + v ≤ 2 ^ 32 - 1 → ¬PostFits h2 o.sy →
      Overflow (.semp o) s h1 o.sy.sem ((h2.semView o.sy.sem).toNat + 1)) ∧
     (2 ^ 32 - 1 < h1.semView o.sem + v → Overflow (.semp o) s h1 o.sem (h1.semView o.sem + v).toNat)) ∧
    (let preds := if o.f.ord = .rel then h1.preds o.f (joinDep vs) else []
     let h2 := h1.defer (some o.f.os) preds none (.semSet o.sem v)
     (v < 2 ^ 32 → PostFits h2 o.sy → ∃ n, PointDone (.semset o) s h h1 o.sy o.f (joinDep vs) (passed h.st)
      (h.jb.deferred ++ [⟨n, h.region, h.k.eng, h.st.pc, some o.f.os, preds, none, .semSet o.sem v⟩]) id) ∧
     (v < 2 ^ 32 → ¬PostFits h2 o.sy → Overflow (.semset o) s h1 o.sy.sem ((h2.semView o.sy.sem).toNat + 1)) ∧
     (2 ^ 32 ≤ v → Overflow (.semset o) s h1 o.sem v))) ∧
  ∀ (o : OpSemrd) s h h1, Meets s o.sy [] h [] h1 → HasRoom h1 o.f → Unheld h1 o.f [] → DstFree h1 o.rd →
    let v : PVal := ⟨BitVec.ofInt 64 (h1.semView o.sem % 2 ^ 32), .none, [s.nextId]⟩
    ∃ j, exec (.semrd o) s = .next (issuedState s (pointOf s h1 o.f []) j id) ∧
      Issued h o.sy o.f (pointOf s h1 o.f []) none (h.st.after (writtenRegs h.st.regs o.rd v) h.st.nmctl)
        h.jb.deferred h1.jb.lq (pushedSq h.jb.sq o.rd v) id j

/-- The view of a semaphore (13 R190): C with the pending list applied in issue order; with nothing pending it is C, a post
adds to it, and a set replaces it less the decrements made since. -/
def Obligations.SemaphoreView : Prop :=
  ∀ (ops : List MemOp) (due : List Due) (j : Job) (n : BitVec 6),
    ((∀ d ∈ due, d.job ≠ j.uid) → j.deferred = [] → semView ops due j n = j.sems[n.toFin].c) ∧
    ∀ (d : Deferred) (v : Int), d.ready ops = true → (∀ t ∈ j.me.tasks, d.src ≠ some t.id) → semView ops due j n = v →
      (∀ a, d.eff = .semPost n a → semView ops due { j with deferred := j.deferred ++ [d] } n = v + a) ∧
      (∀ a, d.eff = .semSet n a → semView ops due { j with deferred := j.deferred ++ [d] } n =
        a - ((j.sems[n.toFin].decs.filter (fun e => d.seq < e.2)).length : Nat)) ∧
      (∀ m a, d.eff = .semPost m a → m ≠ n → semView ops due { j with deferred := j.deferred ++ [d] } n = v)

/-- QEND and QFLUSH (13 R193): QEND marks the queue as ending, and QUEUE_END_EFFECT ends it; QFLUSH passes once the queue is
empty, traps where its consumer has ended, and else blocks. -/
def Obligations.QueueWords : Prop :=
  ∀ (o : OpQ) s h h1, Meets s o.sy [] h [] h1 → HasRoom h1 o.f → Unheld h1 o.f [] →
    (∃ j, exec (.qend o) s = .next (issuedState s (pointOf s h1 o.f []) j id) ∧ j.core h.k = passed h.st ∧
      SyncDone h o.sy (released h (pointOf s h1 o.f [])) none h.jb.deferred j ∧
      (∀ n : Fin 4, j.lq[n] = { h.jb.lq[n] with ending := h.jb.lq[n].ending || (o.q == .lq (BitVec.ofNat 3 n)) }) ∧
      (∀ n : Fin 4, j.lqRow[n] = { h.jb.lqRow[n] with ending := h.jb.lqRow[n].ending || (o.q == .lq (BitVec.ofNat 3 (n + 4))) }) ∧
      (∀ n : Fin 2, j.sq[n] = { h.jb.sq[n] with ending := h.jb.sq[n].ending || (o.q == .sq (BitVec.ofNat 2 n)) }) ∧
      (∀ n : Fin 2, j.sqRow[n] = { h.jb.sqRow[n] with ending := h.jb.sqRow[n].ending || (o.q == .sq (BitVec.ofNat 2 (n + 2))) }) ∧
      ∃ x, j = { h.jb.withParts h.k x with osNums := j.osNums, lqRow := j.lqRow, sqRow := j.sqRow }) ∧
    (h.st.granted = false →
      (h.jb.qLen o.q = 0 → PointDone (.qflush o) s h h1 o.sy o.f [] (passed h.st) h.jb.deferred id) ∧
      (h.jb.qLen o.q ≠ 0 → h.jb.consumerEnded o.q = true →
        exec (.qflush o) s = .next (h1.queueTrap true (queueReg o.q)).close) ∧
      (h.jb.qLen o.q ≠ 0 → h.jb.consumerEnded o.q = false → Blocks (.qflush o) s h1 (.flush o.q)))

namespace Sys2Proof.Claims

/-- The state in `l` has been written: its in-use and dirty flags are set, and no others (23 R337). -/
def Touched (old new : Job) (l : List Kept) : Prop :=
  ∀ k, (k ∈ new.inUse ↔ k ∈ old.inUse ∨ k ∈ l) ∧ (k ∈ new.dirty ↔ k ∈ old.dirty ∨ k ∈ l)

/-- The physical registers of a group. -/
def groupRegs (h : Here) (g : VG) : List Kept :=
  (List.range g.w.count).map fun i => Kept.v (physV h.jb.xc.rrb (g.n.toNat + i))

/-- As Leaves, for a word that also makes `J` of its job and writes the state in `k`. -/
structure LeavesWith (k : List Kept) (h h1 : Here) (sy : Sync) (l : List Src) (preds : List Nat) (c : CoreState)
    (sq : Vector (Queue PVal) 2) (d : List Deferred) (J : Job → Job) (j : Job) : Prop where
  rest : ∃ x, j = { J (h.jb.withParts h.k x) with inUse := j.inUse, dirty := j.dirty }
  kept : Touched h.jb j k
  stream : j.core h.k = c
  popped : j.lq = h1.jb.lq
  queues : ∀ q : BitVec 2, Src.pop q ∉ l → j.lq[q.toFin] = h.jb.lq[q.toFin]
  pushed : j.sq = sq
  sync : SyncDone h sy (withPreds h1.ce.ops preds) none d j

/-- The register that a vector name denotes at issue (15 R198, 11 R164). -/
def vreg (h : Here) (v : VecState) (n : Nat) : VReg := (v.v[physV h.jb.xc.rrb n]?).getD VReg.zero

/-- Whether slot (r, c) is active (15 R200). -/
def active (h : Here) (m : MaskF) (r c : Nat) : Bool :=
  match m with
  | none => true
  | some n => h.jb.vec.m[n.toFin].bits.getLsbD (64 * r + c)

def maskKind (h : Here) (m : MaskF) : Poison :=
  match m with
  | none => .none
  | some n => h.jb.vec.m[n.toFin].p

/-- A group of registers begins at a multiple of its size (09 R113). -/
def Aligned (g : VG) : Prop := g.n.toNat % g.w.count = 0

/-- A register as the XC reads it: race poison in every row while it is pending (15 R229). -/
def vread (h : Here) (n : Nat) : VReg :=
  let r := vreg h h.jb.vec n
  if h.jb.async.any (fun w => w.endedBy.isNone && w.regs.contains (physV h.jb.xc.rrb n)) then { r with p := Vector.replicate 16 .race } else r

/-- Register `i` of a source: a single source is read again for each (15 R201). -/
def vsrc (h : Here) (g : VG) (i : Nat) : VReg := vread h (g.n.toNat + if g.w = .x1 then 0 else i)

/-- The vector state after a write of the group `rd` with the slots `slot` and the poison kinds `kind`: an inactive slot keeps
its value or becomes zero; a row with an active slot takes the kind, the mask's, and with Z = 0 under a mask the one it held; a row
with none is zeroed with the mask's kind, or is not written (15 R200, R205). -/
structure Wrote (h : Here) (rd : VG) (m : MaskF) (z : Bool) (slot : Nat → Nat → Nat → Slot) (kind : Nat → Nat → Poison)
    (v : VecState) : Prop where
  masks : v.m = h.jb.vec.m
  tables : v.tb = h.jb.vec.tb
  others : ∀ n, n < 32 → ¬(rd.n.toNat ≤ n ∧ n < rd.n.toNat + rd.w.count) → vreg h v n = vreg h h.jb.vec n
  slots : ∀ i r c, i < rd.w.count → r < 16 → c < 64 →
    (vreg h v (rd.n.toNat + i)).at_ r c =
      if active h m r c then slot i r c else if z then 0 else (vreg h h.jb.vec (rd.n.toNat + i)).at_ r c
  kinds : ∀ i r, i < rd.w.count → r < 16 →
    (vreg h v (rd.n.toNat + i)).kind r =
      if ∃ c, c < 64 ∧ active h m r c = true then
        ((kind i r).max (maskKind h m)).max (if m = none ∨ z = true then .none else (vreg h h.jb.vec (rd.n.toNat + i)).kind r)
      else if z then maskKind h m else (vreg h h.jb.vec (rd.n.toNat + i)).kind r

/-- nmctl with the flags of the active slots added (15 R206). -/
def Flagged (h : Here) (k : Nat) (m : MaskF) (fl : Nat → Nat → Nat → Fl) (nm : BitVec 10) : Prop :=
  ∀ b, b < 10 → (nm.getLsbD b = true ↔ h.st.nmctl.getLsbD b = true ∨
    ∃ i r c, i < k ∧ r < 16 ∧ c < 64 ∧ active h m r c = true ∧ (fl i r c).getLsbD b = true)

/-- What an element-wise word does (15 R202): its group is written whole, its flags are added, and nothing else of the
job changes but its sync field and its pops. -/
def VecOp (i : Instr) (sy : Sync) (rd : VG) (m : MaskF) (z : Bool) (l : List Src)
    (slot : Here → List PVal → Nat → Nat → Nat → Slot × Fl) (kind : Here → List PVal → Nat → Nat → Poison) : Prop :=
  ∀ s h vs h1, Meets s sy l h vs h1 → Aligned rd →
    ∃ j v nm, exec i s = .next (s.putJob j) ∧ Wrote h1 rd m z (fun i r c => (slot h1 vs i r c).1) (kind h1 vs) v ∧
      Flagged h1 rd.w.count m (fun i r c => (slot h1 vs i r c).2) nm ∧
      LeavesWith (groupRegs h rd) h h1 sy l (joinDep vs) (h.st.after h.st.regs nm) h.jb.sq h.jb.deferred
        (fun y => { y with vec := v }) j

/-! The elements of R199: a number for F and N, an integer for I. -/

def vbits (t : ET) : Nat :=
  match t with
  | .f32 | .i32 => 32
  | .bf16 | .f16 => 16
  | .e2m1 | .i4 => 4
  | _ => 8

def vnum (f : Fmt) (t : ET) (nm : BitVec 10) (x : Slot) : Machine.Num := f.input (nm.getLsbD 3) (x.toNat % 2 ^ vbits t)

def vint (t : ET) (x : Slot) : Int :=
  match t with
  | .i8 => (x.setWidth 8).toInt
  | .u8 => (x.setWidth 8).toNat
  | .i4 => (x.setWidth 4).toInt
  | _ => x.toInt

/-- An integer written as an element: modulo its width, and extended over the slot. -/
def islot (t : ET) (i : Int) : Slot :=
  match t with
  | .i8 => (BitVec.ofInt 8 i).signExtend 32
  | .u8 => (BitVec.ofInt 8 i).setWidth 32
  | .i4 => (BitVec.ofInt 4 i).signExtend 32
  | _ => BitVec.ofInt 32 i

/-- A code of a floating-point element in its slot: zero above the element. -/
def fslot (t : ET) (n : Nat) : Slot := BitVec.ofNat 32 (n % 2 ^ vbits t)

def ilow (t : ET) : Int :=
  match t with
  | .i8 => -128
  | .u8 => 0
  | .i4 => -8
  | _ => -2147483648
def ihigh (t : ET) : Int :=
  match t with
  | .i8 => 127
  | .u8 => 255
  | .i4 => 7
  | _ => 2147483647

/-- R208: wrap, or saturate with SAT. -/
def iout (t : ET) (sat : Bool) (i : Int) : Slot × Fl :=
  if sat = true ∧ i < ilow t then (islot t (ilow t), flSAT)
  else if sat = true ∧ ihigh t < i then (islot t (ihigh t), flSAT)
  else (islot t i, flNone)

/-- Round once, saturate or not, flush for class F (15 R207, 03 R46, R52); NV for a NaN from none (03 R51). -/
def vround (t : ET) (f : Fmt) (nm : BitVec 10) (rm : Rm) (sat : Bool) (ins : List Machine.Num) (x : Machine.Num) : Slot × Fl :=
  let y := f.result (.mode (modeOf rm nm)) sat (nm.getLsbD 4 && t.cls == .f) x
  (fslot t y.1, y.2 ||| (if x = .nan ∧ Machine.Num.nan ∉ ins then flNV else flNone))

def two (f : Slot → Slot → Slot × Fl) (a b : VG) : Here → List PVal → Nat → Nat → Nat → Slot × Fl :=
  fun h _ i r c => f ((vsrc h a i).at_ r c) ((vsrc h b i).at_ r c)
def twoKind (a b : VG) : Here → List PVal → Nat → Nat → Poison := fun h _ i r => ((vsrc h a i).kind r).max ((vsrc h b i).kind r)

/-- A form of R207 on two sources: `fp` for F and N, `it` for I. -/
def Arith2 (c : VArith → Instr) (fp : Rnd → Machine.Num → Machine.Num → Machine.Num) (it : Int → Int → Int) : Prop :=
  ∀ o : VArith, VecOp (c o) o.sy o.rd o.mask o.z []
    (fun h _ i r c =>
      let a := (vsrc h o.ra i).at_ r c
      let b := (vsrc h o.rb i).at_ r c
      let nm := h.st.nmctl
      match etFmt o.ty with
      | some f => vround o.ty f nm o.rm o.s [vnum f o.ty nm a, vnum f o.ty nm b]
          (fp (.mode (modeOf o.rm nm)) (vnum f o.ty nm a) (vnum f o.ty nm b))
      | none => iout o.ty o.s (it (vint o.ty a) (vint o.ty b)))
    (twoKind o.ra o.rb)

/-- VFMA and VFMS: the old rd is the addend. -/
def Arith3 (c : VArith → Instr) (fp : Machine.Num → Machine.Num) (it : Int → Int) : Prop :=
  ∀ o : VArith, VecOp (c o) o.sy o.rd o.mask o.z []
    (fun h _ i r c =>
      let a := (vsrc h o.ra i).at_ r c
      let b := (vsrc h o.rb i).at_ r c
      let d := (vread h (o.rd.n.toNat + i)).at_ r c
      let nm := h.st.nmctl
      match etFmt o.ty with
      | some f => vround o.ty f nm o.rm o.s [vnum f o.ty nm a, vnum f o.ty nm b, vnum f o.ty nm d]
          (Machine.Num.fma (.mode (modeOf o.rm nm)) (vnum f o.ty nm a) (vnum f o.ty nm b) (fp (vnum f o.ty nm d)))
      | none => iout o.ty o.s (vint o.ty a * vint o.ty b + it (vint o.ty d)))
    (fun h vs i r => (twoKind o.ra o.rb h vs i r).max ((vread h (o.rd.n.toNat + i)).kind r))

/-- Minimum and maximum of two elements (15 R207). -/
def pick2 (t : ET) (nm : BitVec 10) (fp : Machine.Num → Machine.Num → Machine.Num) (it : Int → Int → Int) (a b : Slot) :
    Slot × Fl :=
  match etFmt t with
  | some f => (fslot t (f.result (.mode .rne) false false (fp (vnum f t nm a) (vnum f t nm b))).1,
      if vnum f t nm a = .nan ∨ vnum f t nm b = .nan then flNV else flNone)
  | none => (islot t (it (vint t a) (vint t b)), flNone)

def Pick2 (c : VArith → Instr) (fp : Machine.Num → Machine.Num → Machine.Num) (it : Int → Int → Int) : Prop :=
  ∀ o : VArith, VecOp (c o) o.sy o.rd o.mask o.z [] (fun h => two (pick2 o.ty h.st.nmctl fp it) o.ra o.rb h) (twoKind o.ra o.rb)

/-- A form on one source. -/
def Un (i : Instr) (sy : Sync) (rd ra : VG) (m : MaskF) (z : Bool) (f : BitVec 10 → Slot → Slot × Fl) : Prop :=
  VecOp i sy rd m z [] (fun h _ i r c => f h.st.nmctl ((vsrc h ra i).at_ r c)) (fun h _ i r => (vsrc h ra i).kind r)

def SignForm (c : VUnary → Instr) (fp : Machine.Num → Machine.Num) (it : Int → Int) : Prop :=
  ∀ o : VUnary, Un (c o) o.sy o.rd o.ra o.mask o.z fun nm a =>
    match etFmt o.ty with
    | some f => (fslot o.ty (f.result (.mode .rne) false false (fp (vnum f o.ty nm a))).1, flNone)
    | none => iout o.ty o.s (it (vint o.ty a))

def RecipForm (c : VUnary → Instr) (fp : Machine.Num → Machine.Num) : Prop :=
  ∀ (o : VUnary) (f : Fmt), etFmt o.ty = some f → Un (c o) o.sy o.rd o.ra o.mask o.z fun nm a =>
    vround o.ty f nm o.rm o.s [vnum f o.ty nm a] (fp (vnum f o.ty nm a))

/-- An untyped form on two sources. -/
def Bit2 (c : VBit → Instr) (f : Slot → Slot → Slot) : Prop :=
  ∀ o : VBit, VecOp (c o) o.sy o.rd o.mask o.z [] (two (fun a b => (f a b, flNone)) o.ra o.rb) (twoKind o.ra o.rb)

/-- A shift (15 R213): the amount is the low 5, 3 or 2 bits of the slot of rb. -/
def Shift (c : VArith → Instr) (f : (w : Nat) → BitVec w → Nat → BitVec w) : Prop :=
  ∀ o : VArith, etFmt o.ty = none → VecOp (c o) o.sy o.rd o.mask o.z []
    (two (fun a b =>
      (match o.ty with
        | .i8 => (f 8 (a.setWidth 8) (b.toNat % 8)).signExtend 32
        | .u8 => (f 8 (a.setWidth 8) (b.toNat % 8)).setWidth 32
        | .i4 => (f 4 (a.setWidth 4) (b.toNat % 4)).signExtend 32
        | _ => f 32 a (b.toNat % 32), flNone)) o.ra o.rb)
    (twoKind o.ra o.rb)

/-- A rotation or broadcast (15 R217): each slot comes from the place that `f` gives. -/
def MoveBy (c : VRotOp → Instr) (f : Nat → Nat → Nat → Nat × Nat) : Prop :=
  ∀ o : VRotOp, VecOp (c o) o.sy o.rd o.mask o.z [o.rb]
    (fun h vs i r c => ((vsrc h o.ra i).at_ (f (nth vs 0).toNat r c).1 (f (nth vs 0).toNat r c).2, flNone))
    (fun h vs i r => ((vsrc h o.ra i).kind (f (nth vs 0).toNat r 0).1).max (joinP vs))

end Sys2Proof.Claims

/-- The arithmetic forms (15 R207, R208), and the minimum and maximum: on exact numbers, rounded once, for F and N; on
integers for I. That VMIN and VMAX apply DAZ to both operands and no FTZ to the element they choose is the model's choice (DEDUCED,
notes/assumptions/41.md). -/
def Obligations.VectorArithmetic : Prop :=
  Arith2 .vadd (fun r a b => a.add r b) (· + ·) ∧ Arith2 .vsub (fun r a b => a.add r b.neg) (· - ·) ∧
  Arith2 .vmul (fun _ a b => a.mul b) (· * ·) ∧ Arith3 .vfma id id ∧ Arith3 .vfms Machine.Num.neg (- ·) ∧
  Pick2 .vmin Machine.Num.min min ∧ Pick2 .vmax Machine.Num.max max

/-- The unary forms (15 R209, R210). That VABS and VNEG of classes F and N apply DAZ to the operand and no FTZ to the result is the
model's choice (DEDUCED, notes/assumptions/41.md). -/
def Obligations.VectorUnary : Prop :=
  SignForm .vabs Machine.Num.abs (fun i => |i|) ∧ SignForm .vneg Machine.Num.neg (- ·) ∧
  RecipForm .vrcp Machine.Num.rcp ∧ RecipForm .vrsq Machine.Num.rsq ∧
  (∀ o : VMove, Un (.vnot o) o.sy o.rd o.ra o.mask o.z fun _ a => (~~~a, flNone)) ∧
  (∀ o : VUnary, etFmt o.ty = none → Un (.vpopc o) o.sy o.rd o.ra o.mask o.z fun _ a =>
    (islot o.ty ((List.range (vbits o.ty)).countP fun b => a.getLsbD b), flNone)) ∧
  (∀ o : VUnary, etFmt o.ty = none → ∃ clz : Slot → Nat,
    (∀ a, clz a ≤ vbits o.ty ∧ (∀ b, vbits o.ty - clz a ≤ b → b < vbits o.ty → a.getLsbD b = false) ∧
      (clz a < vbits o.ty → a.getLsbD (vbits o.ty - 1 - clz a) = true)) ∧
    Un (.vclz o) o.sy o.rd o.ra o.mask o.z fun _ a => (islot o.ty (clz a), flNone)) ∧
  ∀ o : VMove, Un (.vmov o) o.sy o.rd o.ra o.mask o.z fun _ a => (a, flNone)

/-- Bit operations, shifts, selection, permutation, VIOTA and VCLMUL (15 R212, R213, R215, R219 to R221), with the poison of 15 R205.
Which rows supply the poison of a row that VSEL writes, ra's where some mask bit of the row is 1 and rb's where some is 0, is the
model's choice (DEDUCED, notes/assumptions/42.md). -/
def Obligations.VectorBits : Prop :=
  Bit2 .vand (fun a b => a &&& b) ∧ Bit2 .vor (fun a b => a ||| b) ∧ Bit2 .vxor (fun a b => a ^^^ b) ∧
  Shift .vshl (fun _ a n => a <<< n) ∧ Shift .vshr (fun _ a n => a >>> n) ∧
  (∀ o : VArith, etFmt o.ty = none → o.ty ≠ .u8 → VecOp (.vsra o) o.sy o.rd o.mask o.z []
    (two (fun a b => (islot o.ty (vint o.ty a / 2 ^ (b.toNat % vbits o.ty)), flNone)) o.ra o.rb) (twoKind o.ra o.rb)) ∧
  (∀ o : VSelOp, VecOp (.vsel o) o.sy o.rd none false []
    (fun h _ i r c => ((vsrc h (if active h (some o.mask) r c then o.ra else o.rb) i).at_ r c, flNone))
    (fun h _ i r => worst [(if (List.range 64).any (active h (some o.mask) r) then (vsrc h o.ra i).kind r else .none),
      (if (List.range 64).all (active h (some o.mask) r) then .none else (vsrc h o.rb i).kind r), maskKind h (some o.mask)])) ∧
  (∀ o : VBit, VecOp (.vpermr o) o.sy o.rd o.mask o.z []
    (fun h _ i r c => ((vsrc h o.ra i).at_ r (((vsrc h o.rb i).at_ r c).toNat % 64), flNone)) (twoKind o.ra o.rb)) ∧
  (∀ o : VIotaOp, VecOp (.viota o) o.sy o.rd o.mask o.z []
    (fun h _ _ r c =>
      (match o.ra with
        | none => BitVec.ofNat 32 (64 * r + c)
        | some m => BitVec.ofNat 32 ((List.range (64 * r + c)).countP fun b => h.jb.vec.m[m.toFin].bits.getLsbD b), flNone))
    (fun h _ _ _ => match o.ra with
      | none => .none
      | some m => h.jb.vec.m[m.toFin].p)) ∧
  ∀ o : VClmulOp, VecOp (.vclmul o) o.sy ⟨BitVec.ofNat 5 (2 * o.pair.toNat), .x2⟩ o.mask o.z []
    (fun h _ i r c =>
      ((xprod (((vread h o.ra.toNat).at_ r c).setWidth 64) (((vread h o.rb.toNat).at_ r c).setWidth 64)).extractLsb'
        (32 * i) 32, flNone))
    (fun h _ _ r => ((vread h o.ra.toNat).kind r).max ((vread h o.rb.toNat).kind r))

/-- VMXV, VMVX, and the rotations and broadcasts (15 R216, R217). -/
def Obligations.VectorMoves : Prop :=
  (∀ o : VMxvOp, VecOp (.vmxv o) o.sy o.rd o.mask o.z [o.ra]
    (fun _ vs _ _ _ => (match etFmt o.ty with
      | some _ => BitVec.ofNat 32 ((nth vs 0).toNat % 2 ^ vbits o.ty)
      | none => islot o.ty (vint o.ty ((nth vs 0).setWidth 32)), flNone))
    (fun _ vs _ _ => joinP vs)) ∧
  MoveBy .vrotr (fun k r c => (r, (c + 64 - k % 64) % 64)) ∧ MoveBy .vbcr (fun k r _ => (r, k % 64)) ∧
  MoveBy .vrotc (fun k r c => ((r + 16 - k % 16) % 16, c)) ∧ MoveBy .vbcc (fun k _ c => (k % 16, c)) ∧
  ∀ o : VMvxOp, Computes (.vmvx o) o.sy o.rd [o.rb] fun h vs =>
    let b := (nth vs 0).toNat % 1024
    let a := vread h o.ra.toNat
    let x := a.at_ (b / 64) (b % 64)
    ⟨match etFmt o.ty with
      | some _ => BitVec.ofNat 64 (x.toNat % 2 ^ vbits o.ty)
      | none => BitVec.ofInt 64 (vint o.ty x), (a.kind (b / 64)).max (joinP vs), joinDep vs⟩

namespace Sys2Proof.Claims

/-- The result of comparing two elements, and NV where an ordered comparison meets a NaN (15 R214). -/
def vcompare (t : ET) (nm : BitVec 10) (ordered : Bool) (q : Option Ordering → Bool) (a b : Slot) : Bool × Fl :=
  match etFmt t with
  | some f => (q ((vnum f t nm a).cmp (vnum f t nm b)),
      if ordered = true ∧ (vnum f t nm a = .nan ∨ vnum f t nm b = .nan) then flNV else flNone)
  | none => (q (some (compare (vint t a) (vint t b))), flNone)

/-- A word that writes mask `rd`. -/
def MaskOp (i : Instr) (sy : Sync) (rd : BitVec 3) (bit : Here → Nat → Bool) (kind : Here → Poison) : Prop :=
  ∀ s h h1, Meets s sy [] h [] h1 →
    ∃ j x, exec i s = .next (s.putJob j) ∧ (∀ b, b < 1024 → x.bits.getLsbD b = bit h1 b) ∧ x.p = kind h1 ∧
      LeavesWith [.m rd.toNat] h h1 sy [] [] (passed h.st) h.jb.sq h.jb.deferred
        (fun y => { y with vec := { y.vec with m := y.vec.m.set rd.toFin x } }) j

def Compare (c : VCmpOp → Instr) (ordered : Bool) (q : Option Ordering → Bool) : Prop :=
  ∀ (o : VCmpOp) s h h1, Meets s o.sy [] h [] h1 →
    let f b := vcompare o.ty h.st.nmctl ordered q ((vread h1 o.ra.toNat).at_ (b / 64) (b % 64))
      ((vread h1 o.rb.toNat).at_ (b / 64) (b % 64))
    ∃ j x nm, exec (c o) s = .next (s.putJob j) ∧
      (∀ b, b < 1024 → x.bits.getLsbD b =
        if active h1 o.mask (b / 64) (b % 64) then (f b).1 else !o.z && h.jb.vec.m[o.rd.toFin].bits.getLsbD b) ∧
      x.p = worst ((vread h1 o.ra.toNat).p.toList ++ (vread h1 o.rb.toNat).p.toList ++ [maskKind h o.mask]) ∧
      (∀ n, n < 10 → (nm.getLsbD n = true ↔ h.st.nmctl.getLsbD n = true ∨
        ∃ b, b < 1024 ∧ active h1 o.mask (b / 64) (b % 64) = true ∧ (f b).2.getLsbD n = true)) ∧
      LeavesWith [.m o.rd.toNat] h h1 o.sy [] [] (h.st.after h.st.regs nm) h.jb.sq h.jb.deferred
        (fun y => { y with vec := { y.vec with m := y.vec.m.set o.rd.toFin x } }) j

def Mask2 (c : MaskOp2 → Instr) (f : Bool → Bool → Bool) : Prop :=
  ∀ o : MaskOp2, MaskOp (c o) o.sy o.rd
    (fun h b => f (h.jb.vec.m[o.ra.toFin].bits.getLsbD b) (h.jb.vec.m[o.rb.toFin].bits.getLsbD b))
    (fun h => h.jb.vec.m[o.ra.toFin].p.max h.jb.vec.m[o.rb.toFin].p)

/-! Reductions and scans (15 R218). -/

/-- op2 on two partial results, with its flags; ABSENT is none. -/
def join (op2 : Slot → Slot → Slot × Fl) (l r : Option Slot × Fl) : Option Slot × Fl :=
  match l.1, r.1 with
  | none, _ => (r.1, l.2 ||| r.2)
  | some _, none => (l.1, l.2 ||| r.2)
  | some a, some b => (some (op2 a b).1, l.2 ||| r.2 ||| (op2 a b).2)

/-- red(lo, cnt) of R218. -/
inductive Red (op2 : Slot → Slot → Slot × Fl) (x : Nat → Option Slot) : Nat → Nat → Option Slot × Fl → Prop where
  | one (lo : Nat) : Red op2 x lo 1 (x lo, 0)
  | two (lo n : Nat) (l r : Option Slot × Fl) :
    Red op2 x lo n l → Red op2 x (lo + n) n r → Red op2 x lo (2 * n) (join op2 l r)

/-- acc of R218 before place `n`. -/
def scanAcc (op2 : Slot → Slot → Slot × Fl) (x : Nat → Option Slot) (n : Nat) : Option Slot × Fl :=
  match n with
  | 0 => (none, 0)
  | n + 1 => join op2 (scanAcc op2 x n) (x n, 0)

/-- An element as a reduction reads it: DAZ, and a canonical NaN. -/
def velem (t : ET) (nm : BitVec 10) (x : Slot) : Slot :=
  match etFmt t with
  | some f => fslot t (f.result (.mode .rne) false false (vnum f t nm x)).1
  | none => islot t (vint t x)

/-- One line of a register: its active elements. `row` is true for the R forms. -/
def lineOf (h : Here) (row : Bool) (m : MaskF) (t : ET) (a : VReg) (l n : Nat) : Option Slot :=
  let r := if row then l else n
  let c := if row then n else l
  if active h m r c then some (velem t h.st.nmctl (a.at_ r c)) else none

/-- Row `n` contributes to a slot of row `r`, down some column (15 R205, R218). -/
def feeds (h : Here) (scan : Bool) (m : MaskF) (n r : Nat) : Bool :=
  (!scan || n ≤ r) && (List.range 64).any fun c => active h m n c && active h m r c

/-- A reduction or a scan over the rows or the columns: `val i l n` is what place `n` of line `l` of register `i` receives. -/
def Reduces (c : VUnary → Instr) (row scan : Bool) (ok : ET → Prop) (op2 : VUnary → BitVec 10 → Slot → Slot → Slot × Fl) :
    Prop :=
  ∀ (o : VUnary) s h h1, ok o.ty → Meets s o.sy [] h [] h1 → Aligned o.rd →
    let size := if row then 64 else 16
    ∃ (val : Nat → Nat → Nat → Option Slot × Fl) (j : Job) (v : VecState) (nm : BitVec 10), exec (c o) s = .next (s.putJob j) ∧
      (∀ i l n, i < o.rd.w.count → l < 1024 / size → n < size →
        if scan then val i l n = scanAcc (op2 o h.st.nmctl) (lineOf h1 row o.mask o.ty (vsrc h1 o.ra i) l) (n + 1)
        else Red (op2 o h.st.nmctl) (lineOf h1 row o.mask o.ty (vsrc h1 o.ra i) l) 0 size (val i l n)) ∧
      Wrote h1 o.rd o.mask o.z (fun i r c => ((if row then val i r c else val i c r).1).getD 0)
        (fun i r => if row then (vsrc h1 o.ra i).kind r else worst (((List.range 16).filter (feeds h1 scan o.mask · r)).map
          (vsrc h1 o.ra i).kind)) v ∧
      (∀ b, b < 10 → (nm.getLsbD b = true ↔ h.st.nmctl.getLsbD b = true ∨
        ∃ i l, i < o.rd.w.count ∧ l < 1024 / size ∧ (val i l (size - 1)).2.getLsbD b = true)) ∧
      LeavesWith (groupRegs h o.rd) h h1 o.sy [] [] (h.st.after h.st.regs nm) h.jb.sq h.jb.deferred
        (fun y => { y with vec := v }) j

/-- The sum of two elements read already, or subtotals: DAZ concerns sources alone (15 R206, R218). -/
def sum2 (o : VUnary) (nm : BitVec 10) (a b : Slot) : Slot × Fl :=
  match etFmt o.ty with
  | some f =>
    let x (a : Slot) : Machine.Num := f.decode (a.toNat % 2 ^ vbits o.ty)
    vround o.ty f nm o.rm o.s [x a, x b] ((x a).add (.mode (modeOf o.rm nm)) (x b))
  | none => iout o.ty o.s (vint o.ty a + vint o.ty b)
def min2 (o : VUnary) (nm : BitVec 10) : Slot → Slot → Slot × Fl := pick2 o.ty nm Machine.Num.min min
def max2 (o : VUnary) (nm : BitVec 10) : Slot → Slot → Slot × Fl := pick2 o.ty nm Machine.Num.max max
def bits2 (f : Slot → Slot → Slot) (o : VUnary) (_ : BitVec 10) (a b : Slot) : Slot × Fl := (islot o.ty (vint o.ty (f a b)), flNone)

/-- The six operations of one form: add, min, max of every class; and, or, xor of class I. -/
def SixForms (row scan : Bool) (add mn mx an or xr : VUnary → Instr) : Prop :=
  Reduces add row scan (fun _ => True) sum2 ∧ Reduces mn row scan (fun _ => True) min2 ∧
  Reduces mx row scan (fun _ => True) max2 ∧ Reduces an row scan (etFmt · = none) (bits2 (· &&& ·)) ∧
  Reduces or row scan (etFmt · = none) (bits2 (· ||| ·)) ∧ Reduces xr row scan (etFmt · = none) (bits2 (· ^^^ ·))

/-- Draw `n` of a generator (03 R49). -/
def drawNo (n : Nat) (s : Word) : Word := nextDraw^[n] s

/-- Whether a table is well-formed (15 R222). -/
def TableOk (t : TReg) : Prop :=
  let f (i : Nat) := fmtF32.decode (t.word 0 i)
  (∀ i, i < 3 → ∃ a m e, f i = Machine.Num.fin a m e) ∧ (f 0).cmp (f 1) = some .lt ∧ (f 2).cmp Machine.Num.zero = some .gt ∧
    ∀ i, 3 ≤ i → i < 64 → t.word 0 i = 0

/-- Interpolation (15 R224). -/
def Interp (o : VTliOp) (f : Fmt) (nm : BitVec 10) (t : TReg) (a : Slot) (y : Slot × Fl) : Prop :=
  let x := vnum f o.ty nm a
  let lo := fmtF32.decode (t.word 0 0)
  let xc := (x.max lo).min (fmtF32.decode (t.word 0 1))
  let seg := floor255 ((xc.add (.mode .rne) lo.neg).mul (fmtF32.decode (t.word 0 2)))
  let base := fmtF32.decode (t.word (1 + seg / 32) (2 * (seg % 32)))
  let slope := fmtF32.decode (t.word (1 + seg / 32) (2 * (seg % 32) + 1))
  (¬TableOk t ∨ x = .nan → y = (fslot o.ty f.nanCode, flNV)) ∧
  (TableOk t → x ≠ .nan →
    y = vround o.ty f nm o.rm o.s [slope, xc, base] (Machine.Num.fma (.mode (modeOf o.rm nm)) slope xc base))

/-- Rank (15 R225): whether `x` ranks below `y`. -/
def Below (t : ET) (x y : Slot) : Prop :=
  match etFmt t with
  | some f => vnum f t 0 x ≠ .nan ∧ (vnum f t 0 y = .nan ∨ (vnum f t 0 x).abs.cmp (vnum f t 0 y).abs = some .lt)
  | none => (vint t x).natAbs < (vint t y).natAbs

/-- Member `i` of a group is kept: at most one member ranks above it. -/
def Above (t : ET) (x : Nat → Slot) (k i : Nat) : Prop := Below t (x i) (x k) ∨ (k < i ∧ ¬Below t (x k) (x i))
def KeptPair (t : ET) (x : Nat → Slot) (p q : Nat) : Prop :=
  p < q ∧ q < 4 ∧ ∀ k, k < 4 → k ≠ p → k ≠ q → Above t x p k ∧ Above t x q k

/-- The next `n` entries of a row queue, all with data. -/
def FirstRows (q : Queue RowVal) (n : Nat) (l : List RowVal) : Prop := l.length = n ∧ (q.ents.take n).map (·.data) = l.map some

def entryKind (r : RowVal) : Poison := worst r.p.toList

end Sys2Proof.Claims

/-- VCMP and the mask operations (15 R214, R231). -/
def Obligations.VectorComparesAndMasks : Prop :=
  Compare .vcmpEq false (· == some .eq) ∧ Compare .vcmpNe false (· != some .eq) ∧ Compare .vcmpLt true (· == some .lt) ∧
  Compare .vcmpLe true (fun c => c == some .lt || c == some .eq) ∧ Compare .vcmpGt true (· == some .gt) ∧
  Compare .vcmpGe true (fun c => c == some .gt || c == some .eq) ∧
  Mask2 .mand (· && ·) ∧ Mask2 .mor (· || ·) ∧ Mask2 .mxor (· != ·) ∧
  (∀ o : MaskOp1, MaskOp (.mnot o) o.sy o.rd (fun h b => !h.jb.vec.m[o.ra.toFin].bits.getLsbD b)
    (fun h => h.jb.vec.m[o.ra.toFin].p)) ∧
  ∀ o : MaskPop, Computes (.mpopc o) o.sy o.rd [] fun h _ =>
    ⟨BitVec.ofNat 64 ((List.range 1024).countP fun b => h.jb.vec.m[o.ra.toFin].bits.getLsbD b), h.jb.vec.m[o.ra.toFin].p, []⟩

/-- The reductions and scans (15 R218): the tree and the running result, over the active elements of each line. What Z = 1 writes to an
inactive slot, and the rows that supply the poison of a row written down columns, are the model's choices (notes/assumptions/42.md),
as is DAZ on the elements of a minimum or maximum (notes/assumptions/41.md). -/
def Obligations.VectorReductions : Prop :=
  SixForms true false .vredrAdd .vredrMin .vredrMax .vredrAnd .vredrOr .vredrXor ∧
  SixForms true true .vscanrAdd .vscanrMin .vscanrMax .vscanrAnd .vscanrOr .vscanrXor ∧
  SixForms false false .vredcAdd .vredcMin .vredcMax .vredcAnd .vredcOr .vredcXor ∧
  SixForms false true .vscancAdd .vscancMin .vscancMax .vscancAnd .vscancOr .vscancXor

/-- VCVT with its draws, VTLI, VPACK24 and VUNPK24 (15 R211, R224 to R226). That VPACK24 ranks elements without DAZ is the model's
choice (notes/assumptions/41.md). -/
def Obligations.VectorConversions : Prop :=
  (∀ (o : VCvtOp) s h h1, Meets s o.sy [] h [] h1 → Aligned o.rd →
    let nm := h.st.nmctl
    let draw (b : Nat) : Rnd := match o.rm with
      | .sr => .sr (drawU (drawNo (b + 1) h.st.srs))
      | rm => .mode (modeOf rm nm)
    let y (i r c : Nat) : Slot × Fl :=
      let x := etOut o.dt nm (draw (1024 * i + 64 * r + c)) o.s (etIn o.st nm ((vsrc h1 o.ra i).at_ r c).toNat)
      (match etFmt o.dt with
        | some _ => fslot o.dt x.1
        | none => islot o.dt x.1, x.2)
    ∃ j v nm', exec (.vcvt o) s = .next (s.putJob j) ∧
      Wrote h1 o.rd none false (fun i r c => (y i r c).1) (fun i r => (vsrc h1 o.ra i).kind r) v ∧
      Flagged h1 o.rd.w.count none (fun i r c => (y i r c).2) nm' ∧
      LeavesWith (groupRegs h o.rd) h h1 o.sy [] []
        { h.st.after h.st.regs nm' with srs := if o.rm = .sr then drawNo (1024 * o.rd.w.count) h.st.srs else h.st.srs }
        h.jb.sq h.jb.deferred (fun y => { y with vec := v }) j) ∧
  (∀ (o : VTliOp) (f : Fmt), etFmt o.ty = some f → ∃ y : BitVec 10 → TReg → Slot → Slot × Fl,
    (∀ nm t a, Interp o f nm t a (y nm t a)) ∧
    VecOp (.vtli o) o.sy o.rd o.mask o.z []
      (fun h _ i r c => y h.st.nmctl h.jb.vec.tb[o.tb.toFin] ((vsrc h o.ra i).at_ r c))
      (fun h _ i r => ((vsrc h o.ra i).kind r).max h.jb.vec.tb[o.tb.toFin].p)) ∧
  (∀ (o : VPackOp) s h h1, Meets s o.sy [] h [] h1 → o.rd ≠ o.rb →
    let a := vread h1 o.ra.toNat
    ∃ (p q : Nat → Nat → Nat) (j : Job) (v w : VecState), exec (.vpack24 o) s = .next (s.putJob j) ∧
      (∀ r g, r < 16 → g < 16 → KeptPair o.ty (fun i => a.at_ r (4 * g + i)) (p r g) (q r g)) ∧
      Wrote h1 ⟨o.rd, .x1⟩ none false (fun _ r c => if 32 ≤ c then 0 else
        a.at_ r (4 * (c / 2) + if c % 2 = 0 then p r (c / 2) else q r (c / 2))) (fun _ r => a.kind r) w ∧
      Wrote { h1 with jb := { h1.jb with vec := w } } ⟨o.rb, .x1⟩ none false
        (fun _ r c => if 16 ≤ c then 0 else BitVec.ofNat 32 (p r c + 4 * q r c)) (fun _ r => a.kind r) v ∧
      LeavesWith (groupRegs h ⟨o.rd, .x1⟩ ++ groupRegs h ⟨o.rb, .x1⟩) h h1 o.sy [] [] (passed h.st) h.jb.sq h.jb.deferred (fun y => { y with vec := v }) j) ∧
  ∀ o : VUnpkOp, VecOp (.vunpk24 o) o.sy ⟨o.rd, .x1⟩ none false []
    (fun h _ _ r c =>
      let q := (vread h o.rb.toNat).at_ r (c / 4)
      (if c % 4 = (q.extractLsb' 2 2).toNat then (vread h o.ra.toNat).at_ r (2 * (c / 4) + 1)
       else if c % 4 = (q.extractLsb' 0 2).toNat then (vread h o.ra.toNat).at_ r (2 * (c / 4)) else 0, flNone))
    (fun h _ _ r => ((vread h o.ra.toNat).kind r).max ((vread h o.rb.toNat).kind r))

/-- VTLD, VLDQ and VSTQ (15 R222, R223, R227 to R229): an attached load has its entries at hand, counting those that it
popped before; a detached one leaves its write outstanding; a store has room for what it has still to push, of the rows as it read
them once (R202). -/
def Obligations.VectorQueues : Prop :=
  (∀ (o : VTldOp) s h h1 l, Meets s o.sy [] h [] h1 →
    (∀ w ∈ h1.jb.async, w.drain = none → w.lq = o.lq → w.complete = true) → h.st.rows.length ≤ 9 →
    FirstRows h.jb.lqRow[o.lq.toFin] (9 - h.st.rows.length) l →
    let rs := h.st.rows ++ l
    ∃ (j : Job) (t : TReg), exec (.vtld o) s = .next (s.putJob j) ∧ (∀ e : Fin 9, (rs[e.val]?).map (·.w) = some t.ents[e]) ∧
      t.p = worst (rs.map entryKind) ∧
      LeavesWith [.tb o.tb.toNat] h h1 o.sy [] [] (passed h.st) h.jb.sq h.jb.deferred (fun y => { y with
        vec := { y.vec with tb := y.vec.tb.set o.tb.toFin t }
        lqRow := y.lqRow.set o.lq.toFin { y.lqRow[o.lq.toFin] with
          ents := y.lqRow[o.lq.toFin].ents.drop (9 - h.st.rows.length) } }) j) ∧
  (∀ (o : VLdqOp) s h h1 l, Meets s o.sy [] h [] h1 → o.sy.post = false → Aligned o.rd →
    (∀ w ∈ h1.jb.async, w.drain = none → w.lq = o.lq → w.complete = true) → h.st.rows.length ≤ 16 * o.rd.w.count →
    FirstRows h.jb.lqRow[o.lq.toFin] (16 * o.rd.w.count - h.st.rows.length) l →
    let rs := h.st.rows ++ l
    let e (i r : Nat) : RowVal := (rs[16 * i + r]?).getD RowVal.zero
    ∃ j v, exec (.vldq o) s = .next (s.putJob j) ∧
      Wrote h1 o.rd o.mask o.z (fun i r c => ((e i r).w[c]?).getD 0) (fun i r => entryKind (e i r)) v ∧
      LeavesWith (groupRegs h o.rd) h h1 o.sy [] [] (passed h.st) h.jb.sq h.jb.deferred (fun y => { y with
        vec := v
        lqRow := y.lqRow.set o.lq.toFin { y.lqRow[o.lq.toFin] with
          ents := y.lqRow[o.lq.toFin].ents.drop (16 * o.rd.w.count - h.st.rows.length) } }) j) ∧
  (∀ (o : VLdqOp) s h h1, Meets s o.sy [] h [] h1 → o.sy.post = true →
    ∃ (j : Job) (w : AsyncWrite) (x : Parts), exec (.vldq o) s = .next { s.putJob j with nextId := s.nextId + 1 } ∧
      j = h1.jb.withParts h.k x ∧ j.core h.k = passed h.st ∧ j.deferred = h.jb.deferred ∧ j.sems = h1.jb.sems ∧
      j.lq = h.jb.lq ∧ j.sq = h.jb.sq ∧ j.async = h1.jb.async ++ [w] ∧
      w.drain = none ∧ w.region = h.region ∧ w.got = [] ∧ w.complete = false ∧ w.lq = o.lq ∧ w.sem = some o.sy.sem ∧
      w.z = o.z ∧ w.mask = o.mask.map (fun m => h.jb.vec.m[m.toFin].bits) ∧ w.maskP = maskKind h o.mask ∧
      w.regs = (List.range o.rd.w.count).map fun i => physV h.st.rrb (o.rd.n.toNat + i)) ∧
  ∀ (o : VStqOp) s h h1, Meets s o.sy [] h [] h1 → h.jb.ac.live = true → h.jb.sqRow[o.sq.toFin].ending = false →
    h.st.part ≤ 16 * o.ra.w.count →
    h.jb.sqRow[o.sq.toFin].ents.length + (16 * o.ra.w.count - h.st.part) ≤ 32 →
    let row (n : Nat) : RowVal :=
      let r := vread h1 (o.ra.n.toNat + n / 16)
      if h.st.rows = [] then ⟨(r.rows[n % 16]?).getD Row.zero, Vector.replicate 32 (r.kind (n % 16))⟩
      else (h.st.rows[n]?).getD RowVal.zero
    ∃ j, exec (.vstq o) s = .next (s.putJob j) ∧
      LeavesWith [] h h1 o.sy [] [] (passed h.st) h.jb.sq h.jb.deferred (fun y => { y with
        sqRow := y.sqRow.set o.sq.toFin { y.sqRow[o.sq.toFin] with
          ents := y.sqRow[o.sq.toFin].ents ++
            ((List.range (16 * o.ra.w.count)).drop h.st.part).map fun n => ⟨0, some (row n)⟩ } }) j

namespace Sys2Proof.Claims

/-- A word of the AC whose register operand `ra` is there and carries no poison (17 R259). -/
def Base (h : Here) (ra : BitVec 6) : Prop := h.st.isBusy ra = false ∧ (h.reg ra).p = .none

/-- An S address aligned to `align` with `n` bytes of the program part (05 R61). -/
def SAt (h : Here) (a : Word) (align n : Nat) : Prop :=
  a.toNat % align = 0 ∧ a.toNat < 2 ^ 21 ∧ a.toNat + n ≤ (h.jb.hdr.slabs - h.jb.hdr.wsa - h.jb.hdr.wsx) * 2048

/-- The matrix engine of a job replaced. -/
def withMe (m : MeState) (j : Job) : Job := { j with me := m }

/-- A bank whose words are the 32 little-endian words of the scratchpad at `a`, without poison (17 R261). -/
def BankFrom (j : Job) (a : Nat) (b : Vector PVal 32) : Prop :=
  ∀ i : Fin 32, b[i] = ⟨BitVec.ofNat 64 (leNat (memRead j.mem (a + 8 * i) 8)), .none, []⟩

/-- No operation of the cell is outstanding or remembered, no chain or drain of the job is at work, and no byte of the range
is marked: what is read is what the scratchpad holds. -/
def Still (h : Here) (a n : Nat) : Prop :=
  h.ce.ops = [] ∧ h.jb.me.jobs = [] ∧ h.jb.me.tasks = [] ∧ (h.jb.ce0.chain = none ∧ h.jb.ce0.kicks = [] ∧ h.jb.ce0.xfers = []) ∧
    (h.jb.ce1.chain = none ∧ h.jb.ce1.kicks = [] ∧ h.jb.ce1.xfers = []) ∧ (∀ t ∈ h.jb.tags, t.2.st = .full ∨ t.2.st = .empty) ∧
    ∀ m ∈ h.jb.marks, m + 64 ≤ a ∨ a + n ≤ m

/-- The launch of an MDRAIN (17 R265): the operation, the task with the draws' seed, and the generator after its draws. -/
def DrainIssues (i : Instr) (s : State) (h h1 : Here) (f : OrdF) (sy : Sync) (deps : List Nat) (ty : ET) (rm : Rm) (sat : Bool)
    (tile : BitVec 6) (dst : DrainDst) (more : Nat) (J : Job → Job) : Prop :=
  let id := s.nextId
  let op := h1.mkOp id f (.launchDrain id) .nowhere (h1.preds f deps) .waiting 0
  let t : MeTask := ⟨id, id, h.region, tile.toNat, .drain ty rm sat h.st.srs dst, 0, h.st.pc⟩
  ∃ j, exec i s = .next { issuedState s op j (fun x => x) with nextId := id + 1 + more } ∧
    Issued h sy f op (some id)
      { passed h.st with srs := if rm = .sr then drawNo 4096 h.st.srs else h.st.srs } h.jb.deferred h.jb.lq h.jb.sq
      (fun y => J (withMe { h.jb.me with tasks := h.jb.me.tasks ++ [t] } y)) j

/-- Room for `n` more entries of a row queue whose consumer is live. -/
def RowRoom (h : Here) (q : BitVec 2) (n : Nat) : Prop :=
  h.jb.xc.live = true ∧ h.jb.lqRow[q.toFin].ending = false ∧ h.jb.lqRow[q.toFin].ents.length + n ≤ 32

def reserveRows (q : BitVec 2) (ids : List Nat) (j : Job) : Job :=
  { j with lqRow := j.lqRow.set q.toFin { j.lqRow[q.toFin] with ents := j.lqRow[q.toFin].ents ++ ids.map fun n => ⟨n, none⟩ } }

/-- The engine of a job: its copy engine `e` replaced. -/
def withEng (e : BitVec 1) (x : EngState) (j : Job) : Job := if e = 0 then { j with ce0 := x } else { j with ce1 := x }

/-- The kicked chains of an engine, the running one first (19 R297). -/
def kicksOf (x : EngState) : List Chain := (x.chain.toList.filter fun c => !c.isStream) ++ x.kicks

/-- CKICK and CLINK (19 R296 to R298): on an engine without a stream chain and with fewer than four kicks, the chain joins the
queue; it will begin with no stack of its own. -/
def Kicks (c : OpKick → Instr) (link : Bool) : Prop :=
  ∀ (o : OpKick) s h h1, Meets s o.sy [] h [] h1 → h.jb.hasStream o.eng = false → Base h o.ra → (h.reg o.ra).v.toNat % 2 = 0 →
    HasRoom h1 o.f → (kicksOf (h.jb.eng o.eng)).length < 4 →
    let id := s.nextId
    let op := h1.mkOp id o.f (.launchChain o.eng id) .nowhere (h1.preds o.f (h.reg o.ra).dep) .waiting (h.reg o.ra).v
    ∃ (j : Job) (ch : Chain), exec (c o) s = .next (issuedState s op j (fun x => x)) ∧
      ch.id = id ∧ ch.role = .kicked id link ∧ ch.ptr = (h.reg o.ra).v ∧ ch.region = h.region ∧ ch.foot = [] ∧
      ch.begun = false ∧ ch.halted = false ∧ ch.live = true ∧ ch.wait = none ∧
      Issued h o.sy o.f op (some id) (passed h.st) h.jb.deferred h.jb.lq h.jb.sq
        (withEng o.eng { h.jb.eng o.eng with kicks := (h.jb.eng o.eng).kicks ++ [ch] }) j

end Sys2Proof.Claims

/-- MCFG, MCFGS, MTAB, MZERO and MSTAT (17 R260, R261, R263, R264, R267). MCFG writes one word of the shadow bank; MCFGS and
MTAB read the scratchpad; MZERO takes effect at once where no matrix instruction before it is incomplete; MSTAT reads the status and
clears STRV. -/
def Obligations.MatrixSetup : Prop :=
  (∀ (n : BitVec 5) ra sy s h h1, Meets s sy [] h [] h1 → Base h ra →
    ∃ j, exec (.mcfg n ra sy) s = .next (s.putJob j) ∧
      LeavesWith [.bank 0] h h1 sy [] (h.reg ra).dep (passed h.st) h.jb.sq h.jb.deferred
        (withMe { h.jb.me with banks := { h.jb.me.banks with
          shadow := h.jb.me.banks.shadow.set n.toFin ⟨(h.reg ra).v, .none, []⟩ } }) j) ∧
  (∀ (o : OpE1) s h h1, Meets s o.sy [] h [] h1 → Base h o.ra → SAt h (h.reg o.ra).v 256 256 → HasRoom h1 o.f →
    Unheld h1 o.f (h.reg o.ra).dep → Still h1 (h.reg o.ra).v.toNat 256 →
    ∃ b, BankFrom h.jb (h.reg o.ra).v.toNat b ∧
      PointDone (.mcfgs o) s h h1 o.sy o.f (h.reg o.ra).dep (passed h.st) h.jb.deferred
        (fun y => (withMe { h.jb.me with banks := { h.jb.me.banks with shadow := b } } y).touch (.bank 0))) ∧
  (let tab (c : OpMtab → Instr) (n : Nat) (kind : SlotKind) : Prop :=
    ∀ (o : OpMtab) s h h1, Meets s o.sy [] h [] h1 → Base h o.ra → SAt h (h.reg o.ra).v 64 n → HasRoom h1 o.f →
      Unheld h1 o.f (h.reg o.ra).dep → Still h1 (h.reg o.ra).v.toNat n →
      (∀ e ∈ h.jb.me.slotSaves, e.2.1 = o.slot.toNat → h.region ≤ e.1) →
      ∃ u x j, exec (c o) s = .next u ∧ u.nextId = s.nextId + 1 ∧ u.cell s.cur.1 = some x ∧ x.job = some j ∧
        (∀ q : Fin 16, j.me.slots[q] = if q.val = o.slot.toNat then
          some ⟨kind, memRead h.jb.mem (h.reg o.ra).v.toNat n, .none⟩ else h.jb.me.slots[q]) ∧
        j.me.tiles = h.jb.me.tiles ∧ j.me.tasks = [] ∧ j.me.jobs = [] ∧ j.core h.k = passed h.st ∧ j.mem = h.jb.mem
   tab .mtabCb 64 .codebook ∧ tab .mtabPt 1024 .product) ∧
  (∀ (tile : BitVec 6) sy s h h1, Meets s sy [] h [] h1 → h.jb.me.tasks = [] →
    (∀ m ∈ h.jb.me.jobs, s.nextId ≤ m.op ∨ tile.toNat ∉ m.names) →
    (∀ e ∈ h.jb.me.tileSaves, e.2.1 = tile.toNat → h.region ≤ e.1) →
    ∃ u x j, exec (.mzero tile sy) s = .next u ∧ u.cell s.cur.1 = some x ∧ x.job = some j ∧
      (∀ c : Fin 64, j.me.tiles[c] = if c.val = tile.toNat then Tile.zero else h.jb.me.tiles[c]) ∧
      j.me.tasks = [] ∧ j.me.jobs = h.jb.me.jobs ∧ j.me.banks = h.jb.me.banks ∧ j.me.slots = h.jb.me.slots ∧
      j.core h.k = passed h.st ∧ j.mem = h.jb.mem ∧ j.vec = h.jb.vec) ∧
  ∀ rd sy s h h1, Meets s sy [] h [] h1 → h.st.isBusy rd = false →
    (∀ hi, (h.jb.me.jobs.filter fun m => m.high == hi).length ≤ 4) →
    ∃ (j : Job) (v : Word), exec (.mstat rd sy) s = .next (s.putJob j) ∧
      LeavesWith [] h h1 sy [] [] (passedWith h.st rd ⟨v, .none, []⟩) h.jb.sq h.jb.deferred
        (withMe { h.jb.me with strv := false }) j ∧
      v.extractLsb' 40 24 = 0 ∧ v.extractLsb' 16 24 = h.jb.me.passes ∧
      (v.extractLsb' 12 4).toNat = (h.jb.me.jobs.filter (·.high)).length ∧
      (v.extractLsb' 8 4).toNat = (h.jb.me.jobs.filter fun m => !m.high).length ∧ v.getLsbD 7 = false ∧
      (∀ hi, v.getLsbD (if hi then 6 else 5) =
        h.jb.me.jobs.any fun m => m.high == hi && (m.phase == .running || m.phase == .drained)) ∧
      v.getLsbD 4 = h.jb.me.jobs.any (fun m => m.phase == .suspended) ∧
      v.getLsbD 3 = (h1.jb.walkerWait h1.ce.ops).isSome ∧ v.getLsbD 2 = h.jb.me.strv ∧
      (v.getLsbD 1 = true ↔ ∃ t ∈ h.jb.me.tasks, t.isDrain = true) ∧ v.getLsbD 0 = false

/-- MGO, MDRAIN in its three forms, and MABORT (17 R262, R265, R266). -/
def Obligations.MatrixLaunches : Prop :=
  (∀ (o : OpMgo) s h h1, Meets s o.sy [] h [] h1 → HasRoom h1 o.f →
    (∀ i : Fin 32, h.jb.me.banks.shadow[i].p = .none) →
    let l : Lnt := h.jb.me.banks.shadow.map (·.v)
    shapeFault l (fun r => (h.jb.ring r).cnt.toNat) o.order.isNone (o.lag == 0)
      (if h.pk.firn.level = 0 then some h.pk.firn.mefmt else none) = none →
    (h.jb.me.jobs.filter fun m => m.high == o.high).length < 4 →
    let id := s.nextId
    let op := h1.mkOp id o.f (.launchMe id) .nowhere (h1.preds o.f []) .waiting 0
    ∃ (j : Job) (m : MeJob), exec (.mgo o) s = .next (issuedState s op j (fun x => x)) ∧
      m.id = id ∧ m.op = id ∧ m.high = o.high ∧ m.region = h.region ∧ m.lnt = l ∧ m.phase = .queued ∧ m.slot = none ∧
      m.ord = h.jb.me.mgos ∧ m.count = 0 ∧ m.tiles = [] ∧ m.logGot = [] ∧
      (∀ x, o.order = some x → m.order = x) ∧ (o.lag ≠ 0 → m.lag = 8 * o.lag.toNat) ∧
      Issued h o.sy o.f op (some id) (passed h.st) h.jb.deferred h.jb.lq h.jb.sq
        (fun y => ((withMe { h.jb.me with
          jobs := h.jb.me.jobs ++ [m], mgos := h.jb.me.mgos + 1, banks := ⟨h.jb.me.banks.prev, h.jb.me.banks.shadow⟩ } y).touch
            (.bank 0)).touch (.bank 1)) j) ∧
  (∀ (o : OpMdrain) s h h1, Meets s o.sy [] h [] h1 → Base h o.ra → SAt h (h.reg o.ra).v 64 (512 * vbits o.ty) → HasRoom h1 o.f →
    DrainIssues (.mdrain o) s h h1 o.f o.sy (h.reg o.ra).dep o.ty o.rm o.sat o.tile (.slabs (h.reg o.ra).v.toNat) 0 id) ∧
  (∀ (o : OpMdrainQ) s h h1, Meets s o.sy [] h [] h1 → h.st.part = 0 → RowRoom h o.lq (2 * vbits o.ty) → HasRoom h1 o.f →
    (∀ t ∈ h.jb.me.tasks, t.id ≠ s.nextId) →
    let ids := List.range' (s.nextId + 1) (2 * vbits o.ty)
    DrainIssues (.mdrainQ o) s h h1 o.f o.sy [] o.ty o.rm o.sat o.tile (.queue o.lq ids) (2 * vbits o.ty) (reserveRows o.lq ids)) ∧
  (∀ (o : OpMdrainQ) s h, s.here = some h → h.st.part ≠ 0 → h.st.part - 1 < 2 * vbits o.ty →
    RowRoom h o.lq (2 * vbits o.ty - (h.st.part - 1)) →
    let n := 2 * vbits o.ty - (h.st.part - 1)
    ∃ j, exec (.mdrainQ o) s = .next { s.putJob j with nextId := s.nextId + n } ∧ j.core h.k = passed h.st ∧
      j.lqRow = (reserveRows o.lq (List.range' s.nextId n) h.jb).lqRow ∧ j.me.tiles = h.jb.me.tiles ∧
      j.me.jobs = h.jb.me.jobs ∧ j.mem = h.jb.mem ∧ j.deferred = h.jb.deferred) ∧
  (∀ (o : OpMdrainV) s h h1, Meets s o.sy [] h [] h1 → HasRoom h1 o.f → ∃ w : AsyncWrite,
    w.id = s.nextId ∧ w.drain = some s.nextId ∧ w.region = h.region ∧ w.mask = none ∧ w.complete = false ∧
    w.sem = (if o.sy.post then some o.sy.sem else none) ∧
    w.regs = (List.range 4).map (fun i => physV h.jb.xc.rrb (4 * o.quad.toNat + i)) ∧
    DrainIssues (.mdrainV o) s h h1 o.f o.sy [] o.ty o.rm o.sat o.tile (.regs s.nextId) 0
      (fun y => { y with async := h1.jb.async ++ [w] })) ∧
  ∀ hi sy s h h1, Meets s sy [] h [] h1 → h.jb.me.tasks = [] → (h.jb.me.jobs.map (·.id)).Nodup →
    let gone := h.jb.me.jobs.filter fun m => m.high == hi
    ∃ u x j, exec (.mabort hi sy) s = .next u ∧ u.cell s.cur.1 = some x ∧ x.job = some j ∧
      j.me.jobs = h.jb.me.jobs.filter (fun m => m.high != hi) ∧ j.core h.k = passed h.st ∧ j.mem = h.jb.mem ∧
      j.me.banks = h.jb.me.banks ∧ j.me.slots = h.jb.me.slots ∧
      (∀ c : Fin 64, (∀ m ∈ gone, c.val ∉ m.merged) → j.me.tiles[c] = h.jb.me.tiles[c]) ∧
      (∀ (c : Fin 64) v, (∃ m ∈ gone, c.val ∈ m.merged) → h.jb.me.tileSaves.find? (fun e => e.2.1 == c.val) = some v →
        j.me.tiles[c] = v.2.2) ∧
      ∀ d ∈ j.deferred, ∀ m ∈ gone, d.src ≠ some m.op

/-- CKICK, CLINK, CSTAGE and CABORT (19 R296 to R300): on an engine whose job runs no stream chain there. -/
def Obligations.ChainControl : Prop :=
  Kicks .ckick false ∧ Kicks .clink true ∧
  (∀ e ra rb sy s h vs h1, Meets s sy [.reg ra, .reg rb] h vs h1 → h.jb.hasStream e = false → Clean vs →
    (h.jb.eng e).stage.length < 8 →
    ∃ j, exec (.cstage e ra rb sy) s = .next (s.putJob j) ∧
      LeavesWith [] h h1 sy [.reg ra, .reg rb] (joinDep vs) (passed h.st) h.jb.sq h.jb.deferred
        (withEng e { h.jb.eng e with stage := (h.jb.eng e).stage ++ [(nth vs 0, nth vs 1)] }) j) ∧
  ∀ e sy s h h1, Meets s sy [] h [] h1 → h.jb.hasStream e = false →
    ∃ u x j, exec (.cabort e sy) s = .next u ∧ u.cell s.cur.1 = some x ∧ x.job = some j ∧
      (j.eng e).chain = none ∧ (j.eng e).kicks = [] ∧ (j.eng e).stage = [] ∧ (j.eng e).xfers = [] ∧
      j.eng (1 - e) = h.jb.eng (1 - e) ∧ j.core h.k = passed h.st ∧ j.mem = h.jb.mem ∧ j.me = h.jb.me ∧
      (∀ c ∈ kicksOf (h.jb.eng e), ∀ op l, c.role = .kicked op l → (∀ d ∈ j.deferred, d.src ≠ some op) ∧
        ∀ y ∈ x.ops, y.id = op → y.status = .complete)

namespace Sys2Proof.Claims

/-- The moving stream is the chain `h`, which is live (19 R272). -/
def Chains (s : State) (h : EHere) : Prop := s.ehere = some h ∧ h.ch.live = true

/-- A chain that has begun, or begins with this word (19 R281). -/
def Begins (h : EHere) : Prop := h.ch.begun = true ∨ h.ch.isStream = true

/-- The job with the chain `ch` on its engine, `E` made of the engine and `J` of the job; the word is progress and a result of
its region, and no stall is counted but that of a HALO that stands at a slab, which counts anew (01 R21, R36; 19 R293). -/
def chained (h : EHere) (ch : Chain) (E : EngState → EngState) (J : Job → Job) : Job :=
  let j := J { h.jb with progress := h.clk, results := put h.jb.results h.ch.region h.clk }
  let x := E { j.eng h.e with chain := some ch }
  j.setEng h.e { x with starve := if x.xfers.any (·.blocked) then some h.clk else none }

/-- An engine word completes (09 R128, 19 R275): its entries leave the stack, `push` goes on it, top first, and the chain
goes on with the next word. -/
def WordDone (i : Instr) (s : State) (h : EHere) (b : Bool) (pops : Nat) (push : List Word) (C : Chain → Chain)
    (E : EngState → EngState) (J : Job → Job) : Prop :=
  exec i s = .next (s.putJob (chained h
    (C { h.ch with begun := b, stack := push ++ h.ch.stack.drop pops, ptr := h.ch.ptr + 2, wait := none }) E J))

/-- An engine word blocks on `w`: the stall is counted from now, or goes on (19 R293). -/
def WordBlocks (i : Instr) (s : State) (h : EHere) (w : Wait) : Prop :=
  exec i s = .next (s.putJob (h.jb.setEng h.e { h.jb.eng h.e with
    chain := some { h.ch with begun := true, wait := some w }, starve := some ((h.jb.eng h.e).starve.getD h.clk) }))

/-- An engine word stays where it is; the chain has begun. -/
def WordStalls (i : Instr) (s : State) (h : EHere) : Prop :=
  exec i s = .next (s.putJob (h.jb.setEng h.e { h.jb.eng h.e with chain := some { h.ch with begun := true } }))

/-- A word that only works on the stack: the stack `a` becomes `b`. -/
def StackWord (i : Instr) (pops : Nat) (push : List Word → List Word) : Prop :=
  ∀ s h, Chains s h → pops ≤ h.ch.stack.length → h.ch.stack.length - pops + (push (h.ch.stack.take pops)).length ≤ 8 →
    WordDone i s h h.ch.begun pops (push (h.ch.stack.take pops)) (fun x => x) (fun x => x) (fun x => x)

/-- A chain fault (19 R291; 23 R330): recorded for the stream that the fault goes to, the chain as it stood. -/
def Faults (i : Instr) (s : State) (h : EHere) (kind : Nat) : Prop :=
  exec i s = .next (s.putJob { h.jb with
    traps := h.jb.traps ++ [⟨0x0E, kind, 0,
      padTo 32 ([BitVec.ofNat 8 h.e.toNat, BitVec.ofNat 8 kind, BitVec.ofNat 8 h.ch.stack.length, 0, 0, 0, 0, 0] ++
        natLe h.ch.ptr.toNat 8), h.ch.dlv h.e, 0, false, h.ch.region, h.ch.ptr⟩] })

/-- An engine address (19 R274). -/
def EngAt (w : Word) (a : EAddr) : Prop :=
  (a.sp = 0 ∧ a.hi = 0 ∧ a.off < 2 ^ 48 ∧ w.toNat = a.off) ∨
  (a.sp = 1 ∧ a.hi = 0 ∧ a.off < 2 ^ 21 ∧ w.toNat = 2 ^ 60 + a.off) ∨
  (a.sp = 2 ∧ a.hi < 2 ^ 12 ∧ a.off < 2 ^ 21 ∧ w.toNat = 2 * 2 ^ 60 + a.hi * 2 ^ 21 + a.off) ∨
  (a.sp = 3 ∧ a.hi < 2 ^ 10 ∧ a.off < 2 ^ 48 ∧ w.toNat = 3 * 2 ^ 60 + a.hi * 2 ^ 48 + a.off)

def spaceSize (a : EAddr) : Nat := if a.sp = 0 ∨ a.sp = 3 then 2 ^ 48 else 2 ^ 21

/-- A transfer issues (19 R279): it joins its engine's transfers under the next name and moves nothing yet. Where the cell holds
8,192 requests it stays where it is (07 R94; the unit is a DESIGN CHOICE, notes/assumptions/77.md). -/
def Sends (i : Instr) (s : State) (h : EHere) (pops : Nat) (kind : Xfer) (src dst : Word) : Prop :=
  let used := (h.ce.ops.filter fun o => o.status != .complete).length + h.jb.ce0.xfers.length + h.jb.ce1.xfers.length
  (used < 8192 → exec i s = .next { s.putJob (chained h
      { h.ch with begun := true, stack := h.ch.stack.drop pops, ptr := h.ch.ptr + 2, wait := none }
      (fun e => { e with xfers := e.xfers ++ [⟨s.nextId, h.ch.id, h.ch.region, h.ch.ptr, kind, src, dst, 0, [], 0, false, false,
        [], []⟩] })
      (fun j => j)) with
    nextId := s.nextId + 1 }) ∧
  (8192 ≤ used → WordStalls i s h)

/-- A built-in routine (19 R295): parameter on top, destination, source, in the spaces and alignments of the routine. -/
def Codec (i : Instr) (r : Nat) (dAlign : Nat) (dSp : List Nat) (sAlign : Nat) (sSp : List Nat) (good : Nat → Prop) : Prop :=
  ∀ s h p d src rest da sa, Chains s h → Begins h → h.ch.stack = p :: d :: src :: rest → rest.length ≤ 8 → EngAt d da →
    EngAt src sa → da.sp ∈ dSp → sa.sp ∈ sSp → d.toNat % dAlign = 0 → src.toNat % sAlign = 0 → h.pk.firmware = true →
    good p.toNat → Sends i s h 3 (.codec r p) src d

/-- A field of a parameter. -/
def field (p lo n : Nat) : Nat := p / 2 ^ lo % 2 ^ n

/-- No transfer of the chain is in flight. -/
def Settled (h : EHere) : Prop := ∀ x ∈ (h.jb.eng h.e).xfers, x.chain ≠ h.ch.id

/-- The word becomes a pending effect of the chain's region. -/
def pending (h : EHere) (e : Effect) (j : Job) : Job :=
  { j with deferred := j.deferred ++ [⟨j.seq, h.ch.region, ceOf h.e, h.ch.ptr, none, [], none, e⟩], seq := j.seq + 1 }

/-- An S slab that a word names. -/
def SlabWord (h : EHere) (w : Word) (slab : Nat) : Prop :=
  w.toNat = 2 ^ 60 + 2048 * slab ∧ slab < 1024 ∧ slab + 1 ≤ h.jb.hdr.slabs - h.jb.hdr.wsa - h.jb.hdr.wsx

end Sys2Proof.Claims

/-- The stack words (09 R128, 19 R275), FOOT (R281), and the faults of a stack that holds too little or too much, in the record
that notes/assumptions/22.md reads from 23 R330 (DEDUCED). -/
def Obligations.StackWords : Prop :=
  (∀ v : BitVec 15, StackWord (.wLit v) 0 fun _ => [v.setWidth 64]) ∧
  (∀ v : BitVec 14, StackWord (.wExt v) 1 fun l => l.map fun t => (t.extractLsb' 0 50) ++ v) ∧
  StackWord .wNopw 0 (fun _ => []) ∧ StackWord .wDup 1 (fun l => l ++ l) ∧ StackWord .wDrop 1 (fun _ => []) ∧
  StackWord .wXch 2 List.reverse ∧ StackWord .wOver 2 (fun l => l.drop 1 ++ l) ∧
  (∀ gated write s h n b rest a, Chains s h → h.ch.begun = false → h.ch.foot.length < 8 → h.ch.stack = n :: b :: rest →
    rest.length ≤ 8 → n ≠ 0 → EngAt b a → a.sp ≤ 1 →
    WordDone (.wFoot gated write) s h false 2 [] (fun c => { c with foot := h.ch.foot ++ [⟨a.sp, a.off, n.toNat, write, gated⟩] })
      (fun x => x) (fun x => x)) ∧
  (∀ v s h, Chains s h → h.ch.stack.length = 8 → Faults (.wLit v) s h 1) ∧
  ∀ s h, Chains s h → h.ch.stack.length < 2 → Faults .wXch s h 2

/-- SHAPE, COPY, WALK, HALO and the CODEC words (19 R280, R283 to R286, R294, R295): SHAPE reads a good record into its
register; a transfer issues with its operands. -/
def Obligations.TransferWords : Prop :=
  (∀ n s h w rest a r, Chains s h → Begins h → h.ch.stack = w :: rest → rest.length ≤ 8 → EngAt w a → a.sp ≤ 1 →
    w.toNat % 256 = 0 → shGood r = true →
    let b : EHere := { h with ch := { h.ch with begun := true } }
    b.close.xRead ⟨b.id, b.e, b.jb.uid, b.who, { b.ch with foot := [] }⟩ a a.off 256 = .ok (r, false) →
    WordDone (.wShape n) s h true 1 [] (fun c => { c with shapes := h.ch.shapes.set n.toFin (some r) }) (fun x => x)
      (fun x => x)) ∧
  (∀ (c : BitVec 8) s h d src rest da sa, Chains s h → Begins h → c ≠ 0 → h.ch.stack = d :: src :: rest → rest.length ≤ 8 →
    EngAt d da → EngAt src sa → da.off + 64 * c.toNat ≤ spaceSize da → sa.off + 64 * c.toNat ≤ spaceSize sa →
    Sends (.wCopy c) s h 2 (.copy (64 * c.toNat)) src d) ∧
  (∀ s h n d src rest da sa, Chains s h → Begins h → h.ch.stack = n :: d :: src :: rest → rest.length ≤ 8 → EngAt d da →
    EngAt src sa → n ≠ 0 → n.toNat < 2 ^ 48 → da.off + n.toNat ≤ spaceSize da → sa.off + n.toNat ≤ spaceSize sa →
    Sends (.wCopy 0) s h 3 (.copy n.toNat) src d ∧
    (h.pk.firmware = true → Sends .wCodecCopy s h 3 (.copy n.toNat) src d)) ∧
  (∀ sr s h d src rest da sa r, Chains s h → Begins h → h.ch.stack = d :: src :: rest → rest.length ≤ 8 → EngAt d da →
    EngAt src sa → h.ch.shapes[BitVec.toFin (w := 2) sr] = some r →
    Sends (.wWalk true 0 sr) s h 2 (.walk r none) src d ∧
    (∀ ds q, h.ch.shapes[BitVec.toFin (w := 2) ds] = some q → walkFits r q = true →
      Sends (.wWalk false ds sr) s h 2 (.walk r (some q)) src d) ∧
    (sa.sp = 1 ∨ sa.sp = 2 → Sends (.wHalo sr) s h 2 (.halo r) src d)) ∧
  (∀ ds sr s h, Chains s h → h.ch.begun = true → ds ≠ 0 → Faults (.wWalk true ds sr) s h 4) ∧
  Codec .wZbmDecode 1 64 [1] 4096 [0] (fun p => p ≠ 0 ∧ p < 2 ^ 16) ∧
  Codec .wZbmEncode 2 4096 [0] 64 [1] (fun p => field p 0 16 ≠ 0 ∧ field p 16 4 ≤ 9 ∧ p < 2 ^ 20) ∧
  Codec .wCb4PassThrough 3 64 [1] 4096 [0] (fun p => p ≠ 0 ∧ p < 2 ^ 16) ∧
  Codec .wLrfExpand 4 64 [1] 4096 [0] (fun p => p ≠ 0 ∧ p < 2 ^ 16) ∧
  Codec .wOsqEncode 5 4096 [0] 1 [1] (fun p => field p 0 16 ≠ 0 ∧ 3 ≤ field p 32 4 ∧ field p 32 4 ≤ 5 ∧ p < 2 ^ 36) ∧
  Codec .wOsqDecode 6 64 [1] 4096 [0] (fun p => field p 0 16 ≠ 0 ∧ p < 2 ^ 37) ∧
  Codec .wE8m0Requantise 7 1 [1] 1 [1] (fun p => field p 0 24 % 32 = 0 ∧ field p 24 4 ≤ 2 ∧ 3 ≤ field p 28 4 ∧
    field p 28 4 ≤ 5 ∧ p < 2 ^ 33 ∧ (field p 28 4 = 5 → field p 32 1 = 0)) ∧
  Codec .wPathLogSeal 8 64 [1] 1 [1] (fun p => p < 2 ^ 24) ∧
  Codec .wTranspose 9 1 [1] 1 [1] (fun p => field p 0 2 ≠ 3 ∧ field p 2 14 = 0 ∧ p < 2 ^ 48) ∧
  ∀ (r : BitVec 6) s h p d src rest da sa k, Chains s h → Begins h → h.ch.stack = p :: d :: src :: rest → rest.length ≤ 8 →
    EngAt d da → EngAt src sa → h.pk.routine (64 + r.toNat) h.who.secure = some k →
    Sends (.wCodecCustom r) s h 3 (.codec (64 + r.toNat) p) src d

/-- WAITS, POSTS, WAITR, POSTR, RNGA and RNGP of a chain (19 R278): a wait takes or passes at once or blocks, or traps at a
slab in ERROR; a post, a thaw and a publish are pending once the chain's transfers are over; POSTR 0 changes its tag at once by the
table of 05 R68. -/
def Obligations.ChainSyncWords : Prop :=
  (∀ q s h, Chains s h → Begins h →
    (1 ≤ semView h.ce.ops h.ce.due h.jb q → WordDone (.wWaits q) s h true 0 [] (fun x => x) (fun x => x) fun j => { j with
      sems := j.sems.set q.toFin { j.sems[q.toFin] with
        c := j.sems[q.toFin].c - 1, decs := j.sems[q.toFin].decs ++ [(some h.ch.region, j.seq)] }
      seq := j.seq + 1 }) ∧
    (semView h.ce.ops h.ce.due h.jb q < 1 → WordBlocks (.wWaits q) s h (.sem q false)) ∧
    (Settled h → semView h.ce.ops h.ce.due h.jb q < 2 ^ 32 - 1 →
      WordDone (.wPosts q) s h true 0 [] (fun x => x) (fun x => x) (pending h (.semPost q 1)))) ∧
  (∀ (n : BitVec 8) s h w rest a, Chains s h → Begins h → h.ch.stack = w :: rest → rest.length ≤ 8 → SlabWord h w a →
    a + n.toNat + 1 ≤ h.jb.hdr.slabs - h.jb.hdr.wsa - h.jb.hdr.wsx →
    ((∀ k, k ≤ n.toNat → (h.jb.tag (a + k)).st = .full) →
      WordDone (.wWaitr n) s h true 1 [] (fun x => x) (fun x => x) (fun x => x)) ∧
    ∀ k, k ≤ n.toNat → (∀ i, i < k → (h.jb.tag (a + i)).st = .full) →
      (h.jb.tag (a + k)).st = .empty ∨ (h.jb.tag (a + k)).st = .filling →
      WordBlocks (.wWaitr n) s h (.rime (a + k) (a + n.toNat))) ∧
  (∀ (n : BitVec 8) s h w rest a k, Chains s h → h.ch.begun = true → h.ch.stack = w :: rest → rest.length ≤ 8 → SlabWord h w a →
    a + n.toNat + 1 ≤ h.jb.hdr.slabs - h.jb.hdr.wsa - h.jb.hdr.wsx → k ≤ n.toNat →
    (∀ i, i < k → (h.jb.tag (a + i)).st = .full) → (h.jb.tag (a + k)).st = .error →
    exec (.wWaitr n) s = .next (s.putJob { h.jb with
      traps := h.jb.traps ++ [tagFault (h.jb.tag (a + k)) (a + k) (h.ch.dlv h.e) h.ch.region h.ch.ptr] })) ∧
  (∀ s h n w rest slab, Chains s h → Begins h → h.ch.stack = n :: w :: rest → rest.length ≤ 8 → SlabWord h w slab → Settled h →
    ∃ u x j ch t, exec .wPostrPost s = .next u ∧ u.cell s.cur.1 = some x ∧ x.job = some j ∧ Posted (h.jb.tag slab) n.toNat t ∧
      j.tag slab = t ∧ (∀ m, m ≠ slab → j.tag m = h.jb.tag m) ∧
      (j.eng h.e).chain = some ch ∧ ch.stack = rest ∧ ch.ptr = h.ch.ptr + 2 ∧ ch.begun = true ∧ ch.wait = none ∧
      look j.results h.ch.region = some h.clk ∧
      (t.st ≠ .error → j.mem = h.jb.mem) ∧ j.rings = h.jb.rings ∧ j.sems = h.jb.sems) ∧
  (∀ s h w rest slab, Chains s h → Begins h → h.ch.stack = w :: rest → rest.length ≤ 8 → SlabWord h w slab → Settled h →
    WordDone .wPostrThaw s h true 1 [] (fun x => x) (fun x => x) (pending h (.thaw slab))) ∧
  (∀ (q : BitVec 4) s h, Chains s h → Begins h → h.ch.stack.length < 8 → (h.jb.rings[q.toFin]).cnt ≠ 0 →
    let r := h.jb.rings[q.toFin]
    (r.cls = true → WordDone (.wRngaWord q) s h true 0 [-1] (fun x => x) (fun x => x) (fun x => x)) ∧
    (r.cls = false → r.free ≠ 0 → ∃ sv, WordDone (.wRngaWord q) s h true 0 [r.pix.setWidth 64] (fun x => x) (fun x => x) fun j =>
      { j with
        ringSaves := sv
        rings := j.rings.set q.toFin
          { r with free := r.free - 1, pix := BitVec.ofNat 8 ((r.pix.toNat + 1) % r.cnt.toNat) } }) ∧
    (r.cls = false → r.free = 0 → WordBlocks (.wRngaWord q) s h (.ringFree q))) ∧
  ∀ close (q : BitVec 4) s h w rest, Chains s h → Begins h → h.ch.stack = w :: rest → rest.length ≤ 8 →
    (h.jb.rings[q.toFin]).cnt ≠ 0 → w.toNat < (h.jb.rings[q.toFin]).cnt.toNat → Settled h →
    (h.jb.rings[q.toFin]).fill.toNat + ringPending h.ce.due h.jb q true + 1 ≤ 255 →
    WordDone (.wRngpWord close q) s h true 1 [] (fun x => x) (fun x => x) (pending h (.ringPublish q close))

/-- STAGE, LINK and END (19 R276, R277, R296, R298): what STAGE pushes; LINK 0 goes to another word; LINK 1 of a stream chain passes
the end of its region, with an empty stack and no shapes; END of a stream chain ends it. Both wait while four regions are
uncommitted (01 R22). END of a kicked chain completes its launch and leaves its stack. -/
def Obligations.ChainStageLinkEnd : Prop :=
  (∀ s h, Chains s h → Begins h → h.ch.stack.length ≤ 6 →
    (∀ a b rest, (h.jb.eng h.e).stage = (a, b) :: rest →
      WordDone .wStagePair s h true 0 [b, a] (fun x => x) (fun e => { e with stage := rest }) (fun x => x)) ∧
    ((h.jb.eng h.e).stage = [] → h.jb.ac.live = true → WordBlocks .wStagePair s h .stage)) ∧
  (∀ s h, Chains s h → Begins h → h.ch.stack.length ≤ 7 →
    WordDone .wStageIteration s h true 0
      [if 1 ≤ h.ch.region ∧ h.jb.inEpilogue h.ch.region = false then BitVec.ofNat 64 ((h.ch.region - 1) % 2 ^ 32) else 0]
      (fun x => x) (fun x => x) (fun x => x) ∧
    (h.jb.inKernel h.ch.region = false → WordDone .wStageSlot s h true 0 [0xFF] (fun x => x) (fun x => x) (fun x => x)) ∧
    (∀ sl, h.jb.inKernel h.ch.region = true → h.ch.region < h.jb.ac.region → look h.jb.decisions (h.ch.region - 1) = some (.take sl) →
      WordDone .wStageSlot s h true 0 [sl.setWidth 64] (fun x => x) (fun x => x) (fun x => x))) ∧
  (∀ s h w rest, Chains s h → Begins h → h.ch.stack = w :: rest → rest.length ≤ 8 → w.toNat < 2 ^ 48 → w.toNat % 2 = 0 →
    WordDone .wLinkJump s h true 1 [] (fun c => { c with ptr := w }) (fun x => x) (fun x => x)) ∧
  (∀ s h, Chains s h → h.ch.role = .stream → h.jb.inEpilogue h.ch.region = false → Settled h →
    h.ch.region < h.jb.committed + 3 →
    let r := h.ch.region + 1
    let ent := if h.e = 0 then h.jb.hdr.ce0 else h.jb.hdr.ce1
    let next : Chain := { h.ch with
      begun := true, region := r, stack := [], shapes := Vector.replicate 4 none, wait := some .elastic }
    let goes (ch : Chain) : Prop := exec .wLinkBoundary s = .next (s.putJob
      ({ h.jb with progress := h.clk }.setEng h.e { h.jb.eng h.e with chain := some ch }))
    (h.jb.inEpilogue r = true → ent[2] ≠ 0 → goes { next with ptr := ent[2], wait := none }) ∧
    (h.jb.inEpilogue r = true → ent[2] = 0 → goes { next with live := false, wait := none }) ∧
    (∀ t, h.jb.inEpilogue r = false → h.jb.trip = .counted t → ent[1] ≠ 0 → goes { next with ptr := ent[1], wait := none }) ∧
    (∀ t, h.jb.inEpilogue r = false → h.jb.trip = .counted t → ent[1] = 0 → goes
      (if r < h.jb.committed + 3 then { next with region := r + 1 } else next)) ∧
    ∀ q, h.jb.inEpilogue r = false → h.jb.trip = .elastic q → look h.jb.decisions (r - 1) = none → goes next) ∧
  (∀ s h, Chains s h → h.ch.role = .stream → Settled h → h.jb.committed + 3 ≤ h.ch.region →
    (h.jb.inEpilogue h.ch.region = false → WordStalls .wLinkBoundary s h) ∧ WordStalls .wEnd s h) ∧
  (∀ s h, Chains s h → h.ch.role = .stream → Settled h → h.ch.region < h.jb.committed + 3 →
    exec .wEnd s = .next (s.putJob ({ h.jb with progress := h.clk }.setEng h.e { h.jb.eng h.e with
      chain := some { h.ch with begun := true, live := false, wait := none } }))) ∧
  ∀ s h op lk, Chains s h → h.ch.role = .kicked op lk → h.ch.begun = true → Settled h →
    ∃ u x j, exec .wEnd s = .next u ∧ u.cell s.cur.1 = some x ∧ x.job = some j ∧ (j.eng h.e).chain = none ∧
      (j.eng h.e).left = ((h.jb.eng h.e).left.filter fun y => y.1 != h.ch.region) ++ [(h.ch.region, h.ch.stack)] ∧
      (j.eng h.e).kicks = (h.jb.eng h.e).kicks ∧ (∀ y ∈ x.ops, y.id = op → y.status = .complete) ∧
      look j.results h.ch.region = some h.clk ∧ j.progress = h.clk ∧ j.mem = h.jb.mem ∧
      j.tags = h.jb.tags ∧ j.ac = h.jb.ac ∧ j.xc = h.jb.xc ∧ j.deferred = h.jb.deferred

namespace Sys2Proof.Claims

/-- As IssuesOp and PointDone, for words of the AC on G and on crews: `c` is the state in which the operation joins, `g` whether
the access may enter a translation in the cell's cache. -/
def PointDoneG (i : Instr) (s : State) (h h1 : Here) (sy : Sync) (f : OrdF) (deps : List Nat) (c : CoreState)
    (d : List Deferred) (J : Job → Job) : Prop :=
  ∃ j tlb, exec i s = .next (issuedState s (pointOf s h1 f deps) j fun x => { x with tlb := tlb }) ∧
    Issued h sy f (pointOf s h1 f deps) none c d h1.jb.lq h.jb.sq J j

/-- The state with a crew of the moving job's context changed. -/
def crewed (s : State) (h : Here) (id : Nat) (f : Crew → Crew) : State :=
  s.modPkg s.cur.1.pkg fun p => p.modCrew h.jb.ctx id f

def CrewDone (i : Instr) (s : State) (h h1 : Here) (sy : Sync) (f : OrdF) (deps : List Nat) (c : CoreState) (id : Nat)
    (F : Crew → Crew) (J : Job → Job) : Prop :=
  ∃ j, exec i s = .next (issuedState (crewed s h id F) (pointOf s h1 f deps) j fun x => x) ∧
    Issued h sy f (pointOf s h1 f deps) none c h.jb.deferred h1.jb.lq h.jb.sq J j

/-- A member takes part from the pending generation's successor on where one is pending (01 R30). -/
def joined (uid : Nat) (c : Crew) : Crew :=
  if ∃ m ∈ c.members, m.1 = uid then c
  else { c with members := c.members ++ [(uid, if c.arrived = [] then c.gen else c.gen + 1)] }

/-- CRBAR (21 R315, 01 R30, R31) in one of its forms: `op` folds the contributions from the identity `e`. -/
def CrewBar (i : Instr) (rd ra : BitVec 6) (rb : Option (BitVec 6)) (f : OrdF) (sy : Sync) (op : Word → Word → Word) (e : Word) :
    Prop :=
  ∀ s h h1, Meets s sy [] h [] h1 → Base h ra → h.st.isBusy (rb.getD 0) = false → (∀ r ∈ rb, (h.reg r).p = .none) →
    h.st.isBusy rd = false → (h.reg ra).v.toNat < 4096 → HasRoom h1 f →
    let deps := unionOnce (h.reg ra).dep (h.reg (rb.getD 0)).dep
    let id := (h.reg ra).v.toNat
    let c := h.pk.crew h.jb.ctx id
    let out (l : List Word) : CoreState := passedWith h.st rd ⟨l.foldl op e, .none, [s.nextId]⟩
    predsDone h1.ce.ops (h1.preds f deps) = true →
    (h.st.granted = false → (∀ q ∈ c.passed, q.job ≠ h.jb.uid) → (∀ m ∈ c.members, m.1 ≠ h.jb.uid) →
      PointDone i s h h1 sy f deps (out []) h.jb.deferred fun y => y) ∧
    (∀ q, h.st.granted = true → (c.passed.filter fun q => q.job == h.jb.uid).getLast? = some q →
      PointDone i s h h1 sy f deps (out q.contribs) h.jb.deferred fun y => y) ∧
    (∀ q, h.st.granted = false → (c.passed.filter fun q => q.job == h.jb.uid && q.region.isNone) = [q] →
      CrewDone i s h h1 sy f deps (out q.contribs) id
        (fun c => { c with passed := c.passed.map fun x => if x = q then { x with region := some h.region } else x }) fun y => y) ∧
    ∀ m, h.st.granted = false → (∀ q ∈ c.passed, q.job ≠ h.jb.uid) → m ∈ c.members → m.1 = h.jb.uid →
      (∀ m ∈ c.members, m.1 = h.jb.uid → m.2 ≤ c.gen) →
      exec i s = .next ((crewed s h id fun c => { c with
          arrived := c.arrived ++ [(h.jb.uid, h.region, rb.map fun r => (h.reg r).v)] }).putJob
        (h1.jb.setCore h.k { h1.st with wait := some (.crew id c.gen) }))

end Sys2Proof.Claims

/-- TSPAWN, TJOIN, PQPUSH, PQFLUSH, TNOW and TPRIO (21 R312, R313, R316 to R318): a spawn, a push and a flush are pending until their
commit; a join on a word that reads 0 passes and on any other waits; TNOW reads the time base; TPRIO sets the priority. -/
def Obligations.TaskWords : Prop :=
  (∀ (o : OpE1) s h h1 t bs, Meets s o.sy [] h [] h1 → Base h o.ra → { h1.ce with job := some h1.jb }.hasPlace = true →
    h1.checkAt .g 0 (h.reg o.ra).v 64 .load = .ok t → HasRoom h1 o.f → Unheld h1 o.f (h.reg o.ra).dep →
    h1.readNow o.f (h.reg o.ra).dep (h1.ownTarget t) (h.reg o.ra).v 64 = (bs, .none) → recordBad bs h1.who.secure = [] →
    ∃ d, Pends h h1 o.f (h.reg o.ra).dep (.spawn (readTask bs)) d ∧
      PointDoneG (.tspawn o) s h h1 o.sy o.f (h.reg o.ra).dep (passed h.st) d (fun y => y)) ∧
  (∀ (o : OpE1) s h h1 t bs, Meets s o.sy [] h [] h1 → Base h o.ra → h1.checkAt .g 0 (h.reg o.ra).v 8 .load = .ok t →
    HasRoom h1 o.f → predsDone h1.ce.ops (h1.preds o.f (h.reg o.ra).dep) = true → h.st.granted = false →
    h1.readNow o.f (h.reg o.ra).dep (h1.ownTarget t) (h.reg o.ra).v 8 = (bs, .none) →
    (leNat bs = 0 → PointDoneG (.tjoin o) s h h1 o.sy o.f (h.reg o.ra).dep (passed h.st) h.jb.deferred (fun y => y)) ∧
    (leNat bs ≠ 0 → ∃ tlb, exec (.tjoin o) s = .next (s.modCell s.cur.1 fun x => { x with
      tlb := tlb, job := some (h1.jb.setCore h.k { h1.st with wait := some (.join (h.reg o.ra).v.toNat) }) }))) ∧
  (∀ (o : OpPq) s h h1 r, Meets s o.sy [] h [] h1 → Base h o.ra → SAt h (h.reg o.ra).v 64 64 →
    h.ce.shadows[o.shadow.toFin].bind ≠ none → HasRoom h1 o.f → Unheld h1 o.f (h.reg o.ra).dep →
    h1.readS o.f (h.reg o.ra).dep (h.reg o.ra).v.toNat 64 = r → (∀ p ∈ r.2, p = Poison.none) → h1.unsent o.shadow < 128 →
    ∃ d, Pends h h1 o.f (h.reg o.ra).dep (.pqPush o.shadow r.1) d ∧
      PointDone (.pqpush o) s h h1 o.sy o.f (h.reg o.ra).dep (passed h.st) d (fun y => y)) ∧
  (∀ (o : OpPq) s h h1, Meets s o.sy [] h [] h1 → h.ce.shadows[o.shadow.toFin].bind ≠ none → HasRoom h1 o.f →
    Unheld h1 o.f [] →
    let op := h1.mkOp s.nextId o.f .point .nowhere (h1.preds o.f []) .waiting 0
    ∃ d j, Pends h h1 o.f [] (.pqFlush o.shadow s.nextId) d ∧
      exec (.pqflush o) s = .next (issuedState s op j fun x => x) ∧
      Issued h o.sy o.f op (some s.nextId) (passed h.st) d h.jb.lq h.jb.sq (fun y => y) j) ∧
  (∀ (o : OpTnow) s h h1, Meets s o.sy [] h [] h1 → HasRoom h1 o.f → Unheld h1 o.f [] → h.st.isBusy o.rd = false →
    PointDone (.tnow o) s h h1 o.sy o.f [] (passedWith h.st o.rd ⟨BitVec.ofNat 64 (s.now / 252), .none, [s.nextId]⟩) h.jb.deferred
      (fun y => y)) ∧
  ∀ (o : OpE1) s h h1, Meets s o.sy [] h [] h1 → Base h o.ra → HasRoom h1 o.f → Unheld h1 o.f (h.reg o.ra).dep →
    let v := (h.reg o.ra).v
    PointDone (.tprio o) s h h1 o.sy o.f (h.reg o.ra).dep (passed h.st) h.jb.deferred
      (fun y => { y with prio := if v.extractLsb' 2 62 = 0 then v.extractLsb' 0 2 else 3 })

/-- CRJOIN, CRLEAVE and the forms of CRBAR (21 R314, R315; 01 R30, R31). Each CRBAR combines by its own form where members differ
(DEDUCED, notes/assumptions/52.md). -/
def Obligations.CrewWords : Prop :=
  (∀ (o : OpE1) s h h1, Meets s o.sy [] h [] h1 → Base h o.ra → (h.reg o.ra).v.toNat < 4096 → HasRoom h1 o.f →
    Unheld h1 o.f (h.reg o.ra).dep →
    let id := (h.reg o.ra).v.toNat
    ((h.pk.crew h.jb.ctx id).members.length < 65535 ∨ (∃ m ∈ (h.pk.crew h.jb.ctx id).members, m.1 = h.jb.uid) →
      CrewDone (.crjoin o) s h h1 o.sy o.f (h.reg o.ra).dep (passed h.st) id (joined h.jb.uid)
        (fun y => { y with crews := if id ∈ y.crews then y.crews else y.crews ++ [id] })) ∧
    ((∀ m ∈ (h.pk.crew h.jb.ctx id).members, m.1 ≠ h.jb.uid) → 65535 ≤ (h.pk.crew h.jb.ctx id).members.length →
      ∃ v, exec (.crjoin o) s = .next (h1.overflow 2 id v).close)) ∧
  (∀ (o : OpE1) s h h1, Meets s o.sy [] h [] h1 → Base h o.ra → (h.reg o.ra).v.toNat < 4096 → HasRoom h1 o.f →
    Unheld h1 o.f (h.reg o.ra).dep →
    let id := (h.reg o.ra).v.toNat
    CrewDone (.crleave o) s h h1 o.sy o.f (h.reg o.ra).dep (passed h.st) id (fun c => c.leave h.jb.uid h.region)
      (fun y => { y with crews := y.crews.filter (· ≠ id) }) ∧
    ∀ c : Crew, (∀ m ∈ (c.leave h.jb.uid h.region).members, m.1 ≠ h.jb.uid) ∧
      (∀ m ∈ c.members, m.1 ≠ h.jb.uid → m ∈ (c.leave h.jb.uid h.region).members) ∧
      (c.leave h.jb.uid h.region).arrived = c.arrived ∧ (c.leave h.jb.uid h.region).gen = c.gen) ∧
  (∀ o : OpE1, CrewBar (.crbar o) 0 o.ra none o.f o.sy (fun _ _ => 0) 0) ∧
  (let form (c : OpCrbar → Instr) (op : Word → Word → Word) (e : Word) : Prop :=
    ∀ o : OpCrbar, CrewBar (c o) o.rd o.ra (some o.rb) o.f o.sy op e
   form .crbarAdd (· + ·) 0 ∧
   form .crbarMin (fun x y => if x.toInt ≤ y.toInt then x else y) (BitVec.ofInt 64 (2 ^ 63 - 1)) ∧
   form .crbarMax (fun x y => if x.toInt ≤ y.toInt then y else x) (BitVec.ofInt 64 (-2 ^ 63)) ∧
   form .crbarAnd (· &&& ·) (BitVec.allOnes 64) ∧ form .crbarOr (· ||| ·) 0 ∧ form .crbarXor (· ^^^ ·) 0)

/-- TLBINV, SEAL (07 R100; 23 R352, R360, R361). TLBINV drops what it covers from every cache of the package and then waits; SEAL
of a range already listed completes; one with room enters the range and its frames and then waits. -/
def Obligations.InvalidateAndSeal : Prop :=
  (let drops (i : Instr) (l : List Src) (sy : Sync) (f : OrdF) (all : Bool) (cover : Nat → TlbEnt → Bool) : Prop :=
    ∀ s h vs h1, Meets s sy l h vs h1 → Clean vs → (nth vs 0).toNat < 2 ^ 48 → HasRoom h1 f →
      predsDone h1.ce.ops (h1.preds f (joinDep vs)) = true →
      ∃ u p x j w va, exec i s = .next u ∧ u.nextId = s.nextId + 1 ∧ u.pkg s.cur.1.pkg = some p ∧
        (∀ n, n ≠ s.cur.1.pkg → u.pkg n = s.pkg n) ∧ p.hbm = h.pk.hbm ∧ p.ctxs = h.pk.ctxs ∧
        (∀ c : Fin 192, p.cells[c].tlb =
          h.pk.cells[c].tlb.filter fun t => !(t.ctx == h.jb.ctx && cover ((nth vs 0).toNat / 4096 * 4096) t)) ∧
        p.cells[s.cur.1.cell]? = some x ∧ x.job = some j ∧ j.core h.k = passed h.st ∧ j.mem = h.jb.mem ∧
        x.invals = h.ce.invals ++ [⟨s.nextId, false, all, h.jb.uid, s.nextId, w⟩] ∧
        SyncDone h sy (released h1 (h1.mkOp s.nextId f .point .nowhere (h1.preds f (joinDep vs)) .waiting va)) (some s.nextId)
          h.jb.deferred j
   (∀ o : OpE1, drops (.tlbinv o) [.reg o.ra] o.sy o.f false fun a t =>
      t.vpn * 4096 / pageBytes t.level == a / pageBytes t.level) ∧
   ∀ f sy, drops (.tlbinvAll f sy) [] sy f true fun _ _ => true) ∧
  ∀ ra rb f sy s h vs h1 cx ls, Meets s sy [.reg ra, .reg rb] h vs h1 → Clean vs → HasRoom h1 f →
    predsDone h1.ce.ops (h1.preds f (joinDep vs)) = true → h.ctx = some cx → cx.secure = true →
    let a := (nth vs 0).toNat
    let n := (nth vs 1).toNat
    a % 4096 = 0 → n % 4096 = 0 → 0 < n → n ≤ 2 ^ 40 → h.pk.sealLeaves cx a (a + n) (n / 4096) a = .ok ls →
    ((∃ r ∈ cx.seals, r.base = a ∧ r.len = n) →
      ∃ j, exec (.seal ra rb f sy) s = .next (issuedState s (pointOf s h1 f (joinDep vs)) j fun x => x) ∧
        Issued h sy f (pointOf s h1 f (joinDep vs)) none (passed h.st) h.jb.deferred h1.jb.lq h.jb.sq (fun y => y) j) ∧
    ((∀ r ∈ cx.seals, r.base + r.len ≤ a ∨ a + n ≤ r.base) → (∀ r ∈ cx.seals, ¬(r.base = a ∧ r.len = n)) →
      cx.seals.length < 64 → (∀ l ∈ ls, l.e.testBit 7 = false) →
      ∃ u p x j c w, exec (.seal ra rb f sy) s = .next u ∧ u.pkg s.cur.1.pkg = some p ∧ u.cell s.cur.1 = some x ∧
        x.job = some j ∧ j.core h.k = passed h.st ∧ j.mem = h.jb.mem ∧
        x.invals = h.ce.invals ++ [⟨s.nextId, true, false, h.jb.uid, s.nextId, w⟩] ∧
        p.ctx h.jb.ctx = some c ∧ c.seals = cx.seals ++ [⟨a, n, ls.flatMap SealLeaf.frames⟩] ∧
        (∀ l ∈ ls, ∀ k, k < pageBytes l.level / 4096 → ∃ e, (l.base / 4096 + k, e) ∈ ls.flatMap SealLeaf.frames ∧
          e / 4096 = l.e / 4096 % 2 ^ 40 + k ∧ e.testBit 5 = true ∧ e.testBit 3 = false)) ∧
    ∀ e, (sealEntry e).testBit 5 = true ∧ (sealEntry e).testBit 3 = false ∧
      ∀ b, b < 64 → b ≠ 3 → b ≠ 5 → (sealEntry e).testBit b = e.testBit b

/-- ERET (23 R358): in a handler that has not executed one, with its earlier operations complete, it reads the frame's live-ins,
which the commit of its region applies; elsewhere it is illegal. HALT (R363) ends the job: no job runs on the cell, it is in no crew,
what it had issued and not sent is gone, what has left answers nobody, memory (a join word too) holds what it held, and event 0x08 is
written; a handler without a committed ERET abandons its faulted task. -/
def Obligations.EretAndHalt : Prop :=
  (∀ sy s h h1 u bs q, Meets s sy [] h [] h1 → h.jb.eretOf = some u → h.jb.eretAt = none →
    (∀ o ∈ h.ce.ops, o.job = h.jb.uid → o.eng = h.k.eng → o.dropped = true ∨ o.status = .complete) →
    h1.pk.readG h1.who (h.jb.qrec.task.frame.toNat + 0x0C0) 0x440 .load = .ok (bs, q) → q ≠ .data →
    ∃ (j : Job) (r : EretRead), exec (.eret sy) s = .next (s.putJob j) ∧
      (∀ i : Fin 64, r.regsA[i].v = BitVec.ofNat 64 (leNat ((bs.drop (0x40 + 8 * i)).take 8)) ∧
        r.regsX[i].v = BitVec.ofNat 64 (leNat ((bs.drop (0x240 + 8 * i)).take 8)) ∧
        r.regsA[i].p.code = leNat (bs.take 16) / 4 ^ i.val % 4 ∧
        r.regsX[i].p.code = leNat ((bs.drop 16).take 16) / 4 ^ i.val % 4) ∧
      LeavesWith [] h h1 sy [] [] (passed h.st) h.jb.sq
        h.jb.deferred (fun y => { y with eretAt := some h.region, eretRead := some r }) j) ∧
  (∀ sy s h, s.here = some h → h.jb.eretOf = none ∨ h.jb.eretAt ≠ none → Illegal (.eret sy) s h) ∧
  ∀ sy s h h1, Meets s sy [] h [] h1 →
    ∃ (u : State) (p : Package) (x : CellState) (q : Package), exec (.halt sy) s = .next u ∧ u.pkg s.cur.1.pkg = some p ∧ u.cell s.cur.1 = some x ∧ x.job = none ∧
      (∀ o ∈ x.ops, o.job = h.jb.uid → o.dropped = true) ∧ u.now = s.now ∧ (∀ n, n ≠ s.cur.1.pkg → u.pkg n = s.pkg n) ∧
      q.hbm = h.pk.hbm ∧ q.fns = h.pk.fns ∧
      (∀ cx, q.ctx h.jb.ctx = some cx → ∀ c ∈ cx.crews, (∀ m ∈ c.members, m.1 ≠ h.jb.uid) ∧ ∀ m ∈ c.arrived, m.1 ≠ h.jb.uid) ∧
      (let e := q.event s.ns h.jb.ctx 0x08 2 (placeOfCell s.cur.1.cell) (h.st.pc.toNat % 2 ^ 32)
       (∀ v, h.jb.eretOf = some v → h.jb.eretAt.any (· < h.jb.committed) = false → p = e.abandon s.ns 256 v) ∧
       (h.jb.eretOf = none ∨ h.jb.eretAt.any (· < h.jb.committed) = true → p = e)) ∧
      (h.jb.eretOf = none → x.preempt = false ∧ x.heldJob.map (·.uid) = h.ce.heldJob.map (·.uid) ∧
        x.queue.map (·.task) = h.ce.queue.map (·.task))

/-- Where control words trap (11 R151, R152, R155, R159, R161, R162, R164, R166; 07 R97): as the last word of an active loop, on a
misaligned target, RET at depth 0, LOOP beyond three or past the end of the loop around it, KLOOP and TDONE out of place, CSRW
of kps outside the prologue; and the use of a poisoned target. -/
def Obligations.ControlTraps : Prop :=
  (∀ s h, s.here = some h → h.st.atLoopEnd = true →
    (∀ d hint, Illegal (.br d hint) s h) ∧ (∀ o, Illegal (.beq o) s h ∧ Illegal (.bne o) s h ∧ Illegal (.blt o) s h ∧
      Illegal (.bge o) s h ∧ Illegal (.bltu o) s h ∧ Illegal (.bgeu o) s h) ∧ (∀ ra sy, Illegal (.jmp ra sy) s h) ∧
    (∀ d ss, Illegal (.call d ss) s h) ∧ (∀ ra ss sy, Illegal (.callr ra ss sy) s h) ∧ ∀ sy, Illegal (.ret sy) s h) ∧
  (∀ ra ss sy s h vs h1, Meets s sy [ra] h vs h1 → h.st.atLoopEnd = false → Clean vs → (nth vs 0).extractLsb' 0 3 ≠ 0 →
    Illegal (.jmp ra sy) s h1 ∧ Illegal (.callr ra ss sy) s h1) ∧
  (∀ n ss sy s h vs h1, Meets s sy [.reg n] h vs h1 → h.st.atLoopEnd = false →
    UsesPoison (.jmp (.reg n) sy) s h1 (h.reg n).p n.toNat 0 ∧ UsesPoison (.callr (.reg n) ss sy) s h1 (h.reg n).p n.toNat 0) ∧
  (∀ (o : OpBr) s h a b h1, Meets s Sync.zero [o.ra, o.rb] h [a, b] h1 → h.st.atLoopEnd = false →
    ∀ i ∈ [Instr.beq o, .bne o, .blt o, .bge o, .bltu o, .bgeu o],
      if b.p.code ≤ a.p.code then UsesPoison i s h1 a.p (srcReg o.ra) 0 else UsesPoison i s h1 b.p (srcReg o.rb) 1) ∧
  (∀ sy s h, s.here = some h → h.st.calls = [] → Illegal (.ret sy) s h) ∧
  (∀ t imm sy s h, s.here = some h → 3 ≤ h.st.loops.length ∨
    (∃ e es, h.st.loops = e :: es ∧ e.depth = h.st.calls.length ∧ e.last.toNat < (h.st.pc + 8 * imm.setWidth 64).toNat) →
    Illegal (.loop t imm sy) s h) ∧
  (∀ stg sy s h, s.here = some h → h.jb.inKernel h.region = false ∨ stg ≠ h.st.kps.stg ∨ h.st.flat = false →
    Illegal (.kloop stg sy) s h) ∧
  (∀ sy s h, s.here = some h → h.jb.inEpilogue h.region = false ∨ h.st.flat = false → Illegal (.tdone sy) s h) ∧
  ∀ ra sy s h, s.here = some h → h.region ≠ 0 → Illegal (.csrw ra 0x044 sy) s h

namespace Sys2Proof.Claims

/-- Cell `c` of the state is `x`, and the package it lies on is `p`. -/
structure CellAt (s : State) (c : CellId) (p : Package) (x : CellState) : Prop where
  pkg : s.pkg c.pkg = some p
  cell : p.cell c.cell = some x

/-- Its running job is `j`. -/
structure RunsAt (s : State) (c : CellId) (p : Package) (x : CellState) (j : Job) : Prop extends CellAt s c p x where
  job : x.job = some j

/-- `o` is an operation in flight of the cell, found by its name. -/
structure HasOp (s : State) (c : CellId) (p : Package) (x : CellState) (o : MemOp) : Prop extends CellAt s c p x where
  op : x.op o.id = some o

/-- An event changes one package, which is then as `P` says, and nothing else of the state. -/
def Makes (e : Instr) (s : State) (n : Nat) (P : Package → Prop) : Prop := ∃ q, exec e s = .next (s.setPkg n q) ∧ P q

/-- An event changes one cell. -/
def Alters (e : Instr) (s : State) (c : CellId) (f : CellState → CellState) : Prop := exec e s = .next (s.modCell c f)

/-- An event changes one running job. -/
def Moves (e : Instr) (s : State) (c : CellId) (j : Job) : Prop := exec e s = .next (s.modCell c fun x => { x with job := some j })

/-- The operations of a cell with one changed. -/
def opSet (id : Nat) (f : MemOp → MemOp) (x : CellState) : CellState :=
  { x with ops := x.ops.map fun o => if o.id = id then f o else o }

/-- An operation completes, and the operations that nothing later needs are forgotten. -/
def opEnds (id : Nat) (x : CellState) : CellState := { x with ops := tidy (opSet id (fun o => { o with status := .complete }) x).ops }

/-- A memory with the bytes `bs` from `a` on, and every other byte as before. -/
def WroteBytes (m m' : List Host.Cell) (a : Nat) (bs : List Byte) : Prop :=
  ∀ b, memGet m' b = if a ≤ b ∧ b < a + bs.length then (bs[b - a]?).getD 0 else memGet m b

/-- A write that has left its cell, that nothing ordered before it or named in its stamp holds back. -/
structure Arrives (s : State) (p : Package) (x : CellState) (o : MemOp) : Prop where
  left : o.status = .left
  clean : o.fail = none
  free : s.free p x.ops o = true
  stamp : s.stampReady o = true

/-- The new value of an atomic of R183 on n bits; none where a compare fails. -/
def atomicTable (op : AtOp) {n : Nat} (old b cmp : BitVec n) : Option (BitVec n) :=
  match op with
  | .add => some (old + b)
  | .and => some (old &&& b)
  | .or => some (old ||| b)
  | .xor => some (old ^^^ b)
  | .min => some (if old.toInt ≤ b.toInt then old else b)
  | .max => some (if old.toInt ≤ b.toInt then b else old)
  | .minu => some (if old.toNat ≤ b.toNat then old else b)
  | .maxu => some (if old.toNat ≤ b.toNat then b else old)
  | .swap => some b
  | .cas => if old = cmp then some b else none

/-- rd of an atomic of R183. -/
def atomicOld (op : AtOp) {n : Nat} (old : BitVec n) : Word :=
  match op with
  | .minu | .maxu => old.setWidth 64
  | _ => old.signExtend 64

/-- What a region saved at its start, after a value of an earlier region `k` arrives for a live-in (the log's entry 38). -/
def lateSave (j : Job) (k : Nat) (n : BitVec 6) (v : PVal) (w : CoreSave) : CoreSave :=
  if k < w.region ∧ n ≠ 0 ∧ j.hdr.liveA.getLsbD n.toNat = true then { w with regs := writtenRegs w.regs (.reg n) v } else w

/-- The job after a value that region `k` asked for arrives for register `n`: it is written, there and for the later regions; it
no longer waits; the accounts are `r`. -/
def filled (j : Job) (k : Nat) (n : BitVec 6) (v : PVal) (r : List (Nat × Nat)) : Job :=
  { j with results := r, ac := { j.ac with
      regs := writtenRegs j.ac.regs (.reg n) v, busy := j.ac.busy &&& ~~~(1#64 <<< n.toNat)
      saves := j.ac.saves.map (lateSave j k n v) } }

end Sys2Proof.Claims

/-- The life of a memory operation (01 R24; 13 R174, R176, R179, R183; 07 R99). A held write leaves 160 clk after its issue, in
issue order within its stream; leaving its die it carries the die's next sequence number (the log's entry 16: it names no other
write). Performed, a store changes its bytes and an atomic its n bits, nothing else; a counting write counts in its slab by the Arrival column of 05 R68, and one that sends the tag to ERROR marks its
ordering stream (23 R335); it does not arrive after an RPOST of the same clk. A response
brings the data or the old value; in place of a lost target it brings peer-lost poison; it may name the new place of a page. (What
a late value does to the saves of later regions is the log's entry 38.) -/
def Obligations.MemoryEvents : Prop :=
  (∀ c s p x o, HasOp s c p x o → o.status = .held →
    (p.clkOf c.cell < o.issued + 160 → exec (.storeDeparture c o.id) s = .next s) ∧
    (o.issued + 160 ≤ p.clkOf c.cell →
      (∀ q ∈ x.ops.takeWhile (fun q => q.id != o.id), q.job = o.job → q.eng = o.eng → q.os = o.os → q.status ≠ .held) →
      ((o.writes = false ∨ o.target.leavesDie c.cell = false) →
        Alters (.storeDeparture c o.id) s c (opSet o.id fun o => { o with status := .left })) ∧
      ∀ d, o.writes = true → o.target.leavesDie c.cell = true → p.dies[dieOf c.cell]? = some d →
        Makes (.storeDeparture c o.id) s c.pkg fun q =>
          q.cells = (p.modCell c.cell (opSet o.id fun o => { o with
            status := .left, stamp := some ⟨p.coord.toNat * 2 + dieOf c.cell, d.nextSeq, []⟩ })).cells ∧
          q.dies[dieOf c.cell]? = some { d with nextSeq := (d.nextSeq + 1) % 2 ^ 32, unapplied := d.unapplied ++ [d.nextSeq] } ∧
          (∀ n, n ≠ dieOf c.cell → q.dies[n]? = p.dies[n]?) ∧ q.hbm = p.hbm ∧ q.ctxs = p.ctxs ∧ q.fns = p.fns)) ∧
  (∀ c s p x o bs a va cm, HasOp s c p x o → Arrives s p x o → o.stamp = none → o.what = .store bs false →
    o.target = .hbm a va cm → p.migrating ⟨o.ctx, o.secure, some c.cell⟩ va = false → Memory.wf p.hbm = true →
    Makes (.memoryPerformed c o.id) s c.pkg fun q => WroteBytes p.hbm q.hbm a bs ∧ q.fns = p.fns ∧ q.dies = p.dies ∧
      q.cells = (p.modCell c.cell (opSet o.id fun o => { o with status := .applied, value := none, fail := none })).cells) ∧
  (∀ c s p x o op dbl b cmp fo dst a va cm, HasOp s c p x o → Arrives s p x o → o.stamp = none →
    o.what = .atomic op dbl b cmp fo dst → o.target = .hbm a va cm → ctagFmt (p.ctag (a / 4096)) = 0 →
    p.migrating ⟨o.ctx, o.secure, some c.cell⟩ va = false → Memory.wf p.hbm = true →
    marked p.marks a (if dbl then 8 else 4) = false →
    let n := if dbl then 64 else 32
    let old := BitVec.ofNat n (leNat (memRead p.hbm a (n / 8)))
    Makes (.memoryPerformed c o.id) s c.pkg fun q =>
      (∀ v, atomicTable op old (b.setWidth n) (cmp.setWidth n) = some v → WroteBytes p.hbm q.hbm a (natLe v.toNat (n / 8))) ∧
      (atomicTable op old (b.setWidth n) (cmp.setWidth n) = none → q.hbm = p.hbm) ∧ q.fns = p.fns ∧ q.dies = p.dies ∧
      q.cells = (p.modCell c.cell (opSet o.id fun q => { q with
        status := .applied, value := some ⟨atomicOld op old, .none, [o.id]⟩, fail := none })).cells) ∧
  (∀ c s p x j o bs off, RunsAt s c p x j → HasOp s c p x o → Arrives s p x o → o.job = j.uid → o.dropped = false →
    o.what = .store bs true → o.target = .carve off → off / 2048 = (off + bs.length - 1) / 2048 → 0 < bs.length →
    Memory.wf j.mem = true →
    let sl := off / 2048
    let t := j.tag sl
    let counts (t' : Tag) : Prop := Makes (.countingWriteArrival c (.op o.id)) s c.pkg fun q => ∃ y j', q.cell c.cell = some y ∧
      y.job = some j' ∧ WroteBytes j.mem j'.mem off bs ∧ j'.tag sl = t' ∧ (∀ n, n ≠ sl → j'.tag n = j.tag n) ∧ j'.ac = j.ac ∧
      j'.xc = j.xc ∧ j'.traps = j.traps ∧ q.hbm = p.hbm
    let c' := t.cnt.toNat + bs.length
    let fails (kind : BitVec 4) : Prop := Makes (.countingWriteArrival c (.op o.id)) s c.pkg fun q => ∃ y j',
      q.cell c.cell = some y ∧ y.job = some j' ∧
      j'.tag sl = { t with st := .error, kind := kind, cnt := BitVec.ofNat 12 (min 4095 c') } ∧
      (∀ n, n ≠ sl → j'.tag n = j.tag n) ∧ j'.ac = j.ac ∧ j'.xc = j.xc ∧
      ∀ k, o.eng.core? = some k → (j'.osErr[coreIx k]).getLsbD o.os.toNat = true
    (look j.posts sl = some (p.clkOf c.cell) → exec (.countingWriteArrival c (.op o.id)) s = .next s) ∧
    (look j.posts sl ≠ some (p.clkOf c.cell) →
    (t.st = .filling → t.pst = true → t.exp.toNat < c' → fails 1) ∧ (t.st = .full → fails 1) ∧
    (t.st = .filling → t.pst = false → 2048 < c' → fails 2) ∧
    (t.st = .error → c' < 4096 → counts { t with cnt := BitVec.ofNat 12 c' }) ∧
    (t.st = .filling → t.pst = true → t.cnt.toNat + bs.length < t.exp.toNat →
      counts { t with cnt := BitVec.ofNat 12 (t.cnt.toNat + bs.length) }) ∧
    (t.st = .filling → t.pst = true → t.cnt.toNat + bs.length = t.exp.toNat → counts { t with st := .full, cnt := t.exp }) ∧
    (t.st = .empty ∨ t.st = .filling → t.pst = false → t.cnt.toNat + bs.length ≤ 2048 →
      counts { t with st := .filling, cnt := BitVec.ofNat 12 (t.cnt.toNat + bs.length) }))) ∧
  (∀ c s p x o bs d off k g st, HasOp s c p x o → Arrives s p x o → o.stamp = some st →
    o.what = .store bs false → o.target = .cell d off → p.live d = true →
    (p.cell d).bind (fun y => y.resident o.ctx) = some k → off + bs.length ≤ k.limit → p.dies[dieOf c.cell]? = some g →
    Memory.wf k.mem = true →
    Makes (.stampedWriteApply c o.id) s c.pkg fun q =>
      (∃ k', (q.cell d).bind (fun y => y.resident o.ctx) = some k' ∧ k'.uid = k.uid ∧ WroteBytes k.mem k'.mem off bs ∧
        k'.tags = k.tags ∧ k'.ac = k.ac ∧ k'.xc = k.xc) ∧
      q.dies[dieOf c.cell]? = some { g with unapplied := g.unapplied.filter (· != st.seq) } ∧ q.hbm = p.hbm) ∧
  (∀ c s p x j o bytes sg n a va, RunsAt s c p x j → HasOp s c p x o → o.job = j.uid → o.dropped = false →
    o.status = .waiting → o.fail = none → (∀ q ∈ x.ops, o.preds.contains q.id = true → q.status = .complete) →
    j.engineWrites = [] → o.what = .load bytes sg (.reg n) → bytes ∈ [1, 2, 4, 8] → o.target = .hbm a va false →
    marked p.marks a bytes = false →
    Makes (.memoryResponse c o.id .data) s c.pkg fun q => q.hbm = p.hbm ∧ q.ctxs = p.ctxs ∧ ∃ y r, q.cell c.cell = some y ∧
      y.ops = (opEnds o.id x).ops ∧ y.job = some (filled j o.region n ⟨if sg then
          (BitVec.ofNat (8 * bytes) (leNat (memRead p.hbm a bytes))).signExtend 64
        else BitVec.ofNat 64 (leNat (memRead p.hbm a bytes)), .none, [o.id]⟩ r)) ∧
  (∀ c s p x o bs arr, HasOp s c p x o → o.status = .applied → o.fail = none → o.what = .store bs arr → o.value = none →
    Alters (.memoryResponse c o.id .data) s c (opEnds o.id)) ∧
  (∀ c s p x j o op dbl b cmp fo n v, RunsAt s c p x j → HasOp s c p x o → o.job = j.uid → o.dropped = false →
    o.status = .applied → o.fail = none → o.what = .atomic op dbl b cmp fo (.reg n) → o.value = some v →
    Makes (.memoryResponse c o.id .data) s c.pkg fun q => q.hbm = p.hbm ∧ ∃ y r, q.cell c.cell = some y ∧
      y.ops = (opEnds o.id x).ops ∧ y.job = some (filled j o.region n v r)) ∧
  (∀ c s p x j o bytes sg n k, RunsAt s c p x j → HasOp s c p x o → o.job = j.uid → o.dropped = false → o.fail = some .lost →
    o.status = .waiting → o.eng.core? = some k → o.what = .load bytes sg (.reg n) → bytes ∈ [1, 2, 4, 8] →
    Makes (.memoryResponse c o.id .synthesised) s c.pkg fun q => q.hbm = p.hbm ∧ ∃ y r e, q.cell c.cell = some y ∧
      y.job = some { filled j o.region n ⟨0, .peer, [o.id]⟩ r with osErr := e } ∧
      (∀ k' os, (e[coreIx k']).getLsbD os = ((j.osErr[coreIx k']).getLsbD os || (k' == k && os == o.os.toNat)))) ∧
  ∀ c s p x o t, HasOp s c p x o → s.reach c o = .moved t → o.status = .waiting ∨ o.status = .left →
    Alters (.memoryResponse c o.id .moved) s c (opSet o.id fun o => { o with target := t })

namespace Sys2Proof.Claims

/-- A core stream of the running job stands blocked on `w`, with no trap outstanding. -/
structure Blocked (s : State) (c : CellId) (p : Package) (x : CellState) (j : Job) (k : Core) (w : Wait) : Prop
    extends RunsAt s c p x j where
  live : (j.core k).live = true
  wait : (j.core k).wait = some w
  calm : ∀ t ∈ j.traps, t.dlv ≠ k.eng

/-- The chain `h` of engine `e` of cell `c` stands blocked on `w`, with no trap outstanding. -/
structure ChainBlocked (s : State) (c : CellId) (e : BitVec 1) (h : EHere) (w : Wait) : Prop where
  here : s.ehereAt c e = some h
  live : h.ch.live = true
  halted : h.ch.halted = false
  wait : h.ch.wait = some w
  calm : ∀ t ∈ h.jb.traps, t.dlv ≠ h.ch.dlv e

/-- The wait that the word at pc makes has ended: it will pass. -/
def granted (c : CoreState) : CoreState := { c with wait := none, granted := true }

/-- The wait has ended, and the word at pc is tried again. -/
def retried (c : CoreState) : CoreState := { c with wait := none }

/-- The chain past its blocked word, with `pops` entries less. -/
def chainOn (h : EHere) (pops : Nat) (push : List Word) : Chain :=
  { h.ch with stack := push ++ h.ch.stack.drop pops, ptr := h.ch.ptr + 2, wait := none }

/-- One taken from semaphore `q` by an operation of region `r`. -/
def taken (j : Job) (q : BitVec 6) (r : Nat) : Job :=
  { j with
    sems := j.sems.set q.toFin { j.sems[q.toFin] with c := j.sems[q.toFin].c - 1, decs := j.sems[q.toFin].decs ++ [(some r, j.seq)] }
    seq := j.seq + 1 }

/-- An event changes the job of a name on a cell. -/
def Turns (e : Instr) (s : State) (c : CellId) (uid : Nat) (F : Job → Job) : Prop := Alters e s c fun x => x.modJob uid F

/-- An event changes the running job of a cell into `j'`. -/
def Becomes (e : Instr) (s : State) (c : CellId) (p : Package) (x : CellState) (j' : Job) : Prop :=
  Makes e s c.pkg fun q => q.hbm = p.hbm ∧ q.ctxs = p.ctxs ∧ q.fns = p.fns ∧ ∃ y, q.cell c.cell = some y ∧ y.job = some j' ∧
    y.ops = x.ops ∧ y.due = x.due ∧ y.queue = x.queue

/-- A slot taken from a ring: FREE by a producer, FILL by a consumer (05 R71). -/
def acquired (r : Ring) : Ring := { r with free := r.free - 1, pix := BitVec.ofNat 8 ((r.pix.toNat + 1) % r.cnt.toNat) }
def consumed (r : Ring) : Ring := { r with fill := r.fill - 1, cix := BitVec.ofNat 8 ((r.cix.toNat + 1) % r.cnt.toNat) }

/-- What a queue operation waited for is there. -/
def QueueOpen (j : Job) (w : Wait) : Prop :=
  match w with
  | .popLq q => ∃ e es v, j.lq[q.toFin].ents = e :: es ∧ e.data = some v
  | .popRow q => ∃ e es v, j.lqRow[q.toFin].ents = e :: es ∧ e.data = some v
  | .popSq q => ∃ e es v, j.sq[q.toFin].ents = e :: es ∧ e.data = some v
  | .popSqRow q => ∃ e es v, j.sqRow[q.toFin].ents = e :: es ∧ e.data = some v
  | .pushSq q => j.sq[q.toFin].ents.length < 8
  | .pushRow q => j.sqRow[q.toFin].ents.length < 32
  | .reserve q => j.lq[q.toFin].ents.length < 8
  | .reserveRow q => j.lqRow[q.toFin].ents.length < 32
  | _ => False

/-- The end of a queue takes effect once its QEND has issued and every earlier push has delivered (13 R193). -/
def QueueEnds {α : Type} (q : QName) (get : Job → Queue α) (set : Job → Queue α → Job) : Prop :=
  ∀ c s p x j, RunsAt s c p x j → (get j).ending = true → (get j).ended = false →
    ((∀ e ∈ (get j).ents, e.data.isSome = true) →
      Turns (.queueEndEffect c q) s c j.uid fun j => set j { get j with ended := true }) ∧
    ((∃ e ∈ (get j).ents, e.data.isSome = false) → exec (.queueEndEffect c q) s = .next s)

/-- The predicates at the start of iteration `i` (11 R163). -/
def psAt (k : Kps) (i : Nat) (ps0 : Bool) : BitVec 8 :=
  BitVec.ofNat 8 ((if i = 0 then 0 else k.ps.toNat * 2 % 2 ^ (k.stg.toNat + 1)) + (if ps0 then 1 else 0))

/-- How many RDV `n` a stream has completed. -/
def rdvNo (c : CoreState) (n : BitVec 8) : Nat := (look c.rdv n.toNat).getD 0

/-- The predicates of a stream whose kernel has ended in place of iteration `i`: shifted, its epilogue entered with ITER 0 and no
slot (11 R162, R163). -/
def epilogued (c : CoreState) (i : Nat) (entry : Word) : CoreState :=
  { c with wait := none, started := true, pc := entry, kps := ⟨0, 0xFF, c.kps.stg, psAt c.kps i false⟩ }

/-- Whether a predicate of some stream is still set at the start of iteration `i`: an item was taken at most STG iterations
before. -/
def ItemAlive (j : Job) (i : Nat) : Prop :=
  ∃ d ∈ j.decisions, (∃ sl, d.2 = .take sl) ∧ d.1 < i ∧ (i ≤ d.1 + j.ac.kps.stg.toNat ∨ i ≤ d.1 + j.xc.kps.stg.toNat)

/-- The stream in iteration `i` of its kernel. -/
def iterating (c : CoreState) (i : Nat) (ps0 : Bool) (slot : BitVec 8) : CoreState :=
  { c with wait := none, started := true, kps := ⟨BitVec.ofNat 32 i, slot, c.kps.stg, psAt c.kps i ps0⟩ }

/-- A wait on `q` in region `r` ends the pending state of a completed write that posted it (15 R229). -/
def pendingEnds (q : BitVec 6) (r : Nat) (w : AsyncWrite) : AsyncWrite :=
  if w.complete = true ∧ w.endedBy = none ∧ w.sem = some q then { w with endedBy := some r } else w

/-- A core stream has met a rendezvous n. -/
def met (n : BitVec 8) (c : CoreState) : CoreState :=
  { granted c with rdv := put c.rdv n.toNat ((look c.rdv n.toNat).getD 0 + 1) }

end Sys2Proof.Claims

/-- The ends of waits (13 R186, R188 to R191, R193; 01 R15, R30; 21 R313; 11 R163; 12 R172): a semaphore, a tag, a ring, a queue, a
rendezvous, a crew, a join, an elastic iteration. What a wait consumes is taken when it proceeds, once. An elastic iteration
takes a slot, drains while an item is still in a stage, and ends the kernel after. (A pending state that a wait ends is kept with the
region of the wait: the log's entry 39. Where the counts of RDV n differ after a rollback, the stream that is behind is met by the
completion that stands: the log's entry 67. An elastic wait meets the tags of the slot it would take: the log's entry 23.) -/
def Obligations.WaitEvents : Prop :=
  (∀ c s p x j k q sync, Blocked s c p x j k (.sem q sync) →
    let ev := Instr.semaphoreWaitProceed c k.eng
    let j1 := { taken j q (j.core k).region with
      async := if k = Core.xc then j.async.map (pendingEnds q (j.core k).region) else j.async }
    (1 ≤ semView x.ops x.due j q → Moves ev s c (j1.setCore k
      (if sync then { j.core k with wait := none, syncTaken := true } else granted (j.core k)))) ∧
    (semView x.ops x.due j q < 1 → exec ev s = .next s)) ∧
  (∀ c s e h q b, ChainBlocked s c e h (.sem q b) → 1 ≤ semView h.ce.ops h.ce.due h.jb q →
    Moves (.semaphoreWaitProceed c (ceOf e)) s c (chained h (chainOn h 0 []) (fun x => x) fun j => taken j q h.ch.region)) ∧
  (∀ c s p x j k sl last, Blocked s c p x j k (.rime sl last) →
    let ev := Instr.rimeWaitProceed c (.stream k.eng)
    ((j.tag sl).st = .full → Moves ev s c (j.setCore k (granted (j.core k)))) ∧
    ((j.tag sl).st = .error →
      Moves ev s c { j with traps := j.traps ++ [tagFault (j.tag sl) sl k.eng (j.core k).region (j.core k).pc] }) ∧
    ((j.tag sl).st = .empty ∨ (j.tag sl).st = .filling → exec ev s = .next s)) ∧
  (∀ c s e h sl last, ChainBlocked s c e h (.rime sl last) → sl ≤ last → (last + 1) * 2048 ≤ h.jb.limit →
    (∀ n, sl ≤ n → n ≤ last → (h.jb.tag n).st = .full) →
    Moves (.rimeWaitProceed c (.stream (ceOf e))) s c (chained h (chainOn h 1 []) (fun x => x) fun j => j)) ∧
  (∀ c s p x j k q, Blocked s c p x j k (.ringFree q) →
    let r := j.rings[q.toFin]
    let got (v : Word) (r' : Ring) : Prop := ∃ sv, Moves (.ringWaitProceed c k.eng) s c
      ({ j with rings := j.rings.set q.toFin r', ringSaves := sv }.setCore k { granted (j.core k) with latch := [⟨v, .none, []⟩] })
    (r.cls = true → got (-1) r) ∧ (r.cls = false → r.free ≠ 0 → got (r.pix.setWidth 64) (acquired r)) ∧
    (r.cls = false → r.free = 0 → exec (.ringWaitProceed c k.eng) s = .next s)) ∧
  (∀ c s p x j k q, Blocked s c p x j k (.ringFill q) →
    let r := j.rings[q.toFin]
    let got (v : Word) (r' : Ring) : Prop := ∃ sv, Moves (.ringWaitProceed c k.eng) s c
      ({ j with rings := j.rings.set q.toFin r', ringSaves := sv }.setCore k { granted (j.core k) with latch := [⟨v, .none, []⟩] })
    (r.fill ≠ 0 → got (r.cix.setWidth 64) (consumed r)) ∧ (r.fill = 0 → r.cls = true → got (-1) r) ∧
    (r.fill = 0 → r.cls = false → exec (.ringWaitProceed c k.eng) s = .next s)) ∧
  (∀ c s e h q, ChainBlocked s c e h (.ringFree q) →
    let r := h.jb.rings[q.toFin]
    r.cls = false → r.free ≠ 0 → ∃ sv, Moves (.ringWaitProceed c (ceOf e)) s c
      (chained h (chainOn h 0 [r.pix.setWidth 64]) (fun x => x) fun j => { j with
        rings := j.rings.set q.toFin (acquired r), ringSaves := sv })) ∧
  (∀ c s p x j k w, Blocked s c p x j k w → QueueOpen j w →
    Moves (.queueWaitProceed c k.eng) s c (j.setCore k (retried (j.core k)))) ∧
  (∀ c s p x j k q, Blocked s c p x j k (.flush q) → j.qLen q = 0 →
    Moves (.queueWaitProceed c k.eng) s c (j.setCore k (granted (j.core k)))) ∧
  (∀ c s e h, ChainBlocked s c e h .stage → (h.jb.eng e).stage ≠ [] →
    Moves (.queueWaitProceed c (ceOf e)) s c (h.jb.setEng e { h.jb.eng e with chain := some { h.ch with wait := none } })) ∧
  ((∀ q : BitVec 2, QueueEnds (.lq (q.setWidth 3)) (fun j => j.lq[q.toFin]) fun j x => { j with lq := j.lq.set q.toFin x }) ∧
   (∀ q : BitVec 2, QueueEnds (.lq (1#1 ++ q)) (fun j => j.lqRow[q.toFin]) fun j x => { j with lqRow := j.lqRow.set q.toFin x }) ∧
   (∀ q : BitVec 1, QueueEnds (.sq (q.setWidth 2)) (fun j => j.sq[q.toFin]) fun j x => { j with sq := j.sq.set q.toFin x }) ∧
   ∀ q : BitVec 1, QueueEnds (.sq (1#1 ++ q)) (fun j => j.sqRow[q.toFin]) fun j x => { j with sqRow := j.sqRow.set q.toFin x }) ∧
  (∀ c s p x j n, RunsAt s c p x j →
    (j.ac.live = true → j.xc.live = true → j.ac.wait = some (.rdv n) → j.xc.wait = some (.rdv n) → rdvNo j.ac n = rdvNo j.xc n →
      Becomes (.rendezvousRelease c) s c p x { j with ac := met n j.ac, xc := met n j.xc }) ∧
    (j.ac.live = true → j.xc.live = true → j.ac.wait = some (.rdv n) → j.xc.wait = some (.rdv n) → rdvNo j.ac n < rdvNo j.xc n →
      Becomes (.rendezvousRelease c) s c p x { j with ac := met n j.ac }) ∧
    (j.ac.live = true → j.xc.live = true → j.ac.wait = some (.rdv n) → j.xc.wait = some (.rdv n) → rdvNo j.xc n < rdvNo j.ac n →
      Becomes (.rendezvousRelease c) s c p x { j with xc := met n j.xc }) ∧
    (j.ac.live = true → j.xc.live = false → j.ac.wait = some (.rdv n) →
      Becomes (.rendezvousRelease c) s c p x { j with ac := met n j.ac }) ∧
    ∀ m, j.ac.live = true → j.xc.live = true → j.ac.wait = some (.rdv n) → j.xc.wait = some (.rdv m) → n ≠ m →
      rdvNo j.xc n ≤ rdvNo j.ac n → rdvNo j.ac m ≤ rdvNo j.xc m → exec (.rendezvousRelease c) s = .next s) ∧
  (∀ s n p ctx id cx, s.pkg n = some p → p.ctx ctx = some cx →
    let c := p.crew ctx id
    ((∃ m ∈ c.members, m.2 ≤ c.gen ∧ ∀ a ∈ c.arrived, a.1 ≠ m.1) → exec (.crewBarrierComplete n ctx id) s = .next s) ∧
    (c.arrived ≠ [] → (∀ m ∈ c.members, c.gen < m.2 ∨ ∃ a ∈ c.arrived, a.1 = m.1) →
      Makes (.crewBarrierComplete n ctx id) s n fun q =>
        let d := q.crew ctx id
        d.gen = c.gen + 1 ∧ d.arrived = [] ∧ d.members = c.members ∧ d.last = c.arrived.filterMap (fun a => a.2.2) ∧
        d.passed = c.passed ++ c.arrived.map (fun a => ⟨a.1, some a.2.1, a.2.1, c.gen, d.last⟩) ∧ q.hbm = p.hbm ∧ q.fns = p.fns ∧
        (∀ m, m ≠ id → q.crew ctx m = p.crew ctx m) ∧
        ∀ i : Fin 192, q.cells[i] = { p.cells[i] with job := p.cells[i].job.map fun j =>
          if j.ctx = ctx ∧ (∃ a ∈ c.arrived, a.1 = j.uid) ∧ j.ac.wait = some (.crew id c.gen) then
            { j with ac := granted j.ac }
          else j })) ∧
  (∀ c s p x j va t bs, Blocked s c p x j .ac (.join va) →
    let h : Here := ⟨s, c, .ac, p, x, j, none⟩
    h.checkAt .g 0 (BitVec.ofNat 64 va) 8 .load = .ok t →
    h.readNow OrdF.plain [] (h.ownTarget t) (BitVec.ofNat 64 va) 8 = (bs, .none) →
    ∃ tlb, Alters (.joinObserved c) s c fun x => { x with
      tlb := tlb, job := some (if leNat bs = 0 then { j with ac := granted j.ac } else j) }) ∧
  ∀ c s p x j k q, Blocked s c p x j k .elastic → j.trip = .elastic q → (j.ac.live = true → 1 ≤ j.ac.region) →
    (j.xc.live = true → 1 ≤ j.xc.region) → j.rings[q.toFin].cnt ≠ 0 →
    let r := j.rings[q.toFin]
    let i := (j.core k).region - 1
    let ev := Instr.elasticIteration c k
    let go (j' : Job) (f : CoreState → CoreState) : Prop := Moves ev s c (j'.setCore k (f (j.core k)))
    let decided (d : Decision) : Job := { j with decisions := j.decisions ++ [(i, d)] }
    (∀ sl, look j.decisions i = some (.take sl) → go j fun y => iterating y i true sl) ∧
    (look j.decisions i = some .drain → go j fun y => iterating y i false 0xFF) ∧
    (look j.decisions i = some .stop → go j fun y => epilogued y i (j.hdr.entries k)[2]) ∧
    (look j.decisions i = none → r.fill ≠ 0 →
      (j.slotError q r.cix.toNat = none → ∃ sv,
        go { decided (.take r.cix) with rings := j.rings.set q.toFin (consumed r), ringSaves := sv } fun y => iterating y i true r.cix) ∧
      ∀ sl, j.slotError q r.cix.toNat = some sl → Moves ev s c { j with
        traps := j.traps ++ [tagFault (j.tag sl) sl k.eng (j.core k).region (j.core k).pc] }) ∧
    (look j.decisions i = none → r.fill = 0 → r.cls = false → exec ev s = .next s) ∧
    (look j.decisions i = none → r.fill = 0 → r.cls = true → ItemAlive j i →
      go (decided .drain) fun y => iterating y i false 0xFF) ∧
    (look j.decisions i = none → r.fill = 0 → r.cls = true → ¬ItemAlive j i →
      go (decided .stop) fun y => epilogued y i (j.hdr.entries k)[2])

namespace Sys2Proof.Claims

/-- The frame of a call record lies at `a` in `m` (11 R156). -/
def FrameAt (m : List Host.Cell) (a : Nat) (r : CallRec) : Prop :=
  leNat (memRead m a 8) = r.ret.toNat ∧ (memGet m (a + 8)).toNat = r.ss.toNat ∧ leNat (memRead m (a + 9) 7) = 0 ∧
  leNat (memRead m (a + 24) 40) = 0 ∧ ∀ i : Fin r.hidden.length,
    leNat (memRead m (a + 64 + 8 * i) 8) = r.hidden[i].v.toNat ∧ leNat (memRead m (a + 16) 8) / 4 ^ i.val % 4 = r.hidden[i].p.code

/-- The first byte of the lowest spilled frame of a core, or the top of its stack (11 R156). -/
def stackAt (j : Job) (k : Core) : Nat :=
  (match k with
    | .ac => j.hdr.slabs * 2048
    | .xc => (j.hdr.slabs - j.hdr.wsa) * 2048) -
  (((j.core k).calls.filter (·.spilled)).map fun r => 64 + 8 * r.hidden.length).sum

/-- The hidden registers of the frames that are resident (11 R155). -/
def residents (l : List CallRec) : Nat := ((l.filter fun r => !r.spilled).map fun r => r.hidden.length).sum

/-- A due effect of a job, the first of them, is made: it leaves the list, and the job is then as `P` says. -/
def Due.MadeAs (s : State) (c : CellId) (p : Package) (x : CellState) (d : Due) (P : Job → Prop) : Prop :=
  Makes (.deferredEffect c d.job) s c.pkg fun q => ∃ y j, q.cell c.cell = some y ∧ y.due = x.due.erase d ∧ y.job = some j ∧
    P j ∧ q.hbm = p.hbm ∧ q.ctxs = p.ctxs

/-- The cell after a TLBINV or a SEAL is complete. -/
def invalEnds (id op : Nat) (x : CellState) : CellState := opEnds op { x with invals := x.invals.filter fun k => k.id != id }

/-- The registers that an unmasked write of region `k` gives, as live-ins of the later regions (the log's entry 38). -/
def LateRows (j : Job) (k : Nat) (regs : List Nat) (v : Vector VReg 32) (saves : List CoreSave) : Prop :=
  saves.length = j.xc.saves.length ∧ ∀ (i : Nat) (a b : CoreSave), j.xc.saves[i]? = some a → saves[i]? = some b →
    (a.region ≤ k → b = a) ∧ (k < a.region → b = { a with vec := b.vec } ∧
      ∀ n : Fin 32, n.val ∈ regs → (∃ m : Fin 32, physV a.rrb m = n ∧ j.hdr.liveV.getLsbD m = true) → b.vec.v[n] = v[n])

end Sys2Proof.Claims

/-- Events of a job's cores (11 R155, R156; 15 R227, R229; 07 R100, R382; 23 R361; 01 R14, R21, R23; 05 R68, R71; 13 R190, R191; 21 R313):
a frame is spilled and filled; a detached VLDQ writes with its last entry; an invalidation completes once what it waits for has
been performed; a region commits 160 clk after its last result, and its effects become due behind those of earlier regions (their order is a DESIGN
CHOICE, notes/assumptions/86.md); a due effect is made. (A late write reaches the saves of later regions: the log's entry 38. A region
commits only with no trap outstanding: the log's entry 65.) -/
def Obligations.CellEvents : Prop :=
  (∀ c s p x j k a r b, RunsAt s c p x j → (j.core k).calls = a ++ r :: b → r.spilled = false → (∀ e ∈ b, e.spilled = true) →
    r.hidden.length ≤ 32 → Memory.wf j.mem = true → (j.core k).spilling = true → 32 < residents (j.core k).calls →
    let w := 64 + 8 * r.hidden.length
    j.spillFits k = true → w ≤ stackAt j k →
    Makes (.spillFrame c k) s c.pkg fun q => q.hbm = p.hbm ∧ ∃ y m marks, q.cell c.cell = some y ∧
      y.job = some ({ j with mem := m, marks := marks }.setCore k { j.core k with
        calls := a ++ { r with spilled := true } :: b }) ∧
      FrameAt m (stackAt j k - w) r ∧ ∀ n, n < stackAt j k - w ∨ stackAt j k ≤ n → memGet m n = memGet j.mem n) ∧
  (∀ c s p x j k a r b, RunsAt s c p x j → (j.core k).calls = a ++ r :: b → r.spilled = true → (∀ e ∈ a, e.spilled = false) →
    (j.core k).spilling = false → residents (j.core k).calls < 32 →
    let lo := stackAt j k
    let v : List PVal := (List.range r.hidden.length).map fun i =>
      ⟨BitVec.ofNat 64 (leNat (memRead j.mem (lo + 64 + 8 * i) 8)), Poison.ofCode (leNat (memRead j.mem (lo + 16) 8) / 4 ^ i % 4), []⟩
    Makes (.fillFrame c k) s c.pkg fun q => q.hbm = p.hbm ∧ ∃ y, q.cell c.cell = some y ∧
      y.job = some (j.setCore k { j.core k with calls := a ++ { r with spilled := false, hidden := v } :: b })) ∧
  (∀ c s p x j k, RunsAt s c p x j → (j.core k).spilling = false ∨ residents (j.core k).calls ≤ 32 →
    exec (.spillFrame c k) s = .next s) ∧
  (∀ c s p x j w n (v : Vector RowVal 16) es, RunsAt s c p x j → (∀ t ∈ j.traps, t.dlv ≠ .xc) →
    j.async.find? (fun x => x.id == w.id) = some w → w.drain = none → w.complete = false → w.got = [] → w.regs = [n] →
    n < 32 → w.mask = none → j.async.find? (fun x => x.drain.isNone && !x.complete && x.lq == w.lq) = some w →
    j.lqRow[w.lq.toFin].ents.map (·.data) = v.toList.map some ++ es →
    Makes (.asyncWriteComplete c w.id) s c.pkg fun q => q.hbm = p.hbm ∧ ∃ y j', q.cell c.cell = some y ∧ y.job = some j' ∧
      (∀ m : Fin 32, j'.vec.v[m] = if m.val = n then ⟨v.map (·.w), v.map fun e => worst e.p.toList⟩ else j.vec.v[m]) ∧
      j'.vec.m = j.vec.m ∧ j'.vec.tb = j.vec.tb ∧ (∀ m ∈ j'.async, m.id = w.id → m.complete = true) ∧
      j'.lqRow = j.lqRow.set w.lq.toFin { j.lqRow[w.lq.toFin] with ents := j.lqRow[w.lq.toFin].ents.drop 16 } ∧
      (w.sem = none → j'.deferred = j.deferred) ∧ (∀ q, w.sem = some q → ∃ a b, j.deferred = a ++ b ∧
        j'.deferred = a ++ ⟨w.seq, w.region, .xc, w.pc, none, [], none, .semPost q 1⟩ :: b) ∧
      j'.ac = j.ac ∧ j'.xc = { j.xc with saves := j'.xc.saves } ∧ LateRows j w.region w.regs j'.vec.v j'.xc.saves ∧
      j'.mem = j.mem ∧ j'.me = j.me) ∧
  (∀ c s p x i, CellAt s c p x → i ∈ x.invals → (∀ k ∈ x.invals, k.id = i.id → k = i) →
    let ev := if i.isSeal then Instr.sealComplete c i.id else Instr.tlbinvComplete c i.id
    ((∃ w ∈ i.waits, ∃ y, s.cell ⟨w.1, w.2.1⟩ = some y ∧ opPerformed y.ops w.2.2 = false) → exec ev s = .next s) ∧
    ((∀ w ∈ i.waits, ∀ y, s.cell ⟨w.1, w.2.1⟩ = some y → opPerformed y.ops w.2.2 = true) →
      (i.all = false → Alters ev s c (invalEnds i.id i.op)) ∧
      ∀ o, i.all = true → x.op i.op = some o → Makes ev s c.pkg fun q =>
        q.cells = (p.modCell c.cell (invalEnds i.id i.op)).cells ∧ q.hbm = p.hbm ∧
        q.ctxs = p.ctxs.map fun cx => if cx.id = o.ctx then { cx with stale := [] } else cx)) ∧
  (∀ c s p x j, RunsAt s c p x j →
    (j.traps ≠ [] ∨ (∃ k, (j.core k).live = true ∧ (j.core k).region ≤ j.committed) ∨
      (∃ e ∈ j.results, e.1 ≤ j.committed ∧ p.clkOf c.cell < e.2 + 160) ∨
      (∃ o ∈ x.ops, o.job = j.uid ∧ o.region ≤ j.committed ∧ o.writesBack = true) → exec (.regionCommit c) s = .next s) ∧
    (j.canCommit x.ops (p.clkOf c.cell) = true →
      let due := (j.deferred.filter fun d => d.region ≤ j.committed).map fun d => (⟨j.uid, j.ctx, d⟩ : Due)
      let old (l : List CoreSave) := l.filter fun v => j.committed < v.region
      (j.inEpilogue j.committed = false ∨ (∃ k, (j.core k).live = true) → j.eretOf = none ∨ j.eretAt ≠ some j.committed →
        Makes (.regionCommit c) s c.pkg fun q => q.hbm = p.hbm ∧ ∃ y j', q.cell c.cell = some y ∧ y.job = some j' ∧
          y.due = x.due ++ due ∧ j'.committed = j.committed + 1 ∧
          j'.deferred = (j.deferred.filter fun d => j.committed < d.region) ∧ j'.mem = j.mem ∧ j'.tags = j.tags ∧
          j'.rings = j.rings ∧ j'.vec = j.vec ∧ j'.lq = j.lq ∧ j'.sq = j.sq ∧ j'.ac = { j.ac with saves := old j.ac.saves } ∧
          j'.xc = { j.xc with saves := old j.xc.saves } ∧ ∀ n : Fin 64, j'.sems[n].c = j.sems[n].c) ∧
      (j.inEpilogue j.committed = true → j.noneLive = true → j.eretOf = none →
        Makes (.regionCommit c) s c.pkg fun q => q.hbm = p.hbm ∧ ∃ y, q.cell c.cell = some y ∧ y.job = none ∧
          y.preempt = false ∧ y.heldJob.map (·.uid) = x.heldJob.map (·.uid) ∧ y.queue.map (·.task) = x.queue.map (·.task) ∧
          y.ops = x.ops ∧ ∃ dec, y.due = x.due ++ due ++ dec ∧ dec.map (fun d => (d.job, d.ctx, d.d.eff)) =
            if j.qrec.task.join = 0 then [] else [(j.uid, j.ctx, .joinDec j.qrec.task.join j.qrec.origin)]))) ∧
  (∀ c s p x j d, RunsAt s c p x j → x.due.find? (fun e => e.job == j.uid) = some d →
    (d.d.ready x.ops = false → exec (.deferredEffect c j.uid) s = .next s) ∧
    (d.d.ready x.ops = true →
      (∀ n a, d.d.eff = .semPost n a → j.sems[n.toFin].c + a ≤ 2 ^ 32 - 1 → Due.MadeAs s c p x d fun j' => j' = { j with
        sems := j.sems.set n.toFin { j.sems[n.toFin] with c := j.sems[n.toFin].c + a } }) ∧
      (∀ n v, d.d.eff = .semSet n v → Due.MadeAs s c p x d fun j' => j' = { j with
        sems := j.sems.set n.toFin { j.sems[n.toFin] with
          c := v - ((j.sems[n.toFin].decs.filter (fun e => d.d.seq < e.2)).length : Nat) } }) ∧
      (∀ sl, d.d.eff = .thaw sl → Due.MadeAs s c p x d fun j' => j'.tag sl = ⟨.empty, false, false, 0, 0, 0⟩ ∧
        (∀ n, n ≠ sl → j'.tag n = j.tag n) ∧ j'.mem = j.mem ∧ j'.rings = j.rings ∧ j'.ac = j.ac ∧ j'.xc = j.xc) ∧
      (∀ r close, d.d.eff = .ringPublish r close → j.rings[r.toFin].fill ≠ 255 → Due.MadeAs s c p x d fun j' => ∃ sv, j' = { j with
        rings := j.rings.set r.toFin { j.rings[r.toFin] with
          fill := j.rings[r.toFin].fill + 1, cls := j.rings[r.toFin].cls || close }
        ringSaves := sv }) ∧
      (∀ r, d.d.eff = .ringFree r → j.rings[r.toFin].free ≠ 255 → Due.MadeAs s c p x d fun j' => ∃ sv, j' = { j with
        rings := j.rings.set r.toFin { j.rings[r.toFin] with free := j.rings[r.toFin].free + 1 }, ringSaves := sv }) ∧
      ∀ t, d.d.eff = .spawn t → Makes (.deferredEffect c j.uid) s c.pkg fun q => q.hbm = p.hbm ∧ q.ctxs = p.ctxs ∧
        ∃ y r, q.cell c.cell = some y ∧ y.job = some j ∧ y.due = x.due.erase d ∧ y.queue = x.queue ++ [r] ∧ r.task = t ∧
          r.ctx = d.ctx ∧ r.seq = x.nextSeq ∧ y.nextSeq = (x.nextSeq + 1) % 2 ^ 32)) ∧
  ∀ c s p x d addr a va w, CellAt s c p x → x.due.find? (fun e => e.job == d.job) = some d → d.d.ready x.ops = true →
    d.d.eff = .joinDec addr none → w = ⟨d.ctx, ((p.ctx d.ctx).map (·.secure)).getD false, some c.cell⟩ →
    addr.toNat < 2 ^ 48 → p.migrating w addr.toNat = false → p.translate w addr.toNat 8 .atomic = .ok (.hbm a va false) →
    Memory.wf p.hbm = true → leNat (memRead p.hbm a 8) ≠ 0 →
    Makes (.deferredEffect c d.job) s c.pkg fun q => q.fns = p.fns ∧
      WroteBytes p.hbm q.hbm a (natLe (leNat (memRead p.hbm a 8) - 1) 8) ∧
      q.cells = (p.modCell c.cell fun x => { x with due := x.due.erase d }).cells

namespace Sys2Proof.Claims

/-- An event changes the running job alone, which is then as `P` says. -/
def JobTo (e : Instr) (s : State) (c : CellId) (p : Package) (P : Job → Prop) : Prop :=
  Makes e s c.pkg fun q => q.hbm = p.hbm ∧ q.ctxs = p.ctxs ∧ ∃ y j, q.cell c.cell = some y ∧ y.job = some j ∧ P j

/-- The matrix jobs with the job `id` changed. -/
def meSet (M : MeState) (id : Nat) (f : MeJob → MeJob) : MeState :=
  { M with jobs := M.jobs.map fun m => if m.id = id then f m else m }

/-- The head of a job queue that may start: it has not begun or is suspended, and is eligible (17 R234, R235). -/
def MeHead (j : Job) (high : Bool) (m : MeJob) : Prop :=
  j.me.jobs.find? (fun m => m.high == high) = some m ∧ (m.phase = .queued ∨ m.phase = .suspended) ∧ j.meFree m.op m.names = true

/-- A matrix job after the walker has taken it. -/
def begun (m : MeJob) (st : Option Nat) : MeJob := { m with phase := if m.more then .running else .drained, stall := st }

/-- A trap of the AC is not outstanding. -/
def Quiet (j : Job) : Prop := ∀ t ∈ j.traps, t.dlv ≠ .ac

/-- The tile that a merge of `a` leaves: word by word, from +0 without poison at the job's first merge with ZI (17 R253). -/
def Merged (m : MeJob) (first : Bool) (t : Tile) (a : Part) (u : Tile) : Prop :=
  let zi := first && (m.lnt[20].getLsbD 57)
  let old : Tile := if zi then ⟨Vector.replicate 64 (Vector.replicate 64 0), false, Vector.replicate 64 .none⟩ else t
  u.int = (if first then lntInt m.lnt else t.int) ∧
  (∀ r n : Fin 64, u.rows[r][n] = mergeWord (lntInt m.lnt) old.rows[r][n] a.rows[r][n]) ∧
  ∀ r : Fin 64, u.p[r].code = max old.p[r].code a.p[r].code

/-- A drain is over: its task is gone, its launch has completed. -/
def DrainOver (e : Instr) (s : State) (c : CellId) (p : Package) (x : CellState) (j : Job) (t : MeTask) (P : Job → Prop) : Prop :=
  Makes e s c.pkg fun q => q.hbm = p.hbm ∧ q.ctxs = p.ctxs ∧ ∃ y j', q.cell c.cell = some y ∧ y.job = some j' ∧ P j' ∧
    y.ops = (opEnds t.op x).ops ∧ j'.me.tasks = [] ∧
    j'.me.jobs.map (fun m => { m with stall := none }) = j.me.jobs.map (fun m => { m with stall := none }) ∧ j'.me.tiles = j.me.tiles ∧
    j'.me.slots = j.me.slots ∧ j'.ac = j.ac ∧ j'.xc = j.xc ∧ j'.deferred = j.deferred ∧ j'.rings = j.rings

/-- A matrix job is the only one that runs, under a name of its own. -/
def Sole (j : Job) (m : MeJob) : Prop :=
  j.me.jobs.find? (fun x => x.id == m.id) = some m ∧ ∀ r ∈ j.me.jobs, r.phase = .running → r.id = m.id

/-- The walker stands on something that the starvation counter counts (17 R251): a gated slab or the ring of its level. -/
def Starves (j : Job) (ops : List MemOp) : Prop := ∃ w, j.walkerWait ops = some w ∧ w ≠ .log

/-! ### Sums (03 R54 to R56, R60; 17 R240, R249) -/

/-- A number of one processing element: finite, with its value. -/
def IsRat (x : Machine.Num) (q : ℚ) : Prop := ∃ s m e, x = .fin s m e ∧ ratOf s m e = q

/-- A step that leaves the exact `x`, rounded once to FP32. -/
def Sums (y : Nat) (x : ℚ) : Prop := |x| ≤ codeRat fmtF32 (largest fmtF32) → Rounded fmtF32 .rne x y

/-- The word of a product table (03 R60). -/
def tableWord (t : TabSlot) (ia ib : Nat) : Nat := leNat ((t.bytes.drop (4 * (16 * ia + ib))).take 4)

/-- The steps of the processing elements: in FP32 one rounding of the exact sum (03 R54, R55), in INT32 modulo 2^32 (R56); the
product of a tabled job is the table's word (R60); an absent element is nothing to a MAC and zero to the others. -/
structure StepArithmetic : Prop where
  float : ∀ (v : PeEnv) p (a b : El) (x y z : ℚ), v.int = false → v.tabled = false → IsRat a.x x → IsRat b.x y →
    IsRat (fmtF32.decode p) z →
    Sums (v.apply 0 p a (some b)) (x * y + z) ∧ v.apply 0 p a none = p ∧
    Sums (v.apply 1 p a (some b)) (z + |x - y|) ∧ Sums (v.apply 1 p a none) (z + |x|) ∧
    Sums (v.apply 3 p a (some b)) (max z (x * y)) ∧ Sums (v.apply 3 p a none) (max z 0) ∧
    v.less a (some b) = decide (x < y) ∧ v.less a none = decide (x < 0)
  int : ∀ (v : PeEnv) p (a b : El), v.int = true → v.tabled = false →
    let w (n : Nat) : BitVec 32 := BitVec.ofNat 32 n
    w (v.apply 0 p a (some b)) = w p + BitVec.ofInt 32 (a.i * b.i) ∧ v.apply 0 p a none = p ∧
    w (v.apply 1 p a (some b)) = w p + BitVec.ofInt 32 |a.i - b.i| ∧ w (v.apply 1 p a none) = w p + BitVec.ofInt 32 |a.i| ∧
    (w (v.apply 3 p a (some b))).toInt = max (w p).toInt (BitVec.ofInt 32 (a.i * b.i)).toInt ∧
    v.less a (some b) = decide (a.i < b.i)
  table : ∀ (v : PeEnv) p (a b : El) t, v.tabled = true → v.table = some t →
    let w (n : Nat) : BitVec 32 := BitVec.ofNat 32 n
    let T := tableWord t a.ix b.ix
    (v.int = true → w (v.apply 0 p a (some b)) = w p + w T ∧ (w (v.apply 3 p a (some b))).toInt = max (w p).toInt (w T).toInt) ∧
    (∀ x z, v.int = false → IsRat (fmtF32.decode T) x → IsRat (fmtF32.decode p) z →
      Sums (v.apply 0 p a (some b)) (x + z) ∧ Sums (v.apply 3 p a (some b)) (max z x)) ∧
    v.apply 1 p a (some b) = { v with tabled := false }.apply 1 p a (some b) ∧
    v.less a (some b) = { v with tabled := false }.less a (some b)
  codebook : ∀ (w : Walk) o raw r t, o.fmt = 2 → w.codebook o.table = some t → raw < leNat ((t.bytes.drop 32).take 1) →
    w.value o raw r = ([], raw, elValue o.et (leNat ((t.bytes.drop (2 * raw)).take 2) % 2 ^ vbits o.et))
  scale : ∀ s m e n, n < 255 → (Machine.Num.fin s m e).e8m0 n = .fin s m (e + (n - 127)) ∧ (Machine.Num.fin s m e).e8m0 255 = .nan

/-- What a processing element makes of the entries of its row: each with its A element, whether it is delivered, the B element and
the side element at its k. A CSEL gates the next entry (17 R240); the side list takes no step (R249). -/
def peRuns (v : PeEnv) (i p : Nat) (gate : Bool) : List (El × Bool × Option El × Option El) → Nat
  | [] => p
  | (a, del, b, sd) :: l =>
    let step := (v.steps[i % v.steps.length]?).getD 0
    let p1 := if del = true ∧ gate = true ∧ step ≠ 2 then v.apply step p a b else p
    let p2 := match sd with
      | none => p1
      | some e => rneF32 ((a.x.mul e.x).add (.mode .rne) (fmtF32.decode p1))
    peRuns v (if del then i + 1 else i) p2 (if del then (if gate = true ∧ step = 2 then v.less a b else true) else gate) l

/-- The partial of a product pass (03 R55; 17 R245, R248, R249): row m and column n hold what the element makes of row m's A
elements in ascending k; one is delivered unless every step is MAC and its B row is empty. The dense elements of A and B are those of
the carve-out at their places. -/
structure ProductPass (w : Walk) : Prop where
  sums : ∀ m n : Fin 64, w.pass.2.1.rows[m][n] = BitVec.ofNat 32 (peRuns
    ⟨lntInt w.l, lntTabled w.l, (w.j.me.slots[lntPslot w.l]?).join, lntSteps w.l⟩ 0 0 true
    ((w.rowA m).2.1.map fun a =>
      let b := if a.k < lntK w.l then (w.rowB a.k).2.1 else []
      (a, decide ((∃ x ∈ lntSteps w.l, x ≠ 0) ∨ b ≠ []), b.find? (fun e => e.k == n.val),
        w.side.2.1.find? fun e => e.k == 64 * a.k + n.val)))
  denseA : ∀ m k, let o := opnd w.l 0
    let b := vbits o.et
    let a := ((w.opBase 0 + (if o.tpitch = 0 then k / 64 * (8 * b) else k / 64 * o.tpitch) + m * o.rpitch + k % 64 * b / 8) %
      2 ^ 21).toNat
    o.fmt = 0 → o.rg = false → o.sc = false → k < lntK w.l → a + (b + 7) / 8 ≤ w.j.limit →
      ((w.rowA m).2.1[k]?).map (fun e => (e.k, e.x, e.i)) =
        some (k, elValue o.et (leNat (memRead w.j.mem a ((b + 7) / 8)) / 2 ^ (k % 64 * b % 8) % 2 ^ b))
  denseB : ∀ k n, let o := opnd w.l 1
    let b := vbits o.et
    let a := ((w.opBase 1 + k / 64 * (if o.tpitch = 0 then 64 * o.rpitch else o.tpitch) + k % 64 * o.rpitch + n * b / 8) %
      2 ^ 21).toNat
    o.fmt = 0 → o.rg = false → o.sc = false → n < 64 → a + (b + 7) / 8 ≤ w.j.limit →
      ((w.rowB k).2.1[n]?).map (fun e => (e.k, e.x, e.i)) =
        some (n, elValue o.et (leNat (memRead w.j.mem a ((b + 7) / 8)) / 2 ^ (n * b % 8) % 2 ^ b))

/-- The tree of PAIRWISE over the partials `lo` to `lo + cnt - 1` (03 R57). -/
def treeSum (int : Bool) (P : Nat → Part) : Nat → Nat → Nat → Part
  | 0, lo, _ => P lo
  | fuel + 1, lo, cnt =>
    if cnt ≤ 1 then P lo
    else
      let h := 2 ^ Nat.log2 (cnt - 1)
      (treeSum int P fuel lo h).add int (treeSum int P fuel (lo + h) (cnt - h))

/-- The partials of a tile in any order of arrival leave the subtotals of one tree (03 R57). -/
def PairwiseTree : Prop :=
  ∀ (j : Job) (m : MeJob) (c n : Nat) (P : Nat → Part) (l : List Nat), m.order = .pairwise → l.Perm (List.range n) → 0 < n → n < 2 ^ 32 →
    pairTotal (lntInt m.lnt) (l.foldl (fun t i => (j.arrivePart m t i (P i)).2) ⟨c, 0, 0, [], []⟩).held =
      some (treeSum (lntInt m.lnt) P n 0 n)

/-- A row that a drain converts (17 R265; 03 R44, R50): element n is the conversion of the tile's word, under the draw of its place in
drain order with rm=sr; the elements are packed from the low bits on. -/
structure DrainRow (t : Tile) (ty : ET) (rm : Rm) (sat : Bool) (seed : Word) (m : Fin 64) : Prop where
  same : ty = (if t.int then .i32 else .f32) → drainRow t ty rm sat seed m = t.rows[m].toList.map (·.toNat)
  other : ty ≠ (if t.int then .i32 else .f32) → ∀ n : Fin 64, (drainRow t ty rm sat seed m)[n]? =
    some (etOut ty 0 (rndOf rm 0 (nextDraw^[64 * m + n] seed)) sat (etIn (if t.int then .i32 else .f32) 0 t.rows[m][n].toNat)).1
  packed : (drainBytes ty (drainRow t ty rm sat seed m)).length = 8 * vbits ty ∧ ∀ n : Fin 64,
    leNat (drainBytes ty (drainRow t ty rm sat seed m)) / 2 ^ (vbits ty * n) % 2 ^ vbits ty =
      ((drainRow t ty rm sat seed m)[n]?).getD 0 % 2 ^ vbits ty

end Sys2Proof.Claims

/-- Events of the matrix engine (17 R234, R241, R251 to R253, R256, R257, R265; 18 R269; 15 R229). The walker takes an eligible head;
the partial of a pass that ends goes to buffer j mod 4; an elastic level takes a slot; a partial that arrives is merged; a job with
every merge made completes; a path-log slot is published; a malformation traps; a long stall sets STRV; a drain writes. The sums of a
pass, the tree of a PAIRWISE merge and the rows of a drain are those of 03 R54 to R57 and R60. (That a pass reads its operands when it
ends is the log's entry 25; what a late write does to the saves of later regions, its entry 38.) -/
def Obligations.MatrixEvents : Prop :=
  StepArithmetic ∧ (∀ w : Walk, lntTree w.l = false → ProductPass w) ∧ PairwiseTree ∧
  (∀ t ty rm sat seed m, DrainRow t ty rm sat seed m) ∧
  (∀ c s p x j m, RunsAt s c p x j → (j.me.jobs.map (·.id)).Nodup →
    let lows : Prop := ∀ r ∈ j.me.jobs, r.high = false → ∀ b : Fin 4, r.buffers[b] = none
    let starts (M : MeState) : Prop := ∃ st, JobTo (.meJobStart c) s c p fun j' => j' = withMe (meSet M m.id fun x => begun x st) j
    (j.running = none → MeHead j true m → lows → starts j.me) ∧
    (j.running = none → MeHead j true m → ¬lows → exec (.meJobStart c) s = .next s) ∧
    (j.running = none → (∀ m, ¬ MeHead j true m) → MeHead j false m → starts j.me) ∧
    (∀ r, j.running = some r → r.high = false → r.needsSlot = true → lows → MeHead j true m → (∀ y ∈ j.me.jobs, y.phase = .running →
      y.id = r.id) → starts (meSet j.me r.id fun r => { r with phase := .suspended })) ∧
    (∀ r, j.running = some r → r.high = false → r.needsSlot = false → exec (.meJobStart c) s = .next s) ∧
    ∀ r, j.running = some r → r.high = true → exec (.meJobStart c) s = .next s) ∧
  (∀ c s p x j m part folds, RunsAt s c p x j → j.running = some m → Sole j m →
    (j.passOpen x.ops m = false → exec (.passEnd c) s = .next s) ∧
    (j.passOpen x.ops m = true → lntPlog m.lnt = false → m.logGot = [] → (j.walk m).pass = ([], part, folds) →
      ∃ m' : MeJob, JobTo (.passEnd c) s c p (fun j' => j' =
          { withMe (meSet j.me m.id fun _ => m') j with progress := p.clkOf c.cell }) ∧
        m'.id = m.id ∧ m'.lnt = m.lnt ∧ m'.count = m.count + 1 ∧
        (∀ b : Fin 4, m'.buffers[b] = if b.val = m.count % 4 then some (m.tile, (m.prog m.tile).issued, part) else m.buffers[b]) ∧
        m'.prog m.tile = { m.prog m.tile with issued := (m.prog m.tile).issued + 1 } ∧
        (∀ t, t ≠ m.tile → m'.prog t = m.prog t) ∧
        (m.high = false → (∃ h, MeHead j true h) → m'.more = true → m'.phase = .suspended) ∧
        (lntNlev m.lnt = 0 → m'.more = false ∧ m'.phase = .drained) ∧
        (∀ i l, m.ix = i :: l → 1 ≤ lntNlev m.lnt → levElastic m.lnt 1 = false → i + 1 < levTrip m.lnt 1 →
          m'.ix = (i + 1) :: l ∧ m'.more = true ∧ m'.slot = m.slot))) ∧
  (∀ c s p x j m v, RunsAt s c p x j → Quiet j → j.running = some m → m.more = true → m.slot = none →
    lntElastic m.lnt = some v →
    let q := levRing m.lnt v
    let r := j.rings[q.toFin]
    let ev := Instr.elasticLevelIteration c
    r.cnt ≠ 0 →
    (r.fill ≠ 0 → ∃ st sv, JobTo ev s c p fun j' => j' = withMe (meSet j.me m.id fun x => { x with slot := some r.cix, stall := st })
      { j with rings := j.rings.set q.toFin (consumed r), ringSaves := sv }) ∧
    (r.fill = 0 → r.cls = false → exec ev s = .next s) ∧
    (r.fill = 0 → r.cls = true → v = lntNlev m.lnt → JobTo ev s c p fun j' => j' = withMe (meSet j.me m.id fun x =>
      if x.lnt = m.lnt then { x with ix := x.ix.set (v - 1) 0, more := false, phase := .drained } else x.levelEnd v) j)) ∧
  (∀ c s p x j m (buf : BitVec 2) tile i part, RunsAt s c p x j → Quiet j → j.me.jobs.find? (fun x => x.id == m.id) = some m →
    m.buffers[buf.toFin] = some (tile, i, part) → tile < 64 → m.toFree = [] →
    let t := m.prog tile
    let takes (P : Vector Tile 64 → TileProg → Prop) : Prop := JobTo (.partialArrival c m.id buf) s c p fun j' =>
      P j'.me.tiles (((j'.meJob m.id).getD m).prog tile) ∧ j'.me.passes = j.me.passes + 1 ∧ j'.mem = j.mem ∧ j'.ac = j.ac ∧
      j'.xc = j.xc ∧ j'.me.slots = j.me.slots ∧ ∃ m', j'.meJob m.id = some m' ∧ m'.count = m.count ∧ m'.ix = m.ix ∧
        ∀ b : Fin 4, m'.buffers[b] = if b.val = buf.toNat then none else m.buffers[b]
    (m.order = .arrival ∨ (m.order = .ordered ∧ i = t.next ∧ t.held = []) → j.tileOpen m.region tile = true →
      takes fun tiles t' => t'.next = t.next + 1 ∧ t'.held = t.held ∧
        ∀ n : Fin 64, (n.val = tile → Merged m (t.next == 0) j.me.tiles[n] part tiles[n]) ∧
          (n.val ≠ tile → tiles[n] = j.me.tiles[n])) ∧
    (m.order = .ordered → i ≠ t.next → t.held.length < 8 →
      takes fun tiles t' => tiles = j.me.tiles ∧ t'.next = t.next ∧ t'.held = t.held ++ [(i, part)]) ∧
    (m.order = .ordered → i ≠ t.next → 8 ≤ t.held.length → exec (.partialArrival c m.id buf) s = .next s) ∧
    (m.order = .pairwise → m.canMerge t i = true → takes fun tiles _ => tiles = j.me.tiles)) ∧
  (∀ c s p x j m, RunsAt s c p x j → Quiet j → j.me.jobs.find? (fun x => x.id == m.id) = some m →
    (m.phase ≠ .drained ∨ (∃ b : Fin 4, m.buffers[b] ≠ none) ∨ m.toFree ≠ [] ∨ m.logPub ≠ [] →
      exec (.meJobComplete c m.id) s = .next s) ∧
    (m.phase = .drained → (∀ b : Fin 4, m.buffers[b] = none) → m.toFree = [] → m.logPub = [] → m.order ≠ .pairwise →
      j.me.tasks = [] → Makes (.meJobComplete c m.id) s c.pkg fun q => q.hbm = p.hbm ∧ q.ctxs = p.ctxs ∧
        ∃ y r, q.cell c.cell = some y ∧ y.ops = (opEnds m.op x).ops ∧
          y.job = some { withMe { j.me with jobs := j.me.jobs.filter fun x => x.id != m.id } j with results := r }) ∧
    (m.phase = .drained → (∀ b : Fin 4, m.buffers[b] = none) → m.toFree = [] → m.logPub = [] → m.order = .pairwise →
      j.me.tasks = [] → (m.tiles.map (·.tile)).Nodup → (∀ t ∈ m.tiles, j.tileOpen m.region t.tile = true) →
      JobTo (.meJobComplete c m.id) s c p fun j' => j'.me.jobs = (j.me.jobs.filter fun x => x.id != m.id) ∧ j'.mem = j.mem ∧
        j'.ac = j.ac ∧ j'.xc = j.xc ∧ j'.me.slots = j.me.slots ∧
        (∀ t ∈ m.tiles, ∀ (n : Fin 64) a, n.val = t.tile → pairTotal (lntInt m.lnt) t.held = some a →
          Merged m true j.me.tiles[n] a j'.me.tiles[n]) ∧
        ∀ n : Fin 64, (∀ t ∈ m.tiles, n.val = t.tile → t.held = []) → j'.me.tiles[n] = j.me.tiles[n])) ∧
  (∀ c s p x j m q rest, RunsAt s c p x j → j.me.jobs.find? (fun x => x.id == m.id) = some m → m.logPub = q :: rest →
    j.rings[q.toFin].fill.toNat + ringPending x.due j q true + 1 ≤ 255 →
    JobTo (.pathLogPublish c m.id) s c p fun j' => j' = { withMe (meSet j.me m.id fun x => { x with logPub := rest }) j with
      deferred := j.deferred ++ [⟨j.seq, m.region, .ac, m.pc, none, [], none, .ringPublish q false⟩], seq := j.seq + 1 }) ∧
  (∀ c s p x j m r, RunsAt s c p x j → j.running = some m → j.passOpen x.ops m = true → j.meFault m = some r →
    JobTo (.metadataFault c) s c p fun j' => j' = { j with traps := j.traps ++ [⟨0x08, 0, 0, padTo 32
      (natLe (placeOfCell c.cell) 2 ++ natLe r.opnd 1 ++ natLe r.kind 1 ++ m.ix.flatMap (fun i => natLe i 2) ++ natLe r.row 2 ++
        natLe r.k 4 ++ natLe r.wofs 4 ++ natLe r.tree 4 ++ natLe m.ord 4), .ac, 0, false, m.region, m.pc⟩] }) ∧
  (∀ c s p x j m t, RunsAt s c p x j → j.running = some m → m.stall = some t →
    (p.clkOf c.cell < t + 2 ^ 24 ∨ ¬Starves j x.ops → exec (.meStarvation c) s = .next s) ∧
    (t + 2 ^ 24 ≤ p.clkOf c.cell → Starves j x.ops → exec (.meStarvation c) s = .next (s.setPkg c.pkg ((p.modJob c.cell j.uid
      fun y => withMe { meSet y.me m.id (fun x => { x with stall := some (p.clkOf c.cell) }) with strv := true } y).event (s.now / 252)
        j.ctx 0x03 4 (placeOfCell c.cell) 0)))) ∧
  (∀ c s p x j t ty rm sat seed, RunsAt s c p x j → j.me.tasks = [t] → j.drainReady x.ops t = true → t.tile < 64 →
    let tl := j.tile t.tile
    let row (m : Nat) : List Nat := drainRow tl ty rm sat seed m
    (∀ q ents, t.work = .drain ty rm sat seed (.queue q ents) → ents.length = 2 * etBits ty → t.at_ = 0 → ents.Nodup →
      DrainOver (.mdrainComplete c t.id) s c p x j t fun j' => j'.mem = j.mem ∧ j'.vec = j.vec ∧
        j'.lqRow[q.toFin].ents.map (·.id) = j.lqRow[q.toFin].ents.map (·.id) ∧
        ∀ e ∈ j'.lqRow[q.toFin].ents, ∀ i, ents[i]? = some e.id → ∃ v, e.data = some v ∧ v.w = bytesRow
          ((List.range' (i * (32 / etBits ty)) (32 / etBits ty)).flatMap fun m => drainBytes ty (row m))) ∧
    (∀ a w, t.work = .drain ty rm sat seed (.regs a) → j.async.find? (fun w => w.id == a) = some w →
      (w.complete = true → DrainOver (.mdrainComplete c t.id) s c p x j t fun j' => j'.mem = j.mem ∧ j'.vec = j.vec) ∧
      ∀ b0 b1 b2 b3, w.complete = false → w.drain = some t.id → w.mask = none → w.regs = [b0, b1, b2, b3] → w.regs.Nodup →
        (∀ b ∈ w.regs, b < 32) → JobTo (.asyncWriteComplete c w.id) s c p fun j' =>
          (∀ n : Fin 32, ∀ k, w.regs[k]? = some n.val → ∀ r : Fin 16,
            (∀ l : Fin 64, j'.vec.v[n].rows[r][l] = slotOf ty (((row (16 * k + r))[l.val]?).getD 0)) ∧
            j'.vec.v[n].p[r] = (tl.p[16 * k + r.val]?).getD .none) ∧
          (∀ n : Fin 32, n.val ∉ w.regs → j'.vec.v[n] = j.vec.v[n]) ∧ (∀ v ∈ j'.async, v.id = w.id → v.complete = true) ∧
          j'.mem = j.mem ∧ j'.ac = j.ac ∧ j'.xc = { j.xc with saves := j'.xc.saves } ∧
          LateRows j w.region w.regs j'.vec.v j'.xc.saves ∧ j'.me.tiles = j.me.tiles) ∧
    (∀ a, t.work = .drain ty rm sat seed (.slabs a) → t.at_ = 0 → (∀ n : Fin 64, tl.p[n] = .none) → Memory.wf j.mem = true →
      (∀ sl, sl * 2048 < a + 512 * etBits ty → a < sl * 2048 + 2048 → j.tag sl = Tag.zero ∧
        look j.posts sl ≠ some (p.clkOf c.cell)) →
      DrainOver (.mdrainComplete c t.id) s c p x j t fun j' => j'.vec = j.vec ∧
        WroteBytes j.mem j'.mem a ((List.range 64).flatMap fun m => drainBytes ty (row m)) ∧
        ∀ sl, sl * 2048 < a + 512 * etBits ty → a < sl * 2048 + 2048 → j'.tag sl = ⟨.filling, false, false, 0, 0,
          BitVec.ofNat 12 (min (a + 512 * etBits ty) (sl * 2048 + 2048) - max a (sl * 2048))⟩))

namespace Sys2Proof.Claims

/-- A slab that holds a byte of a range. -/
def Touches (a n sl : Nat) : Prop := sl * 2048 < a + n ∧ a < sl * 2048 + 2048

/-- The shadows of a cell with one replaced. -/
def shadowed (n : BitVec 4) (h : Shadow) (x : CellState) : CellState := { x with shadows := x.shadows.set n.toFin h }

/-- Transfer `x` of the chain of engine `e` has not begun, and nothing holds it: no earlier transfer, no fault, no FOOT. -/
structure Unbegun (s : State) (c : CellId) (e : BitVec 1) (h : EHere) (x : Transfer) : Prop where
  here : s.ehereAt c e = some h
  found : (h.jb.eng e).xfers.find? (fun y => y.id == x.id) = some x
  first : ∀ y ∈ (h.jb.eng e).xfers.takeWhile (fun y => y.id != x.id), y.chain ≠ x.chain
  chain : x.chain = h.ch.id
  live : h.ch.live = true
  going : h.ch.halted = false
  free : h.ch.foot = []
  calm : ∀ t ∈ h.jb.traps, t.dlv ≠ h.ch.dlv e
  start : x.at_ = 0
  none : x.formed = []
  clean : x.marked = []
  slabs : x.slabs = []
  whole : x.halted = false
  small : h.jb.limit ≤ 2 ^ 21
  wf : Memory.wf h.jb.mem = true

/-- A byte of the carve-out that an engine can read: in range, without a mark, in a slab whose state is one of `ts` and that is no slab of
the output. -/
def Readable (j : Job) (ts : List TagSt) (D : Nat → Prop) (off : Nat) : Prop :=
  off < j.limit ∧ (j.tag (off / 2048)).st ∈ ts ∧ off / 64 ∉ j.marks ∧ ¬ D (off / 2048)

/-- A slab to which nothing has arrived, and which no RPOST names in this clk. -/
def Fresh (h : EHere) (sl : Nat) : Prop := h.jb.tag sl = Tag.zero ∧ look h.jb.posts sl ≠ some (h.pk.clkOf h.id.cell)

/-- The transfer completes and leaves the job as `P` says; the rest of the job stands. -/
def Lands (s : State) (c : CellId) (e : BitVec 1) (h : EHere) (x : Transfer) (P : Job → Prop) : Prop :=
  Makes (.transferComplete c e x.id) s c.pkg fun q => q.hbm = h.pk.hbm ∧ q.fns = h.pk.fns ∧ ∃ y j, q.cell c.cell = some y ∧
    y.job = some j ∧ P j ∧ (j.eng e).chain = some h.ch ∧ (j.eng e).xfers = (h.jb.eng e).xfers.filter (fun y => y.id != x.id) ∧
    j.traps = h.jb.traps ∧ j.ac = h.jb.ac ∧ j.xc = h.jb.xc ∧ j.rings = h.jb.rings ∧ j.sems = h.jb.sems ∧ j.deferred = h.jb.deferred

/-- `n` bytes from `b` on have counted in their slabs (05 R67, R68), and no other tag has changed. -/
def Counted (j0 : Job) (b n : Nat) (j : Job) : Prop :=
  (∀ sl, Touches b n sl → j.tag sl =
    ⟨.filling, false, false, 0, 0, BitVec.ofNat 12 (min (b + n) (sl * 2048 + 2048) - max b (sl * 2048))⟩) ∧
  ∀ sl, ¬ Touches b n sl → j.tag sl = j0.tag sl

/-- The output: byte `i` of `n` bytes from `b` on is `f i`. -/
def Output (j0 : Job) (b n : Nat) (f : Nat → Byte) (j : Job) : Prop :=
  (∀ i, memGet j.mem i = if b ≤ i ∧ i < b + n then f (i - b) else memGet j0.mem i) ∧ Counted j0 b n j

/-! The walk of a shape record (19 R282, R285), in nibbles: a 4-bit element takes one. -/

/-- The nibbles of an element type (05 R72). -/
def etNibs (t : Nat) : Nat := [8, 4, 4, 2, 2, 1, 8, 2, 2, 1].getD t 0
def recNibs (r : List Byte) : Nat := if rb r 3 1 = 2 then 1 else etNibs (rb r 2 1)

def nibAt (m : List Host.Cell) (n : Nat) : BitVec 4 := (memGet m (n / 2)).extractLsb' (4 * (n % 2)) 4

/-- Window `j` is used; the used window over dimension `d`; the walk space, innermost first. -/
def winUsed (r : List Byte) (j : Nat) : Bool := rb r 0 1 == 1 && rb r (226 + 8 * j) 2 != 0
def winOver (r : List Byte) (d : Nat) : Option Nat := [0, 1].find? fun j => winUsed r j && rb r (240 + j) 1 == d
def spaceOf (r : List Byte) : List Nat :=
  (List.range (rb r 1 1)).map (fun d => match winOver r d with
    | some j => rb r (226 + 8 * j) 2
    | none => rb r (32 + 12 * d) 4) ++ ([0, 1].filter (winUsed r)).map fun j => rb r (224 + 8 * j) 2

/-- A point of a space, and its number with the innermost index fastest. -/
def IsPoint (sp ix : List Nat) : Prop := ix.length = sp.length ∧ ∀ k < sp.length, ix.getD k 0 < sp.getD k 0
def pointNo : List Nat → List Nat → Nat
  | e :: es, i :: is => i + e * pointNo es is
  | _, _ => 0

/-- Index i_d at a point; whether every index lies in the tensor; where its element stands, in nibbles from the source. -/
def indexAt (r : List Byte) (ix : List Nat) (d : Nat) : Int :=
  match winOver r d with
  | some j => (ix.getD (rb r 1 1 + j) 0 * rb r (228 + 8 * j) 2 + ix.getD d 0 : Nat) - (rb r (230 + 8 * j) 2 : Int)
  | none => ix.getD d 0
def inTensor (r : List Byte) (ix : List Nat) : Bool :=
  (List.range (rb r 1 1)).all fun d => decide (0 ≤ indexAt r ix d ∧ indexAt r ix d < rb r (32 + 12 * d) 4)
def strideOf (r : List Byte) (d : Nat) : Int := (BitVec.ofNat 64 (rb r (36 + 12 * d) 8)).toInt
def nibsFrom (r : List Byte) (w : Nat) (ix : Nat → Int) (n : Nat) : Int := ((List.range n).map fun d => ix d * strideOf r d * w).sum
def sourceNib (r : List Byte) (a : Nat) (ix : List Nat) : Int := 2 * a + nibsFrom r (recNibs r) (indexAt r ix) (rb r 1 1)

/-- Nibble `k` of the element that the walk reads at a point. -/
def walkNib (r : List Byte) (m : List Host.Cell) (a : Nat) (ix : List Nat) (k : Nat) : BitVec 4 :=
  if inTensor r ix then nibAt m (sourceNib r a ix + k).toNat else (BitVec.ofNat 32 (rb r 244 4)).extractLsb' (4 * k) 4

/-- Every element that the walk reads can be read. -/
def WalkReads (r : List Byte) (a : Nat) (j : Job) (ts : List TagSt) (D : Nat → Prop) : Prop :=
  ∀ ix, IsPoint (spaceOf r) ix → inTensor r ix = true → ∀ k < recNibs r, 0 ≤ sourceNib r a ix + k ∧
    Readable j ts D ((sourceNib r a ix + k).toNat / 2)

/-- The nibbles of a walk, and the packed run that DD = 1 and HALO write from `b` on. -/
def walkNibs (r : List Byte) : Nat := (spaceOf r).prod * recNibs r
def Packed (r : List Byte) (j0 : Job) (a b : Nat) (j : Job) : Prop :=
  (∀ ix, IsPoint (spaceOf r) ix → ∀ k < recNibs r,
    nibAt j.mem (2 * b + pointNo (spaceOf r) ix * recNibs r + k) = walkNib r j0.mem a ix k) ∧
  (∀ q, q < 2 * b ∨ 2 * b + walkNibs r ≤ q → nibAt j.mem q = nibAt j0.mem q) ∧ Counted j0 b ((walkNibs r + 1) / 2) j

/-- A plain destination record fits a walk (19 R285), and where a point lands under it. -/
def Fits (r d : List Byte) : Prop :=
  rb d 0 1 = 0 ∧ rb d 1 1 = (spaceOf r).length ∧ rb d 2 1 = rb r 2 1 ∧ rb d 3 1 = rb r 3 1 ∧
  ∀ k < (spaceOf r).length, rb d (32 + 12 * k) 4 = (spaceOf r).getD k 0
def destNib (r d : List Byte) (b : Nat) (ix : List Nat) : Int :=
  2 * b + nibsFrom d (recNibs r) (fun k => ix.getD k 0) (spaceOf r).length

/-! The stored forms of a block (05 R72, R73). -/

/-- Blocks of a CM page that an engine can reach: block `i` lies at `frame i`, and no granule of it is marked. -/
structure SourceBlocks (h : EHere) (va b : Nat) (frame : Nat → Nat) : Prop where
  fits : va + 4096 * b ≤ 2 ^ 48
  aligned : ∀ i < b, frame i % 4096 = 0
  maps : ∀ i < b, ∀ k n, 0 < n → k + n ≤ 4096 →
    h.pk.translate h.who (va + 4096 * i + k) n .engRead = .ok (.hbm (frame i + k) (va + 4096 * i + k) true)
  clean : ∀ i < b, ∀ g ∈ h.pk.marks, g * 64 + 64 ≤ frame i ∨ frame i + 4096 ≤ g * 64

def tagFmt (t : BitVec 16) : BitVec 4 := t.extractLsb' 12 4
def tagLen (t : BitVec 16) : BitVec 7 := t.extractLsb' 5 7
def tagEt (t : BitVec 16) : Nat := (t.extractLsb' 0 4).toNat

/-- Element `i` of the ZBM block at `f` is stored; the elements stored before it. -/
def zbmBit (m : List Host.Cell) (f i : Nat) : Bool := (memGet m (f + i / 8)).getLsbD (i % 8)
def zbmRank (m : List Host.Cell) (f i : Nat) : Nat := ((List.range i).filter (zbmBit m f)).length

/-- Byte `o` of a block that routine 1 decodes: RAW, or ZBM with elements of `z` bytes. -/
def zbmByte (t : BitVec 16) (m : List Host.Cell) (f o : Nat) : Byte :=
  let z := etNibs (tagEt t) / 2
  if tagFmt t = 0 then memGet m (f + o)
  else if zbmBit m f (o / z) then memGet m (f + 512 / z + z * zbmRank m f (o / z) + o % z) else 0

/-- The block decodes without error: its LEN is what its bitmaps require. -/
def ZbmGood (t : BitVec 16) (m : List Host.Cell) (f : Nat) : Prop :=
  tagEt t ≤ 9 ∧ (tagFmt t = 0 ∨ tagFmt t = 1 ∧ t.getLsbD 4 = false ∧ 2 ≤ etNibs (tagEt t) ∧
    let z := etNibs (tagEt t) / 2
    (512 / z + z * zbmRank m f (4096 / z) + 63) / 64 = (tagLen t).toNat ∧ (tagLen t).toNat ≤ 64)

/-- A good CB4 block of elements of `z` bytes. -/
def Cb4Good (t : BitVec 16) (z : Nat) (m : List Host.Cell) (f : Nat) : Prop :=
  tagFmt t = 2 ∧ t.getLsbD 4 = false ∧ tagEt t ∈ [1, 2, 3, 4, 7] ∧ etNibs (tagEt t) = 2 * z ∧
  64 * (tagLen t).toNat = 64 + 2048 / z ∧ 1 ≤ (memGet m (f + 32)).toNat ∧ (memGet m (f + 32)).toNat ≤ 16 ∧
  (∀ k < 31, memGet m (f + 33 + k) = 0) ∧ (z = 1 → ∀ k < 16, memGet m (f + 2 * k + 1) = 0)

/-- What routine 2 stores of 4,096 bytes at `a` in elements of `z` bytes: the elements whose bits are not all zero, under their
bitmaps. -/
def zbmKept (m : List Host.Cell) (a z : Nat) : List Nat :=
  (List.range (4096 / z)).filter fun i => memRead m (a + z * i) z != List.replicate z 0
def ZbmPayload (m : List Host.Cell) (a z : Nat) (bs : List Byte) : Prop :=
  ∃ map : List Byte, map.length = 512 / z ∧
    (∀ i < 4096 / z, (map.getD (i / 8) 0).getLsbD (i % 8) = (memRead m (a + z * i) z != List.replicate z 0)) ∧
    bs = map ++ (zbmKept m a z).flatMap fun i => memRead m (a + z * i) z

end Sys2Proof.Claims

/-- Events of chains and of the calving engine (19 R279, R280, R281, R285 to R287, R293, R295, R297, R298; 05 R72, R73; 21 R320). Within
the carve-out a COPY leaves at its destination the bytes that its source held; a WALK or HALO each element of its walk, packed or at its
destination address, FILL outside the tensor (a HALO first stands at a slab that is not FULL); routine 1 the elements of its blocks,
routine 3 their codebooks and indices, routine 9 element (i, j) at (j, i): all counted in their slabs. Routine 2 forms payload and tag;
what is formed for another space is held 160 clk. A kicked chain starts, once the operations before its launch have been performed, with
the stack it takes over, and begins at its first word that moves; a batch closes, adds its entries to the tail, and writes them, or
leaves a record for each entry where a port died. (That RAW blocks may stand among the blocks of routine 1 is R295; the order of engine
work on overlapping bytes is the log's entry 49.) -/
def Obligations.ChainAndBatchEvents : Prop :=
  (∀ c s e h x, s.ehereAt c e = some h → (h.jb.eng e).xfers.find? (fun y => y.id == x.id) = some x →
    x.chain ≠ h.ch.id ∨ (∃ t ∈ h.jb.traps, t.dlv = h.ch.dlv e) → exec (.transferComplete c e x.id) s = .next s) ∧
  (∀ c s e h x n a b, Unbegun s c e h x → x.kind = .copy n → 0 < n → x.src.toNat = 2 ^ 60 + a → x.dst.toNat = 2 ^ 60 + b →
    b + n ≤ h.jb.limit → (∀ i < n, Readable h.jb [.full, .empty] (Touches b n) (a + i)) → (∀ sl, Touches b n sl → Fresh h sl) →
    Lands s c e h x (Output h.jb b n fun i => memGet h.jb.mem (a + i))) ∧
  (∀ c s e h x r a b, Unbegun s c e h x → x.src.toNat = 2 ^ 60 + a → x.dst.toNat = 2 ^ 60 + b → a < 2 ^ 21 → b < 2 ^ 21 →
    shGood r = true →
    let n := (walkNibs r + 1) / 2
    let D := Touches b n
    (x.kind = .walk r none ∨ x.kind = .halo r → n = 0 → Lands s c e h x fun j => j.mem = h.jb.mem ∧ j.tags = h.jb.tags) ∧
    (0 < n → b + n ≤ h.jb.limit → (∀ sl, D sl → Fresh h sl) →
      (x.kind = .walk r none → WalkReads r a h.jb [.full, .empty] D → Lands s c e h x (Packed r h.jb a b)) ∧
      (x.kind = .halo r → WalkReads r a h.jb [.full] D → Lands s c e h x (Packed r h.jb a b)) ∧
      ∀ ix, IsPoint (spaceOf r) ix → (∀ i ∈ ix, i = 0) → inTensor r ix = true → 0 ≤ sourceNib r a ix →
        let off := (sourceNib r a ix).toNat / 2
        x.kind = .halo r → off < h.jb.limit → (h.jb.tag (off / 2048)).st ∈ [.empty, .filling] →
        Makes (.transferComplete c e x.id) s c.pkg fun q => q.hbm = h.pk.hbm ∧ ∃ y j, q.cell c.cell = some y ∧ y.job = some j ∧
          j.mem = h.jb.mem ∧ j.tags = h.jb.tags ∧ j.traps = h.jb.traps ∧ (j.eng e).xfers = (h.jb.eng e).xfers.map fun y =>
            if y.id = x.id then { x with blocked := true, slabs := [⟨c.cell, off / 2048, h.jb.uid, false⟩] } else y) ∧
    ∀ d, x.kind = .walk r (some d) → Fits r d → 0 < n → walkNibs r ≤ 2048 →
      let D (sl : Nat) : Prop := ∃ ix k, IsPoint (spaceOf r) ix ∧ k < recNibs r ∧ sl = (destNib r d b ix + k).toNat / 2 / 2048
      (∀ ix, IsPoint (spaceOf r) ix → 0 ≤ destNib r d b ix ∧ destNib r d b ix + recNibs r ≤ 2 * h.jb.limit) →
      (∀ ix iy, IsPoint (spaceOf r) ix → IsPoint (spaceOf r) iy → ix ≠ iy →
        destNib r d b ix + recNibs r ≤ destNib r d b iy ∨ destNib r d b iy + recNibs r ≤ destNib r d b ix) →
      (∀ sl, D sl → Fresh h sl) → WalkReads r a h.jb [.full, .empty] D →
      Lands s c e h x fun j => (∀ ix, IsPoint (spaceOf r) ix → ∀ k < recNibs r,
          nibAt j.mem (destNib r d b ix + k).toNat = walkNib r h.jb.mem a ix k) ∧
        (∀ q : Nat, (∀ ix, IsPoint (spaceOf r) ix → q < destNib r d b ix ∨ destNib r d b ix + recNibs r ≤ q) →
          nibAt j.mem q = nibAt h.jb.mem q) ∧
        ∀ sl, ¬ D sl → j.tag sl = h.jb.tag sl) ∧
  (∀ c s e h x va b (p : Word) frame, Unbegun s c e h x → h.id = c → x.src.toNat = va → x.dst.toNat = 2 ^ 60 + b → 0 < p.toNat →
    p.toNat < 2 ^ 16 → SourceBlocks h va p.toNat frame →
    (x.kind = .codec 1 p → b + 4096 * p.toNat ≤ h.jb.limit → (∀ sl, Touches b (4096 * p.toNat) sl → Fresh h sl) →
      (∀ i < p.toNat, ZbmGood (h.pk.ctag (frame i / 4096)) h.pk.hbm (frame i)) →
      Lands s c e h x (Output h.jb b (4096 * p.toNat) fun o =>
        zbmByte (h.pk.ctag (frame (o / 4096) / 4096)) h.pk.hbm (frame (o / 4096)) (o % 4096))) ∧
    ∀ z, x.kind = .codec 3 p →
      let n := 64 + 2048 / z
      b + n * p.toNat ≤ h.jb.limit → (∀ sl, Touches b (n * p.toNat) sl → Fresh h sl) →
      (∀ i < p.toNat, Cb4Good (h.pk.ctag (frame i / 4096)) z h.pk.hbm (frame i)) →
      Lands s c e h x (Output h.jb b (n * p.toNat) fun o => memGet h.pk.hbm (frame (o / n) + o % n))) ∧
  (∀ c s e h x a b (p : Word), Unbegun s c e h x → x.src.toNat = 2 ^ 60 + a → x.dst.toNat = 2 ^ 60 + b → a < 2 ^ 21 → b < 2 ^ 21 →
    x.kind = .codec 9 p →
    let z := 4 / 2 ^ (p.extractLsb' 0 2).toNat
    let sp := (p.extractLsb' 16 16).toNat
    let dp := (p.extractLsb' 32 16).toNat
    let D (sl : Nat) : Prop := ∃ j < 64, Touches (b + j * dp) (64 * z) sl
    p.extractLsb' 0 2 ≠ 3 → 64 * z ≤ dp → b + 63 * dp + 64 * z ≤ h.jb.limit →
    (∀ i < 64, ∀ k < 64 * z, Readable h.jb [.full, .empty] D (a + i * sp + k)) → (∀ sl, D sl → Fresh h sl) →
    Lands s c e h x fun y => (∀ i < 64, ∀ j < 64, ∀ k < z,
        memGet y.mem (b + j * dp + i * z + k) = memGet h.jb.mem (a + i * sp + j * z + k)) ∧
      (∀ m, (∀ j < 64, m < b + j * dp ∨ b + j * dp + 64 * z ≤ m) → memGet y.mem m = memGet h.jb.mem m) ∧
      ∀ sl, ¬ D sl → y.tag sl = h.jb.tag sl) ∧
  (∀ c s e h x a va ad (t : Nat) bs, Unbegun s c e h x → h.id = c → x.src.toNat = 2 ^ 60 + a → x.dst.toNat = va → a < 2 ^ 21 →
    va + 4096 ≤ 2 ^ 48 → t ≤ 9 → 2 ≤ etNibs t → x.kind = .codec 2 (BitVec.ofNat 64 (1 + t * 2 ^ 16)) →
    h.pk.translate h.who va 1 .engWrite = .ok (.hbm ad va true) →
    (∀ i < 4096, Readable h.jb [.full, .empty] (fun _ => False) (a + i)) → ZbmPayload h.jb.mem a (etNibs t / 2) bs →
    let len := (bs.length + 63) / 64
    let clear (l : List Byte) : List (Byte × Bool) := l.map fun y => (y, false)
    Makes (.transferComplete c e x.id) s c.pkg fun q => q.hbm = h.pk.hbm ∧ ∃ y j, q.cell c.cell = some y ∧ y.job = some j ∧
      j.mem = h.jb.mem ∧ j.tags = h.jb.tags ∧ (j.eng e).xfers = (h.jb.eng e).xfers.map fun y => if y.id = x.id then { x with
        at_ := 1, formedAt := h.pk.clkOf c.cell, blocked := false
        formed := if 64 < len then [.bytes va va (clear (memRead h.jb.mem a 4096)), .tag va 0]
          else [.bytes va va (clear (bs ++ List.replicate (64 * len - bs.length) 0)),
            .tag va (BitVec.ofNat 16 (1 * 2 ^ 12 + len * 2 ^ 5 + t))] } else y) ∧
  (∀ c s e h x n va bs ad, s.ehereAt c e = some h → (h.jb.eng e).xfers.find? (fun y => y.id == x.id) = some x →
    x.chain = h.ch.id → (∀ y ∈ (h.jb.eng e).xfers.takeWhile (fun y => y.id != x.id), y.chain ≠ x.chain) → h.ch.live = true →
    h.ch.halted = false → h.ch.foot = [] → (∀ t ∈ h.jb.traps, t.dlv ≠ h.ch.dlv e) → x.kind = .copy n → x.dst.toNat = va →
    va / 8 = (va + n - 1) / 8 → va + n ≤ 2 ^ 48 → x.at_ = 1 → x.formed = [.piece 0 (bs.map fun y => (y, false))] → bs.length = n → 0 < n →
    x.marked = [] → x.halted = false →
    (h.pk.clkOf c.cell < x.formedAt + 160 → Makes (.transferComplete c e x.id) s c.pkg fun q => q.hbm = h.pk.hbm ∧ q.ctxs = h.pk.ctxs ∧
      ∃ y j, q.cell c.cell = some y ∧ y.job = some j ∧ j.mem = h.jb.mem ∧ j.tags = h.jb.tags ∧
        (j.eng e).xfers.find? (fun y => y.id == x.id) = some { x with blocked := false }) ∧
    (x.formedAt + 160 ≤ h.pk.clkOf c.cell → h.id = c → h.pk.translate h.who va n .engWrite = .ok (.hbm ad va false) →
      h.pk.migrating h.who va = false → Memory.wf h.pk.hbm = true →
      Makes (.transferComplete c e x.id) s c.pkg fun q => WroteBytes h.pk.hbm q.hbm ad bs ∧ q.fns = h.pk.fns ∧
        ∃ y j, q.cell c.cell = some y ∧ y.job = some j ∧ j.mem = h.jb.mem ∧ j.tags = h.jb.tags ∧
          (j.eng e).xfers = (h.jb.eng e).xfers.filter (fun y => y.id != x.id))) ∧
  (∀ c s p x j e ch rest, RunsAt s c p x j → (j.eng e).kicks = ch :: rest →
    ((j.eng e).chain ≠ none → exec (.kickedChainStart c e) s = .next s) ∧
    ((j.eng e).chain = none → ∀ op link, ch.role = .kicked op link →
      (launchReady x.ops op false = false → exec (.kickedChainStart c e) s = .next s) ∧
      (launchReady x.ops op false = true → Turns (.kickedChainStart c e) s c j.uid fun y => withEng e { y.eng e with
        chain := some { ch with stack := if link then (((j.eng e).left.getLast?).map (·.2)).getD [] else [] }
        kicks := rest, starve := none } y))) ∧
  (∀ c s e h op link, s.ehereAt c e = some h → h.ch.role = .kicked op link → h.ch.begun = false → h.ch.live = true →
    let feet := if h.ch.foot = [] then [⟨0, 0, 2 ^ 48, true, false⟩, ⟨1, 0, 2 ^ 21, true, false⟩] else h.ch.foot.filter fun f => !f.gated
    (launchReady h.ce.ops op false = false ∨ h.jb.edgesClear op feet = false → exec (.chainBegin c e) s = .next s) ∧
    (h.atBody = true → launchReady h.ce.ops op false = true → h.jb.edgesClear op feet = true →
      Moves (.chainBegin c e) s c (withEng e { h.jb.eng e with chain := some { h.ch with begun := true } } h.jb))) ∧
  (∀ c s e h, s.ehereAt c e = some h → h.ch.live = true →
    ((∀ t, (h.jb.eng e).starve = some t → h.pk.clkOf c.cell < t + 2 ^ 24) ∨ h.stalled = false →
      exec (.ceStarvation c e) s = .next s) ∧
    (∀ t, (h.jb.eng e).starve = some t → t + 2 ^ 24 ≤ h.pk.clkOf c.cell → h.stalled = true → exec (.ceStarvation c e) s = .next (s.setPkg c.pkg
      ((h.pk.setCell c.cell { h.ce with job := some (withEng e { h.jb.eng e with starve := some (h.pk.clkOf c.cell) } h.jb) }).event
        (s.now / 252) h.jb.ctx 0x04 e.toNat (placeOfCell c.cell) 0)))) ∧
  (∀ c s p x (n : BitVec 4), CellAt s c p x →
    let h := x.shadows[n.toFin]
    (h.opened = [] ∨ (s.now < h.openedAt + 2000 * 252 ∧ h.opened.length < 64) → exec (.batchClose c n) s = .next s) ∧
    ∀ b, h.opened ≠ [] → h.openedAt + 2000 * 252 ≤ s.now ∨ 64 ≤ h.opened.length → h.bind = some b →
      Alters (.batchClose c n) s c (shadowed n { h with
        opened := [], batches := h.batches ++ [⟨b, h.opened, none, p.clkOf c.cell, [], false⟩] })) ∧
  (∀ c s p x (n : BitVec 4) b rest, CellAt s c p x → x.shadows[n.toFin].batches = b :: rest → b.sent = none →
    (p.clkOf c.cell < b.sentAt + 160 → exec (.batchSend c n) s = .next s) ∧
    ∀ w a va, b.sentAt + 160 ≤ p.clkOf c.cell → Memory.wf p.hbm = true →
      s.fabricAt c.pkg b.bind.ctx b.bind.secure b.bind.taila 8 .atomic = .ok (c.pkg, w, .hbm a va false) →
      let old := leNat (memRead p.hbm a 8)
      Makes (.batchSend c n) s c.pkg fun q => q.fns = p.fns ∧
        WroteBytes p.hbm q.hbm a (natLe ((old + b.entries.length) % 2 ^ 64) 8) ∧
        q.cells = (p.modCell c.cell (shadowed n { x.shadows[n.toFin] with
          batches := { b with sent := some old, sentAt := p.clkOf c.cell } :: rest })).cells) ∧
  ∀ c s p x (n : BitVec 4) b rest t, CellAt s c p x → x.shadows[n.toFin].batches = b :: rest → b.sent = some t →
    (b.lost = true → ∀ e, b.entries = [e] → b.flush = [] → exec (.batchComplete c n) s = .next (s.setPkg c.pkg
      ((p.faultRecord b.bind.ctx (placeOfCell c.cell) 5 0x02 0 0
        (b.bind.qbase + BitVec.ofNat 64 (64 * (t % b.bind.cap))).toNat).modCell c.cell
          fun y => { y with shadows := y.shadows.set n.toFin { y.shadows[n.toFin] with batches := y.shadows[n.toFin].batches.drop 1 } }))) ∧
    (b.lost = false → (p.clkOf c.cell < b.sentAt + 160 → exec (.batchComplete c n) s = .next s) ∧
    (∀ u, b.sentAt + 160 ≤ p.clkOf c.cell → s.writeEntries c b t b.entries = .ok u →
      exec (.batchComplete c n) s = .next (u.modPkg c.pkg fun p => p.dropBatch c.cell n b)) ∧
    ∀ w a va e, b.sentAt + 160 ≤ p.clkOf c.cell → b.entries = [e] → b.flush = [] → Memory.wf p.hbm = true →
      s.fabricAt c.pkg b.bind.ctx b.bind.secure (b.bind.qbase + BitVec.ofNat 64 (64 * (t % b.bind.cap))) 64 .store =
        .ok (c.pkg, w, .hbm a va false) →
      Makes (.batchComplete c n) s c.pkg fun q => q.fns = p.fns ∧ WroteBytes p.hbm q.hbm a e ∧
        q.cells = (p.modCell c.cell (shadowed n { x.shadows[n.toFin] with batches := rest })).cells)

namespace Sys2Proof.Claims

/-- A job that has rolled back to its oldest uncommitted region (01 R26, R27; 13 R190; 14 R197; 15 R229; 17 R236): both cores stand live at
the start of that region with the registers saved there, and everything that its uncommitted regions had pending is gone; of an
asynchronous write what a rolled-back wait ended is pending again (the log's entry 39). -/
structure RolledBack (j h : Job) : Prop where
  same : h.uid = j.uid ∧ h.ctx = j.ctx ∧ h.committed = j.committed ∧ h.hdr = j.hdr ∧ h.trip = j.trip ∧ h.qrec = j.qrec
  cores : ∀ k, (h.core k).live = true ∧ (h.core k).region = j.committed ∧ (h.core k).regs = (j.oldSave k).regs ∧
    (h.core k).rdv = (j.oldSave k).rdv ∧ (h.core k).calls = [] ∧ (h.core k).loops = [] ∧ (h.core k).busy = 0
  pc : ∀ k t, j.trip = .counted t →
    (h.hdr.entries k)[if j.committed = 0 then 0 else if j.committed = t + 1 then 2 else 1]? = some (h.core k).pc
  gone : h.deferred = [] ∧ h.results = [] ∧ h.traps = [] ∧ h.me.jobs = [] ∧ h.me.tasks = [] ∧
    h.tagSaves = [] ∧ h.ringSaves = [] ∧ h.copySaves = [] ∧ h.markSaves = []
  pending : h.async = (j.async.filter fun w => w.region < j.committed).map fun w =>
    { w with endedBy := if w.endedBy.any (· < j.committed) then w.endedBy else none }
  empty : (∀ q : Fin 4, h.lq[q].ents = [] ∧ h.lqRow[q].ents = []) ∧ ∀ q : Fin 2, h.sq[q].ents = [] ∧ h.sqRow[q].ents = []
  engines : ∀ e, (h.eng e).kicks = [] ∧ (h.eng e).xfers = [] ∧ (h.eng e).stage = []
  sems : ∀ n : Fin 64, h.sems[n].c = j.sems[n].c + (j.sems[n].decs.filter fun d => d.1.isSome).length
  mem : j.copySaves = [] → h.mem = j.mem

/-- The program counters that a trap frame records (23 R333). -/
def trapPcs (j : Job) (v : Vector Word 4) : Prop :=
  v[0] = (if j.ac.live then j.ac.pc else 0) ∧ v[1] = (if j.xc.live then j.xc.pc else 0) ∧ ∀ e : BitVec 1,
    v[2 + e.toNat] = match (j.eng e).chain with
      | some c => if c.isStream && c.live then c.ptr else 0
      | none => 0

/-- An event of 23 R341 for a context, written after the change to `p`. -/
def noted (p : Package) (s : State) (ctx type src place detail : Nat) : Package := p.event (s.now / 252) ctx type src place detail

end Sys2Proof.Claims

/-- Selection, stealing, pre-emption, recoverable traps and loss (21 R307 to R310; 01 R28, R33, R34, R36; 23 R332 to R336, R344 to
R346). What is selected is first, in the order of R307, of what fits; a held job resumes as it stands; a trap of the oldest region is
taken, its job rolls back and is held; the frame and the handler record are written; a lost context keeps nothing. (The model's choices
in it: what a rolled-back wait ended is the log's entry 39, the source 6 of an event 45, what a loss takes from the cells 53, QOCC and the
program counters of the frame 55, which trap of a window is taken and how far it rolls back 65 and 75; the budget that STEP_RAISE asks for
is 01 R34.) -/
def Obligations.SchedulingAndTraps : Prop :=
  (∀ c s p x, CellAt s c p x →
    (x.job ≠ none ∨ (x.trapped = none ∧ p.selectFor s.now c.cell x = none) → exec (.taskSelect c) s = .next s) ∧
    (∀ k, p.selectFor s.now c.cell x = some (k, false) → k ∈ p.cands s.now x ∧ p.candFits x k = true ∧
      p.fits (dieOf c.cell) k.ecls = true ∧ ∀ k' ∈ p.cands s.now x, p.candFits x k' = true → p.fits (dieOf c.cell) k'.ecls = true →
        k'.before s.now k = false) ∧
    (x.job = none → x.trapped = none → p.live c.cell = true → x.bindable = true →
      (∀ j cx, p.selectFor s.now c.cell x = some (.held j, false) → p.ctx j.ctx = some cx →
        Makes (.taskSelect c) s c.pkg fun q => ∃ y, q.cell c.cell = some y ∧ y.heldJob = none ∧ y.preempt = false ∧
          y.job = some { j with held := none, progress := p.clkOf c.cell }) ∧
      (∀ r cx a j, p.selectFor s.now c.cell x = some (.rec_ r, false) → p.ctx r.ctx = some cx → r.save = some a →
        look cx.saved a = some j → Makes (.taskSelect c) s c.pkg fun q => ∃ y, q.cell c.cell = some y ∧ y.preempt = false ∧
          y.queue.map (·.task) = (x.queue.filter (· != r)).map (·.task) ∧
          y.job = some { j with held := none, progress := p.clkOf c.cell }) ∧
      ∀ r cx, p.selectFor s.now c.cell x = some (.rec_ r, false) → p.ctx r.ctx = some cx → r.save = none →
        (∀ j, p.newJob s.nextId c.cell x cx r = .ok j → ∃ q y, exec (.taskSelect c) s =
          .next { s.setPkg c.pkg q with nextId := s.nextId + 1 } ∧ q.cell c.cell = some y ∧ y.job = some j ∧ y.preempt = false ∧
            y.queue.map (·.task) = (x.queue.filter (· != r)).map (·.task)) ∧
        (p.newJob s.nextId c.cell x cx r = .error .reject → exec (.taskSelect c) s = .next { s.setPkg c.pkg (noted (p.setCell c.cell
          { x with queue := x.queue.filter (· != r) }) s cx.id 0x01 6 (placeOfCell c.cell) 0) with nextId := s.nextId + 1 }))) ∧
  (∀ n (die : BitVec 1) s p, s.pkg n = some p →
    let d : Fin 2 := die.toFin
    let step := p.firn.dies[d].step.toNat
    (step = 0 ∨ p.dies[d].budget < p.draws d (step - 1) none → exec (.stepRaise n die) s = .next s) ∧
    (p.firn.level ≠ 0 → 0 < step → p.draws d (step - 1) none ≤ p.dies[d].budget → Makes (.stepRaise n die) s n fun q =>
      q.firn.version = p.firn.version + 1 ∧ q.firn.change = 2 ∧ q.firn.time = BitVec.ofNat 64 (s.now / 252) ∧
      q.firn.dies[d] = { p.firn.dies[d] with step := BitVec.ofNat 3 (step - 1) } ∧ (∀ i, i ≠ d → q.firn.dies[i] = p.firn.dies[i]) ∧
      (∀ i, q.dies[i] = if i = d then { p.dies[i] with since := s.now } else p.dies[i]) ∧ q.links = p.links)) ∧
  (∀ c s p x v, CellAt s c p x → x.job = none → x.trapped = none → p.live c.cell = true → p.selectFor s.now c.cell x = none →
    (∀ r ∈ x.queue, p.recReady s.now r = false) → bestVictim (p.victims c.pkg (rowColumn c.cell) (p.backlog s.now)) = some v →
    ∀ z, p.cell v.cell = some z →
      v.cell ∈ rowColumn c.cell ∧ v.loot = p.backlog s.now z ∧ v.loot ≠ [] ∧
      (∀ i y, i ∈ rowColumn c.cell → p.live i = true → p.cell i = some y → (p.backlog s.now y).length ≤ v.loot.length) ∧
      Makes (.steal c) s c.pkg fun q => q.hbm = p.hbm ∧ q.ctxs = p.ctxs ∧ ∃ l y w, l = stolen s.now v.loot ∧
        l.length = max 1 (v.loot.length / 2) ∧ (∀ r ∈ l, r ∈ v.loot) ∧ q.cell c.cell = some y ∧ q.cell v.cell = some w ∧
        y.queue.map (fun r => (r.task, r.ctx, r.save)) = (x.queue ++ l).map (fun r => (r.task, r.ctx, r.save)) ∧
        w.queue = z.queue.filter (fun r => !l.contains r) ∧ y.job = none ∧ w.job = z.job) ∧
  (∀ c s p x j, RunsAt s c p x j →
    (x.preempt = true → exec (.preemptionRequest c) s = .next s) ∧
    (x.preempt = false → p.outranked s.now c.cell x j = true ∨ (∃ cx, p.ctx j.ctx = some cx ∧ cx.st = .suspended) →
      Alters (.preemptionRequest c) s c fun x => { x with preempt := true }) ∧
    (x.preempt = false ∨ j.traps ≠ [] → exec (.preemption c) s = .next s) ∧
    (x.preempt = true → j.traps = [] → x.heldJob = none → Makes (.preemption c) s c.pkg fun q => q.hbm = p.hbm ∧
      ∃ y h, q.cell c.cell = some y ∧ y.job = none ∧ y.preempt = false ∧ y.heldJob = some h ∧ RolledBack j h ∧ h.held = j.held ∧
        h.readySince = s.now ∧ (∀ o ∈ y.ops, o.job = j.uid → j.committed ≤ o.region → o.dropped = true)) ∧
    (j.traps ≠ [] → x.heldJob = none → Makes (.recoverableTrap c) s c.pkg fun q => q.hbm = p.hbm ∧ ∃ y h d, q.cell c.cell = some y ∧
      y.job = none ∧ y.preempt = false ∧ y.heldJob = some h ∧ RolledBack j h ∧ h.held = some d ∧ d.trap ∈ j.traps ∧
      (∀ t ∈ j.traps, d.trap.region < t.region ∨ (d.trap.region = t.region ∧ d.trap.dlv.code ≤ t.dlv.code)) ∧
      d.frame = none ∧ d.filled = false ∧ d.written = false ∧ d.released = false ∧ trapPcs j d.pcs ∧
      (∀ o ∈ y.ops, o.job = j.uid → j.committed ≤ o.region → o.dropped = true)) ∧
    (∀ ago, 96 < ago → exec (.icequakeReport c.pkg [c.cell] ago) s = .next s) ∧
    (∀ ago, ago ≤ 96 → Makes (.icequakeReport c.pkg [c.cell] ago) s c.pkg fun q => q.hbm = p.hbm ∧ ∃ y h, q.cell c.cell = some y ∧
      y.job = some h ∧ RolledBack j h ∧ y.heldJob.map (·.uid) = x.heldJob.map (·.uid) ∧ y.queue = x.queue ∧
      ∀ i, i ≠ c.cell → q.cell i = p.cell i) ∧
    (p.clkOf c.cell < j.progress + 2 ^ 26 → exec (.watchdog c) s = .next s) ∧
    (j.progress + 2 ^ 26 ≤ p.clkOf c.cell → exec (.watchdog c) s = .next (s.setPkg c.pkg (noted (p.modJob c.cell j.uid fun y =>
      { y with progress := p.clkOf c.cell }) s j.ctx 0x02 6 (placeOfCell c.cell) 0)))) ∧
  (∀ c s p x j d cx ix a, CellAt s c p x → x.heldJob = some j → x.job = none → x.trapped = none →
    p.frameDue c.cell = some (.held c.cell j) → j.held = some d → d.filled = false → d.frame = none → d.trap.krec.length = 32 →
    p.ctx j.ctx = some cx → cx.frameFree = some ix → (cx.frameAt ix).toNat < 2 ^ 48 → (cx.frameAt ix).toNat % 4096 + 1536 ≤ 4096 →
    p.translate cx.who (cx.frameAt ix).toNat 1536 .store = .ok (.hbm a (cx.frameAt ix).toNat false) → Memory.wf p.hbm = true →
    Makes (.trapFrameWrite c) s c.pkg fun q => ∃ f y h e, WroteBytes p.hbm q.hbm a f ∧ f.length = 1536 ∧ q.cell c.cell = some y ∧
      y.heldJob = some h ∧ h.held = some e ∧ e.trap = d.trap ∧ e.frame = some ix ∧ e.filled = true ∧
      f.take 8 = natLe (placeOfCell c.cell * 2 ^ 32 + j.ctx * 2 ^ 24 + (if d.trap.rmt then 2 ^ 23 else 0) + d.trap.dlv.code * 2 ^ 20 +
        d.trap.psn * 2 ^ 18 + d.trap.sub * 2 ^ 8 + d.trap.code) 8 ∧
      (f.drop 8).take 8 = natLe d.trap.faddr.toNat 8 ∧
      (f.drop 0x10).take 32 = d.pcs.toList.flatMap (fun w => natLe w.toNat 8) ∧
      (f.drop 0x30).take 8 = natLe j.committed 4 ++ natLe d.trap.region 4 ∧ (f.drop 0x38).take 8 = natLe d.qocc.toNat 8 ∧
      (f.drop 0x40).take 128 = (d.last.toList ++ d.lastX.toList).flatMap (fun w => natLe w.toNat 8) ∧
      (f.drop 0xE0).take 32 = d.trap.krec ∧
      (∀ k : Core, ∀ i : Fin 64, leNat ((f.drop ((if k = .ac then 0x100 else 0x300) + 8 * i.val)).take 8) =
          (j.oldSave k).regs[i].v.toNat ∧
        leNat ((f.drop (if k = .ac then 0xC0 else 0xD0)).take 16) / 4 ^ i.val % 4 = (j.oldSave k).regs[i].p.code) ∧
      (f.drop 0x500).take 8 = natLe (j.hdr.liveV.toNat + j.hdr.liveM.toNat * 2 ^ 32) 8 ∧ f.drop 0x508 = List.replicate 248 0 ∧
      ∀ bs, x.hasPlace = true → cx.handler.toNat % 64 = 0 →
        (p.fillFrame cx (.held c.cell j) d).readG cx.who cx.handler.toNat 64 .load = .ok (bs, .none) →
        recordBad (handlerBytes bs (cx.frameAt ix).toNat) cx.secure = [] →
        e.written = true ∧ ∃ r, y.queue = x.queue ++ [r] ∧ r.ctx = cx.id ∧ r.seq = x.nextSeq ∧ r.handlerOf = some j.uid ∧
          r.frameIx = some ix ∧ r.task.frame = cx.frameAt ix ∧ r.task.prio = 3 ∧ r.task.pin = false ∧ r.task.xs = false ∧
          r.task.crew = none ∧ r.task.join = 0 ∧ r.task.nbt = 0 ∧ r.task.hdr = BitVec.ofNat 64 (leNat (bs.take 8))) ∧
  ∀ n s p l rest cx, s.pkg n = some p → p.losses = l :: rest → p.ctx l.ctx = some cx →
    (cx.st = .lost → exec (.contextLost n) s = .next (s.setPkg n { p with losses := rest })) ∧
    (cx.st ≠ .lost → ∃ u q k, exec (.contextLost n) s = .next u ∧ u.now = s.now ∧ u.pkg n = some q ∧ q.losses = rest ∧
      q.ctx l.ctx = some k ∧ k.st = .lost ∧ k.saved = [] ∧ k.framesUsed = [] ∧ k.saves = 0 ∧ k.crews = [] ∧ q.hbm = p.hbm ∧
      (∀ i : Fin 192, (∀ r ∈ q.cells[i].queue, r.ctx ≠ l.ctx) ∧ (∀ j ∈ q.cells[i].jobs, j.ctx ≠ l.ctx) ∧
        ((∀ j ∈ p.cells[i].jobs, j.ctx ≠ l.ctx) → q.cells[i].jobs.map (·.uid) = p.cells[i].jobs.map (·.uid)) ∧
        ∀ r ∈ p.cells[i].queue, r.ctx ≠ l.ctx → ∃ r' ∈ q.cells[i].queue, r'.task = r.task ∧ r'.seq = r.seq) ∧
      (∀ g ∈ p.marks, (∃ m ∈ p.mappedBy cx, m.1 ≤ g / 64 ∧ g / 64 < m.1 + m.2) → g / 64 ∈ q.retired) ∧
      ∀ f, p.fns[cx.owner]? = some f → ∃ f', q.fns[cx.owner]? = some f' ∧ f'.msix = f.msix + 1 ∧
        (Memory.wf f.mem = true → (f.lostWritten + 2 ^ 32 - leNat (memRead f.mem (cx.lostRing.toNat + 8) 4)) % 2 ^ 32 < 63 →
          f'.lostWritten = (f.lostWritten + 1) % 2 ^ 32 ∧
          memRead f'.mem (cx.lostRing.toNat + 32 + 64 * (f.lostWritten % 63)) 28 = natLe l.ctx 1 ++ natLe l.reason 1 ++
            natLe l.place 2 ++ natLe p.firn.version.toNat 4 ++ natLe (s.now / 252) 8 ++ natLe l.vaddr.toNat 8 ++ natLe l.src 1 ++
            [0, 0, 0]))

namespace Sys2Proof.Claims

/-- Package `n` of the state is `p`, and `y` is what it holds for the host function `fn`. -/
structure FnAt (s : State) (n : Nat) (p : Package) (fn : Fn) (y : FnState) : Prop where
  pkg : s.pkg n = some p
  fnAt : p.fns[fn]? = some y

/-- An event changes what a package holds for one host function, and nothing else of the state. -/
def Puts (e : Instr) (s : State) (n : Nat) (fn : Fn) (p : Package) (y : FnState) : Prop :=
  exec e s = .next (s.setPkg n (p.modFn fn fun _ => y))

/-- A context that a function owns and that is not lost. -/
def Owns (p : Package) (fn : Fn) (id : Nat) : Prop := ∃ c, p.ctx id = some c ∧ c.owner = fn ∧ c.st ≠ .lost

/-- A context of the function, lost or not. -/
def Mine (p : Package) (fn : Fn) (id : Nat) : Prop := ∃ c, p.ctx id = some c ∧ c.owner = fn

/-- What a copy may take from the slot of a cell: each 8-byte word as it stands, or, where it was written during the copy, as it
stood before (R368). -/
def IsPacket (y : FnState) (cell : Nat) (b : List Byte) : Prop :=
  b.length = 1024 ∧ ∀ i < 128, (b.drop (8 * i)).take 8 = memRead y.slots (1024 * cell + 8 * i) 8 ∨
    look y.slotOld (1024 * cell + 8 * i) = some ((b.drop (8 * i)).take 8)

/-- A read of BAR0 returns the number `v` in `k` bytes. -/
def Reads (p : Package) (ns : Nat) (fn : Fn) (off k v : Nat) : Prop := p.bar0Read ns fn off k = natLe v k

/-- Record `i` of a launch packet (R368). -/
def packetRecord (b : List Byte) (i : Nat) : List Byte := (b.drop (64 + 64 * i)).take 64

end Sys2Proof.Claims

/-- The host's accesses to BAR2 and BAR0 (25 R366, R367, R368; 26 R377, R378; 23 R353; 01 R17; 00 R7, R8). A read through BAR2 returns
the bytes of the page, all ones where it fails or the context is not the function's; a write changes those bytes or is discarded, and
one to a sealed frame leaves a record. A doorbell write of 1 starts a copy, which takes each word of the slot in its old or its new form;
a packet is rejected whole, or each record on its own. A read of BAR0 gives DSTAT, TIME, CSTAT and what stands in W2CTX, CMD, RESP, the
slots and the launch status; of anything else, the write-only MBOX and DOOR among it, zero. (BAR2 is as large as the log's entry 5 says;
which form of a slot word a copy takes is a free value, entry 76; event source 7 is entry 45.) -/
def Obligations.HostAccesses : Prop :=
  (∀ n s p fn y a k, FnAt s n p fn y →
    let ones := { y with scratch := List.replicate k 0xFF }
    (¬ Owns p fn y.w2ctx.toNat → Puts (.hostBar2Read n fn a k) s n fn p ones) ∧
    (y.bar2 < a + k → Puts (.hostBar2Read n fn a k) s n fn p ones) ∧
    (∀ c, p.ctx y.w2ctx.toNat = some c → Owns p fn y.w2ctx.toNat → 0 < k → a % 4096 + k ≤ 4096 → a + k ≤ y.bar2 → y.bar2 ≤ 2 ^ 36 →
      (∀ f, p.translate ⟨c.id, Config.fnSecure fn, none⟩ a k .load = .error f → f ≠ .noFrame → f ≠ .poisoned →
        Puts (.hostBar2Read n fn a k) s n fn p ones) ∧
      ∀ b va, p.translate ⟨c.id, Config.fnSecure fn, none⟩ a k .load = .ok (.hbm b va false) →
        Puts (.hostBar2Read n fn a k) s n fn p { y with scratch := memRead p.hbm b k })) ∧
  (∀ n s p fn y a bs, FnAt s n p fn y →
    (¬ Owns p fn y.w2ctx.toNat ∨ y.bar2 < a + bs.length → exec (.hostBar2Write n fn a bs) s = .next s) ∧
    (∀ c, p.ctx y.w2ctx.toNat = some c → Owns p fn y.w2ctx.toNat → 0 < bs.length → a % 4096 + bs.length ≤ 4096 →
        a + bs.length ≤ y.bar2 → y.bar2 ≤ 2 ^ 36 →
      (∀ k, p.translate ⟨c.id, Config.fnSecure fn, none⟩ a bs.length .store = .error (.page k) →
        exec (.hostBar2Write n fn a bs) s = .next s) ∧
      (p.translate ⟨c.id, Config.fnSecure fn, none⟩ a bs.length .store = .error .sealedWrite →
        exec (.hostBar2Write n fn a bs) s = .next (s.setPkg n (p.faultRecord c.id 0 7 0x08 fn 0 a))) ∧
      ∀ b va cm, p.translate ⟨c.id, Config.fnSecure fn, none⟩ a bs.length .store = .ok (.hbm b va cm) →
        p.migrating ⟨c.id, Config.fnSecure fn, none⟩ a = false → Memory.wf p.hbm = true →
        Makes (.hostBar2Write n fn a bs) s n fun q => WroteBytes p.hbm q.hbm b bs ∧ q.cells = p.cells ∧ q.fns = p.fns ∧
          q.ctxs = p.ctxs ∧ q.firn = p.firn)) ∧
  (∀ n s p fn y cell v, FnAt s n p fn y →
    (v ≠ 1 ∨ 192 ≤ cell ∨ (y.status cell).getLsbD 0 = true → exec (.ldoor n fn cell v) s = .next s) ∧
    (v = 1 → cell < 192 → (y.status cell).getLsbD 0 = false →
      ∃ z, Puts (.ldoor n fn cell v) s n fn p z ∧ z.status cell = (if p.ready then 1 else 0x100) ∧
        (∀ e ∈ z.slotOld, e.1 / 1024 ≠ cell) ∧ (∀ d, d ≠ cell → z.status d = y.status d) ∧
        z.slots = y.slots ∧ z.cmd = y.cmd ∧ z.mem = y.mem ∧ z.w2ctx = y.w2ctx)) ∧
  (∀ n s p fn y cell, FnAt s n p fn y → (y.status cell).getLsbD 0 = false → exec (.launchCopyComplete n fn cell) s = .next s) ∧
  (∀ n s p fn y cell x, FnAt s n p fn y → p.cell cell = some x → (∀ e ∈ y.slotOld, e.2.length = 8) → (y.status cell).getLsbD 0 = true →
    ∃ b, IsPacket y cell b ∧
    let ctx := leNat (b.take 1)
    let count := leNat ((b.drop 1).take 1)
    let good : Prop := 1 ≤ count ∧ count ≤ 15 ∧ (b.drop 2).take 6 = List.replicate 6 0 ∧ (b.drop 16).take 48 = List.replicate 48 0
    (¬ Owns p fn ctx → ∃ z, Puts (.launchCopyComplete n fn cell) s n fn p z ∧ z.status cell = 0x100 ∧ z.slots = y.slots ∧
      (∀ d, d ≠ cell → z.status d = y.status d)) ∧
    (Owns p fn ctx → ¬ good ∨ p.live cell = false → Makes (.launchCopyComplete n fn cell) s n fun q => ∃ z, q.fns[fn]? = some z ∧
      z.status cell = 0x100 ∧ (∀ i, (q.cell i).map (·.queue) = (p.cell i).map (·.queue)) ∧
      q.hbm = (noted p s ctx 0x01 7 (placeOfCell cell) 0).hbm ∧ q.ctxs = (noted p s ctx 0x01 7 (placeOfCell cell) 0).ctxs) ∧
    ∀ c, p.ctx ctx = some c → Owns p fn ctx → good → p.live cell = true → x.queue.length + x.reserved + count ≤ 65536 →
      let bad (i : Nat) : Bool := recordBad (packetRecord b i) c.secure != []
      let kept := (List.range count).filter fun i => !bad i
      Makes (.launchCopyComplete n fn cell) s n fun q => ∃ z k, q.fns[fn]? = some z ∧ q.cell cell = some k ∧
        (z.status cell).toNat % 2 ^ 16 = (if kept.length = count then 0 else 0x200) ∧
        (∀ i < 15, (z.status cell).getLsbD (16 + i) = (decide (i < count) && bad i)) ∧
        k.queue.map (fun r => (r.task, r.ctx, r.notBefore, r.save)) = x.queue.map (fun r => (r.task, r.ctx, r.notBefore, r.save)) ++
          kept.map (fun i => (readTask (packetRecord b i), ctx,
            max (leNat ((b.drop 8).take 8)) (readTask (packetRecord b i)).nbt.toNat, none)) ∧
        (∀ i r, k.queue[x.queue.length + i]? = some r → r.seq % 2 ^ 32 = (x.nextSeq + i) % 2 ^ 32) ∧
        (kept.length = count → q.hbm = p.hbm ∧ q.ctxs = p.ctxs ∧ ∀ i, i ≠ cell → q.cell i = p.cell i)) ∧
  (∀ n s p fn y cell x (i : BitVec 3) v, FnAt s n p fn y → p.cell cell = some x →
    let work : Prop := (∃ j ∈ x.jobs, Mine p fn j.ctx) ∨ (∃ r ∈ x.queue, Mine p fn r.ctx) ∨
      ((y.status cell).getLsbD 0 = true ∧ Mine p fn (leNat ((memRead y.slots (1024 * cell) 1024).take 1)))
    (¬ work → exec (.mbox n fn cell i v) s = .next s) ∧
    (work → exec (.mbox n fn cell i v) s = .next (s.setPkg n (p.setCell cell { x with mb := x.mb.set i.toFin v })))) ∧
  (∀ n s p fn y, FnAt s n p fn y →
    (∀ b rest, rest.length ≤ 7 → Puts (.registerWrite n fn 0x10 (b :: rest)) s n fn p { y with w2ctx := b }) ∧
    (∀ off bs, 0x1000 ≤ off → off + bs.length ≤ 0x1100 → ∃ m, Puts (.registerWrite n fn off bs) s n fn p { y with cmd := m } ∧
      ∀ i : Fin 256, m[i] = if off ≤ 0x1000 + i.val ∧ 0x1000 + i.val < off + bs.length then
        (bs[0x1000 + i.val - off]?).getD 0 else y.cmd[i]) ∧
    (∀ j o bs, j < 256 → j % 16 < 12 → o + bs.length ≤ 1024 → Memory.wf y.slots = true → ∃ m l,
      let c := cellOfPlace (16 * j)
      Puts (.registerWrite n fn (0x1000000 + 1024 * j + o) bs) s n fn p { y with slots := m, slotOld := l } ∧
      WroteBytes y.slots m (1024 * c + o) bs ∧ ((y.status c).getLsbD 0 = false → l = y.slotOld) ∧
      ((y.status c).getLsbD 0 = true → ∀ a, look l a = if look y.slotOld a = none ∧ ∃ k < bs.length, a = 1024 * c + (o + k) / 8 * 8 then
        some (memRead y.slots a 8) else look y.slotOld a)) ∧
    (∀ bs, bs.length = 8 → Puts (.registerWrite n fn 0x1100 bs) s n fn p { y with busy := y.busy || (p.ready && leNat bs == 1) }) ∧
    ∀ off bs, (off + bs.length ≤ 0x10 ∨ (0x11 ≤ off ∧ off + bs.length ≤ 0x1000) ∨ (0x1101 ≤ off ∧ off + bs.length ≤ 0x1000000) ∨
      0x1040000 ≤ off) → exec (.registerWrite n fn off bs) s = .next (s.setPkg n p)) ∧
  ∀ s n p fn y, FnAt s n p fn y → let ns := s.now / 252
    Reads p ns fn 0 8 (p.firn.version.toNat * 2 ^ 32 + (if p.fatal then 2 ^ 7 else 0) + p.level.toNat * 2 ^ 2 +
      (if p.ready && Config.fnSecure fn then 2 else 0) + if p.ready then 1 else 0) ∧
    Reads p ns fn 8 8 (ns % 2 ^ 64) ∧ Reads p ns fn 0x10 8 y.w2ctx.toNat ∧ p.bar0Read ns fn 0x1000 256 = y.cmd.toList ∧
    p.bar0Read ns fn 0x1200 256 = y.resp.toList ∧ Reads p ns fn 0x1108 8 (y.result.toNat * 2 ^ 8 + if y.busy then 1 else 0) ∧
    (∀ j < 256, j % 16 < 12 → p.bar0Read ns fn (0x1000000 + 1024 * j) 1024 = memRead y.slots (1024 * cellOfPlace (16 * j)) 1024 ∧
      Reads p ns fn (0x1400000 + 8 * j) 8 (y.status (cellOfPlace (16 * j))).toNat) ∧
    (∀ j < 256, 12 ≤ j % 16 → Reads p ns fn (0x1000000 + 1024 * j) 1024 0 ∧ Reads p ns fn (0x1400000 + 8 * j) 8 0) ∧
    ∀ off k, ((0x18 ≤ off ∧ off + k ≤ 0x1000) ∨ (0x1100 ≤ off ∧ off + k ≤ 0x1108) ∨ (0x1110 ≤ off ∧ off + k ≤ 0x1200) ∨
      (0x1300 ≤ off ∧ off + k ≤ 0x1000000) ∨ (0x1040000 ≤ off ∧ off + k ≤ 0x1400000) ∨ 0x1400800 ≤ off) → Reads p ns fn off k 0

namespace Sys2Proof.Claims

/-- A little-endian number of a run of bytes. -/
def numAt (b : List Byte) (off n : Nat) : Nat := leNat ((b.drop off).take n)

/-- A DOOR write finds the command `code` in CMD, while READY. -/
structure CmdAt (s : State) (n : Nat) (p : Package) (fn : Fn) (y : FnState) (code : Nat) : Prop extends FnAt s n p fn y where
  ready : p.ready = true
  code : numAt y.cmd.toList 0 8 = code

/-- A command's argument word. -/
def cmdArg (y : FnState) (n : Nat) : Nat := numAt y.cmd.toList (8 + 8 * n) 8

/-- What a command leaves in CSTAT and RESP. -/
def told (p : Package) (fn : Fn) (r : Byte) (resp : List Byte) : Package :=
  p.modFn fn fun y => { y with busy := false, result := r, resp := Vector.ofFn fun i => (resp[i.val]?).getD 0 }

/-- A command does nothing but answer. -/
def Answers (e : Instr) (s : State) (n : Nat) (fn : Fn) (p : Package) (r : Byte) (resp : List Byte) : Prop :=
  exec e s = .next (s.setPkg n (told p fn r resp))

/-- The counts of R370. -/
def countsOk : List Nat := [16, 32, 64, 128, 256, 512, 1024, 2048, 4096, 8192, 16384, 32768, 65536]

/-- A descriptor that keeps R370. -/
structure DescriptorGood (b : List Byte) (fn : Fn) : Prop where
  zero1 : numAt b 0x1C 4 = 0
  zero2 : numAt b 0x2C 4 = 0
  zero3 : (b.drop 0x52).take 46 = List.replicate 46 0
  faults : numAt b 0x18 4 ∈ countsOk
  events : numAt b 0x28 4 ∈ countsOk
  frames : numAt b 0x38 4 ∈ countsOk
  saves : numAt b 0x3C 4 ≤ 4096
  world : numAt b 0x50 1 = if Config.fnSecure fn then 1 else 0

/-- The id that CTXNEW gives for the requested one (R383). -/
def GivesId (p : Package) (want id : Nat) : Prop :=
  p.ctx id = none ∧ if want = 0 then 1 ≤ id ∧ id ≤ 255 ∧ ∀ i, 1 ≤ i → i < id → p.ctx i ≠ none else id = want

/-- The new context of a descriptor. -/
structure Described (c : Context) (id : Nat) (fn : Fn) (b : List Byte) (p : Package) : Prop where
  names : c.id = id ∧ c.owner = fn ∧ c.secure = Config.fnSecure fn ∧ c.st = .running ∧ c.ack = p.firn.version
  base : c.ptBase = numAt b 0 8 / 4096
  handler : c.handler.toNat = numAt b 8 8
  faults : c.faults.base.toNat = numAt b 0x10 8 ∧ c.faults.count = numAt b 0x18 4 ∧ c.faults.written = 0 ∧ c.faults.dropped = 0
  events : c.events.base.toNat = numAt b 0x20 8 ∧ c.events.count = numAt b 0x28 4 ∧ c.events.written = 0 ∧ c.events.dropped = 0
  frames : c.frameBase.toNat = numAt b 0x30 8 ∧ c.frameCount = numAt b 0x38 4 ∧ c.framesUsed = []
  saves : c.saves = numAt b 0x3C 4 ∧ c.saved = []
  rest : c.proxy.toNat = numAt b 0x40 8 ∧ c.lostRing.toNat = numAt b 0x48 8 ∧ c.seals = [] ∧ c.crews = [] ∧ c.deadlines = [] ∧ c.stale = []

end Sys2Proof.Claims

/-- The management commands (25 R369, R370, R372, R376, R383; 26 R377; 19 R294; 01 R16; 23 R349): each acts only on a DOOR write
while READY with its code in CMD, and answers in CSTAT and RESP. A ROUTINE waits while an engine runs a custom
routine. (The model's choices: the layout of the arguments and CSTAT at reset, the log's entry 5; which result a CTXKILL, RESUME or
PREEMPT of an id that is none, not the function's, or lost has, 33; the frames of a context with base 0, 8 and 11, and how many save
areas there are, 11; the meaning of a table's base, 29; SHA-384, 28; that a command runs whole, 31; the sources in records and events,
45. The signature is a free value, 6.) -/
def Obligations.Commands : Prop :=
  (∀ n s p fn y e code, FnAt s n p fn y → (e, code) ∈ [(Instr.ctxnew n fn, 1), (.ctxkill n fn, 2), (.resume n fn, 3),
      (.preempt n fn, 4), (.routine n fn, 5), (.attest n fn, 6), (.dumprd n fn, 7)] →
    p.ready = false ∨ numAt y.cmd.toList 0 8 ≠ code → exec e s = .next s) ∧
  (∀ n s p fn y code, CmdAt s n p fn y code →
    (code = 0 ∨ 7 < code → Answers (.unknownCommand n fn) s n fn p 2 []) ∧
    (1 ≤ code → code ≤ 7 → exec (.unknownCommand n fn) s = .next s)) ∧
  (∀ n s p fn y, CmdAt s n p fn y 1 →
    let b := (y.cmd.toList.drop 8).take 128
    (¬ DescriptorGood b fn → Answers (.ctxnew n fn) s n fn p 2 []) ∧
    (DescriptorGood b fn → (∀ id, ¬ GivesId p (numAt b 0x51 1) id) ∨ Config.saveAreas < p.savesUsed + numAt b 0x3C 4 →
      Answers (.ctxnew n fn) s n fn p 1 []) ∧
    ∀ id, DescriptorGood b fn → GivesId p (numAt b 0x51 1) id → p.savesUsed + numAt b 0x3C 4 ≤ Config.saveAreas →
      (numAt b 0 8 / 4096 ≠ 0 → ∃ c, Described c id fn b p ∧ c.table = [] ∧ exec (.ctxnew n fn) s = .next (s.setPkg n
        (told { p with ctxs := p.ctxs ++ [c], savesUsed := p.savesUsed + numAt b 0x3C 4 } fn 0 (natLe id 8)))) ∧
      (∀ m, numAt b 0 8 / 4096 = 0 → p.retired = [] → m = y.bar2 / 2 ^ 21 → 0 < m →
        (p.nextFrame + m) * 2 ^ 21 ≤ hbmBytes - 64 * 2 ^ 20 → Memory.wf p.hbm = true →
        Makes (.ctxnew n fn) s n fun q => ∃ c, Described c id fn b p ∧ q.ctxs = p.ctxs ++ [c] ∧ q.cells = p.cells ∧
          q.fns = (told p fn 0 (natLe id 8)).fns ∧ q.savesUsed = p.savesUsed + numAt b 0x3C 4 ∧
          (∀ i, look c.table i = if i < m then some (BitVec.ofNat 64 ((p.nextFrame + i) * 2 ^ 21 + 0b1011 +
            if Config.fnSecure fn then 0b10000 else 0)) else none) ∧
          q.nextFrame = p.nextFrame + m ∧
          ∀ a, memGet q.hbm a = if p.nextFrame * 2 ^ 21 ≤ a ∧ a < (p.nextFrame + m) * 2 ^ 21 then 0 else memGet p.hbm a)) ∧
  (∀ n s p fn y e code, (e, code) ∈ [(Instr.ctxkill n fn, 2), (.resume n fn, 3), (.preempt n fn, 4)] → CmdAt s n p fn y code →
    (cmdArg y 0 = 0 ∨ 255 < cmdArg y 0 → Answers e s n fn p 2 []) ∧
    (1 ≤ cmdArg y 0 → cmdArg y 0 ≤ 255 → (∀ c, p.ctx (cmdArg y 0) = some c → c.owner ≠ fn) → Answers e s n fn p 3 [])) ∧
  (∀ n s p fn y c id, CmdAt s n p fn y 2 → id = cmdArg y 0 → 1 ≤ id → id ≤ 255 → p.ctx id = some c → c.owner = fn → c.st ≠ .lost →
    ∃ u q k z, exec (.ctxkill n fn) s = .next u ∧ u.now = s.now ∧ u.pkg n = some q ∧ q.ctx id = some k ∧ k.st = .lost ∧ k.seals = [] ∧
      (∀ r ∈ c.seals, ∀ f ∈ r.frames, ∀ a, a / 4096 = fld f.2 12 40 → memGet q.hbm a = 0) ∧
      (∀ i : Fin 192, (∀ r ∈ q.cells[i].queue, r.ctx ≠ id) ∧ ∀ j ∈ q.cells[i].jobs, j.ctx ≠ id) ∧
      q.fns[fn]? = some z ∧ z.result = 0 ∧ z.msix = y.msix + 1 ∧
      (Memory.wf y.mem = true → (y.lostWritten + 2 ^ 32 - leNat (memRead y.mem (c.lostRing.toNat + 8) 4)) % 2 ^ 32 < 63 →
        memRead z.mem (c.lostRing.toNat + 32 + 64 * (y.lostWritten % 63)) 28 = natLe id 1 ++ natLe 3 1 ++ natLe 0xFFFF 2 ++
          natLe p.firn.version.toNat 4 ++ natLe (s.now / 252) 8 ++ natLe 0 8 ++ natLe 7 1 ++ [0, 0, 0]) ∧
      ∀ m v d, m ≠ n → s.pkg m = some v → v.ctx id = some d → d.secure = c.secure →
        ∃ v' d', u.pkg m = some v' ∧ v'.ctx id = some d' ∧ d'.st = .lost) ∧
  (∀ n s p fn y c id, CmdAt s n p fn y 3 → id = cmdArg y 0 → 1 ≤ id → id ≤ 255 → p.ctx id = some c → c.owner = fn →
    (c.st = .suspended → Makes (.resume n fn) s n fun q => q.hbm = p.hbm ∧ q.fns = (told p fn 0 []).fns ∧
      q.ctx id = some { c with st := .running, ack := p.firn.version, deadlines := [], pendingVers := [] } ∧
      (∀ k, k ≠ id → q.ctx k = p.ctx k) ∧
      ∀ i : Fin 192, q.cells[i] = { p.cells[i] with queue := p.cells[i].queue.map fun r =>
        if r.ctx = id ∧ r.ready = none ∧ r.await = false then { r with ready := some (max s.now (252 * r.notBefore)) } else r }) ∧
    (c.st = .running → Answers (.resume n fn) s n fn p 0 []) ∧ (c.st = .lost → Answers (.resume n fn) s n fn p 1 [])) ∧
  (∀ n s p fn y c id, CmdAt s n p fn y 4 → id = cmdArg y 0 → 1 ≤ id → id ≤ 255 → p.ctx id = some c → c.owner = fn →
    let hit (x : CellState) : Bool := !x.preempt && x.job.any fun j => j.ctx == id
    Makes (.preempt n fn) s n fun q => q.hbm = p.hbm ∧ q.ctxs = p.ctxs ∧
      q.fns = (told p fn 0 (natLe (p.cells.toList.filter hit).length 8)).fns ∧
      ∀ i : Fin 192, q.cells[i] = if hit p.cells[i] then { p.cells[i] with preempt := true } else p.cells[i]) ∧
  (∀ n s p fn y, CmdAt s n p fn y 5 →
    let num := cmdArg y 0
    let len := cmdArg y 2
    let sec := Config.fnSecure fn
    let code := memRead y.mem (cmdArg y 1) len
    let others := p.routines.filter fun r => !(r.num == num && r.secure == sec)
    let used := (others.map fun r => r.bytes.length).sum
    let m := sha384 (p.meas.toList ++ natLe num 1 ++ [if sec then 1 else 0] ++ if len = 0 then List.replicate 48 0 else sha384 code)
    let runs : Bool := p.cells.toList.any fun x => x.jobs.any fun j => (j.ce0.xfers ++ j.ce1.xfers).any fun t =>
      (match t.kind with | .codec r _ => 64 ≤ r | _ => false)
    (runs = true → exec (.routine n fn) s = .next s) ∧
    (runs = false → num < 64 ∨ 127 < num ∨ 49152 < len → Answers (.routine n fn) s n fn p 2 []) ∧
    (runs = false → 64 ≤ num → num ≤ 127 → len ≤ 49152 →
      (49152 < used + len → Answers (.routine n fn) s n fn p 1 []) ∧
      (used + len ≤ 49152 → Makes (.routine n fn) s n fun q => q.hbm = p.hbm ∧ q.cells = p.cells ∧ q.ctxs = p.ctxs ∧
        q.routines = others ++ (if len = 0 then [] else [⟨num, sec, code⟩]) ∧ q.meas.toList = m ∧
        q.fns = (told p fn 0 (m ++ natLe (49152 - used - len) 4)).fns))) ∧
  (∀ n s p fn y, CmdAt s n p fn y 6 →
    let body := (y.cmd.toList.drop 8).take 32 ++ natLe p.firn.version.toNat 4 ++ [if Config.fnSecure fn then 1 else 0] ++
      List.replicate 3 0 ++ p.meas.toList ++ List.replicate 72 0
    Answers (.attest n fn) s n fn p 0 (body ++ (List.range 96).map (Config.signatureByte n (sha384 body)))) ∧
  (∀ n s p fn y, CmdAt s n p fn y 7 →
    (fn ≠ 0 ∨ p.fatal = false → Answers (.dumprd n fn) s n fn p 1 []) ∧
    (fn = 0 → p.fatal = true →
      (256 < cmdArg y 1 ∨ 2 ^ 26 < cmdArg y 0 + cmdArg y 1 → Answers (.dumprd n fn) s n fn p 2 []) ∧
      (cmdArg y 1 ≤ 256 → cmdArg y 0 + cmdArg y 1 ≤ 2 ^ 26 →
        Answers (.dumprd n fn) s n fn p 0 (memRead p.hbm (hbmBytes - 2 ^ 26 + cmdArg y 0) (cmdArg y 1))))) ∧
  ∀ n s p id c, s.pkg n = some p → p.ctx id = some c →
    (c.st ≠ .running → exec (.hostSuspendRequest n id) s = .next s) ∧
    (c.st = .running → ∃ q, exec (.hostSuspendRequest n id) s = .next (s.setPkg n (noted q s id 0x06 6 0 0)) ∧
      q.ctx id = some { c with st := .suspended } ∧ (∀ k, k ≠ id → q.ctx k = p.ctx k) ∧ q.hbm = p.hbm ∧ q.fns = p.fns ∧
      ∀ i : Fin 192, q.cells[i] = { p.cells[i] with queue := p.cells[i].queue.map fun r =>
        if r.ctx = id ∧ (r.ready.any fun t => s.now < t) = true then { r with ready := none } else r })

namespace Sys2Proof.Claims

/-- An event leads to a state whose package `n` is as `P` says; the time stands. -/
def Ends (e : Instr) (s : State) (n : Nat) (P : State → Package → Prop) : Prop :=
  ∃ u q, exec e s = .next u ∧ u.now = s.now ∧ u.pkg n = some q ∧ P u q

/-- A version is published (23 R347, R349, R341): the map is `f` with the next VERSION, CHANGE and TIME; a context with a resident job
has its deadline in 1 ms, any other at its next dispatch; a context that is not lost has one more event or one more drop. -/
structure Publishes (s : State) (p q : Package) (change : Nat) (f : Firn) : Prop where
  firn : q.firn = { f with
    version := p.firn.version + 1, change := BitVec.ofNat 32 change, time := BitVec.ofNat 64 (s.now / 252) }
  ctxs : ∀ id c, p.ctx id = some c → ∃ k, q.ctx id = some k ∧ k.st = c.st ∧ k.ack = c.ack ∧
    ((∃ i : Fin 192, ∃ j ∈ p.cells[i].jobs, j.ctx = id) → k.pendingVers = c.pendingVers ∧
      k.deadlines = c.deadlines ++ [((p.firn.version + 1).toNat, s.now + 252000000)]) ∧
    ((∀ i : Fin 192, ∀ j ∈ p.cells[i].jobs, j.ctx ≠ id) → k.deadlines = c.deadlines ∧
      k.pendingVers = c.pendingVers ++ [(p.firn.version + 1).toNat]) ∧
    ((p.ctxs.map (·.id)).Nodup → c.st ≠ .lost →
      k.events = { c.events with written := (c.events.written + 1) % 2 ^ 32 } ∨
      k.events = { c.events with dropped := (c.events.dropped + 1) % 2 ^ 32 })

/-- A package after a device-fatal error: its dump lies in the last 64 MiB of HBM, and nothing else of what it held remains but the
frames retired and the host's memory. -/
structure FatalAfter (s : State) (n : Nat) (p q : Package) (cause die place : Nat) : Prop where
  off : q.ready = false ∧ q.level = 0 ∧ q.fatal = true ∧ q.boots = p.boots + 1 ∧ q.coord = p.coord ∧ q.firn.version = 0
  cells : ∀ i : Fin 192, q.cells[i] = CellState.reset
  ctxs : q.ctxs = [] ∧ q.routines = [] ∧ q.marks = [] ∧ q.losses = [] ∧ q.migrations = []
  retired : q.retired = p.retired
  host : ∀ fn : Fin 17, q.fns[fn] = { FnState.reset with mem := p.fns[fn].mem }
  below : ∀ a, a < hbmBytes - 2 ^ 26 → memGet q.hbm a = 0
  head : ∃ len sect, memRead q.hbm (hbmBytes - 2 ^ 26) 0x30 = natLe 0x504D55444C544146 8 ++ natLe len 4 ++ natLe 1 2 ++ natLe cause 1 ++
      natLe die 1 ++ natLe (s.now / 252) 8 ++ natLe p.firn.version.toNat 4 ++ natLe p.boots 4 ++ natLe place 2 ++ natLe 0 2 ++ sect ∧
    256 ≤ len ∧ len ≤ 2 ^ 26 ∧
    memRead q.hbm (hbmBytes - 2 ^ 26 + 0x30) 48 = sha384 (memRead q.hbm (hbmBytes - 2 ^ 26 + 256) (len - 256)) ∧
    memRead q.hbm (hbmBytes - 2 ^ 26 + 0x60) 96 =
      (List.range 96).map (Config.signatureByte n (memRead q.hbm (hbmBytes - 2 ^ 26) 0x60)) ∧
    memRead q.hbm (hbmBytes - 2 ^ 26 + 0xC0) 64 = List.replicate 64 0

/-- The codes of R355. -/
def fatalCodes (c : FatalCause) : Nat :=
  match c with
  | .firmware => 0x01
  | .icequake => 0x02
  | .watchdog => 0x03
  | .stack => 0x04
  | .power => 0x05
  | .assertion => 0x06

/-- The map with a die's entry changed. -/
def onDie (f : Firn) (d : Nat) (g : DieMap → DieMap) : Firn :=
  { f with dies := Vector.ofFn fun i => if i.val = d then g f.dies[i] else f.dies[i] }

/-- A link's state in PORTS. -/
def linkCode (l : LinkSt) : Nat :=
  match l with
  | .up => 0
  | .retraining => 1
  | .dead => 2

/-- PORTS for the links of a package (23 R348). -/
def portsOf (v : Vector (Vector Link 2) 6) : Vector Byte 6 :=
  Vector.ofFn fun i => BitVec.ofNat 8 (linkCode v[i][0].st + 4 * linkCode v[i][1].st +
    if v[i][0].st = .dead ∧ v[i][1].st = .dead then 16 else 0)

end Sys2Proof.Claims

/-- The management core (25 R372 to R374; 21 R306; 23 R347 to R349, R351, R354, R355, R381): bring-up, budgets, clock steps, the fatal
dump, lost cells, a cell's world, deadlines; a power trip comes at the earliest when a die has stood at step 4 for 1 ms. (The model's
choices: that cells which had been live at cold service stay so at full service, the log's entry 8; the dump's body, 6; the watts of a
power trip, 34; what survives a reset, 35; the source and place of events, 45; when a cell is idle, 60; what a publication and an
acknowledgement do to deadlines, 61.) -/
def Obligations.Service : Prop :=
  (∀ n s p good, s.pkg n = some p →
    (good = false ∨ p.level ≠ 0 → exec (.powerOn n good) s = .next s) ∧
    (good = true → p.level = 0 → Makes (.powerOn n good) s n fun q => q.ready = true ∧ q.level = 1 ∧ q.firmware = true ∧
      ∃ f, Publishes s p q 0 f ∧ f.level = 0 ∧ f.mefmt = 0x07 ∧ f.ext = (1, 1, 1) ∧ f.lost = [] ∧
        (∀ d : Fin 2, f.dies[d].step = 4 ∧ f.dies[d].secure = 0 ∧ ∀ i < 96, f.dies[d].live.getLsbD i = decide (i / 12 < 2)) ∧
        (∀ t : Fin 8, f.stackMaps[t].full = false ∧ f.stackMaps[t].restriping = false) ∧
        ∀ k : Fin 6, f.ports[k] = 0b11010)) ∧
  (∀ n s p t, s.pkg n = some p →
    (p.level ≠ 1 → exec (.fullService n t) s = .next s) ∧
    (p.level = 1 → 1 ≤ t.ext.1 → t.ext.1 ≤ 16 → 1 ≤ t.ext.2.1 → t.ext.2.1 ≤ 8 → 1 ≤ t.ext.2.2 → t.ext.2.2 ≤ 8 →
      Makes (.fullService n t) s n fun q => q.ready = p.ready ∧ q.level = 2 ∧
        (∀ i : Fin 6, ∀ k : Fin 2, q.links[i][k].st = if (i.val, k.val) ∈ t.links then .up else .dead) ∧
        ∃ f, Publishes s p q 0b11111 f ∧ f.level = 1 ∧ f.mefmt = 0x1F ∧ f.self = p.coord ∧ f.relabel = [] ∧
          f.ext = (BitVec.ofNat 8 t.ext.1, BitVec.ofNat 8 t.ext.2.1, BitVec.ofNat 8 t.ext.2.2) ∧ f.ports = portsOf q.links ∧
          (∀ d : Fin 2, f.dies[d].step = 0 ∧ f.dies[d].secure = p.firn.dies[d].secure ∧ ∀ i < 96,
            f.dies[d].live.getLsbD i = (p.firn.dies[d].live.getLsbD i || t.cells.contains (96 * d.val + i))) ∧
          ∀ k : Fin 8, f.stackMaps[k] = { p.firn.stackMaps[k] with full := true })) ∧
  (∀ n (die : BitVec 1) s p, s.pkg n = some p →
    let d : Fin 2 := die.toFin
    let step := p.firn.dies[d].step.toNat
    (∀ b, (p.ready = false → exec (.budgetPublish n die b) s = .next s) ∧
      (p.ready = true → Makes (.budgetPublish n die b) s n fun q => q.dies[d] = { p.dies[d] with budget := b } ∧
        (∀ k, k ≠ d → q.dies[k] = p.dies[k]) ∧ q.firn = p.firn ∧ q.ctxs = p.ctxs ∧ q.hbm = p.hbm ∧
        ∀ i, (q.cell i).map (·.job) = (p.cell i).map (·.job))) ∧
    (4 ≤ step ∨ p.draws d step none ≤ p.dies[d].budget ∨ s.now < p.dies[d].lastDown + 50000 * 252 →
      exec (.powerStepDown n die) s = .next s) ∧
    (step < 4 → p.dies[d].budget < p.draws d step none → p.dies[d].lastDown + 50000 * 252 ≤ s.now →
      Makes (.powerStepDown n die) s n fun q => q.dies[d] = { p.dies[d] with lastDown := s.now, since := s.now } ∧
        (∀ k, k ≠ d → q.dies[k] = p.dies[k]) ∧
        Publishes s p q 0b10 (onDie p.firn d fun m => { m with step := BitVec.ofNat 3 (step + 1) }))) ∧
  (∀ n s p, s.pkg n = some p →
    (p.ready = true → (∃ d : Fin 2, p.firn.dies[d].step = 4 ∧ p.dies[d].since + 1000000 * 252 ≤ s.now) →
      Makes (.powerTrip n) s n fun q => FatalAfter s n p q 0x05 0xFF 0xFFFF) ∧
    (p.ready = false ∨ (∀ d : Fin 2, p.firn.dies[d].step ≠ 4 ∨ s.now < p.dies[d].since + 1000000 * 252) →
      exec (.powerTrip n) s = .next s) ∧
    (∀ c die pl, die < 2 ∨ die = 0xFF → Makes (.deviceFatal n c die pl) s n fun q =>
      FatalAfter s n p q (fatalCodes c) die (min pl 0xFFFF)) ∧
    Makes (.powerRemoval n) s n fun q => q.ready = false ∧ q.level = 0 ∧ q.fatal = false ∧ q.boots = 0 ∧ q.firn.version = 0 ∧
      q.hbm = [] ∧ q.marks = [] ∧ q.ctxs = [] ∧ q.retired = [] ∧ (∀ i : Fin 192, q.cells[i] = CellState.reset) ∧
      ∀ fn : Fin 17, q.fns[fn] = { FnState.reset with mem := p.fns[fn].mem }) ∧
  (∀ n s p, s.pkg n = some p →
    (∀ ch, p.ready = false → exec (.firnPublish n ch) s = .next s) ∧
    (p.ready = true →
      (∀ d : Fin 2, ∀ step, step ≤ 4 → p.firn.dies[d].step.toNat ≠ step → Makes (.firnPublish n (.clockStep d step)) s n fun q =>
        (∀ k, q.dies[k] = if k = d then { p.dies[k] with since := s.now } else p.dies[k]) ∧ Publishes s p q 0b10 (onDie p.firn d fun m => { m with step := BitVec.ofNat 3 step })) ∧
      (∀ c x spare, p.cell c = some x → p.live c = true → (∀ k, spare = some k → p.live k = true ∧ k ≠ c) →
        Makes (.firnPublish n (.cellLost c spare)) s n fun q => q.firn.version = p.firn.version + 1 ∧ q.firn.change = 0b100 ∧
          (∀ d : Fin 2, q.firn.dies[d] = if d.val = c / 96 then
            { p.firn.dies[d] with live := p.firn.dies[d].live &&& ~~~(1#96 <<< (c % 96)) } else p.firn.dies[d]) ∧
          (∀ i : Fin 192, q.firn.places[i] = if p.firn.places[i] = some (BitVec.ofNat 12 (placeOfCell c)) then
            spare.map (fun k => BitVec.ofNat 12 (placeOfCell k)) else p.firn.places[i]) ∧
          (∃ z, q.cell c = some z ∧ z.jobs = [] ∧ z.preempt = false) ∧
          ∀ h y, (spare = some h ∨ (spare = none ∧ h / 96 = c / 96 ∧ h ≠ c ∧ p.live h = true ∧
              ∀ i, i / 96 = c / 96 → i ≠ c → p.live i = true → h ≤ i)) → p.cell h = some y → (∀ j ∈ x.jobs, j.eretOf = none) →
            ∃ z w, q.cell c = some z ∧ z.queue = [] ∧ q.cell h = some w ∧
              w.queue.map (fun r => (r.task, r.ctx, r.save)) = (y.queue ++ x.queue).map (fun r => (r.task, r.ctx, r.save))) ∧
      (∀ c x sec, p.cell c = some x → p.live c = true → x.secure ≠ sec →
        (x.jobs ≠ [] ∨ x.queue ≠ [] → exec (.firnPublish n (.cellWorld c sec)) s = .next s) ∧
        (x.jobs = [] → x.queue = [] → x.due = [] → x.ops = [] → Makes (.firnPublish n (.cellWorld c sec)) s n fun q =>
          q.cell c = some { x with secure := sec } ∧ Publishes s p q 0b100 (onDie p.firn (c / 96) fun m => { m with
            secure := if sec then m.secure ||| (1#96 <<< (c % 96)) else m.secure &&& ~~~(1#96 <<< (c % 96)) }))) ∧
      (∀ (port : Fin 6) (link : Fin 2) st, linkCode p.links[port][link].st ≠ st → st ≤ 2 →
        Ends (.firnPublish n (.linkState port link st)) s n fun u q =>
          linkCode q.links[port][link].st = st ∧ (∀ i k, (i, k) ≠ (port, link) → q.links[i][k] = p.links[i][k]) ∧
          Publishes s p q 0b10000 { p.firn with ports := portsOf q.links } ∧ u.cur = s.cur) ∧
      (∀ i, i < 1024 → i ∉ p.firn.lost → coordOfIndex i ≠ p.firn.self → Ends (.firnPublish n (.peerLost i)) s n fun _ q =>
        Publishes s p q 0b100000 { p.firn with lost := p.firn.lost ++ [i] }) ∧
      ∀ i ph, i < 1024 → ph < 1024 → Makes (.firnPublish n (.relabel i ph)) s n fun q => ∃ f, Publishes s p q 0b100000 f ∧
        f.physical (coordOfIndex i) = BitVec.ofNat 10 ph ∧ i ∉ f.lost ∧ (∀ k, k ≠ i → (k ∈ f.lost ↔ k ∈ p.firn.lost)) ∧
        (∀ k, k < 1024 → k ≠ i → f.physical (coordOfIndex k) = p.firn.physical (coordOfIndex k)) ∧
        f.self = (if BitVec.ofNat 10 ph = p.coord then coordOfIndex i else p.firn.self) ∧ f.dies = p.firn.dies)) ∧
  ∀ n s p id c, s.pkg n = some p → p.ctx id = some c →
    (c.st ≠ .running ∨ (∀ d ∈ c.deadlines, s.now < d.2) → exec (.firnackDeadline n id) s = .next s) ∧
    (c.st = .running → (∃ d ∈ c.deadlines, d.2 ≤ s.now) → ∃ q, exec (.firnackDeadline n id) s =
        .next (s.setPkg n (noted q s id 0x06 6 0 0)) ∧
      q.ctx id = some { c with st := .suspended, deadlines := c.deadlines.filter (fun d => s.now < d.2) } ∧
      (∀ k, k ≠ id → q.ctx k = p.ctx k) ∧ q.hbm = p.hbm ∧
      ∀ i : Fin 192, q.cells[i].queue.map (·.task) = p.cells[i].queue.map (·.task) ∧ q.cells[i].job = p.cells[i].job)

namespace Sys2Proof.Claims

/-- Link `link` of port `port` of a package is `l`. -/
structure LinkAt (s : State) (n : Nat) (p : Package) (port : Fin 6) (link : Fin 2) (l : Link) : Prop where
  pkg : s.pkg n = some p
  is : p.links[port][link] = l

/-- An event changes one link, and nothing else of the state. -/
def Links1 (e : Instr) (s : State) (n : Nat) (port : Fin 6) (link : Fin 2) (p : Package) (l : Link) : Prop :=
  Makes e s n fun q => q.links[port][link] = l ∧ (∀ i k, (i, k) ≠ (port, link) → q.links[i][k] = p.links[i][k]) ∧
    q.cells = p.cells ∧ q.firn = p.firn ∧ q.ctxs = p.ctxs ∧ q.hbm = p.hbm ∧ q.fns = p.fns

/-- A link changes its state, which is one version (21 R324; 23 R347). -/
def Relinked (e : Instr) (s : State) (n : Nat) (port : Fin 6) (link : Fin 2) (p : Package) (l : Link) : Prop :=
  Ends e s n fun _ q => q.links[port][link] = l ∧ (∀ i k, (i, k) ≠ (port, link) → q.links[i][k] = p.links[i][k]) ∧
    Publishes s p q 0b10000 { p.firn with ports := portsOf q.links }

/-- The map with a stack's entry changed. -/
def onStack (f : Firn) (n : Fin 8) (t : StackMap) : Firn := { f with stackMaps := f.stackMaps.set n t }

/-- How many banks of a stack have failed. -/
def deadBanks (t : StackMap) : Nat := ((List.range 68).filter fun i => t.banks.getLsbD i = false).length

end Sys2Proof.Claims

/-- The 256 bytes of a flit by their fields, and the CRC of what is sent (21 R322). -/
def FlitLayout : Prop :=
  ∀ f : Flit, f.payload.length = 232 → let b := flitBytes f
    b.length = 256 ∧ leNat (b.take 2) = f.fseq.toNat + f.typ.toNat * 2 ^ 12 ∧
    (∀ i : Fin 6, leNat ((b.drop 2).take 9) / 2 ^ (12 * i.val) % 2 ^ 12 = f.srt[i].toNat) ∧
    leNat ((b.drop 11).take 2) = f.ack.toNat ∧ (b.drop 13).take 3 = [0, 0, 0] ∧ (b.drop 16).take 232 = f.payload ∧
    leNat (b.drop 248) = f.crc.toNat ∧ flitGood (flitSealed f) = true ∧
    (flitGood f = true ↔ flitBytes (flitSealed f) = flitBytes f)

/-- An uncorrectable error in what a cell holds of a job: a granule of its carve-out, a register, a row. -/
def Struck (e : EccRow) (y : Job) : Job → Prop :=
  fun j => match e with
  | .pad g => j = if g < y.hdr.slabs * 32 then { y with marks := if g ∈ y.marks then y.marks else y.marks ++ [g] } else y
  | .scalar k n => j = if n = 0 then y else
      y.setCore k { y.core k with regs := (y.core k).regs.set n.toFin { (y.core k).regs[n.toFin] with p := .data } }
  | .vector n row => j = { y with vec := { y.vec with
      v := y.vec.v.set n.toFin { y.vec.v[n.toFin] with p := (y.vec.v[n.toFin]).p.set row.toFin .data } } }
  | .mask m => j = { y with vec := { y.vec with m := y.vec.m.set m.toFin { y.vec.m[m.toFin] with p := .data } } }
  | .table t => j = { y with vec := { y.vec with tb := y.vec.tb.set t.toFin { y.vec.tb[t.toFin] with p := .data } } }
  | .tile t row => j.vec = y.vec ∧ ∀ k r, (j.me.tiles[k.toFin]).p[r.toFin] =
      if k = t ∧ r = row then .data else (y.me.tiles[(k : BitVec 6).toFin]).p[(r : BitVec 6).toFin]
  | .queue .. | .bank .. => j.mem = y.mem ∧ j.ac = y.ac ∧ j.xc = y.xc ∧ j.vec = y.vec ∧ j.tags = y.tags ∧ j.traps = y.traps

/-- Links, banks, scrubs and migrations (21 R322, R324; 22 R328; 23 R342, R350; 05 R78, R81). A flit is taken in order when its CRC
holds, and its slot returns supersede the earlier ones; a replay keeps FSEQ, type and payload; three failed retrains make a link
dead; an uncorrectable error marks what it stands in; a bank's repair runs through twelve versions; a page that migrates reads the same at its new place, and one
that a context has sealed meanwhile stays. (The model's choices: that a retrain which fails is counted by a retrain on a link that is
retraining, the log's entry 36; that a page's bytes move at the switch, 37; the CRC's bit order, 70; what survives a fatal error, 35; WMARK
after the twelfth step, 59.) -/
def Obligations.LinksAndRepair : Prop :=
  (∀ n s p port link l f, LinkAt s n p port link l →
    (l.st ≠ .up ∨ flitGood f = false ∨ f.fseq ≠ l.rxSeq + 1 → Makes (.flitReceive n port link f) s n fun q =>
      q.links[port][link] = l ∧ q.cells = p.cells ∧ q.firn = p.firn) ∧
    (l.st = .up → flitGood f = true → f.fseq = l.rxSeq + 1 →
      ((∀ g ∈ l.unacked, g.fseq ≠ f.ack) →
        Links1 (.flitReceive n port link f) s n port link p { l with rxSeq := f.fseq, srtIn := f.srt }) ∧
      ∀ pre g post, l.unacked = pre ++ g :: post → g.fseq = f.ack → (∀ h ∈ pre, h.fseq ≠ f.ack) →
        Links1 (.flitReceive n port link f) s n port link p
          { l with rxSeq := f.fseq, srtIn := f.srt, unacked := post, replays := 0 })) ∧
  (∀ n s p port link l, LinkAt s n p port link l →
    (∀ u, u = l.unacked.map (fun f => flitSealed ⟨f.fseq, f.typ, l.freed, l.rxSeq, f.payload, 0⟩) → l.st = .up → l.replays < 15 →
      Links1 (.flitReplay n port link) s n port link p { l with replays := l.replays + 1, unacked := u }) ∧
    (l.st = .up → 15 ≤ l.replays →
      Relinked (.flitReplay n port link) s n port link p { l with st := .retraining, fails := 0, replays := 0 }) ∧
    (l.st = .up → Relinked (.linkRetrain n port link) s n port link p { l with st := .retraining, fails := 0 }) ∧
    (l.st = .retraining → l.fails < 2 → Links1 (.linkRetrain n port link) s n port link p { l with fails := l.fails + 1 }) ∧
    (l.st = .retraining → Relinked (.linkRetrainDone n port link) s n port link p { l with st := .up, fails := 0, replays := 0 }) ∧
    (l.st = .retraining → l.fails = 2 → Relinked (.linkDead n port link) s n port link p { l with st := .dead, fails := 3 }) ∧
    (l.st ≠ .retraining ∨ l.fails ≠ 2 → exec (.linkDead n port link) s = .next s) ∧
    (l.st ≠ .retraining → exec (.linkRetrainDone n port link) s = .next s) ∧
    (l.st = .dead → exec (.linkRetrain n port link) s = .next s ∧ exec (.flitReplay n port link) s = .next s)) ∧
  (∀ n s p (k : Fin 8) bank, s.pkg n = some p →
    let t := p.firn.stackMaps[k]
    (p.ready = false ∨ 68 ≤ bank ∨ t.banks.getLsbD bank = false → exec (.bankFailed n k bank) s = .next s) ∧
    (p.ready = true → bank < 68 → t.banks.getLsbD bank = true →
      (4 ≤ deadBanks t → Makes (.bankFailed n k bank) s n fun q => FatalAfter s n p q 0x04 0xFF 0xFFFF) ∧
      (deadBanks t < 4 → Makes (.bankFailed n k bank) s n fun q => Publishes s p q 0b1000 (onStack p.firn k
        { t with banks := t.banks &&& ~~~(1#68 <<< bank), restriping := true, wmark := 0 }))) ∧
    (t.restriping = false → exec (.restripeStep n k) s = .next s) ∧
    (t.restriping = true → t.wmark.toNat < 11 → Makes (.restripeStep n k) s n fun q =>
      Publishes s p q 0b1000 (onStack p.firn k { t with wmark := t.wmark + 1 })) ∧
    (t.restriping = true → t.wmark.toNat = 11 → Makes (.restripeStep n k) s n fun q =>
      Publishes s p q 0b1000 (onStack p.firn k { t with wmark := 12, restriping := false }))) ∧
  FlitLayout ∧
  (∀ n s p g, s.pkg n = some p →
    (hbmBytes / 64 ≤ g → exec (.scrubUncorrectable n (.hbm g)) s = .next s) ∧
    (g < hbmBytes / 64 → exec (.scrubUncorrectable n (.hbm g)) s =
      .next (s.setPkg n { p with marks := if g ∈ p.marks then p.marks else p.marks ++ [g] }))) ∧
  (∀ c s p x j e, RunsAt s c p x j → Makes (.scrubUncorrectable c.pkg (.job c.cell j.uid e)) s c.pkg fun q => q.hbm = p.hbm ∧
    q.ctxs = p.ctxs ∧ ∃ y k, q.cell c.cell = some y ∧ y.job = some k ∧ Struck e j k) ∧
  (∀ n s p c va leaf run, s.pkg n = some p → p.ctx c.id = some c → c.st ≠ .lost → c.ptBase = 0 → va < 2 ^ 48 →
    p.walk c va = .ok (leaf, 3) → look c.table (va / 2 ^ 21) = some (BitVec.ofNat 64 leaf) → fld leaf 9 2 = 0 → bitAt leaf 5 = false →
    fld leaf 12 40 = run → run % 512 = 0 → (run + 512) * 4096 ≤ hbmBytes - 2 ^ 26 →
    let base := va / 2 ^ 21 * 2 ^ 21
    (bitAt leaf 7 = true → ∀ t, exec (.migrationStart n c.id va t) s = .next s) ∧
    (bitAt leaf 7 = false → (∀ k ∈ p.ctxs, ∀ r ∈ k.seals, ∀ f ∈ r.frames, ¬ (run ≤ fld f.2 12 40 ∧ fld f.2 12 40 < run + 512)) →
      ∀ t, (∀ m f, t = .hbm m f → (s.pkg m).isSome = true ∧ f % 512 = 0 ∧ (f + 512) * 4096 ≤ hbmBytes - 2 ^ 26) →
        (∀ f, t = .host f → f % 512 = 0 ∧ f + 512 ≤ 2 ^ 40) →
        ∃ q k, exec (.migrationStart n c.id va t) s = .next { s.setPkg n q with nextId := s.nextId + 1 } ∧ q.hbm = p.hbm ∧
          q.cells = p.cells ∧ q.migrations = p.migrations ++ [⟨s.nextId, c.id, base, 3, run, t, none, 0⟩] ∧
          q.ctx c.id = some { c with table := k } ∧ look k (va / 2 ^ 21) = some (BitVec.ofNat 64 (leaf + 2 ^ 7)) ∧
          ∀ i, i ≠ va / 2 ^ 21 → look k i = look c.table i)) ∧
  (∀ n s p c m leaf f, s.pkg n = some p → p.ctx c.id = some c → c.st ≠ .lost → c.ptBase = 0 →
    p.migrations.find? (fun k => k.id == m.id && k.switched.isNone) = some m → m.ctx = c.id → m.level = 3 → m.va % 2 ^ 21 = 0 →
    m.target = .hbm n f → p.walk c m.va = .ok (leaf, 3) → bitAt leaf 7 = true → fld leaf 12 40 = m.source → leaf < 2 ^ 52 →
    f + 512 ≤ m.source ∨ m.source + 512 ≤ f → f < 2 ^ 40 → Memory.wf p.hbm = true →
    let listed : Prop := ∃ k ∈ p.ctxs, ∃ r ∈ k.seals, ∃ f ∈ r.frames, m.source ≤ fld f.2 12 40 ∧ fld f.2 12 40 < m.source + 512
    (listed → Makes (.migrationSwitch n m.id) s n fun q => q.hbm = p.hbm ∧ q.marks = p.marks ∧ q.cells = p.cells ∧
      q.migrations = p.migrations.filter (fun k => k.id != m.id) ∧
      ∃ k, q.ctx c.id = some { c with table := k } ∧ look k (m.va / 2 ^ 21) = some (BitVec.ofNat 64 (leaf - 2 ^ 7)) ∧
        ∀ i, i ≠ m.va / 2 ^ 21 → look k i = look c.table i) ∧
    (¬ listed → Makes (.migrationSwitch n m.id) s n fun q =>
      (∀ i < 2 ^ 21, memGet q.hbm (f * 4096 + i) = memGet p.hbm (m.source * 4096 + i)) ∧
      (∀ a, (a < f * 4096 ∨ f * 4096 + 2 ^ 21 ≤ a) → memGet q.hbm a = memGet p.hbm a) ∧
      (∀ i < 32768, (f * 64 + i ∈ q.marks ↔ m.source * 64 + i ∈ p.marks)) ∧
      q.migrations = p.migrations.filter (fun k => k.id != m.id) ∧ q.fns = p.fns ∧ q.firn = p.firn ∧
      (∃ k, q.ctx c.id = some { c with table := k } ∧
        look k (m.va / 2 ^ 21) = some (BitVec.ofNat 64 (leaf - 2 ^ 7 - m.source * 4096 + f * 4096)) ∧
        ∀ i, i ≠ m.va / 2 ^ 21 → look k i = look c.table i) ∧
      ∀ i : Fin 192, (∀ t ∈ q.cells[i].tlb, ¬ (t.ctx = c.id ∧ m.va ≤ t.vpn * 4096 ∧ t.vpn * 4096 < m.va + 2 ^ 21)) ∧
        q.cells[i].jobs = p.cells[i].jobs ∧ q.cells[i].queue = p.cells[i].queue)) ∧
  ∀ n s p id, s.pkg n = some p →
    ((∀ m ∈ p.migrations, m.id = id → ∀ t, m.switched = some t → s.now < t + 1000000 * 252) →
      exec (.forwardingLapse n id) s = .next s) ∧
    ((∃ m ∈ p.migrations, m.id = id ∧ ∃ t, m.switched = some t ∧ t + 1000000 * 252 ≤ s.now) →
      exec (.forwardingLapse n id) s = .next (s.setPkg n { p with migrations := p.migrations.filter (fun m => m.id != id) }))

namespace Sys2Proof.Claims

/-- The next turn is `a`, `dt` ticks on, of the agenda or, where that is empty, of the schedule; `u` is the state in which it is
taken. -/
def Next (s : State) (dt : Nat) (a : Act) (u : State) : Prop :=
  s.lossPending = none ∧
    ((∃ rest, s.agenda = ⟨dt, a⟩ :: rest ∧ u = ({ s with agenda := rest }).advance dt) ∨
      (s.agenda = [] ∧ Config.schedule s.turns = some ⟨dt, a⟩ ∧ u = ({ s with turns := s.turns + 1 }).advance dt))

/-- The core stream `k` of cell `c`. -/
def coreEng (k : Core) : Eng :=
  match k with
  | .ac => .ac
  | .xc => .xc

/-- The engine stream of CE0 or CE1. -/
def chainEng (e : BitVec 1) : Eng := if e = 0 then .ce0 else .ce1

end Sys2Proof.Claims

/-- A step runs the instruction that the bytes at the stream's pc decode to, as exec gives it, in the state in which that stream is
the moving one and the cell's cache holds the leaf of the word's page (05 R79); a word of no instruction, or of one that the core has not, raises Illegal Instruction; an engine word likewise at
the chain pointer; an event is run as it stands. A consumption of data poison is answered before anything else. (Which turn is next
is the model's choice: the log's entries 1 and 2.) -/
def Obligations.StepRunsTheInstruction : Prop :=
  (∀ s dt c k v u h, Next s dt (.stream c (coreEng k)) v → u = { v with cur := (c, coreEng k) } → u.here = some h →
    (h.st.live = false ∨ h.st.wait ≠ none ∨ h.jb.trapPending (coreEng k) = true → step s = .next u) ∧
    (h.st.live = true → h.st.wait = none → h.jb.trapPending (coreEng k) = false → h.jb.atPrologueEnd h.k = false →
      ∀ w, h.fetch = .ok (w, .none) →
        (∀ i, decodeCore w.toNat = .ok i → i.allowedOn k = true → step s = exec i (u.fetched h)) ∧
        ((∀ i, decodeCore w.toNat = .ok i → i.allowedOn k = false) → step s = .next h.illegal.close))) ∧
  (∀ s dt c e v u h, Next s dt (.stream c (chainEng e)) v → u = { v with cur := (c, chainEng e) } → u.ehereAt c e = some h →
    (h.ch.live = false ∨ h.ch.halted = true ∨ h.jb.trapPending h.dlv = true → step s = .next u) ∧
    (h.ch.live = true → h.ch.halted = false → h.jb.trapPending h.dlv = false → h.ch.wait = none →
      ∀ w, h.fetch = .ok (w, .none) →
        (∀ i, decodeEngine w = .ok i →
          step s = exec i (u.modPkg c.pkg fun p => p.fillTlb h.who h.ch.ptr.toNat)) ∧
        ∀ r, decodeEngine w = .error r → step s = (h.chainFault (rejectKind r)).outcome)) ∧
  (∀ s dt i v, Next s dt (.event i) v → step s = if i.bits = 0 then exec i v else .next v) ∧
  (∀ s, s.lossPending = none → s.agenda = [] → Config.schedule s.turns = none → step s = .next { s with turns := s.turns + 1 }) ∧
  ∀ s n, s.lossPending = some n → step s = exec (.contextLost n) s

/-- Words that the spec writes out decode to the instructions for which they stand (09 R105 to R110, R126, R128; 10; 11; 13; 15), one
or more of each format; and words that it calls reserved are refused. -/
def Obligations.DecodesSpecWords : Prop :=
  let sy : Sync := ⟨false, false, 0⟩
  let v (n : BitVec 5) : VG := ⟨n, .x4⟩
  decodeCore 0x100A_0C20_0000_0000 = .ok (.add ⟨.reg 5, .reg 3, .reg 4, sy⟩) ∧
  decodeCore 0x180E_1FFF_FFFF_C098 = .ok (.addi ⟨.reg 7, .reg 7, 0xFFFFFFF0, ⟨false, true, 12⟩⟩) ∧
  decodeCore 0x400A_03FF_FFFF_F090 = .ok (.bne ⟨.reg 5, .reg 0, 0xFFFFFFFC, .likely⟩) ∧
  decodeCore 0x680A_0C94_0900_AC00 = .ok (.ldn ⟨.reg 5, 3, ⟨0, 2, 5⟩, 2, .w, false, ⟨2, 1, .acq, .die⟩, sy⟩) ∧
  decodeCore 0x890A_0C22_8100_7600 = .ok (.acas ⟨5, 3, 4, .g, true, true, ⟨2, 0, .acqrel, .package⟩, sy⟩) ∧
  decodeCore 0xA200_0005_3018_088A = .ok (.mgo ⟨true, some .ordered, 4, ⟨3, 1, .rel, .cell⟩, ⟨false, true, 5⟩⟩) ∧
  decodeCore 0xC081_1246_20A8_4A00 = .ok (.vadd ⟨v 0, v 4, v 8, some 2, .bf16, .rtz, false, true, sy⟩) ∧
  decodeEngine 0x8004 = .ok (.wLit 4) ∧ decodeEngine 0x1617 = .ok (.wRngpWord true 7) ∧
  (∀ i, decodeCore 0xC08D_2260_00A8_0000 ≠ .ok i) ∧ (∀ i, decodeCore 0x7208_0C00_0000_3600 ≠ .ok i) ∧
  (∀ i, decodeCore 0 ≠ .ok i) ∧ ∀ i, decodeEngine 0x0600 ≠ .ok i

/-- The machine right after reset (25 R367; 11 R171): no package is ready, DSTAT's fields and the mailboxes are 0, no context, job or
record is there, and every memory is in canonical form. (The model's choices: W2CTX and the launch status
at reset, the log's entry 5; which packages there are, 3; that nothing else is there, 7, 8 and 10.) -/
def Obligations.ResetState : Prop :=
  State.reset.memOk ∧ State.reset.lossPending = none ∧ State.reset.pkgs.length = Config.packages ∧ ∀ p ∈ State.reset.pkgs,
    p.ready = false ∧ p.level = 0 ∧ p.fatal = false ∧ p.firn.version = 0 ∧ p.ctxs = [] ∧ p.hbm = [] ∧ p.marks = [] ∧ p.losses = [] ∧
      (∀ i : Fin 192, (∀ k : Fin 8, p.cells[i].mb[k] = 0) ∧ p.cells[i].jobs = [] ∧ p.cells[i].queue = [] ∧ p.cells[i].ops = []) ∧
      ∀ f : Fin 17, p.fns[f].w2ctx = 0 ∧ p.fns[f].mem = [] ∧ p.fns[f].lstat = []

/-- Encoder and decoder agree on core words (09 R104 to R126): every well-formed instruction, with every operand at every value that its
type admits, comes back from its 64 bits. -/
def Obligations.CoreWordsRoundTrip : Prop :=
  ∀ i, i.wf = true → i.bits = 64 → encode i < 2 ^ 64 ∧ decodeCore (encode i) = .ok i

/-- Encoder and decoder agree on engine words (09 R128, R129), both ways: every engine word comes back from its 16 bits, and whatever
the decoder reads from 16 bits is encoded as those bits. -/
def Obligations.EngineWordsRoundTrip : Prop :=
  (∀ i, i.bits = 16 → encode i < 2 ^ 16 ∧ decodeEngine (encode i) = .ok i) ∧
  ∀ w i, w < 2 ^ 16 → decodeEngine w = .ok i → i.bits = 16 ∧ encode i = w

/-- Every step keeps every memory in canonical form: HBM, the host's memories, the launch slots and the carve-outs, of running, held,
trap-held and written-out jobs. Then equal memories are equal data, and a byte that reads 0 is not listed. -/
def Obligations.MemoryStaysCanonical : Prop := ∀ s s', s.memOk → step s = .next s' → s'.memOk
end

