-- ==== Sys2Proof/Laws/Memory.lean ====
section
/-!
SUPPORT. Memory as a list of listed bytes: every operation keeps the canonical form, a read after a write gives what was written,
and a write leaves every other byte alone.
-/
namespace Sys2Proof.Machine
open Sys2Proof

/-! ## The canonical form, said with membership -/

/-- Addresses strictly rise and no listed byte is 0. -/
def Listed (m : List Host.Cell) : Prop := m.Pairwise (fun x y => x.1 < y.1) ∧ ∀ e ∈ m, e.2 ≠ 0

theorem listed_nil : Listed [] := ⟨List.Pairwise.nil, by simp⟩

theorem listed_cons {k : Nat} {b : Byte} {m : List Host.Cell} :
    Listed ((k, b) :: m) ↔ b ≠ 0 ∧ (∀ e ∈ m, k < e.1) ∧ Listed m := by
  simp only [Listed, List.pairwise_cons, List.mem_cons, forall_eq_or_imp]
  tauto

theorem wf_iff_listed (m : List Host.Cell) : Memory.wf m = true ↔ Listed m := by
  induction m with
  | nil => exact ⟨fun _ => listed_nil, fun _ => rfl⟩
  | cons x m ih =>
    obtain ⟨k, b⟩ := x
    rw [listed_cons]
    cases m with
    | nil => simp [Memory.wf, listed_nil]
    | cons y m =>
      obtain ⟨k', b'⟩ := y
      simp only [Memory.wf, Bool.and_eq_true, bne_iff_ne, ne_eq, decide_eq_true_eq]
      rw [ih]
      constructor
      · rintro ⟨⟨hb, hk⟩, hl⟩
        refine ⟨hb, ?_, hl⟩
        intro e he
        rcases List.mem_cons.mp he with rfl | he
        · exact hk
        · exact Nat.lt_trans hk ((listed_cons.mp hl).2.1 e he)
      · rintro ⟨hb, hk, hl⟩
        exact ⟨⟨hb, hk (k', b') (by simp)⟩, hl⟩

/-! ## One byte -/

theorem mem_memSet {m : List Host.Cell} {a : Nat} {b : Byte} {e : Host.Cell} (h : e ∈ memSet m a b) :
    (e = (a, b) ∧ b ≠ 0) ∨ e ∈ m := by
  induction m with
  | nil =>
    simp only [memSet] at h
    split at h <;> simp_all
  | cons x m ih =>
    obtain ⟨k, c⟩ := x
    simp only [memSet] at h
    split at h
    · split at h <;> simp_all
    · split at h
      · split at h <;> simp_all
        tauto
      · rcases List.mem_cons.mp h with rfl | h
        · exact .inr (by simp)
        · rcases ih h with h | h
          · exact .inl h
          · exact .inr (List.mem_cons_of_mem _ h)

/-- A write of one byte keeps the canonical form. -/
theorem memSet_listed {m : List Host.Cell} (hm : Listed m) (a : Nat) (b : Byte) : Listed (memSet m a b) := by
  induction m with
  | nil =>
    simp only [memSet]
    split
    · exact listed_nil
    · exact listed_cons.mpr ⟨‹_›, by simp, listed_nil⟩
  | cons x m ih =>
    obtain ⟨k, c⟩ := x
    obtain ⟨hc, hk, hl⟩ := listed_cons.mp hm
    simp only [memSet]
    split
    · rename_i hak
      split
      · exact hm
      · refine listed_cons.mpr ⟨‹_›, ?_, hm⟩
        intro e he
        rcases List.mem_cons.mp he with rfl | he
        · exact hak
        · exact Nat.lt_trans hak (hk e he)
    · split
      · rename_i hak
        split
        · exact hl
        · exact listed_cons.mpr ⟨‹_›, fun e he => hak ▸ hk e he, hl⟩
      · rename_i h1 h2
        refine listed_cons.mpr ⟨hc, ?_, ih hl⟩
        intro e he
        rcases mem_memSet he with ⟨rfl, -⟩ | he
        · simp only
          omega
        · exact hk e he

theorem memGet_below {m : List Host.Cell} {a : Nat} (h : ∀ e ∈ m, a < e.1) : memGet m a = 0 := by
  cases m with
  | nil => rfl
  | cons x m =>
    obtain ⟨k, b⟩ := x
    have : a < k := h (k, b) (by simp)
    simp only [memGet]
    rw [if_neg (by omega), if_pos this]

/-- A read after a write of one byte. -/
theorem memGet_memSet {m : List Host.Cell} (hm : Listed m) (a x : Nat) (b : Byte) :
    memGet (memSet m a b) x = if x = a then b else memGet m x := by
  induction m with
  | nil =>
    simp only [memSet]
    split
    · simp_all [memGet]
    · simp only [memGet]
      by_cases h : x = a
      · simp [h]
      · rw [if_neg h, if_neg (fun e => h e.symm)]
        split <;> rfl
  | cons y m ih =>
    obtain ⟨k, c⟩ := y
    obtain ⟨hc, hk, hl⟩ := listed_cons.mp hm
    simp only [memSet]
    by_cases h1 : a < k
    · rw [if_pos h1]
      by_cases hb : b = 0
      · rw [if_pos hb]
        by_cases hx : x = a
        · rw [if_pos hx, hx, hb]
          simp only [memGet]
          rw [if_neg (by omega), if_pos h1]
        · rw [if_neg hx]
      · rw [if_neg hb]
        conv_lhs => simp only [memGet]
        by_cases hx : x = a
        · rw [if_pos hx.symm, if_pos hx]
        · rw [if_neg (fun e => hx e.symm), if_neg hx]
          by_cases hxa : x < a
          · rw [if_pos hxa]
            simp only [memGet]
            rw [if_neg (by omega), if_pos (by omega)]
          · rw [if_neg hxa]
            simp only [memGet]
    · rw [if_neg h1]
      by_cases h2 : a = k
      · rw [if_pos h2]
        by_cases hb : b = 0
        · rw [if_pos hb]
          by_cases hx : x = a
          · rw [if_pos hx, hx, h2, hb]
            exact memGet_below (fun e he => hk e he)
          · rw [if_neg hx]
            simp only [memGet]
            rw [if_neg (by omega)]
            by_cases hxk : x < k
            · rw [if_pos hxk]
              exact memGet_below (fun e he => Nat.lt_trans hxk (hk e he))
            · rw [if_neg hxk]
        · rw [if_neg hb]
          simp only [memGet]
          by_cases hx : x = a
          · rw [if_pos hx.symm, if_pos hx]
          · rw [if_neg (fun e => hx e.symm), if_neg hx]
            split_ifs <;> first | rfl | omega
      · rw [if_neg h2]
        simp only [memGet]
        rw [ih hl]
        split_ifs <;> first | rfl | omega

/-! ## Bytes in a row -/

theorem memWrite_listed {m : List Host.Cell} (hm : Listed m) (a : Nat) (bs : List Byte) : Listed (memWrite m a bs) := by
  induction bs generalizing m a with
  | nil => exact hm
  | cons b bs ih => exact ih (memSet_listed hm a b) (a + 1)

/-- Every byte outside the written ones reads as before. -/
theorem memGet_memWrite_other {m : List Host.Cell} (hm : Listed m) (a x : Nat) (bs : List Byte)
    (h : x < a ∨ a + bs.length ≤ x) : memGet (memWrite m a bs) x = memGet m x := by
  induction bs generalizing m a with
  | nil => rfl
  | cons b bs ih =>
    simp only [List.length_cons] at h
    rw [memWrite, ih (memSet_listed hm a b) (a + 1) (by omega), memGet_memSet hm, if_neg (by omega)]

/-- Every written byte reads as written. -/
theorem memGet_memWrite_same {m : List Host.Cell} (hm : Listed m) (a i : Nat) (bs : List Byte) (h : i < bs.length) :
    memGet (memWrite m a bs) (a + i) = bs[i] := by
  induction bs generalizing m a i with
  | nil => exact absurd h (by simp)
  | cons b bs ih =>
    rw [memWrite]
    cases i with
    | zero =>
      rw [memGet_memWrite_other (memSet_listed hm a b) _ _ _ (by omega), memGet_memSet hm]
      simp
    | succ i =>
      have := ih (memSet_listed hm a b) (a + 1) i (by simpa using h)
      rw [show a + (i + 1) = a + 1 + i by omega, this]
      simp

@[simp] theorem memRead_length (m : List Host.Cell) (a n : Nat) : (memRead m a n).length = n := by
  induction n generalizing a with
  | zero => rfl
  | succ n ih => simp [memRead, ih]

theorem memRead_congr {m m' : List Host.Cell} {a n : Nat} (h : ∀ x, a ≤ x → x < a + n → memGet m x = memGet m' x) :
    memRead m a n = memRead m' a n := by
  induction n generalizing a with
  | zero => rfl
  | succ n ih =>
    rw [memRead, memRead, h a (by omega) (by omega), ih (fun x h1 h2 => h x (by omega) (by omega))]

theorem memRead_memWrite {m : List Host.Cell} (hm : Listed m) (a : Nat) (bs : List Byte) :
    memRead (memWrite m a bs) a bs.length = bs := by
  induction bs generalizing m a with
  | nil => rfl
  | cons b bs ih =>
    rw [List.length_cons, memRead, memWrite, ih (memSet_listed hm a b) (a + 1),
      memGet_memWrite_other (memSet_listed hm a b) _ _ _ (by omega), memGet_memSet hm, if_pos rfl]

/-! ## Parts taken out, and moved -/

theorem filter_listed {m : List Host.Cell} (hm : Listed m) (f : Host.Cell → Bool) : Listed (m.filter f) :=
  ⟨hm.1.filter f, fun e he => hm.2 e (List.mem_filter.mp he).1⟩

theorem foldl_memSet_listed {l m : List Host.Cell} (hm : Listed m) (f : Nat → Nat) :
    Listed (l.foldl (fun m e => memSet m (f e.1) e.2) m) := by
  induction l generalizing m with
  | nil => exact hm
  | cons x l ih => exact ih (memSet_listed hm _ _)

theorem moveBytes_listed {m d : List Host.Cell} (hd : Listed d) (a b n : Nat) : Listed (moveBytes m a b n d) :=
  foldl_memSet_listed (filter_listed hd _) (fun x => x - a * 4096 + b * 4096)

/-! ## The same, with Memory.wf -/

theorem memSet_wf {m : List Host.Cell} (hm : Memory.wf m = true) (a : Nat) (b : Byte) : Memory.wf (memSet m a b) = true :=
  (wf_iff_listed _).mpr (memSet_listed ((wf_iff_listed _).mp hm) a b)

theorem memWrite_wf {m : List Host.Cell} (hm : Memory.wf m = true) (a : Nat) (bs : List Byte) :
    Memory.wf (memWrite m a bs) = true :=
  (wf_iff_listed _).mpr (memWrite_listed ((wf_iff_listed _).mp hm) a bs)

theorem filter_wf {m : List Host.Cell} (hm : Memory.wf m = true) (f : Host.Cell → Bool) : Memory.wf (m.filter f) = true :=
  (wf_iff_listed _).mpr (filter_listed ((wf_iff_listed _).mp hm) f)

theorem moveBytes_wf {m d : List Host.Cell} (hd : Memory.wf d = true) (a b n : Nat) : Memory.wf (moveBytes m a b n d) = true :=
  (wf_iff_listed _).mpr (moveBytes_listed ((wf_iff_listed _).mp hd) a b n)

/-! ## Little-endian numbers -/

@[simp] theorem natLe_length (n k : Nat) : (natLe n k).length = k := by
  induction k generalizing n with
  | zero => rfl
  | succ k ih => simp [natLe, ih]

theorem leNat_natLe (n k : Nat) : leNat (natLe n k) = n % 256 ^ k := by
  induction k generalizing n with
  | zero => simp [natLe, leNat, Nat.mod_one]
  | succ k ih =>
    have h256 : (BitVec.ofNat 8 (n % 256)).toNat = n % 256 := by simp [BitVec.toNat_ofNat]
    rw [natLe, leNat, ih, h256, Nat.pow_succ', Nat.mod_mul]

end Sys2Proof.Machine
end

