-- ==== Sys2Proof/Laws/State.lean ====
section
/-!
SUPPORT. One lemma for each field that a named update leaves alone, so that no proof unfolds a record update.
-/
namespace Sys2Proof.Machine
open Sys2Proof

/-! ## State -/

@[simp] theorem State.setPkg_now (s : State) (p : Nat) (x : Package) : (s.setPkg p x).now = s.now := rfl
@[simp] theorem State.setPkg_cur (s : State) (p : Nat) (x : Package) : (s.setPkg p x).cur = s.cur := rfl
@[simp] theorem State.setPkg_agenda (s : State) (p : Nat) (x : Package) : (s.setPkg p x).agenda = s.agenda := rfl
@[simp] theorem State.setPkg_turns (s : State) (p : Nat) (x : Package) : (s.setPkg p x).turns = s.turns := rfl
@[simp] theorem State.setPkg_nextId (s : State) (p : Nat) (x : Package) : (s.setPkg p x).nextId = s.nextId := rfl
@[simp] theorem State.modPkg_now (s : State) (p : Nat) (f : Package → Package) : (s.modPkg p f).now = s.now := rfl
@[simp] theorem State.modPkg_cur (s : State) (p : Nat) (f : Package → Package) : (s.modPkg p f).cur = s.cur := rfl
@[simp] theorem State.modPkg_agenda (s : State) (p : Nat) (f : Package → Package) : (s.modPkg p f).agenda = s.agenda := rfl
@[simp] theorem State.modPkg_turns (s : State) (p : Nat) (f : Package → Package) : (s.modPkg p f).turns = s.turns := rfl
@[simp] theorem State.modPkg_nextId (s : State) (p : Nat) (f : Package → Package) : (s.modPkg p f).nextId = s.nextId := rfl
@[simp] theorem State.modCell_now (s : State) (c : CellId) (f : CellState → CellState) : (s.modCell c f).now = s.now := rfl
@[simp] theorem State.modCell_cur (s : State) (c : CellId) (f : CellState → CellState) : (s.modCell c f).cur = s.cur := rfl
@[simp] theorem State.modCell_agenda (s : State) (c : CellId) (f : CellState → CellState) : (s.modCell c f).agenda = s.agenda := rfl
@[simp] theorem State.modCell_turns (s : State) (c : CellId) (f : CellState → CellState) : (s.modCell c f).turns = s.turns := rfl
@[simp] theorem State.modCell_nextId (s : State) (c : CellId) (f : CellState → CellState) : (s.modCell c f).nextId = s.nextId := rfl
@[simp] theorem State.advance_cur (s : State) (dt : Nat) : (s.advance dt).cur = s.cur := rfl
@[simp] theorem State.advance_agenda (s : State) (dt : Nat) : (s.advance dt).agenda = s.agenda := rfl
@[simp] theorem State.advance_turns (s : State) (dt : Nat) : (s.advance dt).turns = s.turns := rfl
@[simp] theorem State.advance_nextId (s : State) (dt : Nat) : (s.advance dt).nextId = s.nextId := rfl

/-! ## Package -/

@[simp] theorem Package.setCell_coord (p : Package) (i : Nat) (x : CellState) : (p.setCell i x).coord = p.coord := rfl
@[simp] theorem Package.setCell_ready (p : Package) (i : Nat) (x : CellState) : (p.setCell i x).ready = p.ready := rfl
@[simp] theorem Package.setCell_level (p : Package) (i : Nat) (x : CellState) : (p.setCell i x).level = p.level := rfl
@[simp] theorem Package.setCell_fatal (p : Package) (i : Nat) (x : CellState) : (p.setCell i x).fatal = p.fatal := rfl
@[simp] theorem Package.setCell_boots (p : Package) (i : Nat) (x : CellState) : (p.setCell i x).boots = p.boots := rfl
@[simp] theorem Package.setCell_fns (p : Package) (i : Nat) (x : CellState) : (p.setCell i x).fns = p.fns := rfl
@[simp] theorem Package.setCell_firn (p : Package) (i : Nat) (x : CellState) : (p.setCell i x).firn = p.firn := rfl
@[simp] theorem Package.setCell_dies (p : Package) (i : Nat) (x : CellState) : (p.setCell i x).dies = p.dies := rfl
@[simp] theorem Package.setCell_ctxs (p : Package) (i : Nat) (x : CellState) : (p.setCell i x).ctxs = p.ctxs := rfl
@[simp] theorem Package.setCell_hbm (p : Package) (i : Nat) (x : CellState) : (p.setCell i x).hbm = p.hbm := rfl
@[simp] theorem Package.setCell_marks (p : Package) (i : Nat) (x : CellState) : (p.setCell i x).marks = p.marks := rfl
@[simp] theorem Package.setCell_ctags (p : Package) (i : Nat) (x : CellState) : (p.setCell i x).ctags = p.ctags := rfl
@[simp] theorem Package.setCell_retired (p : Package) (i : Nat) (x : CellState) : (p.setCell i x).retired = p.retired := rfl
@[simp] theorem Package.setCell_nextFrame (p : Package) (i : Nat) (x : CellState) : (p.setCell i x).nextFrame = p.nextFrame := rfl
@[simp] theorem Package.setCell_routines (p : Package) (i : Nat) (x : CellState) : (p.setCell i x).routines = p.routines := rfl
@[simp] theorem Package.setCell_firmware (p : Package) (i : Nat) (x : CellState) : (p.setCell i x).firmware = p.firmware := rfl
@[simp] theorem Package.setCell_meas (p : Package) (i : Nat) (x : CellState) : (p.setCell i x).meas = p.meas := rfl
@[simp] theorem Package.setCell_links (p : Package) (i : Nat) (x : CellState) : (p.setCell i x).links = p.links := rfl
@[simp] theorem Package.setCell_migrations (p : Package) (i : Nat) (x : CellState) : (p.setCell i x).migrations = p.migrations := rfl
@[simp] theorem Package.setCell_losses (p : Package) (i : Nat) (x : CellState) : (p.setCell i x).losses = p.losses := rfl
@[simp] theorem Package.setCell_savesUsed (p : Package) (i : Nat) (x : CellState) : (p.setCell i x).savesUsed = p.savesUsed := rfl
@[simp] theorem Package.modCell_coord (p : Package) (i : Nat) (f : CellState → CellState) : (p.modCell i f).coord = p.coord := by unfold Package.modCell; split <;> rfl
@[simp] theorem Package.modCell_ready (p : Package) (i : Nat) (f : CellState → CellState) : (p.modCell i f).ready = p.ready := by unfold Package.modCell; split <;> rfl
@[simp] theorem Package.modCell_level (p : Package) (i : Nat) (f : CellState → CellState) : (p.modCell i f).level = p.level := by unfold Package.modCell; split <;> rfl
@[simp] theorem Package.modCell_fatal (p : Package) (i : Nat) (f : CellState → CellState) : (p.modCell i f).fatal = p.fatal := by unfold Package.modCell; split <;> rfl
@[simp] theorem Package.modCell_boots (p : Package) (i : Nat) (f : CellState → CellState) : (p.modCell i f).boots = p.boots := by unfold Package.modCell; split <;> rfl
@[simp] theorem Package.modCell_fns (p : Package) (i : Nat) (f : CellState → CellState) : (p.modCell i f).fns = p.fns := by unfold Package.modCell; split <;> rfl
@[simp] theorem Package.modCell_firn (p : Package) (i : Nat) (f : CellState → CellState) : (p.modCell i f).firn = p.firn := by unfold Package.modCell; split <;> rfl
@[simp] theorem Package.modCell_dies (p : Package) (i : Nat) (f : CellState → CellState) : (p.modCell i f).dies = p.dies := by unfold Package.modCell; split <;> rfl
@[simp] theorem Package.modCell_ctxs (p : Package) (i : Nat) (f : CellState → CellState) : (p.modCell i f).ctxs = p.ctxs := by unfold Package.modCell; split <;> rfl
@[simp] theorem Package.modCell_hbm (p : Package) (i : Nat) (f : CellState → CellState) : (p.modCell i f).hbm = p.hbm := by unfold Package.modCell; split <;> rfl
@[simp] theorem Package.modCell_marks (p : Package) (i : Nat) (f : CellState → CellState) : (p.modCell i f).marks = p.marks := by unfold Package.modCell; split <;> rfl
@[simp] theorem Package.modCell_ctags (p : Package) (i : Nat) (f : CellState → CellState) : (p.modCell i f).ctags = p.ctags := by unfold Package.modCell; split <;> rfl
@[simp] theorem Package.modCell_retired (p : Package) (i : Nat) (f : CellState → CellState) : (p.modCell i f).retired = p.retired := by unfold Package.modCell; split <;> rfl
@[simp] theorem Package.modCell_nextFrame (p : Package) (i : Nat) (f : CellState → CellState) : (p.modCell i f).nextFrame = p.nextFrame := by unfold Package.modCell; split <;> rfl
@[simp] theorem Package.modCell_routines (p : Package) (i : Nat) (f : CellState → CellState) : (p.modCell i f).routines = p.routines := by unfold Package.modCell; split <;> rfl
@[simp] theorem Package.modCell_firmware (p : Package) (i : Nat) (f : CellState → CellState) : (p.modCell i f).firmware = p.firmware := by unfold Package.modCell; split <;> rfl
@[simp] theorem Package.modCell_meas (p : Package) (i : Nat) (f : CellState → CellState) : (p.modCell i f).meas = p.meas := by unfold Package.modCell; split <;> rfl
@[simp] theorem Package.modCell_links (p : Package) (i : Nat) (f : CellState → CellState) : (p.modCell i f).links = p.links := by unfold Package.modCell; split <;> rfl
@[simp] theorem Package.modCell_migrations (p : Package) (i : Nat) (f : CellState → CellState) : (p.modCell i f).migrations = p.migrations := by unfold Package.modCell; split <;> rfl
@[simp] theorem Package.modCell_losses (p : Package) (i : Nat) (f : CellState → CellState) : (p.modCell i f).losses = p.losses := by unfold Package.modCell; split <;> rfl
@[simp] theorem Package.modCell_savesUsed (p : Package) (i : Nat) (f : CellState → CellState) : (p.modCell i f).savesUsed = p.savesUsed := by unfold Package.modCell; split <;> rfl
@[simp] theorem Package.modCtx_coord (p : Package) (i : Nat) (f : Context → Context) : (p.modCtx i f).coord = p.coord := rfl
@[simp] theorem Package.modCtx_ready (p : Package) (i : Nat) (f : Context → Context) : (p.modCtx i f).ready = p.ready := rfl
@[simp] theorem Package.modCtx_level (p : Package) (i : Nat) (f : Context → Context) : (p.modCtx i f).level = p.level := rfl
@[simp] theorem Package.modCtx_fatal (p : Package) (i : Nat) (f : Context → Context) : (p.modCtx i f).fatal = p.fatal := rfl
@[simp] theorem Package.modCtx_boots (p : Package) (i : Nat) (f : Context → Context) : (p.modCtx i f).boots = p.boots := rfl
@[simp] theorem Package.modCtx_fns (p : Package) (i : Nat) (f : Context → Context) : (p.modCtx i f).fns = p.fns := rfl
@[simp] theorem Package.modCtx_firn (p : Package) (i : Nat) (f : Context → Context) : (p.modCtx i f).firn = p.firn := rfl
@[simp] theorem Package.modCtx_cells (p : Package) (i : Nat) (f : Context → Context) : (p.modCtx i f).cells = p.cells := rfl
@[simp] theorem Package.modCtx_dies (p : Package) (i : Nat) (f : Context → Context) : (p.modCtx i f).dies = p.dies := rfl
@[simp] theorem Package.modCtx_hbm (p : Package) (i : Nat) (f : Context → Context) : (p.modCtx i f).hbm = p.hbm := rfl
@[simp] theorem Package.modCtx_marks (p : Package) (i : Nat) (f : Context → Context) : (p.modCtx i f).marks = p.marks := rfl
@[simp] theorem Package.modCtx_ctags (p : Package) (i : Nat) (f : Context → Context) : (p.modCtx i f).ctags = p.ctags := rfl
@[simp] theorem Package.modCtx_retired (p : Package) (i : Nat) (f : Context → Context) : (p.modCtx i f).retired = p.retired := rfl
@[simp] theorem Package.modCtx_nextFrame (p : Package) (i : Nat) (f : Context → Context) : (p.modCtx i f).nextFrame = p.nextFrame := rfl
@[simp] theorem Package.modCtx_routines (p : Package) (i : Nat) (f : Context → Context) : (p.modCtx i f).routines = p.routines := rfl
@[simp] theorem Package.modCtx_firmware (p : Package) (i : Nat) (f : Context → Context) : (p.modCtx i f).firmware = p.firmware := rfl
@[simp] theorem Package.modCtx_meas (p : Package) (i : Nat) (f : Context → Context) : (p.modCtx i f).meas = p.meas := rfl
@[simp] theorem Package.modCtx_links (p : Package) (i : Nat) (f : Context → Context) : (p.modCtx i f).links = p.links := rfl
@[simp] theorem Package.modCtx_migrations (p : Package) (i : Nat) (f : Context → Context) : (p.modCtx i f).migrations = p.migrations := rfl
@[simp] theorem Package.modCtx_losses (p : Package) (i : Nat) (f : Context → Context) : (p.modCtx i f).losses = p.losses := rfl
@[simp] theorem Package.modCtx_savesUsed (p : Package) (i : Nat) (f : Context → Context) : (p.modCtx i f).savesUsed = p.savesUsed := rfl
@[simp] theorem Package.modJob_coord (p : Package) (i uid : Nat) (f : Job → Job) : (p.modJob i uid f).coord = p.coord := by simp [Package.modJob]
@[simp] theorem Package.modJob_ready (p : Package) (i uid : Nat) (f : Job → Job) : (p.modJob i uid f).ready = p.ready := by simp [Package.modJob]
@[simp] theorem Package.modJob_level (p : Package) (i uid : Nat) (f : Job → Job) : (p.modJob i uid f).level = p.level := by simp [Package.modJob]
@[simp] theorem Package.modJob_fatal (p : Package) (i uid : Nat) (f : Job → Job) : (p.modJob i uid f).fatal = p.fatal := by simp [Package.modJob]
@[simp] theorem Package.modJob_boots (p : Package) (i uid : Nat) (f : Job → Job) : (p.modJob i uid f).boots = p.boots := by simp [Package.modJob]
@[simp] theorem Package.modJob_fns (p : Package) (i uid : Nat) (f : Job → Job) : (p.modJob i uid f).fns = p.fns := by simp [Package.modJob]
@[simp] theorem Package.modJob_firn (p : Package) (i uid : Nat) (f : Job → Job) : (p.modJob i uid f).firn = p.firn := by simp [Package.modJob]
@[simp] theorem Package.modJob_dies (p : Package) (i uid : Nat) (f : Job → Job) : (p.modJob i uid f).dies = p.dies := by simp [Package.modJob]
@[simp] theorem Package.modJob_ctxs (p : Package) (i uid : Nat) (f : Job → Job) : (p.modJob i uid f).ctxs = p.ctxs := by simp [Package.modJob]
@[simp] theorem Package.modJob_hbm (p : Package) (i uid : Nat) (f : Job → Job) : (p.modJob i uid f).hbm = p.hbm := by simp [Package.modJob]
@[simp] theorem Package.modJob_marks (p : Package) (i uid : Nat) (f : Job → Job) : (p.modJob i uid f).marks = p.marks := by simp [Package.modJob]
@[simp] theorem Package.modJob_ctags (p : Package) (i uid : Nat) (f : Job → Job) : (p.modJob i uid f).ctags = p.ctags := by simp [Package.modJob]
@[simp] theorem Package.modJob_retired (p : Package) (i uid : Nat) (f : Job → Job) : (p.modJob i uid f).retired = p.retired := by simp [Package.modJob]
@[simp] theorem Package.modJob_nextFrame (p : Package) (i uid : Nat) (f : Job → Job) : (p.modJob i uid f).nextFrame = p.nextFrame := by simp [Package.modJob]
@[simp] theorem Package.modJob_routines (p : Package) (i uid : Nat) (f : Job → Job) : (p.modJob i uid f).routines = p.routines := by simp [Package.modJob]
@[simp] theorem Package.modJob_firmware (p : Package) (i uid : Nat) (f : Job → Job) : (p.modJob i uid f).firmware = p.firmware := by simp [Package.modJob]
@[simp] theorem Package.modJob_meas (p : Package) (i uid : Nat) (f : Job → Job) : (p.modJob i uid f).meas = p.meas := by simp [Package.modJob]
@[simp] theorem Package.modJob_links (p : Package) (i uid : Nat) (f : Job → Job) : (p.modJob i uid f).links = p.links := by simp [Package.modJob]
@[simp] theorem Package.modJob_migrations (p : Package) (i uid : Nat) (f : Job → Job) : (p.modJob i uid f).migrations = p.migrations := by simp [Package.modJob]
@[simp] theorem Package.modJob_losses (p : Package) (i uid : Nat) (f : Job → Job) : (p.modJob i uid f).losses = p.losses := by simp [Package.modJob]
@[simp] theorem Package.modJob_savesUsed (p : Package) (i uid : Nat) (f : Job → Job) : (p.modJob i uid f).savesUsed = p.savesUsed := by simp [Package.modJob]
@[simp] theorem Package.lose_coord (p : Package) (l : Loss) : (p.lose l).coord = p.coord := rfl
@[simp] theorem Package.lose_ready (p : Package) (l : Loss) : (p.lose l).ready = p.ready := rfl
@[simp] theorem Package.lose_level (p : Package) (l : Loss) : (p.lose l).level = p.level := rfl
@[simp] theorem Package.lose_fatal (p : Package) (l : Loss) : (p.lose l).fatal = p.fatal := rfl
@[simp] theorem Package.lose_boots (p : Package) (l : Loss) : (p.lose l).boots = p.boots := rfl
@[simp] theorem Package.lose_fns (p : Package) (l : Loss) : (p.lose l).fns = p.fns := rfl
@[simp] theorem Package.lose_firn (p : Package) (l : Loss) : (p.lose l).firn = p.firn := rfl
@[simp] theorem Package.lose_cells (p : Package) (l : Loss) : (p.lose l).cells = p.cells := rfl
@[simp] theorem Package.lose_dies (p : Package) (l : Loss) : (p.lose l).dies = p.dies := rfl
@[simp] theorem Package.lose_ctxs (p : Package) (l : Loss) : (p.lose l).ctxs = p.ctxs := rfl
@[simp] theorem Package.lose_hbm (p : Package) (l : Loss) : (p.lose l).hbm = p.hbm := rfl
@[simp] theorem Package.lose_marks (p : Package) (l : Loss) : (p.lose l).marks = p.marks := rfl
@[simp] theorem Package.lose_ctags (p : Package) (l : Loss) : (p.lose l).ctags = p.ctags := rfl
@[simp] theorem Package.lose_retired (p : Package) (l : Loss) : (p.lose l).retired = p.retired := rfl
@[simp] theorem Package.lose_nextFrame (p : Package) (l : Loss) : (p.lose l).nextFrame = p.nextFrame := rfl
@[simp] theorem Package.lose_routines (p : Package) (l : Loss) : (p.lose l).routines = p.routines := rfl
@[simp] theorem Package.lose_firmware (p : Package) (l : Loss) : (p.lose l).firmware = p.firmware := rfl
@[simp] theorem Package.lose_meas (p : Package) (l : Loss) : (p.lose l).meas = p.meas := rfl
@[simp] theorem Package.lose_links (p : Package) (l : Loss) : (p.lose l).links = p.links := rfl
@[simp] theorem Package.lose_migrations (p : Package) (l : Loss) : (p.lose l).migrations = p.migrations := rfl
@[simp] theorem Package.lose_savesUsed (p : Package) (l : Loss) : (p.lose l).savesUsed = p.savesUsed := rfl
@[simp] theorem Package.writeHbm_coord (p : Package) (a : Nat) (bs : List Byte) : (p.writeHbm a bs).coord = p.coord := rfl
@[simp] theorem Package.writeHbm_ready (p : Package) (a : Nat) (bs : List Byte) : (p.writeHbm a bs).ready = p.ready := rfl
@[simp] theorem Package.writeHbm_level (p : Package) (a : Nat) (bs : List Byte) : (p.writeHbm a bs).level = p.level := rfl
@[simp] theorem Package.writeHbm_fatal (p : Package) (a : Nat) (bs : List Byte) : (p.writeHbm a bs).fatal = p.fatal := rfl
@[simp] theorem Package.writeHbm_boots (p : Package) (a : Nat) (bs : List Byte) : (p.writeHbm a bs).boots = p.boots := rfl
@[simp] theorem Package.writeHbm_fns (p : Package) (a : Nat) (bs : List Byte) : (p.writeHbm a bs).fns = p.fns := rfl
@[simp] theorem Package.writeHbm_firn (p : Package) (a : Nat) (bs : List Byte) : (p.writeHbm a bs).firn = p.firn := rfl
@[simp] theorem Package.writeHbm_cells (p : Package) (a : Nat) (bs : List Byte) : (p.writeHbm a bs).cells = p.cells := rfl
@[simp] theorem Package.writeHbm_dies (p : Package) (a : Nat) (bs : List Byte) : (p.writeHbm a bs).dies = p.dies := rfl
@[simp] theorem Package.writeHbm_ctxs (p : Package) (a : Nat) (bs : List Byte) : (p.writeHbm a bs).ctxs = p.ctxs := rfl
@[simp] theorem Package.writeHbm_ctags (p : Package) (a : Nat) (bs : List Byte) : (p.writeHbm a bs).ctags = p.ctags := rfl
@[simp] theorem Package.writeHbm_retired (p : Package) (a : Nat) (bs : List Byte) : (p.writeHbm a bs).retired = p.retired := rfl
@[simp] theorem Package.writeHbm_nextFrame (p : Package) (a : Nat) (bs : List Byte) : (p.writeHbm a bs).nextFrame = p.nextFrame := rfl
@[simp] theorem Package.writeHbm_routines (p : Package) (a : Nat) (bs : List Byte) : (p.writeHbm a bs).routines = p.routines := rfl
@[simp] theorem Package.writeHbm_firmware (p : Package) (a : Nat) (bs : List Byte) : (p.writeHbm a bs).firmware = p.firmware := rfl
@[simp] theorem Package.writeHbm_meas (p : Package) (a : Nat) (bs : List Byte) : (p.writeHbm a bs).meas = p.meas := rfl
@[simp] theorem Package.writeHbm_links (p : Package) (a : Nat) (bs : List Byte) : (p.writeHbm a bs).links = p.links := rfl
@[simp] theorem Package.writeHbm_migrations (p : Package) (a : Nat) (bs : List Byte) : (p.writeHbm a bs).migrations = p.migrations := rfl
@[simp] theorem Package.writeHbm_losses (p : Package) (a : Nat) (bs : List Byte) : (p.writeHbm a bs).losses = p.losses := rfl
@[simp] theorem Package.writeHbm_savesUsed (p : Package) (a : Nat) (bs : List Byte) : (p.writeHbm a bs).savesUsed = p.savesUsed := rfl
@[simp] theorem Package.setCtag_coord (p : Package) (a : Nat) (x : BitVec 16) : (p.setCtag a x).coord = p.coord := rfl
@[simp] theorem Package.setCtag_ready (p : Package) (a : Nat) (x : BitVec 16) : (p.setCtag a x).ready = p.ready := rfl
@[simp] theorem Package.setCtag_level (p : Package) (a : Nat) (x : BitVec 16) : (p.setCtag a x).level = p.level := rfl
@[simp] theorem Package.setCtag_fatal (p : Package) (a : Nat) (x : BitVec 16) : (p.setCtag a x).fatal = p.fatal := rfl
@[simp] theorem Package.setCtag_boots (p : Package) (a : Nat) (x : BitVec 16) : (p.setCtag a x).boots = p.boots := rfl
@[simp] theorem Package.setCtag_fns (p : Package) (a : Nat) (x : BitVec 16) : (p.setCtag a x).fns = p.fns := rfl
@[simp] theorem Package.setCtag_firn (p : Package) (a : Nat) (x : BitVec 16) : (p.setCtag a x).firn = p.firn := rfl
@[simp] theorem Package.setCtag_cells (p : Package) (a : Nat) (x : BitVec 16) : (p.setCtag a x).cells = p.cells := rfl
@[simp] theorem Package.setCtag_dies (p : Package) (a : Nat) (x : BitVec 16) : (p.setCtag a x).dies = p.dies := rfl
@[simp] theorem Package.setCtag_ctxs (p : Package) (a : Nat) (x : BitVec 16) : (p.setCtag a x).ctxs = p.ctxs := rfl
@[simp] theorem Package.setCtag_hbm (p : Package) (a : Nat) (x : BitVec 16) : (p.setCtag a x).hbm = p.hbm := rfl
@[simp] theorem Package.setCtag_marks (p : Package) (a : Nat) (x : BitVec 16) : (p.setCtag a x).marks = p.marks := rfl
@[simp] theorem Package.setCtag_retired (p : Package) (a : Nat) (x : BitVec 16) : (p.setCtag a x).retired = p.retired := rfl
@[simp] theorem Package.setCtag_nextFrame (p : Package) (a : Nat) (x : BitVec 16) : (p.setCtag a x).nextFrame = p.nextFrame := rfl
@[simp] theorem Package.setCtag_routines (p : Package) (a : Nat) (x : BitVec 16) : (p.setCtag a x).routines = p.routines := rfl
@[simp] theorem Package.setCtag_firmware (p : Package) (a : Nat) (x : BitVec 16) : (p.setCtag a x).firmware = p.firmware := rfl
@[simp] theorem Package.setCtag_meas (p : Package) (a : Nat) (x : BitVec 16) : (p.setCtag a x).meas = p.meas := rfl
@[simp] theorem Package.setCtag_links (p : Package) (a : Nat) (x : BitVec 16) : (p.setCtag a x).links = p.links := rfl
@[simp] theorem Package.setCtag_migrations (p : Package) (a : Nat) (x : BitVec 16) : (p.setCtag a x).migrations = p.migrations := rfl
@[simp] theorem Package.setCtag_losses (p : Package) (a : Nat) (x : BitVec 16) : (p.setCtag a x).losses = p.losses := rfl
@[simp] theorem Package.setCtag_savesUsed (p : Package) (a : Nat) (x : BitVec 16) : (p.setCtag a x).savesUsed = p.savesUsed := rfl
@[simp] theorem Package.advance_coord (p : Package) (dt : Nat) : (p.advance dt).coord = p.coord := rfl
@[simp] theorem Package.advance_ready (p : Package) (dt : Nat) : (p.advance dt).ready = p.ready := rfl
@[simp] theorem Package.advance_level (p : Package) (dt : Nat) : (p.advance dt).level = p.level := rfl
@[simp] theorem Package.advance_fatal (p : Package) (dt : Nat) : (p.advance dt).fatal = p.fatal := rfl
@[simp] theorem Package.advance_boots (p : Package) (dt : Nat) : (p.advance dt).boots = p.boots := rfl
@[simp] theorem Package.advance_fns (p : Package) (dt : Nat) : (p.advance dt).fns = p.fns := rfl
@[simp] theorem Package.advance_firn (p : Package) (dt : Nat) : (p.advance dt).firn = p.firn := rfl
@[simp] theorem Package.advance_cells (p : Package) (dt : Nat) : (p.advance dt).cells = p.cells := rfl
@[simp] theorem Package.advance_ctxs (p : Package) (dt : Nat) : (p.advance dt).ctxs = p.ctxs := rfl
@[simp] theorem Package.advance_hbm (p : Package) (dt : Nat) : (p.advance dt).hbm = p.hbm := rfl
@[simp] theorem Package.advance_marks (p : Package) (dt : Nat) : (p.advance dt).marks = p.marks := rfl
@[simp] theorem Package.advance_ctags (p : Package) (dt : Nat) : (p.advance dt).ctags = p.ctags := rfl
@[simp] theorem Package.advance_retired (p : Package) (dt : Nat) : (p.advance dt).retired = p.retired := rfl
@[simp] theorem Package.advance_nextFrame (p : Package) (dt : Nat) : (p.advance dt).nextFrame = p.nextFrame := rfl
@[simp] theorem Package.advance_routines (p : Package) (dt : Nat) : (p.advance dt).routines = p.routines := rfl
@[simp] theorem Package.advance_firmware (p : Package) (dt : Nat) : (p.advance dt).firmware = p.firmware := rfl
@[simp] theorem Package.advance_meas (p : Package) (dt : Nat) : (p.advance dt).meas = p.meas := rfl
@[simp] theorem Package.advance_links (p : Package) (dt : Nat) : (p.advance dt).links = p.links := rfl
@[simp] theorem Package.advance_migrations (p : Package) (dt : Nat) : (p.advance dt).migrations = p.migrations := rfl
@[simp] theorem Package.advance_losses (p : Package) (dt : Nat) : (p.advance dt).losses = p.losses := rfl
@[simp] theorem Package.advance_savesUsed (p : Package) (dt : Nat) : (p.advance dt).savesUsed = p.savesUsed := rfl

/-! ## A cell -/

@[simp] theorem CellState.modJob_secure (c : CellState) (uid : Nat) (f : Job → Job) : (c.modJob uid f).secure = c.secure := rfl
@[simp] theorem CellState.modJob_mb (c : CellState) (uid : Nat) (f : Job → Job) : (c.modJob uid f).mb = c.mb := rfl
@[simp] theorem CellState.modJob_queue (c : CellState) (uid : Nat) (f : Job → Job) : (c.modJob uid f).queue = c.queue := rfl
@[simp] theorem CellState.modJob_nextSeq (c : CellState) (uid : Nat) (f : Job → Job) : (c.modJob uid f).nextSeq = c.nextSeq := rfl
@[simp] theorem CellState.modJob_preempt (c : CellState) (uid : Nat) (f : Job → Job) : (c.modJob uid f).preempt = c.preempt := rfl
@[simp] theorem CellState.modJob_shadows (c : CellState) (uid : Nat) (f : Job → Job) : (c.modJob uid f).shadows = c.shadows := rfl
@[simp] theorem CellState.modJob_due (c : CellState) (uid : Nat) (f : Job → Job) : (c.modJob uid f).due = c.due := rfl
@[simp] theorem CellState.modJob_ops (c : CellState) (uid : Nat) (f : Job → Job) : (c.modJob uid f).ops = c.ops := rfl
@[simp] theorem CellState.modJob_tlb (c : CellState) (uid : Nat) (f : Job → Job) : (c.modJob uid f).tlb = c.tlb := rfl
@[simp] theorem CellState.modJob_invals (c : CellState) (uid : Nat) (f : Job → Job) : (c.modJob uid f).invals = c.invals := rfl
@[simp] theorem CellState.idle_secure (c : CellState) : (c.idle).secure = c.secure := rfl
@[simp] theorem CellState.idle_mb (c : CellState) : (c.idle).mb = c.mb := rfl
@[simp] theorem CellState.idle_queue (c : CellState) : (c.idle).queue = c.queue := rfl
@[simp] theorem CellState.idle_nextSeq (c : CellState) : (c.idle).nextSeq = c.nextSeq := rfl
@[simp] theorem CellState.idle_heldJob (c : CellState) : (c.idle).heldJob = c.heldJob := rfl
@[simp] theorem CellState.idle_trapped (c : CellState) : (c.idle).trapped = c.trapped := rfl
@[simp] theorem CellState.idle_shadows (c : CellState) : (c.idle).shadows = c.shadows := rfl
@[simp] theorem CellState.idle_due (c : CellState) : (c.idle).due = c.due := rfl
@[simp] theorem CellState.idle_ops (c : CellState) : (c.idle).ops = c.ops := rfl
@[simp] theorem CellState.idle_tlb (c : CellState) : (c.idle).tlb = c.tlb := rfl
@[simp] theorem CellState.idle_invals (c : CellState) : (c.idle).invals = c.invals := rfl
@[simp] theorem CellState.modOp_secure (c : CellState) (id : Nat) (f : MemOp → MemOp) : (c.modOp id f).secure = c.secure := rfl
@[simp] theorem CellState.modOp_mb (c : CellState) (id : Nat) (f : MemOp → MemOp) : (c.modOp id f).mb = c.mb := rfl
@[simp] theorem CellState.modOp_queue (c : CellState) (id : Nat) (f : MemOp → MemOp) : (c.modOp id f).queue = c.queue := rfl
@[simp] theorem CellState.modOp_nextSeq (c : CellState) (id : Nat) (f : MemOp → MemOp) : (c.modOp id f).nextSeq = c.nextSeq := rfl
@[simp] theorem CellState.modOp_job (c : CellState) (id : Nat) (f : MemOp → MemOp) : (c.modOp id f).job = c.job := rfl
@[simp] theorem CellState.modOp_heldJob (c : CellState) (id : Nat) (f : MemOp → MemOp) : (c.modOp id f).heldJob = c.heldJob := rfl
@[simp] theorem CellState.modOp_trapped (c : CellState) (id : Nat) (f : MemOp → MemOp) : (c.modOp id f).trapped = c.trapped := rfl
@[simp] theorem CellState.modOp_preempt (c : CellState) (id : Nat) (f : MemOp → MemOp) : (c.modOp id f).preempt = c.preempt := rfl
@[simp] theorem CellState.modOp_shadows (c : CellState) (id : Nat) (f : MemOp → MemOp) : (c.modOp id f).shadows = c.shadows := rfl
@[simp] theorem CellState.modOp_due (c : CellState) (id : Nat) (f : MemOp → MemOp) : (c.modOp id f).due = c.due := rfl
@[simp] theorem CellState.modOp_tlb (c : CellState) (id : Nat) (f : MemOp → MemOp) : (c.modOp id f).tlb = c.tlb := rfl
@[simp] theorem CellState.modOp_invals (c : CellState) (id : Nat) (f : MemOp → MemOp) : (c.modOp id f).invals = c.invals := rfl

/-! ## A job -/

@[simp] theorem Job.setCore_uid (j : Job) (k : Core) (c : CoreState) : (j.setCore k c).uid = j.uid := by cases k <;> rfl
@[simp] theorem Job.setCore_ctx (j : Job) (k : Core) (c : CoreState) : (j.setCore k c).ctx = j.ctx := by cases k <;> rfl
@[simp] theorem Job.setCore_qrec (j : Job) (k : Core) (c : CoreState) : (j.setCore k c).qrec = j.qrec := by cases k <;> rfl
@[simp] theorem Job.setCore_hdr (j : Job) (k : Core) (c : CoreState) : (j.setCore k c).hdr = j.hdr := by cases k <;> rfl
@[simp] theorem Job.setCore_trip (j : Job) (k : Core) (c : CoreState) : (j.setCore k c).trip = j.trip := by cases k <;> rfl
@[simp] theorem Job.setCore_prio (j : Job) (k : Core) (c : CoreState) : (j.setCore k c).prio = j.prio := by cases k <;> rfl
@[simp] theorem Job.setCore_committed (j : Job) (k : Core) (c : CoreState) : (j.setCore k c).committed = j.committed := by cases k <;> rfl
@[simp] theorem Job.setCore_decisions (j : Job) (k : Core) (c : CoreState) : (j.setCore k c).decisions = j.decisions := by cases k <;> rfl
@[simp] theorem Job.setCore_mem (j : Job) (k : Core) (c : CoreState) : (j.setCore k c).mem = j.mem := by cases k <;> rfl
@[simp] theorem Job.setCore_marks (j : Job) (k : Core) (c : CoreState) : (j.setCore k c).marks = j.marks := by cases k <;> rfl
@[simp] theorem Job.setCore_tags (j : Job) (k : Core) (c : CoreState) : (j.setCore k c).tags = j.tags := by cases k <;> rfl
@[simp] theorem Job.setCore_posts (j : Job) (k : Core) (c : CoreState) : (j.setCore k c).posts = j.posts := by cases k <;> rfl
@[simp] theorem Job.setCore_tagSaves (j : Job) (k : Core) (c : CoreState) : (j.setCore k c).tagSaves = j.tagSaves := by cases k <;> rfl
@[simp] theorem Job.setCore_copySaves (j : Job) (k : Core) (c : CoreState) : (j.setCore k c).copySaves = j.copySaves := by cases k <;> rfl
@[simp] theorem Job.setCore_markSaves (j : Job) (k : Core) (c : CoreState) : (j.setCore k c).markSaves = j.markSaves := by cases k <;> rfl
@[simp] theorem Job.setCore_rings (j : Job) (k : Core) (c : CoreState) : (j.setCore k c).rings = j.rings := by cases k <;> rfl
@[simp] theorem Job.setCore_ringSaves (j : Job) (k : Core) (c : CoreState) : (j.setCore k c).ringSaves = j.ringSaves := by cases k <;> rfl
@[simp] theorem Job.setCore_sems (j : Job) (k : Core) (c : CoreState) : (j.setCore k c).sems = j.sems := by cases k <;> rfl
@[simp] theorem Job.setCore_lq (j : Job) (k : Core) (c : CoreState) : (j.setCore k c).lq = j.lq := by cases k <;> rfl
@[simp] theorem Job.setCore_lqRow (j : Job) (k : Core) (c : CoreState) : (j.setCore k c).lqRow = j.lqRow := by cases k <;> rfl
@[simp] theorem Job.setCore_sq (j : Job) (k : Core) (c : CoreState) : (j.setCore k c).sq = j.sq := by cases k <;> rfl
@[simp] theorem Job.setCore_sqRow (j : Job) (k : Core) (c : CoreState) : (j.setCore k c).sqRow = j.sqRow := by cases k <;> rfl
@[simp] theorem Job.setCore_vec (j : Job) (k : Core) (c : CoreState) : (j.setCore k c).vec = j.vec := by cases k <;> rfl
@[simp] theorem Job.setCore_async (j : Job) (k : Core) (c : CoreState) : (j.setCore k c).async = j.async := by cases k <;> rfl
@[simp] theorem Job.setCore_me (j : Job) (k : Core) (c : CoreState) : (j.setCore k c).me = j.me := by cases k <;> rfl
@[simp] theorem Job.setCore_ce0 (j : Job) (k : Core) (c : CoreState) : (j.setCore k c).ce0 = j.ce0 := by cases k <;> rfl
@[simp] theorem Job.setCore_ce1 (j : Job) (k : Core) (c : CoreState) : (j.setCore k c).ce1 = j.ce1 := by cases k <;> rfl
@[simp] theorem Job.setCore_deferred (j : Job) (k : Core) (c : CoreState) : (j.setCore k c).deferred = j.deferred := by cases k <;> rfl
@[simp] theorem Job.setCore_seq (j : Job) (k : Core) (c : CoreState) : (j.setCore k c).seq = j.seq := by cases k <;> rfl
@[simp] theorem Job.setCore_crews (j : Job) (k : Core) (c : CoreState) : (j.setCore k c).crews = j.crews := by cases k <;> rfl
@[simp] theorem Job.setCore_results (j : Job) (k : Core) (c : CoreState) : (j.setCore k c).results = j.results := by cases k <;> rfl
@[simp] theorem Job.setCore_traps (j : Job) (k : Core) (c : CoreState) : (j.setCore k c).traps = j.traps := by cases k <;> rfl
@[simp] theorem Job.setCore_held (j : Job) (k : Core) (c : CoreState) : (j.setCore k c).held = j.held := by cases k <;> rfl
@[simp] theorem Job.setCore_eretOf (j : Job) (k : Core) (c : CoreState) : (j.setCore k c).eretOf = j.eretOf := by cases k <;> rfl
@[simp] theorem Job.setCore_eretAt (j : Job) (k : Core) (c : CoreState) : (j.setCore k c).eretAt = j.eretAt := by cases k <;> rfl
@[simp] theorem Job.setCore_eretRead (j : Job) (k : Core) (c : CoreState) : (j.setCore k c).eretRead = j.eretRead := by cases k <;> rfl
@[simp] theorem Job.setCore_osNums (j : Job) (k : Core) (c : CoreState) : (j.setCore k c).osNums = j.osNums := by cases k <;> rfl
@[simp] theorem Job.setCore_osErr (j : Job) (k : Core) (c : CoreState) : (j.setCore k c).osErr = j.osErr := by cases k <;> rfl
@[simp] theorem Job.setCore_inUse (j : Job) (k : Core) (c : CoreState) : (j.setCore k c).inUse = j.inUse := by cases k <;> rfl
@[simp] theorem Job.setCore_dirty (j : Job) (k : Core) (c : CoreState) : (j.setCore k c).dirty = j.dirty := by cases k <;> rfl
@[simp] theorem Job.setCore_progress (j : Job) (k : Core) (c : CoreState) : (j.setCore k c).progress = j.progress := by cases k <;> rfl
@[simp] theorem Job.setCore_readySince (j : Job) (k : Core) (c : CoreState) : (j.setCore k c).readySince = j.readySince := by cases k <;> rfl
@[simp] theorem Job.setCore_fitSince (j : Job) (k : Core) (c : CoreState) : (j.setCore k c).fitSince = j.fitSince := by cases k <;> rfl
@[simp] theorem Job.setEng_uid (j : Job) (e : BitVec 1) (x : EngState) : (j.setEng e x).uid = j.uid := by unfold Job.setEng; split <;> rfl
@[simp] theorem Job.setEng_ctx (j : Job) (e : BitVec 1) (x : EngState) : (j.setEng e x).ctx = j.ctx := by unfold Job.setEng; split <;> rfl
@[simp] theorem Job.setEng_qrec (j : Job) (e : BitVec 1) (x : EngState) : (j.setEng e x).qrec = j.qrec := by unfold Job.setEng; split <;> rfl
@[simp] theorem Job.setEng_hdr (j : Job) (e : BitVec 1) (x : EngState) : (j.setEng e x).hdr = j.hdr := by unfold Job.setEng; split <;> rfl
@[simp] theorem Job.setEng_trip (j : Job) (e : BitVec 1) (x : EngState) : (j.setEng e x).trip = j.trip := by unfold Job.setEng; split <;> rfl
@[simp] theorem Job.setEng_prio (j : Job) (e : BitVec 1) (x : EngState) : (j.setEng e x).prio = j.prio := by unfold Job.setEng; split <;> rfl
@[simp] theorem Job.setEng_committed (j : Job) (e : BitVec 1) (x : EngState) : (j.setEng e x).committed = j.committed := by unfold Job.setEng; split <;> rfl
@[simp] theorem Job.setEng_decisions (j : Job) (e : BitVec 1) (x : EngState) : (j.setEng e x).decisions = j.decisions := by unfold Job.setEng; split <;> rfl
@[simp] theorem Job.setEng_mem (j : Job) (e : BitVec 1) (x : EngState) : (j.setEng e x).mem = j.mem := by unfold Job.setEng; split <;> rfl
@[simp] theorem Job.setEng_marks (j : Job) (e : BitVec 1) (x : EngState) : (j.setEng e x).marks = j.marks := by unfold Job.setEng; split <;> rfl
@[simp] theorem Job.setEng_tags (j : Job) (e : BitVec 1) (x : EngState) : (j.setEng e x).tags = j.tags := by unfold Job.setEng; split <;> rfl
@[simp] theorem Job.setEng_posts (j : Job) (e : BitVec 1) (x : EngState) : (j.setEng e x).posts = j.posts := by unfold Job.setEng; split <;> rfl
@[simp] theorem Job.setEng_tagSaves (j : Job) (e : BitVec 1) (x : EngState) : (j.setEng e x).tagSaves = j.tagSaves := by unfold Job.setEng; split <;> rfl
@[simp] theorem Job.setEng_copySaves (j : Job) (e : BitVec 1) (x : EngState) : (j.setEng e x).copySaves = j.copySaves := by unfold Job.setEng; split <;> rfl
@[simp] theorem Job.setEng_markSaves (j : Job) (e : BitVec 1) (x : EngState) : (j.setEng e x).markSaves = j.markSaves := by unfold Job.setEng; split <;> rfl
@[simp] theorem Job.setEng_rings (j : Job) (e : BitVec 1) (x : EngState) : (j.setEng e x).rings = j.rings := by unfold Job.setEng; split <;> rfl
@[simp] theorem Job.setEng_ringSaves (j : Job) (e : BitVec 1) (x : EngState) : (j.setEng e x).ringSaves = j.ringSaves := by unfold Job.setEng; split <;> rfl
@[simp] theorem Job.setEng_sems (j : Job) (e : BitVec 1) (x : EngState) : (j.setEng e x).sems = j.sems := by unfold Job.setEng; split <;> rfl
@[simp] theorem Job.setEng_lq (j : Job) (e : BitVec 1) (x : EngState) : (j.setEng e x).lq = j.lq := by unfold Job.setEng; split <;> rfl
@[simp] theorem Job.setEng_lqRow (j : Job) (e : BitVec 1) (x : EngState) : (j.setEng e x).lqRow = j.lqRow := by unfold Job.setEng; split <;> rfl
@[simp] theorem Job.setEng_sq (j : Job) (e : BitVec 1) (x : EngState) : (j.setEng e x).sq = j.sq := by unfold Job.setEng; split <;> rfl
@[simp] theorem Job.setEng_sqRow (j : Job) (e : BitVec 1) (x : EngState) : (j.setEng e x).sqRow = j.sqRow := by unfold Job.setEng; split <;> rfl
@[simp] theorem Job.setEng_ac (j : Job) (e : BitVec 1) (x : EngState) : (j.setEng e x).ac = j.ac := by unfold Job.setEng; split <;> rfl
@[simp] theorem Job.setEng_xc (j : Job) (e : BitVec 1) (x : EngState) : (j.setEng e x).xc = j.xc := by unfold Job.setEng; split <;> rfl
@[simp] theorem Job.setEng_vec (j : Job) (e : BitVec 1) (x : EngState) : (j.setEng e x).vec = j.vec := by unfold Job.setEng; split <;> rfl
@[simp] theorem Job.setEng_async (j : Job) (e : BitVec 1) (x : EngState) : (j.setEng e x).async = j.async := by unfold Job.setEng; split <;> rfl
@[simp] theorem Job.setEng_me (j : Job) (e : BitVec 1) (x : EngState) : (j.setEng e x).me = j.me := by unfold Job.setEng; split <;> rfl
@[simp] theorem Job.setEng_deferred (j : Job) (e : BitVec 1) (x : EngState) : (j.setEng e x).deferred = j.deferred := by unfold Job.setEng; split <;> rfl
@[simp] theorem Job.setEng_seq (j : Job) (e : BitVec 1) (x : EngState) : (j.setEng e x).seq = j.seq := by unfold Job.setEng; split <;> rfl
@[simp] theorem Job.setEng_crews (j : Job) (e : BitVec 1) (x : EngState) : (j.setEng e x).crews = j.crews := by unfold Job.setEng; split <;> rfl
@[simp] theorem Job.setEng_results (j : Job) (e : BitVec 1) (x : EngState) : (j.setEng e x).results = j.results := by unfold Job.setEng; split <;> rfl
@[simp] theorem Job.setEng_traps (j : Job) (e : BitVec 1) (x : EngState) : (j.setEng e x).traps = j.traps := by unfold Job.setEng; split <;> rfl
@[simp] theorem Job.setEng_held (j : Job) (e : BitVec 1) (x : EngState) : (j.setEng e x).held = j.held := by unfold Job.setEng; split <;> rfl
@[simp] theorem Job.setEng_eretOf (j : Job) (e : BitVec 1) (x : EngState) : (j.setEng e x).eretOf = j.eretOf := by unfold Job.setEng; split <;> rfl
@[simp] theorem Job.setEng_eretAt (j : Job) (e : BitVec 1) (x : EngState) : (j.setEng e x).eretAt = j.eretAt := by unfold Job.setEng; split <;> rfl
@[simp] theorem Job.setEng_eretRead (j : Job) (e : BitVec 1) (x : EngState) : (j.setEng e x).eretRead = j.eretRead := by unfold Job.setEng; split <;> rfl
@[simp] theorem Job.setEng_osNums (j : Job) (e : BitVec 1) (x : EngState) : (j.setEng e x).osNums = j.osNums := by unfold Job.setEng; split <;> rfl
@[simp] theorem Job.setEng_osErr (j : Job) (e : BitVec 1) (x : EngState) : (j.setEng e x).osErr = j.osErr := by unfold Job.setEng; split <;> rfl
@[simp] theorem Job.setEng_inUse (j : Job) (e : BitVec 1) (x : EngState) : (j.setEng e x).inUse = j.inUse := by unfold Job.setEng; split <;> rfl
@[simp] theorem Job.setEng_dirty (j : Job) (e : BitVec 1) (x : EngState) : (j.setEng e x).dirty = j.dirty := by unfold Job.setEng; split <;> rfl
@[simp] theorem Job.setEng_progress (j : Job) (e : BitVec 1) (x : EngState) : (j.setEng e x).progress = j.progress := by unfold Job.setEng; split <;> rfl
@[simp] theorem Job.setEng_readySince (j : Job) (e : BitVec 1) (x : EngState) : (j.setEng e x).readySince = j.readySince := by unfold Job.setEng; split <;> rfl
@[simp] theorem Job.setEng_fitSince (j : Job) (e : BitVec 1) (x : EngState) : (j.setEng e x).fitSince = j.fitSince := by unfold Job.setEng; split <;> rfl
@[simp] theorem Job.result_uid (j : Job) (r clk : Nat) : (j.result r clk).uid = j.uid := rfl
@[simp] theorem Job.result_ctx (j : Job) (r clk : Nat) : (j.result r clk).ctx = j.ctx := rfl
@[simp] theorem Job.result_qrec (j : Job) (r clk : Nat) : (j.result r clk).qrec = j.qrec := rfl
@[simp] theorem Job.result_hdr (j : Job) (r clk : Nat) : (j.result r clk).hdr = j.hdr := rfl
@[simp] theorem Job.result_trip (j : Job) (r clk : Nat) : (j.result r clk).trip = j.trip := rfl
@[simp] theorem Job.result_prio (j : Job) (r clk : Nat) : (j.result r clk).prio = j.prio := rfl
@[simp] theorem Job.result_committed (j : Job) (r clk : Nat) : (j.result r clk).committed = j.committed := rfl
@[simp] theorem Job.result_decisions (j : Job) (r clk : Nat) : (j.result r clk).decisions = j.decisions := rfl
@[simp] theorem Job.result_mem (j : Job) (r clk : Nat) : (j.result r clk).mem = j.mem := rfl
@[simp] theorem Job.result_marks (j : Job) (r clk : Nat) : (j.result r clk).marks = j.marks := rfl
@[simp] theorem Job.result_tags (j : Job) (r clk : Nat) : (j.result r clk).tags = j.tags := rfl
@[simp] theorem Job.result_posts (j : Job) (r clk : Nat) : (j.result r clk).posts = j.posts := rfl
@[simp] theorem Job.result_tagSaves (j : Job) (r clk : Nat) : (j.result r clk).tagSaves = j.tagSaves := rfl
@[simp] theorem Job.result_copySaves (j : Job) (r clk : Nat) : (j.result r clk).copySaves = j.copySaves := rfl
@[simp] theorem Job.result_markSaves (j : Job) (r clk : Nat) : (j.result r clk).markSaves = j.markSaves := rfl
@[simp] theorem Job.result_rings (j : Job) (r clk : Nat) : (j.result r clk).rings = j.rings := rfl
@[simp] theorem Job.result_ringSaves (j : Job) (r clk : Nat) : (j.result r clk).ringSaves = j.ringSaves := rfl
@[simp] theorem Job.result_sems (j : Job) (r clk : Nat) : (j.result r clk).sems = j.sems := rfl
@[simp] theorem Job.result_lq (j : Job) (r clk : Nat) : (j.result r clk).lq = j.lq := rfl
@[simp] theorem Job.result_lqRow (j : Job) (r clk : Nat) : (j.result r clk).lqRow = j.lqRow := rfl
@[simp] theorem Job.result_sq (j : Job) (r clk : Nat) : (j.result r clk).sq = j.sq := rfl
@[simp] theorem Job.result_sqRow (j : Job) (r clk : Nat) : (j.result r clk).sqRow = j.sqRow := rfl
@[simp] theorem Job.result_ac (j : Job) (r clk : Nat) : (j.result r clk).ac = j.ac := rfl
@[simp] theorem Job.result_xc (j : Job) (r clk : Nat) : (j.result r clk).xc = j.xc := rfl
@[simp] theorem Job.result_vec (j : Job) (r clk : Nat) : (j.result r clk).vec = j.vec := rfl
@[simp] theorem Job.result_async (j : Job) (r clk : Nat) : (j.result r clk).async = j.async := rfl
@[simp] theorem Job.result_me (j : Job) (r clk : Nat) : (j.result r clk).me = j.me := rfl
@[simp] theorem Job.result_ce0 (j : Job) (r clk : Nat) : (j.result r clk).ce0 = j.ce0 := rfl
@[simp] theorem Job.result_ce1 (j : Job) (r clk : Nat) : (j.result r clk).ce1 = j.ce1 := rfl
@[simp] theorem Job.result_deferred (j : Job) (r clk : Nat) : (j.result r clk).deferred = j.deferred := rfl
@[simp] theorem Job.result_seq (j : Job) (r clk : Nat) : (j.result r clk).seq = j.seq := rfl
@[simp] theorem Job.result_crews (j : Job) (r clk : Nat) : (j.result r clk).crews = j.crews := rfl
@[simp] theorem Job.result_traps (j : Job) (r clk : Nat) : (j.result r clk).traps = j.traps := rfl
@[simp] theorem Job.result_held (j : Job) (r clk : Nat) : (j.result r clk).held = j.held := rfl
@[simp] theorem Job.result_eretOf (j : Job) (r clk : Nat) : (j.result r clk).eretOf = j.eretOf := rfl
@[simp] theorem Job.result_eretAt (j : Job) (r clk : Nat) : (j.result r clk).eretAt = j.eretAt := rfl
@[simp] theorem Job.result_eretRead (j : Job) (r clk : Nat) : (j.result r clk).eretRead = j.eretRead := rfl
@[simp] theorem Job.result_osNums (j : Job) (r clk : Nat) : (j.result r clk).osNums = j.osNums := rfl
@[simp] theorem Job.result_osErr (j : Job) (r clk : Nat) : (j.result r clk).osErr = j.osErr := rfl
@[simp] theorem Job.result_inUse (j : Job) (r clk : Nat) : (j.result r clk).inUse = j.inUse := rfl
@[simp] theorem Job.result_dirty (j : Job) (r clk : Nat) : (j.result r clk).dirty = j.dirty := rfl
@[simp] theorem Job.result_progress (j : Job) (r clk : Nat) : (j.result r clk).progress = j.progress := rfl
@[simp] theorem Job.result_readySince (j : Job) (r clk : Nat) : (j.result r clk).readySince = j.readySince := rfl
@[simp] theorem Job.result_fitSince (j : Job) (r clk : Nat) : (j.result r clk).fitSince = j.fitSince := rfl
@[simp] theorem Job.defer_uid (j : Job) (r : Nat) (e : Eng) (a : Word) (os : Option (BitVec 3)) (ps : List Nat)
    (src : Option Nat) (x : Effect) : (j.defer r e a os ps src x).uid = j.uid := rfl
@[simp] theorem Job.defer_ctx (j : Job) (r : Nat) (e : Eng) (a : Word) (os : Option (BitVec 3)) (ps : List Nat)
    (src : Option Nat) (x : Effect) : (j.defer r e a os ps src x).ctx = j.ctx := rfl
@[simp] theorem Job.defer_qrec (j : Job) (r : Nat) (e : Eng) (a : Word) (os : Option (BitVec 3)) (ps : List Nat)
    (src : Option Nat) (x : Effect) : (j.defer r e a os ps src x).qrec = j.qrec := rfl
@[simp] theorem Job.defer_hdr (j : Job) (r : Nat) (e : Eng) (a : Word) (os : Option (BitVec 3)) (ps : List Nat)
    (src : Option Nat) (x : Effect) : (j.defer r e a os ps src x).hdr = j.hdr := rfl
@[simp] theorem Job.defer_trip (j : Job) (r : Nat) (e : Eng) (a : Word) (os : Option (BitVec 3)) (ps : List Nat)
    (src : Option Nat) (x : Effect) : (j.defer r e a os ps src x).trip = j.trip := rfl
@[simp] theorem Job.defer_prio (j : Job) (r : Nat) (e : Eng) (a : Word) (os : Option (BitVec 3)) (ps : List Nat)
    (src : Option Nat) (x : Effect) : (j.defer r e a os ps src x).prio = j.prio := rfl
@[simp] theorem Job.defer_committed (j : Job) (r : Nat) (e : Eng) (a : Word) (os : Option (BitVec 3)) (ps : List Nat)
    (src : Option Nat) (x : Effect) : (j.defer r e a os ps src x).committed = j.committed := rfl
@[simp] theorem Job.defer_decisions (j : Job) (r : Nat) (e : Eng) (a : Word) (os : Option (BitVec 3)) (ps : List Nat)
    (src : Option Nat) (x : Effect) : (j.defer r e a os ps src x).decisions = j.decisions := rfl
@[simp] theorem Job.defer_mem (j : Job) (r : Nat) (e : Eng) (a : Word) (os : Option (BitVec 3)) (ps : List Nat)
    (src : Option Nat) (x : Effect) : (j.defer r e a os ps src x).mem = j.mem := rfl
@[simp] theorem Job.defer_marks (j : Job) (r : Nat) (e : Eng) (a : Word) (os : Option (BitVec 3)) (ps : List Nat)
    (src : Option Nat) (x : Effect) : (j.defer r e a os ps src x).marks = j.marks := rfl
@[simp] theorem Job.defer_tags (j : Job) (r : Nat) (e : Eng) (a : Word) (os : Option (BitVec 3)) (ps : List Nat)
    (src : Option Nat) (x : Effect) : (j.defer r e a os ps src x).tags = j.tags := rfl
@[simp] theorem Job.defer_posts (j : Job) (r : Nat) (e : Eng) (a : Word) (os : Option (BitVec 3)) (ps : List Nat)
    (src : Option Nat) (x : Effect) : (j.defer r e a os ps src x).posts = j.posts := rfl
@[simp] theorem Job.defer_tagSaves (j : Job) (r : Nat) (e : Eng) (a : Word) (os : Option (BitVec 3)) (ps : List Nat)
    (src : Option Nat) (x : Effect) : (j.defer r e a os ps src x).tagSaves = j.tagSaves := rfl
@[simp] theorem Job.defer_copySaves (j : Job) (r : Nat) (e : Eng) (a : Word) (os : Option (BitVec 3)) (ps : List Nat)
    (src : Option Nat) (x : Effect) : (j.defer r e a os ps src x).copySaves = j.copySaves := rfl
@[simp] theorem Job.defer_markSaves (j : Job) (r : Nat) (e : Eng) (a : Word) (os : Option (BitVec 3)) (ps : List Nat)
    (src : Option Nat) (x : Effect) : (j.defer r e a os ps src x).markSaves = j.markSaves := rfl
@[simp] theorem Job.defer_rings (j : Job) (r : Nat) (e : Eng) (a : Word) (os : Option (BitVec 3)) (ps : List Nat)
    (src : Option Nat) (x : Effect) : (j.defer r e a os ps src x).rings = j.rings := rfl
@[simp] theorem Job.defer_ringSaves (j : Job) (r : Nat) (e : Eng) (a : Word) (os : Option (BitVec 3)) (ps : List Nat)
    (src : Option Nat) (x : Effect) : (j.defer r e a os ps src x).ringSaves = j.ringSaves := rfl
@[simp] theorem Job.defer_sems (j : Job) (r : Nat) (e : Eng) (a : Word) (os : Option (BitVec 3)) (ps : List Nat)
    (src : Option Nat) (x : Effect) : (j.defer r e a os ps src x).sems = j.sems := rfl
@[simp] theorem Job.defer_lq (j : Job) (r : Nat) (e : Eng) (a : Word) (os : Option (BitVec 3)) (ps : List Nat)
    (src : Option Nat) (x : Effect) : (j.defer r e a os ps src x).lq = j.lq := rfl
@[simp] theorem Job.defer_lqRow (j : Job) (r : Nat) (e : Eng) (a : Word) (os : Option (BitVec 3)) (ps : List Nat)
    (src : Option Nat) (x : Effect) : (j.defer r e a os ps src x).lqRow = j.lqRow := rfl
@[simp] theorem Job.defer_sq (j : Job) (r : Nat) (e : Eng) (a : Word) (os : Option (BitVec 3)) (ps : List Nat)
    (src : Option Nat) (x : Effect) : (j.defer r e a os ps src x).sq = j.sq := rfl
@[simp] theorem Job.defer_sqRow (j : Job) (r : Nat) (e : Eng) (a : Word) (os : Option (BitVec 3)) (ps : List Nat)
    (src : Option Nat) (x : Effect) : (j.defer r e a os ps src x).sqRow = j.sqRow := rfl
@[simp] theorem Job.defer_ac (j : Job) (r : Nat) (e : Eng) (a : Word) (os : Option (BitVec 3)) (ps : List Nat)
    (src : Option Nat) (x : Effect) : (j.defer r e a os ps src x).ac = j.ac := rfl
@[simp] theorem Job.defer_xc (j : Job) (r : Nat) (e : Eng) (a : Word) (os : Option (BitVec 3)) (ps : List Nat)
    (src : Option Nat) (x : Effect) : (j.defer r e a os ps src x).xc = j.xc := rfl
@[simp] theorem Job.defer_vec (j : Job) (r : Nat) (e : Eng) (a : Word) (os : Option (BitVec 3)) (ps : List Nat)
    (src : Option Nat) (x : Effect) : (j.defer r e a os ps src x).vec = j.vec := rfl
@[simp] theorem Job.defer_async (j : Job) (r : Nat) (e : Eng) (a : Word) (os : Option (BitVec 3)) (ps : List Nat)
    (src : Option Nat) (x : Effect) : (j.defer r e a os ps src x).async = j.async := rfl
@[simp] theorem Job.defer_me (j : Job) (r : Nat) (e : Eng) (a : Word) (os : Option (BitVec 3)) (ps : List Nat)
    (src : Option Nat) (x : Effect) : (j.defer r e a os ps src x).me = j.me := rfl
@[simp] theorem Job.defer_ce0 (j : Job) (r : Nat) (e : Eng) (a : Word) (os : Option (BitVec 3)) (ps : List Nat)
    (src : Option Nat) (x : Effect) : (j.defer r e a os ps src x).ce0 = j.ce0 := rfl
@[simp] theorem Job.defer_ce1 (j : Job) (r : Nat) (e : Eng) (a : Word) (os : Option (BitVec 3)) (ps : List Nat)
    (src : Option Nat) (x : Effect) : (j.defer r e a os ps src x).ce1 = j.ce1 := rfl
@[simp] theorem Job.defer_crews (j : Job) (r : Nat) (e : Eng) (a : Word) (os : Option (BitVec 3)) (ps : List Nat)
    (src : Option Nat) (x : Effect) : (j.defer r e a os ps src x).crews = j.crews := rfl
@[simp] theorem Job.defer_results (j : Job) (r : Nat) (e : Eng) (a : Word) (os : Option (BitVec 3)) (ps : List Nat)
    (src : Option Nat) (x : Effect) : (j.defer r e a os ps src x).results = j.results := rfl
@[simp] theorem Job.defer_traps (j : Job) (r : Nat) (e : Eng) (a : Word) (os : Option (BitVec 3)) (ps : List Nat)
    (src : Option Nat) (x : Effect) : (j.defer r e a os ps src x).traps = j.traps := rfl
@[simp] theorem Job.defer_held (j : Job) (r : Nat) (e : Eng) (a : Word) (os : Option (BitVec 3)) (ps : List Nat)
    (src : Option Nat) (x : Effect) : (j.defer r e a os ps src x).held = j.held := rfl
@[simp] theorem Job.defer_eretOf (j : Job) (r : Nat) (e : Eng) (a : Word) (os : Option (BitVec 3)) (ps : List Nat)
    (src : Option Nat) (x : Effect) : (j.defer r e a os ps src x).eretOf = j.eretOf := rfl
@[simp] theorem Job.defer_eretAt (j : Job) (r : Nat) (e : Eng) (a : Word) (os : Option (BitVec 3)) (ps : List Nat)
    (src : Option Nat) (x : Effect) : (j.defer r e a os ps src x).eretAt = j.eretAt := rfl
@[simp] theorem Job.defer_eretRead (j : Job) (r : Nat) (e : Eng) (a : Word) (os : Option (BitVec 3)) (ps : List Nat)
    (src : Option Nat) (x : Effect) : (j.defer r e a os ps src x).eretRead = j.eretRead := rfl
@[simp] theorem Job.defer_osNums (j : Job) (r : Nat) (e : Eng) (a : Word) (os : Option (BitVec 3)) (ps : List Nat)
    (src : Option Nat) (x : Effect) : (j.defer r e a os ps src x).osNums = j.osNums := rfl
@[simp] theorem Job.defer_osErr (j : Job) (r : Nat) (e : Eng) (a : Word) (os : Option (BitVec 3)) (ps : List Nat)
    (src : Option Nat) (x : Effect) : (j.defer r e a os ps src x).osErr = j.osErr := rfl
@[simp] theorem Job.defer_inUse (j : Job) (r : Nat) (e : Eng) (a : Word) (os : Option (BitVec 3)) (ps : List Nat)
    (src : Option Nat) (x : Effect) : (j.defer r e a os ps src x).inUse = j.inUse := rfl
@[simp] theorem Job.defer_dirty (j : Job) (r : Nat) (e : Eng) (a : Word) (os : Option (BitVec 3)) (ps : List Nat)
    (src : Option Nat) (x : Effect) : (j.defer r e a os ps src x).dirty = j.dirty := rfl
@[simp] theorem Job.defer_progress (j : Job) (r : Nat) (e : Eng) (a : Word) (os : Option (BitVec 3)) (ps : List Nat)
    (src : Option Nat) (x : Effect) : (j.defer r e a os ps src x).progress = j.progress := rfl
@[simp] theorem Job.defer_readySince (j : Job) (r : Nat) (e : Eng) (a : Word) (os : Option (BitVec 3)) (ps : List Nat)
    (src : Option Nat) (x : Effect) : (j.defer r e a os ps src x).readySince = j.readySince := rfl
@[simp] theorem Job.defer_fitSince (j : Job) (r : Nat) (e : Eng) (a : Word) (os : Option (BitVec 3)) (ps : List Nat)
    (src : Option Nat) (x : Effect) : (j.defer r e a os ps src x).fitSince = j.fitSince := rfl
@[simp] theorem Job.semTake_uid (j : Job) (q : BitVec 6) (r : Nat) (b : Bool) : (j.semTake q r b).uid = j.uid := rfl
@[simp] theorem Job.semTake_ctx (j : Job) (q : BitVec 6) (r : Nat) (b : Bool) : (j.semTake q r b).ctx = j.ctx := rfl
@[simp] theorem Job.semTake_qrec (j : Job) (q : BitVec 6) (r : Nat) (b : Bool) : (j.semTake q r b).qrec = j.qrec := rfl
@[simp] theorem Job.semTake_hdr (j : Job) (q : BitVec 6) (r : Nat) (b : Bool) : (j.semTake q r b).hdr = j.hdr := rfl
@[simp] theorem Job.semTake_trip (j : Job) (q : BitVec 6) (r : Nat) (b : Bool) : (j.semTake q r b).trip = j.trip := rfl
@[simp] theorem Job.semTake_prio (j : Job) (q : BitVec 6) (r : Nat) (b : Bool) : (j.semTake q r b).prio = j.prio := rfl
@[simp] theorem Job.semTake_committed (j : Job) (q : BitVec 6) (r : Nat) (b : Bool) : (j.semTake q r b).committed = j.committed := rfl
@[simp] theorem Job.semTake_decisions (j : Job) (q : BitVec 6) (r : Nat) (b : Bool) : (j.semTake q r b).decisions = j.decisions := rfl
@[simp] theorem Job.semTake_mem (j : Job) (q : BitVec 6) (r : Nat) (b : Bool) : (j.semTake q r b).mem = j.mem := rfl
@[simp] theorem Job.semTake_marks (j : Job) (q : BitVec 6) (r : Nat) (b : Bool) : (j.semTake q r b).marks = j.marks := rfl
@[simp] theorem Job.semTake_tags (j : Job) (q : BitVec 6) (r : Nat) (b : Bool) : (j.semTake q r b).tags = j.tags := rfl
@[simp] theorem Job.semTake_posts (j : Job) (q : BitVec 6) (r : Nat) (b : Bool) : (j.semTake q r b).posts = j.posts := rfl
@[simp] theorem Job.semTake_tagSaves (j : Job) (q : BitVec 6) (r : Nat) (b : Bool) : (j.semTake q r b).tagSaves = j.tagSaves := rfl
@[simp] theorem Job.semTake_copySaves (j : Job) (q : BitVec 6) (r : Nat) (b : Bool) : (j.semTake q r b).copySaves = j.copySaves := rfl
@[simp] theorem Job.semTake_markSaves (j : Job) (q : BitVec 6) (r : Nat) (b : Bool) : (j.semTake q r b).markSaves = j.markSaves := rfl
@[simp] theorem Job.semTake_rings (j : Job) (q : BitVec 6) (r : Nat) (b : Bool) : (j.semTake q r b).rings = j.rings := rfl
@[simp] theorem Job.semTake_ringSaves (j : Job) (q : BitVec 6) (r : Nat) (b : Bool) : (j.semTake q r b).ringSaves = j.ringSaves := rfl
@[simp] theorem Job.semTake_lq (j : Job) (q : BitVec 6) (r : Nat) (b : Bool) : (j.semTake q r b).lq = j.lq := rfl
@[simp] theorem Job.semTake_lqRow (j : Job) (q : BitVec 6) (r : Nat) (b : Bool) : (j.semTake q r b).lqRow = j.lqRow := rfl
@[simp] theorem Job.semTake_sq (j : Job) (q : BitVec 6) (r : Nat) (b : Bool) : (j.semTake q r b).sq = j.sq := rfl
@[simp] theorem Job.semTake_sqRow (j : Job) (q : BitVec 6) (r : Nat) (b : Bool) : (j.semTake q r b).sqRow = j.sqRow := rfl
@[simp] theorem Job.semTake_ac (j : Job) (q : BitVec 6) (r : Nat) (b : Bool) : (j.semTake q r b).ac = j.ac := rfl
@[simp] theorem Job.semTake_xc (j : Job) (q : BitVec 6) (r : Nat) (b : Bool) : (j.semTake q r b).xc = j.xc := rfl
@[simp] theorem Job.semTake_vec (j : Job) (q : BitVec 6) (r : Nat) (b : Bool) : (j.semTake q r b).vec = j.vec := rfl
@[simp] theorem Job.semTake_me (j : Job) (q : BitVec 6) (r : Nat) (b : Bool) : (j.semTake q r b).me = j.me := rfl
@[simp] theorem Job.semTake_ce0 (j : Job) (q : BitVec 6) (r : Nat) (b : Bool) : (j.semTake q r b).ce0 = j.ce0 := rfl
@[simp] theorem Job.semTake_ce1 (j : Job) (q : BitVec 6) (r : Nat) (b : Bool) : (j.semTake q r b).ce1 = j.ce1 := rfl
@[simp] theorem Job.semTake_deferred (j : Job) (q : BitVec 6) (r : Nat) (b : Bool) : (j.semTake q r b).deferred = j.deferred := rfl
@[simp] theorem Job.semTake_crews (j : Job) (q : BitVec 6) (r : Nat) (b : Bool) : (j.semTake q r b).crews = j.crews := rfl
@[simp] theorem Job.semTake_results (j : Job) (q : BitVec 6) (r : Nat) (b : Bool) : (j.semTake q r b).results = j.results := rfl
@[simp] theorem Job.semTake_traps (j : Job) (q : BitVec 6) (r : Nat) (b : Bool) : (j.semTake q r b).traps = j.traps := rfl
@[simp] theorem Job.semTake_held (j : Job) (q : BitVec 6) (r : Nat) (b : Bool) : (j.semTake q r b).held = j.held := rfl
@[simp] theorem Job.semTake_eretOf (j : Job) (q : BitVec 6) (r : Nat) (b : Bool) : (j.semTake q r b).eretOf = j.eretOf := rfl
@[simp] theorem Job.semTake_eretAt (j : Job) (q : BitVec 6) (r : Nat) (b : Bool) : (j.semTake q r b).eretAt = j.eretAt := rfl
@[simp] theorem Job.semTake_eretRead (j : Job) (q : BitVec 6) (r : Nat) (b : Bool) : (j.semTake q r b).eretRead = j.eretRead := rfl
@[simp] theorem Job.semTake_osNums (j : Job) (q : BitVec 6) (r : Nat) (b : Bool) : (j.semTake q r b).osNums = j.osNums := rfl
@[simp] theorem Job.semTake_osErr (j : Job) (q : BitVec 6) (r : Nat) (b : Bool) : (j.semTake q r b).osErr = j.osErr := rfl
@[simp] theorem Job.semTake_inUse (j : Job) (q : BitVec 6) (r : Nat) (b : Bool) : (j.semTake q r b).inUse = j.inUse := rfl
@[simp] theorem Job.semTake_dirty (j : Job) (q : BitVec 6) (r : Nat) (b : Bool) : (j.semTake q r b).dirty = j.dirty := rfl
@[simp] theorem Job.semTake_progress (j : Job) (q : BitVec 6) (r : Nat) (b : Bool) : (j.semTake q r b).progress = j.progress := rfl
@[simp] theorem Job.semTake_readySince (j : Job) (q : BitVec 6) (r : Nat) (b : Bool) : (j.semTake q r b).readySince = j.readySince := rfl
@[simp] theorem Job.semTake_fitSince (j : Job) (q : BitVec 6) (r : Nat) (b : Bool) : (j.semTake q r b).fitSince = j.fitSince := rfl
@[simp] theorem Job.takeNum_uid (j : Job) (k : Core) (os : BitVec 3) : (j.takeNum k os).uid = j.uid := rfl
@[simp] theorem Job.takeNum_ctx (j : Job) (k : Core) (os : BitVec 3) : (j.takeNum k os).ctx = j.ctx := rfl
@[simp] theorem Job.takeNum_qrec (j : Job) (k : Core) (os : BitVec 3) : (j.takeNum k os).qrec = j.qrec := rfl
@[simp] theorem Job.takeNum_hdr (j : Job) (k : Core) (os : BitVec 3) : (j.takeNum k os).hdr = j.hdr := rfl
@[simp] theorem Job.takeNum_trip (j : Job) (k : Core) (os : BitVec 3) : (j.takeNum k os).trip = j.trip := rfl
@[simp] theorem Job.takeNum_prio (j : Job) (k : Core) (os : BitVec 3) : (j.takeNum k os).prio = j.prio := rfl
@[simp] theorem Job.takeNum_committed (j : Job) (k : Core) (os : BitVec 3) : (j.takeNum k os).committed = j.committed := rfl
@[simp] theorem Job.takeNum_decisions (j : Job) (k : Core) (os : BitVec 3) : (j.takeNum k os).decisions = j.decisions := rfl
@[simp] theorem Job.takeNum_mem (j : Job) (k : Core) (os : BitVec 3) : (j.takeNum k os).mem = j.mem := rfl
@[simp] theorem Job.takeNum_marks (j : Job) (k : Core) (os : BitVec 3) : (j.takeNum k os).marks = j.marks := rfl
@[simp] theorem Job.takeNum_tags (j : Job) (k : Core) (os : BitVec 3) : (j.takeNum k os).tags = j.tags := rfl
@[simp] theorem Job.takeNum_posts (j : Job) (k : Core) (os : BitVec 3) : (j.takeNum k os).posts = j.posts := rfl
@[simp] theorem Job.takeNum_tagSaves (j : Job) (k : Core) (os : BitVec 3) : (j.takeNum k os).tagSaves = j.tagSaves := rfl
@[simp] theorem Job.takeNum_copySaves (j : Job) (k : Core) (os : BitVec 3) : (j.takeNum k os).copySaves = j.copySaves := rfl
@[simp] theorem Job.takeNum_markSaves (j : Job) (k : Core) (os : BitVec 3) : (j.takeNum k os).markSaves = j.markSaves := rfl
@[simp] theorem Job.takeNum_rings (j : Job) (k : Core) (os : BitVec 3) : (j.takeNum k os).rings = j.rings := rfl
@[simp] theorem Job.takeNum_ringSaves (j : Job) (k : Core) (os : BitVec 3) : (j.takeNum k os).ringSaves = j.ringSaves := rfl
@[simp] theorem Job.takeNum_sems (j : Job) (k : Core) (os : BitVec 3) : (j.takeNum k os).sems = j.sems := rfl
@[simp] theorem Job.takeNum_lq (j : Job) (k : Core) (os : BitVec 3) : (j.takeNum k os).lq = j.lq := rfl
@[simp] theorem Job.takeNum_lqRow (j : Job) (k : Core) (os : BitVec 3) : (j.takeNum k os).lqRow = j.lqRow := rfl
@[simp] theorem Job.takeNum_sq (j : Job) (k : Core) (os : BitVec 3) : (j.takeNum k os).sq = j.sq := rfl
@[simp] theorem Job.takeNum_sqRow (j : Job) (k : Core) (os : BitVec 3) : (j.takeNum k os).sqRow = j.sqRow := rfl
@[simp] theorem Job.takeNum_ac (j : Job) (k : Core) (os : BitVec 3) : (j.takeNum k os).ac = j.ac := rfl
@[simp] theorem Job.takeNum_xc (j : Job) (k : Core) (os : BitVec 3) : (j.takeNum k os).xc = j.xc := rfl
@[simp] theorem Job.takeNum_vec (j : Job) (k : Core) (os : BitVec 3) : (j.takeNum k os).vec = j.vec := rfl
@[simp] theorem Job.takeNum_async (j : Job) (k : Core) (os : BitVec 3) : (j.takeNum k os).async = j.async := rfl
@[simp] theorem Job.takeNum_me (j : Job) (k : Core) (os : BitVec 3) : (j.takeNum k os).me = j.me := rfl
@[simp] theorem Job.takeNum_ce0 (j : Job) (k : Core) (os : BitVec 3) : (j.takeNum k os).ce0 = j.ce0 := rfl
@[simp] theorem Job.takeNum_ce1 (j : Job) (k : Core) (os : BitVec 3) : (j.takeNum k os).ce1 = j.ce1 := rfl
@[simp] theorem Job.takeNum_deferred (j : Job) (k : Core) (os : BitVec 3) : (j.takeNum k os).deferred = j.deferred := rfl
@[simp] theorem Job.takeNum_seq (j : Job) (k : Core) (os : BitVec 3) : (j.takeNum k os).seq = j.seq := rfl
@[simp] theorem Job.takeNum_crews (j : Job) (k : Core) (os : BitVec 3) : (j.takeNum k os).crews = j.crews := rfl
@[simp] theorem Job.takeNum_results (j : Job) (k : Core) (os : BitVec 3) : (j.takeNum k os).results = j.results := rfl
@[simp] theorem Job.takeNum_traps (j : Job) (k : Core) (os : BitVec 3) : (j.takeNum k os).traps = j.traps := rfl
@[simp] theorem Job.takeNum_held (j : Job) (k : Core) (os : BitVec 3) : (j.takeNum k os).held = j.held := rfl
@[simp] theorem Job.takeNum_eretOf (j : Job) (k : Core) (os : BitVec 3) : (j.takeNum k os).eretOf = j.eretOf := rfl
@[simp] theorem Job.takeNum_eretAt (j : Job) (k : Core) (os : BitVec 3) : (j.takeNum k os).eretAt = j.eretAt := rfl
@[simp] theorem Job.takeNum_eretRead (j : Job) (k : Core) (os : BitVec 3) : (j.takeNum k os).eretRead = j.eretRead := rfl
@[simp] theorem Job.takeNum_osErr (j : Job) (k : Core) (os : BitVec 3) : (j.takeNum k os).osErr = j.osErr := rfl
@[simp] theorem Job.takeNum_inUse (j : Job) (k : Core) (os : BitVec 3) : (j.takeNum k os).inUse = j.inUse := rfl
@[simp] theorem Job.takeNum_dirty (j : Job) (k : Core) (os : BitVec 3) : (j.takeNum k os).dirty = j.dirty := rfl
@[simp] theorem Job.takeNum_progress (j : Job) (k : Core) (os : BitVec 3) : (j.takeNum k os).progress = j.progress := rfl
@[simp] theorem Job.takeNum_readySince (j : Job) (k : Core) (os : BitVec 3) : (j.takeNum k os).readySince = j.readySince := rfl
@[simp] theorem Job.takeNum_fitSince (j : Job) (k : Core) (os : BitVec 3) : (j.takeNum k os).fitSince = j.fitSince := rfl
@[simp] theorem Job.touch_uid (j : Job) (k : Kept) : (j.touch k).uid = j.uid := rfl
@[simp] theorem Job.touch_ctx (j : Job) (k : Kept) : (j.touch k).ctx = j.ctx := rfl
@[simp] theorem Job.touch_qrec (j : Job) (k : Kept) : (j.touch k).qrec = j.qrec := rfl
@[simp] theorem Job.touch_hdr (j : Job) (k : Kept) : (j.touch k).hdr = j.hdr := rfl
@[simp] theorem Job.touch_trip (j : Job) (k : Kept) : (j.touch k).trip = j.trip := rfl
@[simp] theorem Job.touch_prio (j : Job) (k : Kept) : (j.touch k).prio = j.prio := rfl
@[simp] theorem Job.touch_committed (j : Job) (k : Kept) : (j.touch k).committed = j.committed := rfl
@[simp] theorem Job.touch_decisions (j : Job) (k : Kept) : (j.touch k).decisions = j.decisions := rfl
@[simp] theorem Job.touch_mem (j : Job) (k : Kept) : (j.touch k).mem = j.mem := rfl
@[simp] theorem Job.touch_marks (j : Job) (k : Kept) : (j.touch k).marks = j.marks := rfl
@[simp] theorem Job.touch_tags (j : Job) (k : Kept) : (j.touch k).tags = j.tags := rfl
@[simp] theorem Job.touch_posts (j : Job) (k : Kept) : (j.touch k).posts = j.posts := rfl
@[simp] theorem Job.touch_tagSaves (j : Job) (k : Kept) : (j.touch k).tagSaves = j.tagSaves := rfl
@[simp] theorem Job.touch_copySaves (j : Job) (k : Kept) : (j.touch k).copySaves = j.copySaves := rfl
@[simp] theorem Job.touch_markSaves (j : Job) (k : Kept) : (j.touch k).markSaves = j.markSaves := rfl
@[simp] theorem Job.touch_rings (j : Job) (k : Kept) : (j.touch k).rings = j.rings := rfl
@[simp] theorem Job.touch_ringSaves (j : Job) (k : Kept) : (j.touch k).ringSaves = j.ringSaves := rfl
@[simp] theorem Job.touch_sems (j : Job) (k : Kept) : (j.touch k).sems = j.sems := rfl
@[simp] theorem Job.touch_lq (j : Job) (k : Kept) : (j.touch k).lq = j.lq := rfl
@[simp] theorem Job.touch_lqRow (j : Job) (k : Kept) : (j.touch k).lqRow = j.lqRow := rfl
@[simp] theorem Job.touch_sq (j : Job) (k : Kept) : (j.touch k).sq = j.sq := rfl
@[simp] theorem Job.touch_sqRow (j : Job) (k : Kept) : (j.touch k).sqRow = j.sqRow := rfl
@[simp] theorem Job.touch_ac (j : Job) (k : Kept) : (j.touch k).ac = j.ac := rfl
@[simp] theorem Job.touch_xc (j : Job) (k : Kept) : (j.touch k).xc = j.xc := rfl
@[simp] theorem Job.touch_vec (j : Job) (k : Kept) : (j.touch k).vec = j.vec := rfl
@[simp] theorem Job.touch_async (j : Job) (k : Kept) : (j.touch k).async = j.async := rfl
@[simp] theorem Job.touch_me (j : Job) (k : Kept) : (j.touch k).me = j.me := rfl
@[simp] theorem Job.touch_ce0 (j : Job) (k : Kept) : (j.touch k).ce0 = j.ce0 := rfl
@[simp] theorem Job.touch_ce1 (j : Job) (k : Kept) : (j.touch k).ce1 = j.ce1 := rfl
@[simp] theorem Job.touch_deferred (j : Job) (k : Kept) : (j.touch k).deferred = j.deferred := rfl
@[simp] theorem Job.touch_seq (j : Job) (k : Kept) : (j.touch k).seq = j.seq := rfl
@[simp] theorem Job.touch_crews (j : Job) (k : Kept) : (j.touch k).crews = j.crews := rfl
@[simp] theorem Job.touch_results (j : Job) (k : Kept) : (j.touch k).results = j.results := rfl
@[simp] theorem Job.touch_traps (j : Job) (k : Kept) : (j.touch k).traps = j.traps := rfl
@[simp] theorem Job.touch_held (j : Job) (k : Kept) : (j.touch k).held = j.held := rfl
@[simp] theorem Job.touch_eretOf (j : Job) (k : Kept) : (j.touch k).eretOf = j.eretOf := rfl
@[simp] theorem Job.touch_eretAt (j : Job) (k : Kept) : (j.touch k).eretAt = j.eretAt := rfl
@[simp] theorem Job.touch_eretRead (j : Job) (k : Kept) : (j.touch k).eretRead = j.eretRead := rfl
@[simp] theorem Job.touch_osNums (j : Job) (k : Kept) : (j.touch k).osNums = j.osNums := rfl
@[simp] theorem Job.touch_osErr (j : Job) (k : Kept) : (j.touch k).osErr = j.osErr := rfl
@[simp] theorem Job.touch_progress (j : Job) (k : Kept) : (j.touch k).progress = j.progress := rfl
@[simp] theorem Job.touch_readySince (j : Job) (k : Kept) : (j.touch k).readySince = j.readySince := rfl
@[simp] theorem Job.touch_fitSince (j : Job) (k : Kept) : (j.touch k).fitSince = j.fitSince := rfl
@[simp] theorem Job.write_uid (j : Job) (a : Nat) (bs : List Byte) : (j.write a bs).uid = j.uid := rfl
@[simp] theorem Job.write_ctx (j : Job) (a : Nat) (bs : List Byte) : (j.write a bs).ctx = j.ctx := rfl
@[simp] theorem Job.write_qrec (j : Job) (a : Nat) (bs : List Byte) : (j.write a bs).qrec = j.qrec := rfl
@[simp] theorem Job.write_hdr (j : Job) (a : Nat) (bs : List Byte) : (j.write a bs).hdr = j.hdr := rfl
@[simp] theorem Job.write_trip (j : Job) (a : Nat) (bs : List Byte) : (j.write a bs).trip = j.trip := rfl
@[simp] theorem Job.write_prio (j : Job) (a : Nat) (bs : List Byte) : (j.write a bs).prio = j.prio := rfl
@[simp] theorem Job.write_committed (j : Job) (a : Nat) (bs : List Byte) : (j.write a bs).committed = j.committed := rfl
@[simp] theorem Job.write_decisions (j : Job) (a : Nat) (bs : List Byte) : (j.write a bs).decisions = j.decisions := rfl
@[simp] theorem Job.write_tags (j : Job) (a : Nat) (bs : List Byte) : (j.write a bs).tags = j.tags := rfl
@[simp] theorem Job.write_posts (j : Job) (a : Nat) (bs : List Byte) : (j.write a bs).posts = j.posts := rfl
@[simp] theorem Job.write_tagSaves (j : Job) (a : Nat) (bs : List Byte) : (j.write a bs).tagSaves = j.tagSaves := rfl
@[simp] theorem Job.write_copySaves (j : Job) (a : Nat) (bs : List Byte) : (j.write a bs).copySaves = j.copySaves := rfl
@[simp] theorem Job.write_markSaves (j : Job) (a : Nat) (bs : List Byte) : (j.write a bs).markSaves = j.markSaves := rfl
@[simp] theorem Job.write_rings (j : Job) (a : Nat) (bs : List Byte) : (j.write a bs).rings = j.rings := rfl
@[simp] theorem Job.write_ringSaves (j : Job) (a : Nat) (bs : List Byte) : (j.write a bs).ringSaves = j.ringSaves := rfl
@[simp] theorem Job.write_sems (j : Job) (a : Nat) (bs : List Byte) : (j.write a bs).sems = j.sems := rfl
@[simp] theorem Job.write_lq (j : Job) (a : Nat) (bs : List Byte) : (j.write a bs).lq = j.lq := rfl
@[simp] theorem Job.write_lqRow (j : Job) (a : Nat) (bs : List Byte) : (j.write a bs).lqRow = j.lqRow := rfl
@[simp] theorem Job.write_sq (j : Job) (a : Nat) (bs : List Byte) : (j.write a bs).sq = j.sq := rfl
@[simp] theorem Job.write_sqRow (j : Job) (a : Nat) (bs : List Byte) : (j.write a bs).sqRow = j.sqRow := rfl
@[simp] theorem Job.write_ac (j : Job) (a : Nat) (bs : List Byte) : (j.write a bs).ac = j.ac := rfl
@[simp] theorem Job.write_xc (j : Job) (a : Nat) (bs : List Byte) : (j.write a bs).xc = j.xc := rfl
@[simp] theorem Job.write_vec (j : Job) (a : Nat) (bs : List Byte) : (j.write a bs).vec = j.vec := rfl
@[simp] theorem Job.write_async (j : Job) (a : Nat) (bs : List Byte) : (j.write a bs).async = j.async := rfl
@[simp] theorem Job.write_me (j : Job) (a : Nat) (bs : List Byte) : (j.write a bs).me = j.me := rfl
@[simp] theorem Job.write_ce0 (j : Job) (a : Nat) (bs : List Byte) : (j.write a bs).ce0 = j.ce0 := rfl
@[simp] theorem Job.write_ce1 (j : Job) (a : Nat) (bs : List Byte) : (j.write a bs).ce1 = j.ce1 := rfl
@[simp] theorem Job.write_deferred (j : Job) (a : Nat) (bs : List Byte) : (j.write a bs).deferred = j.deferred := rfl
@[simp] theorem Job.write_seq (j : Job) (a : Nat) (bs : List Byte) : (j.write a bs).seq = j.seq := rfl
@[simp] theorem Job.write_crews (j : Job) (a : Nat) (bs : List Byte) : (j.write a bs).crews = j.crews := rfl
@[simp] theorem Job.write_results (j : Job) (a : Nat) (bs : List Byte) : (j.write a bs).results = j.results := rfl
@[simp] theorem Job.write_traps (j : Job) (a : Nat) (bs : List Byte) : (j.write a bs).traps = j.traps := rfl
@[simp] theorem Job.write_held (j : Job) (a : Nat) (bs : List Byte) : (j.write a bs).held = j.held := rfl
@[simp] theorem Job.write_eretOf (j : Job) (a : Nat) (bs : List Byte) : (j.write a bs).eretOf = j.eretOf := rfl
@[simp] theorem Job.write_eretAt (j : Job) (a : Nat) (bs : List Byte) : (j.write a bs).eretAt = j.eretAt := rfl
@[simp] theorem Job.write_eretRead (j : Job) (a : Nat) (bs : List Byte) : (j.write a bs).eretRead = j.eretRead := rfl
@[simp] theorem Job.write_osNums (j : Job) (a : Nat) (bs : List Byte) : (j.write a bs).osNums = j.osNums := rfl
@[simp] theorem Job.write_osErr (j : Job) (a : Nat) (bs : List Byte) : (j.write a bs).osErr = j.osErr := rfl
@[simp] theorem Job.write_inUse (j : Job) (a : Nat) (bs : List Byte) : (j.write a bs).inUse = j.inUse := rfl
@[simp] theorem Job.write_dirty (j : Job) (a : Nat) (bs : List Byte) : (j.write a bs).dirty = j.dirty := rfl
@[simp] theorem Job.write_progress (j : Job) (a : Nat) (bs : List Byte) : (j.write a bs).progress = j.progress := rfl
@[simp] theorem Job.write_readySince (j : Job) (a : Nat) (bs : List Byte) : (j.write a bs).readySince = j.readySince := rfl
@[simp] theorem Job.write_fitSince (j : Job) (a : Nat) (bs : List Byte) : (j.write a bs).fitSince = j.fitSince := rfl

/-! ## A core stream -/

@[simp] theorem CoreState.setReg_pc (c : CoreState) (n : BitVec 6) (v : PVal) : (c.setReg n v).pc = c.pc := by unfold CoreState.setReg; split <;> rfl
@[simp] theorem CoreState.setReg_live (c : CoreState) (n : BitVec 6) (v : PVal) : (c.setReg n v).live = c.live := by unfold CoreState.setReg; split <;> rfl
@[simp] theorem CoreState.setReg_region (c : CoreState) (n : BitVec 6) (v : PVal) : (c.setReg n v).region = c.region := by unfold CoreState.setReg; split <;> rfl
@[simp] theorem CoreState.setReg_busy (c : CoreState) (n : BitVec 6) (v : PVal) : (c.setReg n v).busy = c.busy := by unfold CoreState.setReg; split <;> rfl
@[simp] theorem CoreState.setReg_kps (c : CoreState) (n : BitVec 6) (v : PVal) : (c.setReg n v).kps = c.kps := by unfold CoreState.setReg; split <;> rfl
@[simp] theorem CoreState.setReg_nmctl (c : CoreState) (n : BitVec 6) (v : PVal) : (c.setReg n v).nmctl = c.nmctl := by unfold CoreState.setReg; split <;> rfl
@[simp] theorem CoreState.setReg_srs (c : CoreState) (n : BitVec 6) (v : PVal) : (c.setReg n v).srs = c.srs := by unfold CoreState.setReg; split <;> rfl
@[simp] theorem CoreState.setReg_rrb (c : CoreState) (n : BitVec 6) (v : PVal) : (c.setReg n v).rrb = c.rrb := by unfold CoreState.setReg; split <;> rfl
@[simp] theorem CoreState.setReg_calls (c : CoreState) (n : BitVec 6) (v : PVal) : (c.setReg n v).calls = c.calls := by unfold CoreState.setReg; split <;> rfl
@[simp] theorem CoreState.setReg_spilling (c : CoreState) (n : BitVec 6) (v : PVal) : (c.setReg n v).spilling = c.spilling := by unfold CoreState.setReg; split <;> rfl
@[simp] theorem CoreState.setReg_loops (c : CoreState) (n : BitVec 6) (v : PVal) : (c.setReg n v).loops = c.loops := by unfold CoreState.setReg; split <;> rfl
@[simp] theorem CoreState.setReg_rdv (c : CoreState) (n : BitVec 6) (v : PVal) : (c.setReg n v).rdv = c.rdv := by unfold CoreState.setReg; split <;> rfl
@[simp] theorem CoreState.setReg_wait (c : CoreState) (n : BitVec 6) (v : PVal) : (c.setReg n v).wait = c.wait := by unfold CoreState.setReg; split <;> rfl
@[simp] theorem CoreState.setReg_syncTaken (c : CoreState) (n : BitVec 6) (v : PVal) : (c.setReg n v).syncTaken = c.syncTaken := by unfold CoreState.setReg; split <;> rfl
@[simp] theorem CoreState.setReg_granted (c : CoreState) (n : BitVec 6) (v : PVal) : (c.setReg n v).granted = c.granted := by unfold CoreState.setReg; split <;> rfl
@[simp] theorem CoreState.setReg_latch (c : CoreState) (n : BitVec 6) (v : PVal) : (c.setReg n v).latch = c.latch := by unfold CoreState.setReg; split <;> rfl
@[simp] theorem CoreState.setReg_part (c : CoreState) (n : BitVec 6) (v : PVal) : (c.setReg n v).part = c.part := by unfold CoreState.setReg; split <;> rfl
@[simp] theorem CoreState.setReg_rows (c : CoreState) (n : BitVec 6) (v : PVal) : (c.setReg n v).rows = c.rows := by unfold CoreState.setReg; split <;> rfl
@[simp] theorem CoreState.setReg_started (c : CoreState) (n : BitVec 6) (v : PVal) : (c.setReg n v).started = c.started := by unfold CoreState.setReg; split <;> rfl
@[simp] theorem CoreState.setReg_saves (c : CoreState) (n : BitVec 6) (v : PVal) : (c.setReg n v).saves = c.saves := by unfold CoreState.setReg; split <;> rfl
@[simp] theorem CoreState.clear_pc (c : CoreState) : (c.clear).pc = c.pc := rfl
@[simp] theorem CoreState.clear_live (c : CoreState) : (c.clear).live = c.live := rfl
@[simp] theorem CoreState.clear_region (c : CoreState) : (c.clear).region = c.region := rfl
@[simp] theorem CoreState.clear_regs (c : CoreState) : (c.clear).regs = c.regs := rfl
@[simp] theorem CoreState.clear_busy (c : CoreState) : (c.clear).busy = c.busy := rfl
@[simp] theorem CoreState.clear_kps (c : CoreState) : (c.clear).kps = c.kps := rfl
@[simp] theorem CoreState.clear_nmctl (c : CoreState) : (c.clear).nmctl = c.nmctl := rfl
@[simp] theorem CoreState.clear_srs (c : CoreState) : (c.clear).srs = c.srs := rfl
@[simp] theorem CoreState.clear_rrb (c : CoreState) : (c.clear).rrb = c.rrb := rfl
@[simp] theorem CoreState.clear_calls (c : CoreState) : (c.clear).calls = c.calls := rfl
@[simp] theorem CoreState.clear_spilling (c : CoreState) : (c.clear).spilling = c.spilling := rfl
@[simp] theorem CoreState.clear_loops (c : CoreState) : (c.clear).loops = c.loops := rfl
@[simp] theorem CoreState.clear_rdv (c : CoreState) : (c.clear).rdv = c.rdv := rfl
@[simp] theorem CoreState.clear_started (c : CoreState) : (c.clear).started = c.started := rfl
@[simp] theorem CoreState.clear_saves (c : CoreState) : (c.clear).saves = c.saves := rfl
@[simp] theorem CoreState.passWord_live (c : CoreState) (e : Word) : (c.passWord e).live = c.live := rfl
@[simp] theorem CoreState.passWord_region (c : CoreState) (e : Word) : (c.passWord e).region = c.region := rfl
@[simp] theorem CoreState.passWord_regs (c : CoreState) (e : Word) : (c.passWord e).regs = c.regs := rfl
@[simp] theorem CoreState.passWord_busy (c : CoreState) (e : Word) : (c.passWord e).busy = c.busy := rfl
@[simp] theorem CoreState.passWord_kps (c : CoreState) (e : Word) : (c.passWord e).kps = c.kps := rfl
@[simp] theorem CoreState.passWord_nmctl (c : CoreState) (e : Word) : (c.passWord e).nmctl = c.nmctl := rfl
@[simp] theorem CoreState.passWord_srs (c : CoreState) (e : Word) : (c.passWord e).srs = c.srs := rfl
@[simp] theorem CoreState.passWord_rrb (c : CoreState) (e : Word) : (c.passWord e).rrb = c.rrb := rfl
@[simp] theorem CoreState.passWord_calls (c : CoreState) (e : Word) : (c.passWord e).calls = c.calls := rfl
@[simp] theorem CoreState.passWord_spilling (c : CoreState) (e : Word) : (c.passWord e).spilling = c.spilling := rfl
@[simp] theorem CoreState.passWord_rdv (c : CoreState) (e : Word) : (c.passWord e).rdv = c.rdv := rfl
@[simp] theorem CoreState.passWord_started (c : CoreState) (e : Word) : (c.passWord e).started = c.started := rfl
@[simp] theorem CoreState.passWord_saves (c : CoreState) (e : Word) : (c.passWord e).saves = c.saves := rfl
@[simp] theorem CoreState.jumpTo_live (c : CoreState) (t : Word) : (c.jumpTo t).live = c.live := rfl
@[simp] theorem CoreState.jumpTo_region (c : CoreState) (t : Word) : (c.jumpTo t).region = c.region := rfl
@[simp] theorem CoreState.jumpTo_regs (c : CoreState) (t : Word) : (c.jumpTo t).regs = c.regs := rfl
@[simp] theorem CoreState.jumpTo_busy (c : CoreState) (t : Word) : (c.jumpTo t).busy = c.busy := rfl
@[simp] theorem CoreState.jumpTo_kps (c : CoreState) (t : Word) : (c.jumpTo t).kps = c.kps := rfl
@[simp] theorem CoreState.jumpTo_nmctl (c : CoreState) (t : Word) : (c.jumpTo t).nmctl = c.nmctl := rfl
@[simp] theorem CoreState.jumpTo_srs (c : CoreState) (t : Word) : (c.jumpTo t).srs = c.srs := rfl
@[simp] theorem CoreState.jumpTo_rrb (c : CoreState) (t : Word) : (c.jumpTo t).rrb = c.rrb := rfl
@[simp] theorem CoreState.jumpTo_calls (c : CoreState) (t : Word) : (c.jumpTo t).calls = c.calls := rfl
@[simp] theorem CoreState.jumpTo_spilling (c : CoreState) (t : Word) : (c.jumpTo t).spilling = c.spilling := rfl
@[simp] theorem CoreState.jumpTo_rdv (c : CoreState) (t : Word) : (c.jumpTo t).rdv = c.rdv := rfl
@[simp] theorem CoreState.jumpTo_started (c : CoreState) (t : Word) : (c.jumpTo t).started = c.started := rfl
@[simp] theorem CoreState.jumpTo_saves (c : CoreState) (t : Word) : (c.jumpTo t).saves = c.saves := rfl
@[simp] theorem CoreState.clear_wait (c : CoreState) : c.clear.wait = none := rfl
@[simp] theorem CoreState.passWord_wait (c : CoreState) (e : Word) : (c.passWord e).wait = none := rfl
@[simp] theorem CoreState.clear_syncTaken (c : CoreState) : c.clear.syncTaken = false := rfl
@[simp] theorem CoreState.passWord_syncTaken (c : CoreState) (e : Word) : (c.passWord e).syncTaken = false := rfl
@[simp] theorem CoreState.clear_granted (c : CoreState) : c.clear.granted = false := rfl
@[simp] theorem CoreState.passWord_granted (c : CoreState) (e : Word) : (c.passWord e).granted = false := rfl
@[simp] theorem CoreState.clear_latch (c : CoreState) : c.clear.latch = [] := rfl
@[simp] theorem CoreState.passWord_latch (c : CoreState) (e : Word) : (c.passWord e).latch = [] := rfl
@[simp] theorem CoreState.clear_part (c : CoreState) : c.clear.part = 0 := rfl
@[simp] theorem CoreState.passWord_part (c : CoreState) (e : Word) : (c.passWord e).part = 0 := rfl
@[simp] theorem CoreState.clear_rows (c : CoreState) : c.clear.rows = [] := rfl
@[simp] theorem CoreState.passWord_rows (c : CoreState) (e : Word) : (c.passWord e).rows = [] := rfl
@[simp] theorem CoreState.jumpTo_pc (c : CoreState) (t : Word) : (c.jumpTo t).pc = t := rfl
@[simp] theorem CoreState.passWord_pc (c : CoreState) (e : Word) :
    (c.passWord e).pc = (endCheck e c.calls.length c.loops).1 := rfl
@[simp] theorem CoreState.passWord_loops (c : CoreState) (e : Word) :
    (c.passWord e).loops = (endCheck e c.calls.length c.loops).2 := rfl

/-! ## A running core -/

@[simp] theorem Here.setSt_s (h : Here) (x : CoreState) : (h.setSt x).s = h.s := rfl
@[simp] theorem Here.setSt_id (h : Here) (x : CoreState) : (h.setSt x).id = h.id := rfl
@[simp] theorem Here.setSt_k (h : Here) (x : CoreState) : (h.setSt x).k = h.k := rfl
@[simp] theorem Here.setSt_pk (h : Here) (x : CoreState) : (h.setSt x).pk = h.pk := rfl
@[simp] theorem Here.setSt_ce (h : Here) (x : CoreState) : (h.setSt x).ce = h.ce := rfl
@[simp] theorem Here.setSt_bad (h : Here) (x : CoreState) : (h.setSt x).bad = h.bad := rfl
@[simp] theorem Here.modSt_s (h : Here) (f : CoreState → CoreState) : (h.modSt f).s = h.s := rfl
@[simp] theorem Here.modSt_id (h : Here) (f : CoreState → CoreState) : (h.modSt f).id = h.id := rfl
@[simp] theorem Here.modSt_k (h : Here) (f : CoreState → CoreState) : (h.modSt f).k = h.k := rfl
@[simp] theorem Here.modSt_pk (h : Here) (f : CoreState → CoreState) : (h.modSt f).pk = h.pk := rfl
@[simp] theorem Here.modSt_ce (h : Here) (f : CoreState → CoreState) : (h.modSt f).ce = h.ce := rfl
@[simp] theorem Here.modSt_bad (h : Here) (f : CoreState → CoreState) : (h.modSt f).bad = h.bad := rfl
@[simp] theorem Here.block_s (h : Here) (w : Wait) : (h.block w).s = h.s := rfl
@[simp] theorem Here.block_id (h : Here) (w : Wait) : (h.block w).id = h.id := rfl
@[simp] theorem Here.block_k (h : Here) (w : Wait) : (h.block w).k = h.k := rfl
@[simp] theorem Here.block_pk (h : Here) (w : Wait) : (h.block w).pk = h.pk := rfl
@[simp] theorem Here.block_ce (h : Here) (w : Wait) : (h.block w).ce = h.ce := rfl
@[simp] theorem Here.block_bad (h : Here) (w : Wait) : (h.block w).bad = h.bad := rfl
@[simp] theorem Here.raise_s (h : Here) (t : Trap) : (h.raise t).s = h.s := rfl
@[simp] theorem Here.raise_id (h : Here) (t : Trap) : (h.raise t).id = h.id := rfl
@[simp] theorem Here.raise_k (h : Here) (t : Trap) : (h.raise t).k = h.k := rfl
@[simp] theorem Here.raise_pk (h : Here) (t : Trap) : (h.raise t).pk = h.pk := rfl
@[simp] theorem Here.raise_ce (h : Here) (t : Trap) : (h.raise t).ce = h.ce := rfl
@[simp] theorem Here.raise_bad (h : Here) (t : Trap) : (h.raise t).bad = h.bad := rfl
@[simp] theorem Here.note_s (h : Here) : (h.note).s = h.s := rfl
@[simp] theorem Here.note_id (h : Here) : (h.note).id = h.id := rfl
@[simp] theorem Here.note_k (h : Here) : (h.note).k = h.k := rfl
@[simp] theorem Here.note_pk (h : Here) : (h.note).pk = h.pk := rfl
@[simp] theorem Here.note_ce (h : Here) : (h.note).ce = h.ce := rfl
@[simp] theorem Here.note_bad (h : Here) : (h.note).bad = h.bad := rfl
@[simp] theorem Here.pass_s (h : Here) : (h.pass).s = h.s := rfl
@[simp] theorem Here.pass_id (h : Here) : (h.pass).id = h.id := rfl
@[simp] theorem Here.pass_k (h : Here) : (h.pass).k = h.k := rfl
@[simp] theorem Here.pass_pk (h : Here) : (h.pass).pk = h.pk := rfl
@[simp] theorem Here.pass_ce (h : Here) : (h.pass).ce = h.ce := rfl
@[simp] theorem Here.pass_bad (h : Here) : (h.pass).bad = h.bad := rfl
@[simp] theorem Here.syncPost_s (h : Here) (sy : Sync) (ps : List Nat) (src : Option Nat) : (h.syncPost sy ps src).s = h.s := by unfold Here.syncPost; split <;> rfl
@[simp] theorem Here.syncPost_id (h : Here) (sy : Sync) (ps : List Nat) (src : Option Nat) : (h.syncPost sy ps src).id = h.id := by unfold Here.syncPost; split <;> rfl
@[simp] theorem Here.syncPost_k (h : Here) (sy : Sync) (ps : List Nat) (src : Option Nat) : (h.syncPost sy ps src).k = h.k := by unfold Here.syncPost; split <;> rfl
@[simp] theorem Here.syncPost_pk (h : Here) (sy : Sync) (ps : List Nat) (src : Option Nat) : (h.syncPost sy ps src).pk = h.pk := by unfold Here.syncPost; split <;> rfl
@[simp] theorem Here.syncPost_ce (h : Here) (sy : Sync) (ps : List Nat) (src : Option Nat) : (h.syncPost sy ps src).ce = h.ce := by unfold Here.syncPost; split <;> rfl
@[simp] theorem Here.syncPost_bad (h : Here) (sy : Sync) (ps : List Nat) (src : Option Nat) : (h.syncPost sy ps src).bad = h.bad := by unfold Here.syncPost; split <;> rfl
@[simp] theorem Here.complete_s (h : Here) (sy : Sync) (ps : List Nat) (f : CoreState → CoreState) : (h.complete sy ps f).s = h.s := by simp [Here.complete]
@[simp] theorem Here.complete_id (h : Here) (sy : Sync) (ps : List Nat) (f : CoreState → CoreState) : (h.complete sy ps f).id = h.id := by simp [Here.complete]
@[simp] theorem Here.complete_k (h : Here) (sy : Sync) (ps : List Nat) (f : CoreState → CoreState) : (h.complete sy ps f).k = h.k := by simp [Here.complete]
@[simp] theorem Here.complete_pk (h : Here) (sy : Sync) (ps : List Nat) (f : CoreState → CoreState) : (h.complete sy ps f).pk = h.pk := by simp [Here.complete]
@[simp] theorem Here.complete_ce (h : Here) (sy : Sync) (ps : List Nat) (f : CoreState → CoreState) : (h.complete sy ps f).ce = h.ce := by simp [Here.complete]
@[simp] theorem Here.complete_bad (h : Here) (sy : Sync) (ps : List Nat) (f : CoreState → CoreState) : (h.complete sy ps f).bad = h.bad := by simp [Here.complete]
@[simp] theorem Here.retire_s (h : Here) (sy : Sync) (ps : List Nat) : (h.retire sy ps).s = h.s := by simp [Here.retire]
@[simp] theorem Here.retire_id (h : Here) (sy : Sync) (ps : List Nat) : (h.retire sy ps).id = h.id := by simp [Here.retire]
@[simp] theorem Here.retire_k (h : Here) (sy : Sync) (ps : List Nat) : (h.retire sy ps).k = h.k := by simp [Here.retire]
@[simp] theorem Here.retire_pk (h : Here) (sy : Sync) (ps : List Nat) : (h.retire sy ps).pk = h.pk := by simp [Here.retire]
@[simp] theorem Here.retire_ce (h : Here) (sy : Sync) (ps : List Nat) : (h.retire sy ps).ce = h.ce := by simp [Here.retire]
@[simp] theorem Here.retire_bad (h : Here) (sy : Sync) (ps : List Nat) : (h.retire sy ps).bad = h.bad := by simp [Here.retire]
@[simp] theorem Here.finish_s (h : Here) (sy : Sync) (ps : List Nat) : (h.finish sy ps).s = h.s := by simp [Here.finish]
@[simp] theorem Here.finish_id (h : Here) (sy : Sync) (ps : List Nat) : (h.finish sy ps).id = h.id := by simp [Here.finish]
@[simp] theorem Here.finish_k (h : Here) (sy : Sync) (ps : List Nat) : (h.finish sy ps).k = h.k := by simp [Here.finish]
@[simp] theorem Here.finish_pk (h : Here) (sy : Sync) (ps : List Nat) : (h.finish sy ps).pk = h.pk := by simp [Here.finish]
@[simp] theorem Here.finish_ce (h : Here) (sy : Sync) (ps : List Nat) : (h.finish sy ps).ce = h.ce := by simp [Here.finish]
@[simp] theorem Here.finish_bad (h : Here) (sy : Sync) (ps : List Nat) : (h.finish sy ps).bad = h.bad := by simp [Here.finish]

/-! ## What the updates put in place -/

@[simp] theorem Job.setCore_core (j : Job) (k : Core) (c : CoreState) : (j.setCore k c).core k = c := by cases k <;> rfl
@[simp] theorem Job.setCore_ac_xc (j : Job) (c : CoreState) : (j.setCore .ac c).xc = j.xc := rfl
@[simp] theorem Job.setCore_xc_ac (j : Job) (c : CoreState) : (j.setCore .xc c).ac = j.ac := rfl
@[simp] theorem Here.setSt_st (h : Here) (c : CoreState) : (h.setSt c).st = c := by
  simp [Here.setSt, Here.st]
@[simp] theorem Here.modSt_st (h : Here) (f : CoreState → CoreState) : (h.modSt f).st = f h.st := by
  simp [Here.modSt]
@[simp] theorem Here.setSt_jb (h : Here) (c : CoreState) : (h.setSt c).jb = h.jb.setCore h.k c := rfl
@[simp] theorem Here.modSt_jb (h : Here) (f : CoreState → CoreState) : (h.modSt f).jb = h.jb.setCore h.k (f h.st) := rfl
@[simp] theorem Here.raise_jb (h : Here) (t : Trap) : (h.raise t).jb = { h.jb with traps := h.jb.traps ++ [t] } := rfl
@[simp] theorem Job.result_core (j : Job) (r c : Nat) (k : Core) : (j.result r c).core k = j.core k := by cases k <;> rfl
@[simp] theorem Job.defer_core (j : Job) (r : Nat) (e : Eng) (a : Word) (os : Option (BitVec 3)) (ps : List Nat) (src : Option Nat)
    (x : Effect) (k : Core) : (j.defer r e a os ps src x).core k = j.core k := by cases k <;> rfl
@[simp] theorem Job.semTake_core (j : Job) (q : BitVec 6) (r : Nat) (b : Bool) (k : Core) :
    (j.semTake q r b).core k = j.core k := by cases k <;> rfl

/-- Register 0 keeps its value whatever is written to it (11 R138). -/
theorem CoreState.setReg_zero (c : CoreState) (v : PVal) : c.setReg 0 v = c := by simp [CoreState.setReg]

@[simp] theorem CoreState.reg_zero (c : CoreState) : c.reg 0 = PVal.zero := by simp [CoreState.reg]

theorem CoreState.setReg_same (c : CoreState) (n : BitVec 6) (v : PVal) (h : n ≠ 0) : (c.setReg n v).reg n = v := by
  unfold CoreState.setReg CoreState.reg
  rw [if_neg h, if_neg h]
  simp

theorem CoreState.setReg_other (c : CoreState) (n m : BitVec 6) (v : PVal) (h : m ≠ n) : (c.setReg n v).reg m = c.reg m := by
  unfold CoreState.setReg CoreState.reg
  by_cases hn : n = 0
  · simp [hn]
  · have e : (n.toFin : Nat) ≠ m.toFin := fun e => h (BitVec.eq_of_toFin_eq (Fin.ext e.symm))
    simp only [hn, if_false, Fin.getElem_fin]
    rw [Vector.getElem_set_ne _ _ e]

end Sys2Proof.Machine
end

