-- ==== Sys2Proof/Laws/Ops.lean ====
section
/-!
SUPPORT. One lemma for each shared operation of the cores: what it does when it goes on, in the terms of Safety.lean.
-/
namespace Sys2Proof.Machine
open Sys2Proof

/-! ## The moving stream -/

theorem here_spec {s : State} {h : Here} (e : s.here = some h) :
    ∃ p c, h = ⟨s, s.cur.1, h.k, p, c, h.jb, none⟩ ∧ s.pkgs[s.cur.1.pkg]? = some p ∧ p.cells[s.cur.1.cell]? = some c ∧
      c.job = some h.jb ∧ s.cur.2.core? = some h.k := by
  unfold State.here at e
  split at e
  · rename_i k p hk hp
    split at e
    · rename_i c hc
      split at e
      · rename_i j hj
        obtain rfl := Option.some.inj e
        exact ⟨p, c, rfl, hp, hc, hj, hk⟩
      · cases e
    · cases e
  · cases e

theorem modify_at {α : Type} {l : List α} {i : Nat} {x : α} (f : α → α) (h : l[i]? = some x) : l.modify i f = l.set i (f x) := by
  ext1 n
  rw [List.getElem?_modify, List.getElem?_set]
  rcases eq_or_ne i n with rfl | hn
  · obtain ⟨hi, rfl⟩ := List.getElem?_eq_some_iff.mp h
    simp [hi]
  · simp [hn]

/-- A stream that changed nothing but its job leaves the state with its job put back. -/
theorem close_putJob {s : State} {h h' : Here} (e : s.here = some h)
    (e' : h' = { h with jb := h'.jb }) : h'.outcome = .next (s.putJob h'.jb) := by
  obtain ⟨p, c, eh, hp, hc, hj, -⟩ := here_spec e
  rw [eh] at e'
  have : h' = ⟨s, s.cur.1, h.k, p, c, h'.jb, none⟩ := e'
  generalize h'.jb = j at this
  subst this
  simp only [Here.outcome, Here.close, State.putJob, State.modCell, State.modPkg, State.setPkg]
  rw [modify_at _ hp]
  simp [Package.modCell, Package.cell, hc]

/-! ## The parts of a job that a word changes -/

@[simp] theorem withParts_withParts (j : Job) (k : Core) (x y : Parts) :
    (j.withParts k x).withParts k y = j.withParts k y := by cases k <;> rfl
@[simp] theorem withParts_parts (j : Job) (k : Core) : j.withParts k (j.parts k) = j := by cases k <;> rfl
@[simp] theorem parts_withParts (j : Job) (k : Core) (x : Parts) : (j.withParts k x).parts k = x := by cases k <;> rfl
theorem withParts_other (j : Job) (k : Core) (x : Parts) : (j.withParts k x).core k.other = j.core k.other := by
  cases k <;> rfl

def Here.parts (h : Here) : Parts := h.jb.parts h.k
def Here.alt (h : Here) (x : Parts) : Here := { h with jb := h.jb.withParts h.k x }

@[simp] theorem alt_alt (h : Here) (x y : Parts) : (h.alt x).alt y = h.alt y := by simp [Here.alt]
@[simp] theorem alt_parts (h : Here) : h.alt h.parts = h := by simp [Here.alt, Here.parts]
@[simp] theorem parts_alt (h : Here) (x : Parts) : (h.alt x).parts = x := by simp [Here.alt, Here.parts]
@[simp] theorem alt_k (h : Here) (x : Parts) : (h.alt x).k = h.k := rfl
@[simp] theorem alt_ce (h : Here) (x : Parts) : (h.alt x).ce = h.ce := rfl
@[simp] theorem alt_st (h : Here) (x : Parts) : (h.alt x).st = x.core := congrArg Parts.core (parts_alt h x)
@[simp] theorem alt_lq (h : Here) (x : Parts) : (h.alt x).jb.lq = x.lq := congrArg Parts.lq (parts_alt h x)
@[simp] theorem alt_sq (h : Here) (x : Parts) : (h.alt x).jb.sq = x.sq := congrArg Parts.sq (parts_alt h x)
@[simp] theorem alt_deferred (h : Here) (x : Parts) : (h.alt x).jb.deferred = x.deferred :=
  congrArg Parts.deferred (parts_alt h x)
@[simp] theorem alt_sems (h : Here) (x : Parts) : (h.alt x).jb.sems = x.sems := congrArg Parts.sems (parts_alt h x)

theorem modSt_alt (h : Here) (f : CoreState → CoreState) : h.modSt f = h.alt { h.parts with core := f h.st } := by
  rcases h with ⟨s, i, k, p, c, j, b⟩
  cases k <;> rfl

/-! ## Operands -/

/-- What reading operands changes of a stream: its latch and lq0 to lq3. -/
def Reads (h h1 : Here) (l : List Src) : Prop :=
  ∃ q la, h1 = h.alt { h.parts with lq := q, core := { h.st with latch := la } } ∧
    ∀ n : BitVec 2, Src.pop n ∉ l → q[n.toFin] = h.jb.lq[n.toFin]

theorem reads_refl (h : Here) (l : List Src) : Reads h h l := ⟨h.jb.lq, h.st.latch, (alt_parts h).symm, fun _ _ => rfl⟩

theorem reads_trans {a b c : Here} {s : Src} {l : List Src} (h : Reads a b [s]) (h' : Reads b c l) : Reads a c (s :: l) := by
  obtain ⟨q, la, rfl, hq⟩ := h
  obtain ⟨q', la', rfl, hq'⟩ := h'
  refine ⟨q', la', by simp, fun n hn => ?_⟩
  simp only [List.mem_cons, not_or] at hn
  rw [hq' n hn.2, alt_lq]
  exact hq n (by simpa using hn.1)

theorem popLq_spec {j j' : Job} {q : BitVec 2} {keep : Bool} {v : PVal} (e : j.popLq q keep = .got v j') :
    j' = { j with lq := j'.lq } ∧ (∀ n : BitVec 2, (keep = true ∨ n ≠ q) → j'.lq[n.toFin] = j.lq[n.toFin]) := by
  unfold Job.popLq at e
  split at e
  · split at e <;> cases e
  · split at e
    · cases keep
      · cases e
        refine ⟨rfl, fun n hn => ?_⟩
        have : q.toFin.val ≠ n.toFin.val := fun h => by
          simp at hn
          exact hn (BitVec.eq_of_toNat_eq h.symm)
        have : q.toNat ≠ n.toNat := this
        simp [this]
      · cases e
        exact ⟨rfl, fun _ _ => rfl⟩
    · cases e

theorem src_reads {h h1 : Here} {k k' : Nat} {s : Src} {v : PVal} (e : h.src k s = .ok (v, k', h1)) : Reads h h1 [s] := by
  have pop : ∀ q : BitVec 2, (s = .pop q ∨ s = .peek q) → ∀ keep, (keep = true ∨ s = .pop q) → ∀ j,
      h.jb.popLq q keep = .got v j →
      Reads h ({ h with jb := j }.modSt (fun c => { c with latch := c.latch ++ [v] })) [s] := by
    intro q hs keep hk j hj
    obtain ⟨e1, e2⟩ := popLq_spec hj
    generalize j.lq = x at e1 e2
    subst e1
    refine ⟨x, h.st.latch ++ [v], ?_, fun n hn => e2 n (hk.imp id (fun h => ?_))⟩
    · rcases h with ⟨s', i, k, p, c, j, b⟩
      cases k <;> rfl
    · rintro rfl
      simp [h] at hn
  unfold Here.src at e
  split at e
  · split at e
    · cases e
    · cases e
      exact reads_refl _ _
  all_goals
    rename_i q
    split at e
    · cases e
      exact reads_refl _ _
    · split at e
      · rename_i hj
        cases e
        exact pop _ (by simp) _ (by simp) _ hj
      · cases e
      · cases e

/-- Reading the operands of a word. -/
theorem srcs_reads {h h1 : Here} {k : Nat} {l : List Src} {vs : List PVal} (e : h.srcs k l = .ok (vs, h1)) : Reads h h1 l := by
  induction l generalizing h k vs with
  | nil =>
    cases e
    exact reads_refl _ _
  | cons s l ih =>
    simp only [Here.srcs] at e
    split at e
    · cases e
    · rename_i hs
      split at e
      · cases e
      · rename_i hl
        cases e
        exact reads_trans (src_reads hs) (ih hl)

/-! ## The sync field -/

/-- A sync wait that proceeds. -/
theorem withSync_met {h : Here} {sy : Sync} (e : h.waits sy = true → 1 ≤ h.semView sy.sem) (f : Here → Here) :
    h.withSync sy f = f (h.synced sy) := by
  unfold Here.withSync Here.synced
  rcases hw : h.waits sy with _ | _
  · rw [if_pos (by simpa [Here.waits, ← Bool.not_eq_true, imp_iff_not_or] using hw)]
    rfl
  · rw [if_neg (by simpa [Here.waits] using hw), if_pos (e hw)]
    rfl

theorem withSrcs_met {h h1 : Here} {l : List Src} {vs : List PVal} (e : h.srcs 0 l = .ok (vs, h1)) (f : List PVal → Here → Here) :
    h.withSrcs l f = f vs h1 := by simp [Here.withSrcs, e]

theorem postOk_met {h : Here} {sy : Sync} (e : sy.post = true → (h.semView sy.sem).toNat + 1 ≤ semMax) (f : Here → Here) :
    h.postOk sy f = f h := by
  unfold Here.postOk Here.postAfter
  rw [if_neg]
  simp only [Bool.and_eq_true, decide_eq_true_eq, not_and, not_lt]
  exact e

/-- The sync wait, the operands and the sync post of a word. -/
theorem meets_run {s : State} {sy : Sync} {l : List Src} {h h1 : Here} {vs : List PVal} (m : Meets s sy l h vs h1)
    (g : List PVal → Here → Here) :
    onCore s (fun h => h.withSync sy fun h => h.withSrcs l fun vs h => h.postOk sy fun h => g vs h) = (g vs h1).outcome := by
  simp only [onCore, m.here]
  rw [withSync_met m.sync, withSrcs_met m.srcs, postOk_met m.post]

/-- The stream once the sync wait and the operands of its word are met. -/
def Same (h h1 : Here) (sy : Sync) (l : List Src) : Prop :=
  ∃ x la tk, h1 = h.alt x ∧ x.core = { h.st with latch := la, syncTaken := tk } ∧ x.sq = h.jb.sq ∧
    x.deferred = h.jb.deferred ∧
    (∀ n : BitVec 6, x.sems[n.toFin].c = h.jb.sems[n.toFin].c - (if h.waits sy && n == sy.sem then 1 else 0)) ∧
    (∀ n : BitVec 6, (h.waits sy && n == sy.sem) = false → x.sems[n.toFin] = h.jb.sems[n.toFin]) ∧
    ∀ q : BitVec 2, Src.pop q ∉ l → x.lq[q.toFin] = h.jb.lq[q.toFin]

theorem synced_same (h : Here) (sy : Sync) : Same h (h.synced sy) sy [] := by
  unfold Here.synced
  split
  · rename_i hw
    let j := h.jb.semTake sy.sem h.region (h.k == Core.xc)
    refine ⟨{ h.parts with sems := j.sems, async := j.async, seq := j.seq, core := { h.st with syncTaken := true } },
      h.st.latch, true, ?_, rfl, rfl, rfl, fun n => ?_, fun n hn => ?_, fun _ _ => rfl⟩
    · rcases h with ⟨s, i, k, p, c, j, b⟩
      cases k <;> rfl
    · rw [hw]
      rcases eq_or_ne n sy.sem with rfl | hn
      · simp [j, Job.semTake]
      · have : sy.sem.toNat ≠ n.toNat := fun h => hn (BitVec.eq_of_toNat_eq h.symm)
        simp [j, Job.semTake, this, hn]
    · rw [hw] at hn
      have : sy.sem.toNat ≠ n.toNat := fun h => by simp [BitVec.eq_of_toNat_eq h.symm] at hn
      simp [j, Job.semTake, this]
  · rename_i hw
    exact ⟨h.parts, h.st.latch, h.st.syncTaken, by simp, rfl, rfl, rfl, fun n => by simp [hw, Here.parts, Job.parts],
      fun _ _ => rfl, fun _ _ => rfl⟩

theorem meets_same {s : State} {sy : Sync} {l : List Src} {h h1 : Here} {vs : List PVal} (m : Meets s sy l h vs h1) :
    Same h h1 sy l := by
  obtain ⟨x, la, tk, e, c, a4, a5, a1, a2, a3⟩ := synced_same h sy
  obtain ⟨q, la', rfl, b⟩ := srcs_reads m.srcs
  rw [e] at b ⊢
  refine ⟨_, la', tk, alt_alt .., ?_, by simpa using a4, by simpa using a5, by simpa using a1, by simpa using a2,
    fun n hn => (b n hn).trans (by simpa using a3 n (by simp))⟩
  simp [c]

/-! ## The destination and the end of a word -/

/-- A destination that is free takes the result. -/
theorem withDst_free {h : Here} {rd : Dst} (e : DstFree h rd) (v : PVal) (f : Here → Here) :
    h.withDst rd v f =
      f (h.alt { h.parts with sq := pushedSq h.jb.sq rd v, core := { h.st with regs := writtenRegs h.st.regs rd v } }) := by
  cases rd with
  | reg n =>
    have e : h.st.isBusy n = false := e
    simp only [Here.withDst, Here.regFree, e, CoreState.setReg, writtenRegs, pushedSq, modSt_alt]
    by_cases hn : n = 0 <;> simp only [hn] <;> rfl
  | push q =>
    obtain ⟨e1, e2, e3⟩ := e
    simp only [Here.withDst]
    rw [if_neg (by rw [e1, e2]; decide), if_neg (by omega)]
    rcases h with ⟨s, i, k, p, c, j, b⟩
    cases k <;> rfl

/-- The sync post as a change of the job's pending effects. -/
theorem syncPost_alt (h : Here) (sy : Sync) (preds : List Nat) (src : Option Nat) :
    ∃ d n, h.syncPost sy preds src = h.alt { h.parts with deferred := d, seq := n } ∧
      (sy.post = false → d = h.jb.deferred) ∧
      (sy.post = true → ∃ n, d = h.jb.deferred ++
        [⟨n, h.region, h.k.eng, h.st.pc, none, withPreds h.ce.ops preds, src, .semPost sy.sem 1⟩]) := by
  unfold Here.syncPost
  cases sy.post
  · exact ⟨h.jb.deferred, h.jb.seq, (alt_parts h).symm, fun _ => rfl, by simp⟩
  · refine ⟨h.jb.deferred ++
      [⟨h.jb.seq, h.region, h.k.eng, h.st.pc, none, withPreds h.ce.ops preds, src, .semPost sy.sem 1⟩], h.jb.seq + 1, ?_, by simp,
      fun _ => ⟨_, rfl⟩⟩
    rcases h with ⟨s, i, k, p, c, j, b⟩
    cases k <;> rfl

theorem pass_alt (h : Here) :
    ∃ r p, h.pass = h.alt { h.parts with results := r, progress := p, core := h.st.passWord h.st.pc } := by
  refine ⟨(h.jb.result h.region h.clk).results, h.clk, ?_⟩
  rcases h with ⟨s, i, k, p, c, j, b⟩
  cases k <;> rfl

theorem finish_alt (h : Here) (sy : Sync) (preds : List Nat) :
    ∃ d n r p, h.finish sy preds = h.alt { h.parts with
        deferred := d, seq := n, results := r, progress := p, core := h.st.passWord h.st.pc } ∧
      (sy.post = false → d = h.jb.deferred) ∧
      (sy.post = true → ∃ n, d = h.jb.deferred ++
        [⟨n, h.region, h.k.eng, h.st.pc, none, withPreds h.ce.ops preds, none, .semPost sy.sem 1⟩]) := by
  obtain ⟨d, n, e, b⟩ := syncPost_alt h sy preds none
  obtain ⟨r, p, e'⟩ := pass_alt (h.syncPost sy preds none)
  refine ⟨d, n, r, p, e'.trans ?_, b⟩
  rw [e]
  simp only [alt_alt, parts_alt, alt_st]
  rfl

/-- The word completes with registers `r`, nmctl `nm` and queues `q`: what its stream and its job are then. -/
theorem finish_leaves {h h1 : Here} {sy : Sync} {l : List Src} (m : Same h h1 sy l) (preds : List Nat) (r : Vector PVal 64)
    (nm : BitVec 10) (q : Vector (Queue PVal) 2) :
    let h2 := (h1.alt { h1.parts with sq := q, core := { h1.st with regs := r, nmctl := nm } }).finish sy preds
    h2 = { h with jb := h2.jb } ∧ Leaves h h1 sy l preds (h.st.after r nm) q h.jb.deferred h2.jb := by
  intro h2
  obtain ⟨x, la, tk, rfl, c, a4, a5, a1, a2, a3⟩ := m
  obtain ⟨d, n, rs, p, e, b1, b2⟩ := finish_alt ((h.alt x).alt { (h.alt x).parts with
    sq := q, core := { (h.alt x).st with regs := r, nmctl := nm } }) sy preds
  have e : h2 = _ := e
  simp only [alt_alt, parts_alt, alt_st, c] at e
  simp only [alt_deferred, parts_alt, a5] at b1 b2
  rw [e]
  refine ⟨rfl, ⟨_, rfl⟩, ?_, ?_, ?_, ?_, ⟨?_, ?_, ?_, ?_⟩⟩
  · exact (alt_st ..).trans rfl
  · simp
  · simpa using a3
  · simp
  · simpa using a1
  · simpa using a2
  · simpa using b1
  · intro hp
    obtain ⟨n, hn⟩ := b2 hp
    exact ⟨n, by simp [hn, Here.region, c]⟩

/-- The scalar shape (11 R139): the state after a word whose operands are met and whose destination is free. -/
theorem scalar_next {s : State} {h h1 : Here} {sy : Sync} {rd : Dst} {l : List Src} {vs : List PVal}
    (m : Meets s sy l h vs h1) (d : DstFree h1 rd) (f : List PVal → PVal) :
    ∃ j, onCore s (fun h => h.scalar sy rd l f) = .next (s.putJob j) ∧
      Leaves h h1 sy l (joinDep vs) (h.st.after (writtenRegs h.st.regs rd (f vs)) h.st.nmctl) (pushedSq h.jb.sq rd (f vs))
        h.jb.deferred j := by
  have e := meets_run m (fun vs h => h.withDst rd (f vs) fun h => h.finish sy (joinDep vs))
  rw [withDst_free d] at e
  obtain ⟨x, y⟩ := finish_leaves (meets_same m) (joinDep vs) (writtenRegs h.st.regs rd (f vs)) h.st.nmctl
    (pushedSq h.jb.sq rd (f vs))
  obtain ⟨z, la, tk, hz, c, hq, -⟩ := meets_same m
  have e1 : h1.st = { h.st with latch := la, syncTaken := tk } := by rw [hz, alt_st, c]
  refine ⟨_, ?_, y⟩
  rw [← close_putJob m.here x]
  refine e.trans ?_
  have e2 : h1.jb.sq = h.jb.sq := by rw [hz, alt_sq, hq]
  rw [e1, e2]

/-! ## A word that completes without a result -/

theorem complete_alt (h : Here) (sy : Sync) (preds : List Nat) (f : CoreState → CoreState) :
    ∃ d n, h.complete sy preds f = h.alt { h.parts with
        deferred := d, seq := n, progress := h.clk, core := f h.st } ∧
      (sy.post = false → d = h.jb.deferred) ∧
      (sy.post = true → ∃ n, d = h.jb.deferred ++
        [⟨n, h.region, h.k.eng, h.st.pc, none, withPreds h.ce.ops preds, none, .semPost sy.sem 1⟩]) := by
  obtain ⟨d, n, e, b⟩ := syncPost_alt h sy preds none
  refine ⟨d, n, ?_, b⟩
  have e1 : h.complete sy preds f = (h.syncPost sy preds none).complete Sync.zero preds f := by
    have : (h.syncPost sy preds none).clk = h.clk := by rw [e]; rfl
    simp only [Here.complete, Here.syncPost, Sync.zero] at this ⊢
    split <;> simp_all
  have e2 : ∀ g : Here, g.complete Sync.zero preds f = g.alt { g.parts with progress := g.clk, core := f g.st } := by
    rintro ⟨s, i, k, p, c, j, b⟩
    cases k <;> rfl
  rw [e1, e2, e]
  simp
  rfl

/-- The word completes with its stream changed by `f`. -/
theorem complete_leaves {h h1 : Here} {sy : Sync} {l : List Src} (m : Same h h1 sy l) (preds : List Nat)
    (f : CoreState → CoreState) :
    h1.complete sy preds f = { h with jb := (h1.complete sy preds f).jb } ∧
      Leaves h h1 sy l preds (f h1.st) h.jb.sq h.jb.deferred (h1.complete sy preds f).jb := by
  obtain ⟨x, la, tk, rfl, c, a4, a5, a1, a2, a3⟩ := m
  obtain ⟨d, n, e, b1, b2⟩ := complete_alt (h.alt x) sy preds f
  simp only [alt_alt, parts_alt, alt_st] at e
  simp only [alt_deferred, a5] at b1 b2
  rw [e]
  refine ⟨rfl, ⟨_, rfl⟩, ?_, ?_, ?_, ?_, ⟨?_, ?_, ?_, ?_⟩⟩
  · exact (alt_st ..).trans (by simp)
  · simp
  · simpa using a3
  · simpa using a4
  · simpa using a1
  · simpa using a2
  · simpa using b1
  · intro hp
    obtain ⟨n, hn⟩ := b2 hp
    exact ⟨n, by simp [hn, Here.region, c]⟩

/-! ## Conditions that hold -/

theorem same_refl (h : Here) : Same h h Sync.zero [] :=
  ⟨h.parts, h.st.latch, h.st.syncTaken, by simp, rfl, rfl, rfl,
    fun n => by simp [Here.waits, Sync.zero, Here.parts, Job.parts], fun _ _ => rfl, fun _ _ => rfl⟩

theorem same_st {h h1 : Here} {sy : Sync} {l : List Src} (m : Same h h1 sy l) :
    ∃ la tk, h1.st = { h.st with latch := la, syncTaken := tk } := by
  obtain ⟨x, la, tk, rfl, c, -⟩ := m
  exact ⟨la, tk, by rw [alt_st, c]⟩

theorem notLoopEnd_met {h : Here} (e : h.st.atLoopEnd = false) (f : Here → Here) : h.notLoopEnd f = f h := by
  simp [Here.notLoopEnd, e]

theorem unpoisoned_met {h : Here} {l : List (PVal × Nat × Nat)} (c : ∀ e ∈ l, e.1.p = .none) (f : Here → Here) :
    h.unpoisoned l f = f h := by
  unfold Here.unpoisoned
  have : l.find? (fun e => e.1.p == joinP (l.map (·.1)) && e.1.p != .none) = none := by
    rw [List.find?_eq_none]
    intro x hx
    simp [c x hx]
  rw [this]

theorem quiet_met {h : Here} (e : h.st.busy = 0) (f : Here → Here) : h.quiet f = f h := by simp [Here.quiet, e]

theorem regFree_met {h : Here} {n : BitVec 6} (e : h.st.isBusy n = false) (f : Here → Here) : h.regFree n f = f h := by
  simp [Here.regFree, e]

theorem withBase_met {h : Here} {n : BitVec 6} (e : h.st.isBusy n = false) (g : PVal → Here → Here) :
    h.withBase n g = g (h.reg n) h := by
  simp [Here.withBase, e]

end Sys2Proof.Machine
end

