-- ==== Sys2Proof/Tests/Slice0.lean ====
section
/-!
SUPPORT. Tests: a term that each check of WellFormed refuses; words written out from the encoding tables of 09, decoded; small results
from the spec's words; and states and operands that meet the hypotheses of the statements.
-/
namespace Sys2Proof.Tests
open Sys2Proof Sys2Proof.Machine Sys2Proof.Claims

set_option maxRecDepth 100000
set_option Elab.async false

/-- No sync field. -/
def s0 : Sync := ⟨false, false, 0⟩

/-! ## WellFormed: a term that each check refuses -/

def ord (o : OrdKind) (s : Scope) : OrdF := ⟨0, 0, o, s⟩
def g1 (n : BitVec 5) : VG := ⟨n, .x1⟩
def arith (rd ra rb : VG) (ty : ET) (rm : Rm) (s z : Bool) : VArith := ⟨rd, ra, rb, none, ty, rm, s, z, s0⟩
def unary (ty : ET) (rm : Rm) (s : Bool) : VUnary := ⟨g1 0, g1 1, none, ty, rm, s, false, s0⟩

/-- 07 R84, R85: an order that the class has not, a scope that the space has not. -/
theorem smoke_order : Instr.wf (.lds ⟨.reg 1, 2, 0, .w, false, ord .rel .cell, s0⟩) = false ∧
    Instr.wf (.stg ⟨.reg 1, 2, 0, .w, ord .acq .cell, s0⟩) = false ∧ Instr.wf (.rpost ⟨1, 2, ord .acq .cell, s0⟩) = false ∧
    Instr.wf (.rwait ⟨1, ord .plain .cell, s0⟩) = false ∧ Instr.wf (.semw ⟨1, ord .rel .cell, s0⟩) = false ∧
    Instr.wf (.semp ⟨.reg 1, 2, ord .plain .cell, s0⟩) = false ∧ Instr.wf (.tspawn ⟨1, ord .acq .cell, s0⟩) = false ∧
    Instr.wf (.ckick ⟨0, 1, ord .acq .cell, s0⟩) = false ∧ Instr.wf (.crbar ⟨1, ord .rel .cell, s0⟩) = false ∧
    Instr.wf (.tnow ⟨1, ord .acq .cell, s0⟩) = false ∧ Instr.wf (.tlbinv ⟨1, ord .plain .cell, s0⟩) = false ∧
    Instr.wf (.seal 1 2 (ord .acq .package) s0) = false := by decide
theorem smoke_scope : Instr.wf (.lds ⟨.reg 1, 2, 0, .w, false, ord .plain .package, s0⟩) = false ∧
    Instr.wf (.ldc ⟨.reg 1, 2, 0, false, ord .plain .fabric, s0⟩) = false ∧
    Instr.wf (.mgo ⟨false, none, 0, ord .rel .package, s0⟩) = false ∧
    Instr.wf (.lds ⟨.reg 1, 2, 0, .w, false, ord .plain .die, s0⟩) = true := by decide
/-- 09 R113: a peek where a field names a pop alone; a group that is not aligned. -/
theorem smoke_operand : Instr.wf (.addi ⟨.reg 1, .peek 0, 0, s0⟩) = false ∧ Instr.wf (.shli ⟨.reg 1, .peek 0, 0, s0⟩) = false ∧
    Instr.wf (.bfi ⟨.reg 1, .reg 2, .reg 3, .peek 0, s0⟩) = false ∧ Instr.wf (.beq ⟨.reg 1, .peek 0, 0, .none⟩) = false ∧
    Instr.wf (.csrw (.peek 0) 0x41 s0) = false ∧ Instr.wf (.rngp ⟨.peek 0, 1, false, ord .rel .cell, s0⟩) = false ∧
    Instr.wf (.rngf ⟨.reg 1, 1, true, ord .rel .cell, s0⟩) = false ∧ Instr.wf (.add ⟨.reg 1, .peek 0, .reg 2, s0⟩) = false := by decide
theorem smoke_group : Instr.wf (.vadd (arith ⟨2, .x4⟩ (g1 0) (g1 0) .f32 .rne false false)) = false ∧
    Instr.wf (.vadd (arith ⟨4, .x4⟩ ⟨0, .x2⟩ (g1 0) .f32 .rne false false)) = false ∧
    Instr.wf (.vstq ⟨0, ⟨2, .x8⟩, s0⟩) = false ∧ Instr.wf (.vpermr ⟨⟨2, .x2⟩, g1 1, ⟨4, .x2⟩, none, false, s0⟩) = false ∧ Instr.wf (.vadd (arith ⟨4, .x4⟩ ⟨0, .x4⟩ (g1 5) .f32 .rne false false)) = true := by decide
/-- 11 R159: no trip register a0, no body of no words. -/
theorem smoke_loop : Instr.wf (.loop (.reg 0) 1 s0) = false ∧ Instr.wf (.loop (.reg 1) 0 s0) = false ∧
    Instr.wf (.loop (.reg 1) 0x80000000 s0) = false := by decide
/-- 03 R45, R46, 11 R150: rounding, saturation, types of a conversion. -/
theorem smoke_convert : Instr.wf (.faddS ⟨.reg 1, .reg 2, .reg 3, .sr, false, s0⟩) = false ∧
    Instr.wf (.fcvt ⟨.reg 1, .reg 2, .et .f32, .et .f32, .rne, false, s0⟩) = false ∧
    Instr.wf (.fcvt ⟨.reg 1, .reg 2, .i64, .et .i8, .rne, false, s0⟩) = false ∧
    Instr.wf (.fcvt ⟨.reg 1, .reg 2, .i64, .et .f32, .rne, true, s0⟩) = false ∧
    Instr.wf (.vcvt ⟨⟨0, .x2⟩, g1 2, .f16, .f32, .rne, false, s0⟩) = false ∧
    Instr.wf (.mdrain ⟨1, .e2m1, .rne, true, 0, ord .rel .cell, s0⟩) = false := by decide
/-- 05 R62: a column beyond 11; 09 R120: an unsigned double. -/
theorem smoke_access : Instr.wf (.ldn ⟨.reg 1, 2, ⟨0, 0, 12⟩, 0, .w, false, ord .plain .cell, s0⟩) = false ∧
    Instr.wf (.place 1 2 ⟨1, 7, 15⟩ s0) = false ∧ Instr.wf (.lds ⟨.reg 1, 2, 0, .d, true, ord .plain .cell, s0⟩) = false ∧
    Instr.wf (.aadd ⟨1, 2, 3, .c, true, false, ord .plain .cell, s0⟩) = false ∧
    Instr.wf (.aand ⟨1, 2, 3, .c, false, false, ord .plain .cell, s0⟩) = false ∧
    Instr.wf (.aswap ⟨1, 2, 3, .g, false, true, ord .plain .cell, s0⟩) = false ∧
    Instr.wf (.mgo ⟨false, none, 17, ord .rel .cell, s0⟩) = false ∧ Instr.wf (.mgo ⟨false, none, 1, ord .rel .cell, s0⟩) = false ∧
    Instr.wf (.mgo ⟨false, none, 16, ord .rel .cell, s0⟩) = true := by decide
/-- 09 R109, 15: RM, S, Z and the type of a vector word. -/
theorem smoke_vector : Instr.wf (.vadd (arith (g1 0) (g1 1) (g1 2) .e2m1 .rne false false)) = false ∧
    Instr.wf (.vadd (arith (g1 0) (g1 1) (g1 2) .i32 .rtz false false)) = false ∧
    Instr.wf (.vadd (arith (g1 0) (g1 1) (g1 2) .f32 .rne false true)) = false ∧
    Instr.wf (.vmin (arith (g1 0) (g1 1) (g1 2) .f32 .rne true false)) = false ∧
    Instr.wf (.vshl (arith (g1 0) (g1 1) (g1 2) .f32 .rne false false)) = false ∧
    Instr.wf (.vabs (unary .f32 .rne true)) = false ∧ Instr.wf (.vrcp (unary .e4m3 .rne false)) = false ∧
    Instr.wf (.vpopc (unary .bf16 .rne false)) = false ∧ Instr.wf (.vredrAnd (unary .f32 .rne false)) = false ∧
    Instr.wf (.vpack24 ⟨3, 3, 4, .f32, s0⟩) = false ∧ Instr.wf (.vtli ⟨g1 0, g1 1, 0, none, .e5m2, .rne, false, false, s0⟩) = false := by decide
/-- 09 R111 to R113: queue operands on the AC, a CSR of the other core. -/
theorem smoke_core : Instr.allowedOn (.add ⟨.reg 1, .pop 0, .reg 2, s0⟩) .ac = false ∧ Instr.allowedOn (.add ⟨.push 0, .pop 0, .reg 2, s0⟩) .xc = true ∧
    Instr.allowedOn (.csrr (.reg 1) 0x080 s0) .xc = false ∧ Instr.allowedOn (.qend ⟨.lq 0, ord .plain .cell, s0⟩) .xc = false := by decide

/-! ## Small results from the spec's words -/

/-- 03 R45: the ties; and SHA-384 of the empty message (FIPS 180-4). -/
theorem test_round_tie : (fmtBF16.result (.mode .rne) false false (fmtF32.decode 0x3F808000)).1 = 0x3F80 ∧
    (fmtBF16.result (.mode .rne) false false (fmtF32.decode 0x3F818000)).1 = 0x3F82 := by decide +kernel
/-- 03 R46: 464 rounds to 448; 465 overflows, to 448 or with S to NaN. -/
theorem test_overflow : fmtE4M3.result (.mode .rne) false false (fmtF32.decode 0x43E80000) = (0x7E, flNX) ∧
    (fmtE4M3.result (.mode .rne) false false (fmtF32.decode 0x43E88000)).1 = 0x7E ∧
    (fmtE4M3.result (.mode .rne) true false (fmtF32.decode 0x43E88000)).1 = 0x7F ∧
    (fmtE4M3.result (.mode .rtz) true false (fmtF32.decode 0x43E88000)).1 = 0x7E := by decide +kernel
theorem test_nan : (fmtF32.result (.mode .rne) false false .nan).1 = 0x7FC00000 := by decide +kernel
theorem test_sha384 : sha384 [] = [0x38, 0xB0, 0x60, 0xA7, 0x51, 0xAC, 0x96, 0x38, 0x4C, 0xD9, 0x32, 0x7E, 0xB1, 0xB1, 0xE3, 0x6A, 0x21, 0xFD, 0xB7,
    0x11, 0x14, 0xBE, 0x07, 0x43, 0x4C, 0x0C, 0xC7, 0xBF, 0x63, 0xF6, 0xE1, 0xDA, 0x27, 0x4E, 0xDE, 0xBF, 0xE7, 0x6F, 0x65, 0xFB, 0xD5, 0x1A, 0xD2,
    0xF1, 0x48, 0x98, 0xB9, 0x5B] := by decide +kernel

def withRegsAt (s : State) (l : List (Fin 64 × Word)) : State := s.modCell ⟨0, 0⟩ fun x => { x with job := x.job.map fun j => { j with
  ac := { j.ac with regs := l.foldl (fun r e => r.set e.1 ⟨e.2, .none, []⟩) j.ac.regs } } }
/-- What a step of the placed word leaves in register `n` of a core. -/
def regAfter (w : Nat) (k : Core) (n : Fin 64) (s : State → State) : Option Word :=
  match step (s (State.reset.withFetchWord 64 w)) with
  | .next t => (t.pkg 0).bind fun p => (p.cell 0).bind fun x => x.job.map fun j => ((j.core k).regs[n]).v
  | _ => none
/-- ADD a5, a3, a4 wraps; the sum of the last 09 word with a register that is its own destination. -/
theorem test_step_add : regAfter 0x100A_0C20_0000_0000 .ac 5 (fun s => withRegsAt s [(3, -1), (4, 3)]) = some 2 := by decide +kernel
theorem test_step_addi : regAfter 0x180E_1FFF_FFFF_C098 .ac 7 (fun s => withRegsAt s [(7, 0x10)]) = some 0 := by decide +kernel

/-- Words of 09 R116. -/
theorem test_decode_system1 :
    decodeCore 0x0100_0000_0000_018E = .ok (.nop ⟨true, true, 7⟩) ∧
    decodeCore 0x0200_0000_0000_A800 = .ok (.trap 0x2A s0) ∧
    decodeCore 0x0300_0000_0000_0000 = .ok (.eret s0) ∧
    decodeCore 0x0400_1400_0000_0000 = .ok (.firnack 5 s0) ∧
    decodeCore 0x0500_1000_1002_0092 = .ok (.tlbinv ⟨4, ⟨1, 0, .plain, .package⟩, ⟨false, true, 9⟩⟩) ∧
    decodeCore 0x0500_0000_B022_0000 = .ok (.tlbinvAll ⟨3, 2, .plain, .package⟩ s0) ∧
    decodeCore 0x0600_1028_0002_0000 = .ok (.seal 4 5 ⟨0, 0, .plain, .package⟩ s0) ∧
    decodeCore 0x0712_0000_0000_0000 = .ok (.world (.reg 9) s0) ∧
    decodeCore 0x0800_0000_0000_0000 = .ok (.halt s0) ∧
    decodeCore 0x090E_0000_0001_4000 = .ok (.csrr (.reg 7) 0x050 s0) ∧
    decodeCore 0x0A00_2000_0001_0800 = .ok (.csrw (.reg 8) 0x042 s0) ∧
    decodeCore 0x0BE0_0000_0000_1400 = .ok (.mbr (.push 0) 5 s0) := by decide

/-- Words of 09 R116. -/
theorem test_decode_system2 :
    decodeCore 0x0C02_0800_0000_0000 = .ok (.pchk ⟨.reg 1, .reg 2, s0⟩) := by decide

/-- Words of 09 R117, opcode 0x10. -/
theorem test_decode_integer1 :
    decodeCore 0x1002_0818_0000_0000 = .ok (.add ⟨.reg 1, .reg 2, .reg 3, s0⟩) ∧
    decodeCore 0x1004_0C20_0010_0000 = .ok (.sub ⟨.reg 2, .reg 3, .reg 4, s0⟩) ∧
    decodeCore 0x1006_1028_0020_0000 = .ok (.and ⟨.reg 3, .reg 4, .reg 5, s0⟩) ∧
    decodeCore 0x1008_1430_0030_0000 = .ok (.or ⟨.reg 4, .reg 5, .reg 6, s0⟩) ∧
    decodeCore 0x100A_1838_0040_0000 = .ok (.xor ⟨.reg 5, .reg 6, .reg 7, s0⟩) ∧
    decodeCore 0x100C_1C40_0050_0000 = .ok (.andn ⟨.reg 6, .reg 7, .reg 8, s0⟩) ∧
    decodeCore 0x100E_2048_0060_0000 = .ok (.orn ⟨.reg 7, .reg 8, .reg 9, s0⟩) ∧
    decodeCore 0x1010_2450_0070_0000 = .ok (.shl ⟨.reg 8, .reg 9, .reg 10, s0⟩) ∧
    decodeCore 0x1012_2858_0080_0000 = .ok (.shr ⟨.reg 9, .reg 10, .reg 11, s0⟩) ∧
    decodeCore 0x1014_2C60_0090_0000 = .ok (.sra ⟨.reg 10, .reg 11, .reg 12, s0⟩) ∧
    decodeCore 0x1016_3068_00A0_0000 = .ok (.rol ⟨.reg 11, .reg 12, .reg 13, s0⟩) ∧
    decodeCore 0x1018_3470_00B0_0000 = .ok (.ror ⟨.reg 12, .reg 13, .reg 14, s0⟩) := by decide

/-- Words of 09 R117, opcode 0x10. -/
theorem test_decode_integer2 :
    decodeCore 0x101A_3878_00C0_0000 = .ok (.min ⟨.reg 13, .reg 14, .reg 15, s0⟩) ∧
    decodeCore 0x101C_3C80_00D0_0000 = .ok (.max ⟨.reg 14, .reg 15, .reg 16, s0⟩) ∧
    decodeCore 0x101E_4088_00E0_0000 = .ok (.minu ⟨.reg 15, .reg 16, .reg 17, s0⟩) ∧
    decodeCore 0x1020_4490_00F0_0000 = .ok (.maxu ⟨.reg 16, .reg 17, .reg 18, s0⟩) ∧
    decodeCore 0x1022_4898_0100_0000 = .ok (.seq ⟨.reg 17, .reg 18, .reg 19, s0⟩) ∧
    decodeCore 0x1024_4CA0_0110_0000 = .ok (.sne ⟨.reg 18, .reg 19, .reg 20, s0⟩) ∧
    decodeCore 0x1026_50A8_0120_0000 = .ok (.slt ⟨.reg 19, .reg 20, .reg 21, s0⟩) ∧
    decodeCore 0x1028_54B0_0130_0000 = .ok (.sltu ⟨.reg 20, .reg 21, .reg 22, s0⟩) := by decide

/-- Words of 09 R117, opcode 0x11; R112, R113: pops of lq1 and lq2. -/
theorem test_decode_multiply :
    decodeCore 0x11E3_A750_0000_0000 = .ok (.mul ⟨.push 1, .pop 1, .pop 2, s0⟩) ∧
    decodeCore 0x11E3_A750_0010_0000 = .ok (.mulh ⟨.push 1, .pop 1, .pop 2, s0⟩) ∧
    decodeCore 0x11E3_A750_0020_0000 = .ok (.mulhu ⟨.push 1, .pop 1, .pop 2, s0⟩) ∧
    decodeCore 0x11E3_A750_0030_0000 = .ok (.div ⟨.push 1, .pop 1, .pop 2, s0⟩) ∧
    decodeCore 0x11E3_A750_0040_0000 = .ok (.divu ⟨.push 1, .pop 1, .pop 2, s0⟩) ∧
    decodeCore 0x11E3_A750_0050_0000 = .ok (.rem ⟨.push 1, .pop 1, .pop 2, s0⟩) ∧
    decodeCore 0x11E3_A750_0060_0000 = .ok (.remu ⟨.push 1, .pop 1, .pop 2, s0⟩) ∧
    decodeCore 0x11E3_A750_0070_0000 = .ok (.clmul ⟨.push 1, .pop 1, .pop 2, s0⟩) ∧
    decodeCore 0x11E3_A750_0080_0000 = .ok (.clmulh ⟨.push 1, .pop 1, .pop 2, s0⟩) := by decide

/-- 11 R142: the width codes of a register form are 0b00. -/
theorem test_decode_no_peek : (decodeCore 0x11E3_A750_0000_4000).toOption = none ∧ (decodeCore 0x10E3_A750_0000_4000).toOption = none := by decide

/-- Words of 09 R117, opcode 0x12. -/
theorem test_decode_bits :
    decodeCore 0x1202_0800_0000_0000 = .ok (.clz ⟨.reg 1, .reg 2, s0⟩) ∧
    decodeCore 0x1202_0800_0010_0000 = .ok (.ctz ⟨.reg 1, .reg 2, s0⟩) ∧
    decodeCore 0x1202_0800_0020_0000 = .ok (.popc ⟨.reg 1, .reg 2, s0⟩) ∧
    decodeCore 0x1202_0800_0030_0200 = .ok (.exts ⟨.reg 1, .reg 2, .h, s0⟩) ∧
    decodeCore 0x1202_0800_0040_0400 = .ok (.extz ⟨.reg 1, .reg 2, .w, s0⟩) ∧
    decodeCore 0x1202_0818_0050_0000 = .ok (.bfx ⟨.reg 1, .reg 2, .reg 3, s0⟩) ∧
    decodeCore 0x1202_0818_4060_0000 = .ok (.bfi ⟨.reg 1, .reg 2, .reg 3, .reg 4, s0⟩) ∧
    decodeCore 0x1202_081E_8070_0000 = .ok (.sel ⟨.reg 1, .reg 2, .reg 3, .pop 0, s0⟩) := by decide

/-- Words of 09 R117, opcodes 0x18 to 0x26. -/
theorem test_decode_immediate1 :
    decodeCore 0x180E_1BFF_FFFF_C098 = .ok (.addi ⟨.reg 7, .reg 6, 0xFFFFFFF0, ⟨false, true, 12⟩⟩) ∧
    decodeCore 0x190E_1BFF_FFFF_C098 = .ok (.andi ⟨.reg 7, .reg 6, 0xFFFFFFF0, ⟨false, true, 12⟩⟩) ∧
    decodeCore 0x1A0E_1BFF_FFFF_C098 = .ok (.ori ⟨.reg 7, .reg 6, 0xFFFFFFF0, ⟨false, true, 12⟩⟩) ∧
    decodeCore 0x1B0E_1BFF_FFFF_C098 = .ok (.xori ⟨.reg 7, .reg 6, 0xFFFFFFF0, ⟨false, true, 12⟩⟩) ∧
    decodeCore 0x1F0E_1BFF_FFFF_C098 = .ok (.slti ⟨.reg 7, .reg 6, 0xFFFFFFF0, ⟨false, true, 12⟩⟩) ∧
    decodeCore 0x200E_1BFF_FFFF_C098 = .ok (.sltui ⟨.reg 7, .reg 6, 0xFFFFFFF0, ⟨false, true, 12⟩⟩) ∧
    decodeCore 0x210E_1BFF_FFFF_C098 = .ok (.seqi ⟨.reg 7, .reg 6, 0xFFFFFFF0, ⟨false, true, 12⟩⟩) ∧
    decodeCore 0x230E_1BFF_FFFF_C098 = .ok (.lihi ⟨.reg 7, .reg 6, 0xFFFFFFF0, ⟨false, true, 12⟩⟩) ∧
    decodeCore 0x1C0E_1800_0000_FC00 = .ok (.shli ⟨.reg 7, .reg 6, 63, s0⟩) ∧
    decodeCore 0x1D0E_1800_0000_FC00 = .ok (.shri ⟨.reg 7, .reg 6, 63, s0⟩) ∧
    decodeCore 0x1E0E_1800_0000_FC00 = .ok (.srai ⟨.reg 7, .reg 6, 63, s0⟩) ∧
    decodeCore 0x220A_0226_AF37_BC00 = .ok (.li (.reg 5) 0x89ABCDEF s0) := by decide

/-- Words of 09 R117, opcodes 0x18 to 0x26. -/
theorem test_decode_immediate2 :
    decodeCore 0x2402_0818_0000_0600 = .ok (.lea 1 2 3 3 s0) ∧
    decodeCore 0x250C_1400_0009_4000 = .ok (.place 6 5 ⟨0, 2, 5⟩ s0) ∧
    decodeCore 0x260E_1800_0001_0000 = .ok (.fadr 7 6 0x040 s0) := by decide

/-- Words of 09 R118; the CALL and the LOOP are words of 11. -/
theorem test_decode_control1 :
    decodeCore 0x4000_03FF_FFFF_F010 = .ok (.br 0xFFFFFFFC .likely) ∧
    decodeCore 0x400A_1BFF_FFFF_F060 = .ok (.beq ⟨.reg 5, .reg 6, 0xFFFFFFFC, .unlikely⟩) ∧
    decodeCore 0x400A_1BFF_FFFF_F0A0 = .ok (.bne ⟨.reg 5, .reg 6, 0xFFFFFFFC, .unlikely⟩) ∧
    decodeCore 0x400A_1BFF_FFFF_F0E0 = .ok (.blt ⟨.reg 5, .reg 6, 0xFFFFFFFC, .unlikely⟩) ∧
    decodeCore 0x400A_1BFF_FFFF_F120 = .ok (.bge ⟨.reg 5, .reg 6, 0xFFFFFFFC, .unlikely⟩) ∧
    decodeCore 0x400A_1BFF_FFFF_F160 = .ok (.bltu ⟨.reg 5, .reg 6, 0xFFFFFFFC, .unlikely⟩) ∧
    decodeCore 0x400A_1BFF_FFFF_F1A0 = .ok (.bgeu ⟨.reg 5, .reg 6, 0xFFFFFFFC, .unlikely⟩) ∧
    decodeCore 0x4100_0C00_0000_0000 = .ok (.jmp (.reg 3) s0) ∧
    decodeCore 0x4200_0000_0000_3040 = .ok (.call 12 1) ∧
    decodeCore 0x4300_0C00_0000_0400 = .ok (.callr (.reg 3) 2 s0) ∧
    decodeCore 0x4400_0000_0000_0000 = .ok (.ret s0) ∧
    decodeCore 0x4501_E800_0000_0C00 = .ok (.loop (.mbox 2) 3 s0) := by decide

/-- Words of 09 R118; the CALL and the LOOP are words of 11. -/
theorem test_decode_control2 :
    decodeCore 0x4600_0000_0000_0800 = .ok (.kloop 2 s0) ∧
    decodeCore 0x4700_0000_0000_2400 = .ok (.rdv 9 s0) ∧
    decodeCore 0x4800_0000_0000_0000 = .ok (.tdone s0) := by decide

/-- Words of 09 R119. -/
theorem test_decode_scalarFp :
    decodeCore 0x5002_0818_0000_1400 = .ok (.faddS ⟨.reg 1, .reg 2, .reg 3, .rup, true, s0⟩) ∧
    decodeCore 0x5102_0818_0000_1400 = .ok (.fmulS ⟨.reg 1, .reg 2, .reg 3, .rup, true, s0⟩) ∧
    decodeCore 0x5202_0818_4000_2800 = .ok (.ffmaS ⟨.reg 1, .reg 2, .reg 3, .reg 4, .dyn, false, s0⟩) ∧
    decodeCore 0x5302_0818_0000_0000 = .ok (.fminS ⟨.reg 1, .reg 2, .reg 3, s0⟩) ∧
    decodeCore 0x5402_0818_0000_0000 = .ok (.fmaxS ⟨.reg 1, .reg 2, .reg 3, s0⟩) ∧
    decodeCore 0x5502_0818_0000_0000 = .ok (.fcmpEq ⟨.reg 1, .reg 2, .reg 3, s0⟩) ∧
    decodeCore 0x5502_0818_0010_0000 = .ok (.fcmpNe ⟨.reg 1, .reg 2, .reg 3, s0⟩) ∧
    decodeCore 0x5502_0818_0020_0000 = .ok (.fcmpLt ⟨.reg 1, .reg 2, .reg 3, s0⟩) ∧
    decodeCore 0x5502_0818_0030_0000 = .ok (.fcmpLe ⟨.reg 1, .reg 2, .reg 3, s0⟩) ∧
    decodeCore 0x5602_0800_0A10_0800 = .ok (.fcvt ⟨.reg 1, .reg 2, .i64, .et .bf16, .rtz, false, s0⟩) := by decide

/-- Words of 09 R120, in S, G and F. -/
theorem test_decode_loadStore1 :
    decodeCore 0x600A_0FFF_E100_A400 = .ok (.lds ⟨.reg 5, 3, 0xFFF8, .w, false, ⟨2, 1, .acq, .cell⟩, s0⟩) ∧
    decodeCore 0x61D4_0C00_2100_A200 = .ok (.lds ⟨.lq 2, 3, 8, .h, true, ⟨2, 1, .acq, .cell⟩, s0⟩) ∧
    decodeCore 0x62E2_0C00_2100_C600 = .ok (.sts ⟨.sq 1, 3, 8, .d, ⟨2, 1, .rel, .cell⟩, s0⟩) ∧
    decodeCore 0x64DA_0C00_2100_A000 = .ok (.ldsRow ⟨1, 3, 8, ⟨2, 1, .acq, .cell⟩, s0⟩) ∧
    decodeCore 0x65E4_0C00_2100_C000 = .ok (.stsRow ⟨0, 3, 8, ⟨2, 1, .rel, .cell⟩, s0⟩) ∧
    decodeCore 0x700A_0FFF_E100_B400 = .ok (.ldg ⟨.reg 5, 3, 0xFFF8, .w, false, ⟨2, 1, .acq, .package⟩, s0⟩) ∧
    decodeCore 0x71D4_0C00_2100_B200 = .ok (.ldg ⟨.lq 2, 3, 8, .h, true, ⟨2, 1, .acq, .package⟩, s0⟩) ∧
    decodeCore 0x72E2_0C00_2100_D600 = .ok (.stg ⟨.sq 1, 3, 8, .d, ⟨2, 1, .rel, .package⟩, s0⟩) ∧
    decodeCore 0x74DA_0C00_2100_B000 = .ok (.ldgRow ⟨1, 3, 8, ⟨2, 1, .acq, .package⟩, s0⟩) ∧
    decodeCore 0x75E4_0C00_2100_D000 = .ok (.stgRow ⟨0, 3, 8, ⟨2, 1, .rel, .package⟩, s0⟩) ∧
    decodeCore 0x780A_0FFF_E100_BC00 = .ok (.ldf ⟨.reg 5, 3, 0xFFF8, .w, false, ⟨2, 1, .acq, .fabric⟩, s0⟩) ∧
    decodeCore 0x79D4_0C00_2100_BA00 = .ok (.ldf ⟨.lq 2, 3, 8, .h, true, ⟨2, 1, .acq, .fabric⟩, s0⟩) := by decide

/-- Words of 09 R120, in S, G and F. -/
theorem test_decode_loadStore2 :
    decodeCore 0x7AE2_0C00_2100_DE00 = .ok (.stf ⟨.sq 1, 3, 8, .d, ⟨2, 1, .rel, .fabric⟩, s0⟩) ∧
    decodeCore 0x7CDA_0C00_2100_B800 = .ok (.ldfRow ⟨1, 3, 8, ⟨2, 1, .acq, .fabric⟩, s0⟩) ∧
    decodeCore 0x7DE4_0C00_2100_D800 = .ok (.stfRow ⟨0, 3, 8, ⟨2, 1, .rel, .fabric⟩, s0⟩) ∧
    decodeCore 0x7B08_0C00_2100_DE00 = .ok (.stfArr ⟨.reg 4, 3, 8, .d, ⟨2, 1, .rel, .fabric⟩, s0⟩) ∧
    decodeCore 0x7EE6_0C00_2100_D800 = .ok (.stfRowArr ⟨1, 3, 8, ⟨2, 1, .rel, .fabric⟩, s0⟩) := by decide

/-- Words of 09 R120, in N; the first word and the fifth are words of 09 and 13. -/
theorem test_decode_placed :
    decodeCore 0x680A_0C94_0900_AC00 = .ok (.ldn ⟨.reg 5, 3, ⟨0, 2, 5⟩, 2, .w, false, ⟨2, 1, .acq, .die⟩, s0⟩) ∧
    decodeCore 0x6A0A_0C94_0800_0C00 = .ok (.stn ⟨.reg 5, 3, ⟨0, 2, 5⟩, 2, .w, ⟨0, 0, .plain, .die⟩, s0⟩) ∧
    decodeCore 0x6B0A_0C94_0800_0C00 = .ok (.stnArr ⟨.reg 5, 3, ⟨0, 2, 5⟩, 2, .w, ⟨0, 0, .plain, .die⟩, s0⟩) ∧
    decodeCore 0x6CD8_0C94_0800_0800 = .ok (.ldnRow ⟨0, 3, ⟨0, 2, 5⟩, 2, ⟨0, 0, .plain, .die⟩, s0⟩) ∧
    decodeCore 0x6EE4_1098_0482_4800 = .ok (.stnRowArr ⟨0, 4, ⟨0, 2, 6⟩, 1, ⟨1, 4, .rel, .die⟩, s0⟩) ∧
    decodeCore 0x6DE4_0C94_0800_0800 = .ok (.stnRow ⟨0, 3, ⟨0, 2, 5⟩, 2, ⟨0, 0, .plain, .die⟩, s0⟩) ∧
    decodeCore 0x9E0A_0C00_2000_1400 = .ok (.ldc ⟨.reg 5, 3, 8, false, ⟨0, 0, .plain, .package⟩, s0⟩) ∧
    decodeCore 0x9FE0_0C00_2000_1600 = .ok (.stc ⟨.sq 0, 3, 8, true, ⟨0, 0, .plain, .package⟩, s0⟩) := by decide

/-- Words of 09 R121; the ACAS is a word of 13. -/
theorem test_decode_atomics :
    decodeCore 0x800A_0C22_0080_1400 = .ok (.aadd ⟨5, 3, 4, .g, false, false, ⟨1, 0, .plain, .package⟩, s0⟩) ∧
    decodeCore 0x810A_0C22_0080_1600 = .ok (.aand ⟨5, 3, 4, .g, true, false, ⟨1, 0, .plain, .package⟩, s0⟩) ∧
    decodeCore 0x820A_0C22_0080_1400 = .ok (.aor ⟨5, 3, 4, .g, false, false, ⟨1, 0, .plain, .package⟩, s0⟩) ∧
    decodeCore 0x830A_0C22_0080_1600 = .ok (.axor ⟨5, 3, 4, .g, true, false, ⟨1, 0, .plain, .package⟩, s0⟩) ∧
    decodeCore 0x840A_0C22_0080_1400 = .ok (.amin ⟨5, 3, 4, .g, false, false, ⟨1, 0, .plain, .package⟩, s0⟩) ∧
    decodeCore 0x850A_0C22_0080_1600 = .ok (.amax ⟨5, 3, 4, .g, true, false, ⟨1, 0, .plain, .package⟩, s0⟩) ∧
    decodeCore 0x860A_0C22_0080_1400 = .ok (.aminu ⟨5, 3, 4, .g, false, false, ⟨1, 0, .plain, .package⟩, s0⟩) ∧
    decodeCore 0x870A_0C22_0080_1600 = .ok (.amaxu ⟨5, 3, 4, .g, true, false, ⟨1, 0, .plain, .package⟩, s0⟩) ∧
    decodeCore 0x880A_0C22_0080_1400 = .ok (.aswap ⟨5, 3, 4, .g, false, false, ⟨1, 0, .plain, .package⟩, s0⟩) ∧
    decodeCore 0x890A_0C22_8100_7600 = .ok (.acas ⟨5, 3, 4, .g, true, true, ⟨2, 0, .acqrel, .package⟩, s0⟩) := by decide

/-- Words of 09 R122; RPOST, SEMW, RNGP, RNGW and QEND are words of 13 and 14. -/
theorem test_decode_rime1 :
    decodeCore 0x9000_1838_0008_0000 = .ok (.rpost ⟨6, 7, ⟨0, 0, .rel, .cell⟩, s0⟩) ∧
    decodeCore 0x9100_1800_0004_0000 = .ok (.rwait ⟨6, ⟨0, 0, .acq, .cell⟩, s0⟩) ∧
    decodeCore 0x9200_1800_0008_0000 = .ok (.rthaw ⟨6, ⟨0, 0, .rel, .cell⟩, s0⟩) ∧
    decodeCore 0x930A_1800_0000_0000 = .ok (.rstat ⟨5, 6, ⟨0, 0, .plain, .cell⟩, s0⟩) ∧
    decodeCore 0x940A_0000_0004_0600 = .ok (.rnga ⟨5, 3, ⟨0, 0, .acq, .cell⟩, s0⟩) ∧
    decodeCore 0x9500_2400_8008_0600 = .ok (.rngp ⟨.reg 9, 3, true, ⟨0, 0, .rel, .cell⟩, s0⟩) ∧
    decodeCore 0x9600_0000_0004_0000 = .ok (.rngw ⟨0, 0, ⟨0, 0, .acq, .cell⟩, s0⟩) ∧
    decodeCore 0x9700_2400_0008_1E00 = .ok (.rngf ⟨.reg 9, 15, false, ⟨0, 0, .rel, .cell⟩, s0⟩) ∧
    decodeCore 0x9800_0000_3004_0A00 = .ok (.semw ⟨5, ⟨3, 0, .acq, .cell⟩, s0⟩) ∧
    decodeCore 0x9900_2400_0008_7E00 = .ok (.semp ⟨.reg 9, 63, ⟨0, 0, .rel, .cell⟩, s0⟩) ∧
    decodeCore 0x9A00_2400_0000_0A00 = .ok (.semset ⟨.reg 9, 5, ⟨0, 0, .plain, .cell⟩, s0⟩) ∧
    decodeCore 0x9B12_0000_0000_0A00 = .ok (.semrd ⟨.reg 9, 5, ⟨0, 0, .plain, .cell⟩, s0⟩) := by decide

/-- Words of 09 R122; RPOST, SEMW, RNGP, RNGW and QEND are words of 13 and 14. -/
theorem test_decode_rime2 :
    decodeCore 0x9C01_B000_0000_0000 = .ok (.qend ⟨.lq 4, ⟨0, 0, .plain, .cell⟩, s0⟩) ∧
    decodeCore 0x9D01_CC00_0000_0000 = .ok (.qflush ⟨.sq 3, ⟨0, 0, .plain, .cell⟩, s0⟩) := by decide

/-- Words of 09 R123; the MGO is a word of 10. -/
theorem test_decode_matrix1 :
    decodeCore 0xA000_1400_0000_0400 = .ok (.mcfg 2 5 s0) ∧
    decodeCore 0xA100_1000_1000_0000 = .ok (.mcfgs ⟨4, ⟨1, 0, .plain, .cell⟩, s0⟩) ∧
    decodeCore 0xA200_0005_3018_088A = .ok (.mgo ⟨true, some .ordered, 4, ⟨3, 1, .rel, .cell⟩, ⟨false, true, 5⟩⟩) ∧
    decodeCore 0xA300_1800_0000_0600 = .ok (.mtabCb ⟨6, 3, ⟨0, 0, .plain, .cell⟩, s0⟩) ∧
    decodeCore 0xA300_1800_8000_0600 = .ok (.mtabPt ⟨6, 3, ⟨0, 0, .plain, .cell⟩, s0⟩) ∧
    decodeCore 0xA400_0000_0000_0E00 = .ok (.mzero 7 s0) ∧
    decodeCore 0xA500_1400_A008_0688 = .ok (.mdrain ⟨5, .bf16, .rne, false, 3, ⟨2, 0, .rel, .cell⟩, ⟨false, true, 4⟩⟩) ∧
    decodeCore 0xA5DE_0049_0008_0600 = .ok (.mdrainQ ⟨3, .f16, .rtz, true, 3, ⟨0, 0, .rel, .cell⟩, s0⟩) ∧
    decodeCore 0xA588_0000_1008_0400 = .ok (.mdrainV ⟨1, .f32, .rne, false, 2, ⟨1, 0, .rel, .cell⟩, s0⟩) ∧
    decodeCore 0xA600_0004_0000_0000 = .ok (.mabort true s0) ∧
    decodeCore 0xA712_0000_0000_0000 = .ok (.mstat 9 s0) ∧
    decodeCore 0xA800_1400_0008_0200 = .ok (.ckick ⟨1, 5, ⟨0, 0, .rel, .cell⟩, s0⟩) := by decide

/-- Words of 09 R123; the MGO is a word of 10. -/
theorem test_decode_matrix2 :
    decodeCore 0xA900_1400_0008_0000 = .ok (.clink ⟨0, 5, ⟨0, 0, .rel, .cell⟩, s0⟩) ∧
    decodeCore 0xAA00_1430_0000_0200 = .ok (.cstage 1 5 6 s0) ∧
    decodeCore 0xAB00_0000_0000_0200 = .ok (.cabort 1 s0) := by decide

/-- Words of 09 R124; 21 R315 for the forms of CRBAR. -/
theorem test_decode_tasks1 :
    decodeCore 0xB000_1400_0008_0000 = .ok (.tspawn ⟨5, ⟨0, 0, .rel, .cell⟩, s0⟩) ∧
    decodeCore 0xB100_1400_0004_0000 = .ok (.tjoin ⟨5, ⟨0, 0, .acq, .cell⟩, s0⟩) ∧
    decodeCore 0xB200_1400_0000_0000 = .ok (.crjoin ⟨5, ⟨0, 0, .plain, .cell⟩, s0⟩) ∧
    decodeCore 0xB300_1400_0000_0000 = .ok (.crleave ⟨5, ⟨0, 0, .plain, .cell⟩, s0⟩) ∧
    decodeCore 0xB400_1400_000D_0000 = .ok (.crbar ⟨5, ⟨0, 0, .acqrel, .die⟩, s0⟩) ∧
    decodeCore 0xB408_1430_800D_0000 = .ok (.crbarAdd ⟨4, 5, 6, ⟨0, 0, .acqrel, .die⟩, s0⟩) ∧
    decodeCore 0xB408_1431_000D_0000 = .ok (.crbarMin ⟨4, 5, 6, ⟨0, 0, .acqrel, .die⟩, s0⟩) ∧
    decodeCore 0xB408_1431_800D_0000 = .ok (.crbarMax ⟨4, 5, 6, ⟨0, 0, .acqrel, .die⟩, s0⟩) ∧
    decodeCore 0xB408_1432_000D_0000 = .ok (.crbarAnd ⟨4, 5, 6, ⟨0, 0, .acqrel, .die⟩, s0⟩) ∧
    decodeCore 0xB408_1432_800D_0000 = .ok (.crbarOr ⟨4, 5, 6, ⟨0, 0, .acqrel, .die⟩, s0⟩) ∧
    decodeCore 0xB408_1433_000D_0000 = .ok (.crbarXor ⟨4, 5, 6, ⟨0, 0, .acqrel, .die⟩, s0⟩) ∧
    decodeCore 0xB500_1400_0008_1E00 = .ok (.pqpush ⟨15, 5, ⟨0, 0, .rel, .cell⟩, s0⟩) := by decide

/-- Words of 09 R124; 21 R315 for the forms of CRBAR. -/
theorem test_decode_tasks2 :
    decodeCore 0xB600_0000_0008_1E00 = .ok (.pqflush ⟨15, 0, ⟨0, 0, .rel, .cell⟩, s0⟩) ∧
    decodeCore 0xB70A_0000_0000_0000 = .ok (.tnow ⟨5, ⟨0, 0, .plain, .cell⟩, s0⟩) ∧
    decodeCore 0xB800_1400_0000_0000 = .ok (.tprio ⟨5, ⟨0, 0, .plain, .cell⟩, s0⟩) := by decide

/-- Words of 09 R125, opcodes 0xC0 to 0xC6; the VADD is a word of 15. -/
theorem test_decode_vectorTwo :
    decodeCore 0xC081_1246_20A8_4A00 = .ok (.vadd ⟨⟨0, .x4⟩, ⟨4, .x4⟩, ⟨8, .x4⟩, some 2, .bf16, .rtz, false, true, s0⟩) ∧
    decodeCore 0xC181_1246_20A8_4A00 = .ok (.vsub ⟨⟨0, .x4⟩, ⟨4, .x4⟩, ⟨8, .x4⟩, some 2, .bf16, .rtz, false, true, s0⟩) ∧
    decodeCore 0xC281_1246_20A8_4A00 = .ok (.vmul ⟨⟨0, .x4⟩, ⟨4, .x4⟩, ⟨8, .x4⟩, some 2, .bf16, .rtz, false, true, s0⟩) ∧
    decodeCore 0xC381_1246_20A8_4A00 = .ok (.vfma ⟨⟨0, .x4⟩, ⟨4, .x4⟩, ⟨8, .x4⟩, some 2, .bf16, .rtz, false, true, s0⟩) ∧
    decodeCore 0xC481_1246_20A8_4A00 = .ok (.vfms ⟨⟨0, .x4⟩, ⟨4, .x4⟩, ⟨8, .x4⟩, some 2, .bf16, .rtz, false, true, s0⟩) ∧
    decodeCore 0xC585_0648_0001_C000 = .ok (.vmin ⟨⟨2, .x1⟩, ⟨1, .x1⟩, ⟨9, .x1⟩, none, .i8, .rne, false, false, s0⟩) ∧
    decodeCore 0xC685_0648_0001_C000 = .ok (.vmax ⟨⟨2, .x1⟩, ⟨1, .x1⟩, ⟨9, .x1⟩, none, .i8, .rne, false, false, s0⟩) := by decide

/-- Words of 09 R125, opcodes 0xC7 and 0xC8; the VMOV is a word of 16. -/
theorem test_decode_vectorOne :
    decodeCore 0xC785_0400_0000_8000 = .ok (.vabs ⟨⟨2, .x1⟩, ⟨1, .x1⟩, none, .f16, .rne, false, false, s0⟩) ∧
    decodeCore 0xC785_0400_0100_8000 = .ok (.vneg ⟨⟨2, .x1⟩, ⟨1, .x1⟩, none, .f16, .rne, false, false, s0⟩) ∧
    decodeCore 0xC785_0400_0200_8000 = .ok (.vrcp ⟨⟨2, .x1⟩, ⟨1, .x1⟩, none, .f16, .rne, false, false, s0⟩) ∧
    decodeCore 0xC785_0400_0300_8000 = .ok (.vrsq ⟨⟨2, .x1⟩, ⟨1, .x1⟩, none, .f16, .rne, false, false, s0⟩) ∧
    decodeCore 0xC785_0400_0501_8000 = .ok (.vpopc ⟨⟨2, .x1⟩, ⟨1, .x1⟩, none, .i32, .rne, false, false, s0⟩) ∧
    decodeCore 0xC785_0400_0601_8000 = .ok (.vclz ⟨⟨2, .x1⟩, ⟨1, .x1⟩, none, .i32, .rne, false, false, s0⟩) ∧
    decodeCore 0xC785_0400_0400_0000 = .ok (.vnot ⟨⟨2, .x1⟩, ⟨1, .x1⟩, none, false, s0⟩) ∧
    decodeCore 0xC789_1006_2700_0200 = .ok (.vmov ⟨⟨4, .x1⟩, ⟨4, .x1⟩, some 2, true, s0⟩) ∧
    decodeCore 0xC885_0400_1000_2400 = .ok (.vcvt ⟨⟨2, .x1⟩, ⟨1, .x1⟩, .f32, .bf16, .sr, true, s0⟩) := by decide

/-- Words of 09 R125, opcodes 0xC9 to 0xCE. -/
theorem test_decode_vectorLogic1 :
    decodeCore 0xC985_0648_0000_0000 = .ok (.vand ⟨⟨2, .x1⟩, ⟨1, .x1⟩, ⟨9, .x1⟩, none, false, s0⟩) ∧
    decodeCore 0xC985_0648_0100_0000 = .ok (.vor ⟨⟨2, .x1⟩, ⟨1, .x1⟩, ⟨9, .x1⟩, none, false, s0⟩) ∧
    decodeCore 0xC985_0648_0200_0000 = .ok (.vxor ⟨⟨2, .x1⟩, ⟨1, .x1⟩, ⟨9, .x1⟩, none, false, s0⟩) ∧
    decodeCore 0xCA85_0648_0001_8000 = .ok (.vshl ⟨⟨2, .x1⟩, ⟨1, .x1⟩, ⟨9, .x1⟩, none, .i32, .rne, false, false, s0⟩) ∧
    decodeCore 0xCA85_0648_0101_8000 = .ok (.vshr ⟨⟨2, .x1⟩, ⟨1, .x1⟩, ⟨9, .x1⟩, none, .i32, .rne, false, false, s0⟩) ∧
    decodeCore 0xCA85_0648_0201_8000 = .ok (.vsra ⟨⟨2, .x1⟩, ⟨1, .x1⟩, ⟨9, .x1⟩, none, .i32, .rne, false, false, s0⟩) ∧
    decodeCore 0xCBC3_0A58_0000_4000 = .ok (.vcmpEq ⟨1, 2, 11, none, .bf16, false, s0⟩) ∧
    decodeCore 0xCBC3_0A58_0100_4000 = .ok (.vcmpNe ⟨1, 2, 11, none, .bf16, false, s0⟩) ∧
    decodeCore 0xCBC3_0A58_0200_4000 = .ok (.vcmpLt ⟨1, 2, 11, none, .bf16, false, s0⟩) ∧
    decodeCore 0xCBC3_0A58_0300_4000 = .ok (.vcmpLe ⟨1, 2, 11, none, .bf16, false, s0⟩) ∧
    decodeCore 0xCBC3_0A58_0400_4000 = .ok (.vcmpGt ⟨1, 2, 11, none, .bf16, false, s0⟩) ∧
    decodeCore 0xCBC3_0A58_0500_4000 = .ok (.vcmpGe ⟨1, 2, 11, none, .bf16, false, s0⟩) := by decide

/-- Words of 09 R125, opcodes 0xC9 to 0xCE. -/
theorem test_decode_vectorLogic2 :
    decodeCore 0xCC85_064E_3000_0000 = .ok (.vsel ⟨⟨2, .x1⟩, ⟨1, .x1⟩, ⟨9, .x1⟩, 3, s0⟩) ∧
    decodeCore 0xCD0B_0430_0001_8000 = .ok (.vmvx ⟨.reg 5, 1, .reg 6, .i32, s0⟩) ∧
    decodeCore 0xCE84_1806_1041_8000 = .ok (.vmxv ⟨⟨2, .x2⟩, .reg 6, some 1, .i32, false, s0⟩) := by decide

/-- Words of 09 R125, opcodes 0xD0 to 0xD7. -/
theorem test_decode_vectorAcross1 :
    decodeCore 0xD085_0430_0000_0000 = .ok (.vrotr ⟨⟨2, .x1⟩, ⟨1, .x1⟩, .reg 6, none, false, s0⟩) ∧
    decodeCore 0xD185_0430_0000_0000 = .ok (.vbcr ⟨⟨2, .x1⟩, ⟨1, .x1⟩, .reg 6, none, false, s0⟩) ∧
    decodeCore 0xD485_0430_0000_0000 = .ok (.vrotc ⟨⟨2, .x1⟩, ⟨1, .x1⟩, .reg 6, none, false, s0⟩) ∧
    decodeCore 0xD585_0430_0000_0000 = .ok (.vbcc ⟨⟨2, .x1⟩, ⟨1, .x1⟩, .reg 6, none, false, s0⟩) ∧
    decodeCore 0xD287_1400_0001_8000 = .ok (.vredrAdd ⟨⟨3, .x1⟩, ⟨5, .x1⟩, none, .i32, .rne, false, false, s0⟩) ∧
    decodeCore 0xD287_1400_0101_8000 = .ok (.vredrMin ⟨⟨3, .x1⟩, ⟨5, .x1⟩, none, .i32, .rne, false, false, s0⟩) ∧
    decodeCore 0xD287_1400_0201_8000 = .ok (.vredrMax ⟨⟨3, .x1⟩, ⟨5, .x1⟩, none, .i32, .rne, false, false, s0⟩) ∧
    decodeCore 0xD287_1400_0301_8000 = .ok (.vredrAnd ⟨⟨3, .x1⟩, ⟨5, .x1⟩, none, .i32, .rne, false, false, s0⟩) ∧
    decodeCore 0xD287_1400_0401_8000 = .ok (.vredrOr ⟨⟨3, .x1⟩, ⟨5, .x1⟩, none, .i32, .rne, false, false, s0⟩) ∧
    decodeCore 0xD287_1400_0501_8000 = .ok (.vredrXor ⟨⟨3, .x1⟩, ⟨5, .x1⟩, none, .i32, .rne, false, false, s0⟩) ∧
    decodeCore 0xD387_1400_0001_8000 = .ok (.vscanrAdd ⟨⟨3, .x1⟩, ⟨5, .x1⟩, none, .i32, .rne, false, false, s0⟩) ∧
    decodeCore 0xD387_1400_0101_8000 = .ok (.vscanrMin ⟨⟨3, .x1⟩, ⟨5, .x1⟩, none, .i32, .rne, false, false, s0⟩) := by decide

/-- Words of 09 R125, opcodes 0xD0 to 0xD7. -/
theorem test_decode_vectorAcross2 :
    decodeCore 0xD387_1400_0201_8000 = .ok (.vscanrMax ⟨⟨3, .x1⟩, ⟨5, .x1⟩, none, .i32, .rne, false, false, s0⟩) ∧
    decodeCore 0xD387_1400_0301_8000 = .ok (.vscanrAnd ⟨⟨3, .x1⟩, ⟨5, .x1⟩, none, .i32, .rne, false, false, s0⟩) ∧
    decodeCore 0xD387_1400_0401_8000 = .ok (.vscanrOr ⟨⟨3, .x1⟩, ⟨5, .x1⟩, none, .i32, .rne, false, false, s0⟩) ∧
    decodeCore 0xD387_1400_0501_8000 = .ok (.vscanrXor ⟨⟨3, .x1⟩, ⟨5, .x1⟩, none, .i32, .rne, false, false, s0⟩) ∧
    decodeCore 0xD687_1400_0001_8000 = .ok (.vredcAdd ⟨⟨3, .x1⟩, ⟨5, .x1⟩, none, .i32, .rne, false, false, s0⟩) ∧
    decodeCore 0xD687_1400_0101_8000 = .ok (.vredcMin ⟨⟨3, .x1⟩, ⟨5, .x1⟩, none, .i32, .rne, false, false, s0⟩) ∧
    decodeCore 0xD687_1400_0201_8000 = .ok (.vredcMax ⟨⟨3, .x1⟩, ⟨5, .x1⟩, none, .i32, .rne, false, false, s0⟩) ∧
    decodeCore 0xD687_1400_0301_8000 = .ok (.vredcAnd ⟨⟨3, .x1⟩, ⟨5, .x1⟩, none, .i32, .rne, false, false, s0⟩) ∧
    decodeCore 0xD687_1400_0401_8000 = .ok (.vredcOr ⟨⟨3, .x1⟩, ⟨5, .x1⟩, none, .i32, .rne, false, false, s0⟩) ∧
    decodeCore 0xD687_1400_0501_8000 = .ok (.vredcXor ⟨⟨3, .x1⟩, ⟨5, .x1⟩, none, .i32, .rne, false, false, s0⟩) ∧
    decodeCore 0xD787_1400_0001_8000 = .ok (.vscancAdd ⟨⟨3, .x1⟩, ⟨5, .x1⟩, none, .i32, .rne, false, false, s0⟩) ∧
    decodeCore 0xD787_1400_0101_8000 = .ok (.vscancMin ⟨⟨3, .x1⟩, ⟨5, .x1⟩, none, .i32, .rne, false, false, s0⟩) := by decide

/-- Words of 09 R125, opcodes 0xD0 to 0xD7. -/
theorem test_decode_vectorAcross3 :
    decodeCore 0xD787_1400_0201_8000 = .ok (.vscancMax ⟨⟨3, .x1⟩, ⟨5, .x1⟩, none, .i32, .rne, false, false, s0⟩) ∧
    decodeCore 0xD787_1400_0301_8000 = .ok (.vscancAnd ⟨⟨3, .x1⟩, ⟨5, .x1⟩, none, .i32, .rne, false, false, s0⟩) ∧
    decodeCore 0xD787_1400_0401_8000 = .ok (.vscancOr ⟨⟨3, .x1⟩, ⟨5, .x1⟩, none, .i32, .rne, false, false, s0⟩) ∧
    decodeCore 0xD787_1400_0501_8000 = .ok (.vscancXor ⟨⟨3, .x1⟩, ⟨5, .x1⟩, none, .i32, .rne, false, false, s0⟩) := by decide

/-- Words of 09 R125, opcodes 0xD8 to 0xE8; VTLI, VTLD and VLDQ are words of 15 and 16. -/
theorem test_decode_vectorRest1 :
    decodeCore 0xD889_0BA8_0000_4000 = .ok (.vtli ⟨⟨4, .x1⟩, ⟨2, .x1⟩, 1, none, .bf16, .rne, false, false, s0⟩) ∧
    decodeCore 0xD9E9_B000_0000_0000 = .ok (.vtld ⟨0, 0, s0⟩) ∧
    decodeCore 0xDA85_0648_0000_4000 = .ok (.vpack24 ⟨2, 9, 1, .bf16, s0⟩) ∧
    decodeCore 0xDB85_0648_0000_0000 = .ok (.vunpk24 ⟨2, 1, 9, s0⟩) ∧
    decodeCore 0xDC89_0648_0041_8000 = .ok (.vclmul ⟨2, 1, 9, none, false, s0⟩) ∧
    decodeCore 0xDD85_8400_0001_8000 = .ok (.viota ⟨⟨2, .x1⟩, some 1, none, false, s0⟩) ∧
    decodeCore 0xDE85_0648_0000_0000 = .ok (.vpermr ⟨⟨2, .x1⟩, ⟨1, .x1⟩, ⟨9, .x1⟩, none, false, s0⟩) ∧
    decodeCore 0xE091_B000_0040_0086 = .ok (.vldq ⟨⟨8, .x2⟩, 0, none, false, ⟨false, true, 3⟩⟩) ∧
    decodeCore 0xE1E7_2000_0010_0000 = .ok (.vstq ⟨1, ⟨8, .x2⟩, s0⟩) ∧
    decodeCore 0xE8C3_8B18_0000_0000 = .ok (.mand ⟨1, 2, 3, s0⟩) ∧
    decodeCore 0xE8C3_8B18_0100_0000 = .ok (.mor ⟨1, 2, 3, s0⟩) ∧
    decodeCore 0xE8C3_8B18_0200_0000 = .ok (.mxor ⟨1, 2, 3, s0⟩) := by decide

/-- Words of 09 R125, opcodes 0xD8 to 0xE8; VTLI, VTLD and VLDQ are words of 15 and 16. -/
theorem test_decode_vectorRest2 :
    decodeCore 0xE8C3_8800_0300_0000 = .ok (.mnot ⟨1, 2, s0⟩) ∧
    decodeCore 0xE80B_8800_0400_0000 = .ok (.mpopc ⟨.reg 5, 2, s0⟩) := by decide

/-- Engine words of 09 R128, R129. -/
theorem test_decode_engine1 :
    decodeEngine 0x8004 = .ok (.wLit 4) ∧
    decodeEngine 0x4005 = .ok (.wExt 5) ∧
    decodeEngine 0x0100 = .ok (.wNopw) ∧
    decodeEngine 0x0200 = .ok (.wDup) ∧
    decodeEngine 0x0300 = .ok (.wDrop) ∧
    decodeEngine 0x0400 = .ok (.wXch) ∧
    decodeEngine 0x0500 = .ok (.wOver) ∧
    decodeEngine 0x0802 = .ok (.wShape 2) ∧
    decodeEngine 0x0951 = .ok (.wCopy 0x51) ∧
    decodeEngine 0x0A19 = .ok (.wWalk true 2 1) ∧ decodeEngine 0x0A1D = .ok (.wWalk true 3 1) ∧
    decodeEngine 0x0B03 = .ok (.wHalo 3) ∧
    decodeEngine 0x0C00 = .ok (.wCodecCopy) := by
  decide

/-- Engine words of 09 R128, R129. -/
theorem test_decode_engine2 :
    decodeEngine 0x0C01 = .ok (.wZbmDecode) ∧
    decodeEngine 0x0C02 = .ok (.wZbmEncode) ∧
    decodeEngine 0x0C03 = .ok (.wCb4PassThrough) ∧
    decodeEngine 0x0C04 = .ok (.wLrfExpand) ∧
    decodeEngine 0x0C05 = .ok (.wOsqEncode) ∧
    decodeEngine 0x0C06 = .ok (.wOsqDecode) ∧
    decodeEngine 0x0C07 = .ok (.wE8m0Requantise) ∧
    decodeEngine 0x0C08 = .ok (.wPathLogSeal) ∧
    decodeEngine 0x0C09 = .ok (.wTranspose) ∧
    decodeEngine 0x0C46 = .ok (.wCodecCustom 6) ∧
    decodeEngine 0x0D02 = .ok (.wFoot true false) ∧
    decodeEngine 0x103F = .ok (.wWaits 63) := by
  decide

/-- Engine words of 09 R128, R129. -/
theorem test_decode_engine3 :
    decodeEngine 0x1109 = .ok (.wPosts 9) ∧
    decodeEngine 0x12FF = .ok (.wWaitr 255) ∧
    decodeEngine 0x1300 = .ok (.wPostrPost) ∧
    decodeEngine 0x1301 = .ok (.wPostrThaw) ∧
    decodeEngine 0x1400 = .ok (.wStagePair) ∧
    decodeEngine 0x1401 = .ok (.wStageIteration) ∧
    decodeEngine 0x1402 = .ok (.wStageSlot) ∧
    decodeEngine 0x1507 = .ok (.wRngaWord 7) ∧
    decodeEngine 0x1617 = .ok (.wRngpWord true 7) ∧
    decodeEngine 0x1800 = .ok (.wLinkJump) ∧
    decodeEngine 0x1801 = .ok (.wLinkBoundary) ∧
    decodeEngine 0x1900 = .ok (.wEnd) := by
  decide
/-! ## States -/

/-- The state in which a core word is next (the word also chooses the core). -/
def at_ (w : Nat) : State := State.reset.withFetchWord 64 w

/-- The AC, and the XC, at a NOP. -/
def onAc : State := at_ 0x0100_0000_0000_0000
def onXc : State := { onAc with cur := (⟨0, 0⟩, .xc) }

def withJob (s : State) (f : Job → Job) : State := s.modCell s.cur.1 fun x => { x with job := x.job.map f }
def withCore (s : State) (k : Core) (f : CoreState → CoreState) : State := withJob s fun j => j.setCore k (f (j.core k))
def withRegs (s : State) (k : Core) (l : List (Fin 64 × Word)) : State :=
  withCore s k fun c => { c with regs := l.foldl (fun r e => r.set e.1 ⟨e.2, .none, []⟩) c.regs }
def pv (v : Word) : PVal := ⟨v, .none, []⟩

/-! ## Witnesses: core words that read and write registers and queues -/

theorem witness_no_operand : ∃ h h1, Meets onAc s0 [] h [] h1 ∧ DstFree h1 (.reg 5) := ⟨_, _, ⟨rfl, nofun, rfl, nofun⟩, rfl⟩
theorem witness_registers : ∃ h vs h1, Meets onAc s0 [.reg 3, .reg 4] h vs h1 ∧ DstFree h1 (.reg 63) := ⟨_, _, _, ⟨rfl, nofun, rfl, nofun⟩, rfl⟩
theorem witness_three_registers : ∃ h vs h1, Meets onXc s0 [.reg 3, .reg 0, .reg 3] h vs h1 ∧ DstFree h1 (.reg 0) :=
  ⟨_, _, _, ⟨rfl, nofun, rfl, nofun⟩, rfl⟩
/-- A pop, a peek and a push, with a wait that finds 1 and a post. -/
def queued : State := withJob onXc fun j => { j with
  lq := j.lq.set 1 ⟨[⟨0, some (pv 7)⟩], false, false⟩, sems := j.sems.set 63 ⟨1, []⟩ }
theorem witness_queues : ∃ h vs h1, Meets queued ⟨true, true, 63⟩ [.peek 1, .pop 1] h vs h1 ∧ DstFree h1 (.push 1) :=
  ⟨_, _, _, ⟨rfl, fun _ => by decide, rfl, fun _ => by decide⟩, rfl, rfl, by decide⟩
theorem witness_branch : ∃ h vs h1, Meets onAc Sync.zero [.reg 3, .reg 4] h vs h1 ∧ h.st.atLoopEnd = false ∧ Clean vs :=
  ⟨_, _, _, ⟨rfl, nofun, rfl, nofun⟩, rfl, by unfold Clean; decide⟩
theorem witness_jump : ∃ h vs h1, Meets (withRegs onAc .ac [(3, 0x2000)]) s0 [.reg 3] h vs h1 ∧ h.st.atLoopEnd = false ∧ Clean vs ∧
    (nth vs 0).extractLsb' 0 3 = 0 ∧ MayCall h.st 3 :=
  ⟨_, _, _, ⟨rfl, nofun, rfl, nofun⟩, rfl, by unfold Clean; decide, rfl, rfl, by decide, by decide⟩
theorem witness_return : ∃ h h1 r rs, Meets (withCore onAc .ac fun c => { c with calls := [⟨0x2000, 0, List.replicate 8 (pv 9), false⟩] })
    s0 [] h [] h1 ∧ h.st.atLoopEnd = false ∧ h.st.busy = 0 ∧ h.st.calls = r :: rs ∧ r.spilled = false :=
  ⟨_, _, _, _, ⟨rfl, nofun, rfl, nofun⟩, rfl, rfl, rfl, rfl⟩
/-- Inside two loops; the new body ends with that of the inner one. -/
def looped : State := withCore onAc .ac fun c => { c with loops := [⟨0x1000, 0x1018, 2, 0⟩, ⟨0x1000, 0x1020, 2, 0⟩] }
theorem witness_loop : ∃ h vs h1, Meets looped s0 (tripSrcs (.reg 3)) h vs h1 ∧ h.st.loops.length < 3 ∧ h.st.atLoopEnd = false ∧
    (∀ e es, h.st.loops = e :: es → e.depth = h.st.calls.length → (h.st.pc + 8 * (3 : BitVec 32).setWidth 64).toNat ≤ e.last.toNat) ∧
    Clean vs ∧ nth vs 0 = 0 := by
  refine ⟨_, _, _, ⟨rfl, nofun, rfl, nofun⟩, by decide, rfl, ?_, by unfold Clean; decide, rfl⟩
  intro e es he _
  obtain ⟨rfl, -⟩ := List.cons.inj he
  decide
theorem witness_loop_mailbox : ∃ h vs h1, Meets onXc s0 (tripSrcs (.mbox 7)) h vs h1 ∧ h.st.loops.length < 3 ∧ h.st.atLoopEnd = false ∧
    h.st.loops = [] ∧ Clean vs := ⟨_, _, _, ⟨rfl, nofun, rfl, nofun⟩, by decide, rfl, rfl, by unfold Clean; decide⟩
theorem witness_endCheck : ∃ t : LoopRec, t.last = 0x1018 ∧ t.depth = 2 ∧ t.count = 1 := ⟨⟨0x1000, 0x1018, 1, 2⟩, rfl, rfl, rfl⟩
theorem witness_endCheck_again : ∃ t : LoopRec, t.last = 0x1018 ∧ t.depth = 2 ∧ t.count ≠ 1 := ⟨⟨0x1000, 0x1018, 2, 2⟩, rfl, rfl, by decide⟩
/-- A stream in region `r`, the last two iterations of a trip of two. -/
def inRegion (k : Core) (r : Nat) : State := withCore (if k = .ac then onAc else onXc) k fun c => { c with region := r }
theorem witness_kloop : ∃ h h1, Meets (inRegion .xc 2) s0 [] h [] h1 ∧ h.jb.inKernel h.region = true ∧ 0 = h.st.kps.stg ∧
    h.st.flat = true ∧ h.region < h.jb.committed + 3 := ⟨_, _, ⟨rfl, nofun, rfl, nofun⟩, rfl, rfl, rfl, by decide⟩
theorem witness_kloop_stalls : ∃ h h1, Meets (withJob (inRegion .ac 3) fun j => { j with trip := .counted 3 }) s0 [] h [] h1 ∧
    h.jb.inKernel h.region = true ∧ 0 = h.st.kps.stg ∧ h.st.flat = true ∧ h.jb.committed + 3 ≤ h.region :=
  ⟨_, _, ⟨rfl, nofun, rfl, nofun⟩, rfl, rfl, rfl, by decide⟩
theorem witness_tdone : ∃ h h1, Meets (withJob (inRegion .ac 3) fun j => { j with committed := 1 }) s0 [] h [] h1 ∧
    h.jb.inEpilogue h.region = true ∧ h.st.flat = true ∧ h.region < h.jb.committed + 3 :=
  ⟨_, _, ⟨rfl, nofun, rfl, nofun⟩, rfl, rfl, by decide⟩
theorem witness_rdv : ∃ h h1, Meets onAc s0 [] h [] h1 ∧ h.st.granted = false := ⟨_, _, ⟨rfl, nofun, rfl, nofun⟩, rfl⟩
theorem witness_rdv_met : ∃ h h1, Meets (withCore onAc .ac fun c => { c with granted := true }) s0 [] h [] h1 ∧ h.st.granted = true :=
  ⟨_, _, ⟨rfl, nofun, rfl, nofun⟩, rfl⟩
theorem witness_csrw : ∃ h vs h1, Meets onAc s0 [.reg 3] h vs h1 ∧ Clean vs ∧ h.region = 0 :=
  ⟨_, _, _, ⟨rfl, nofun, rfl, nofun⟩, by unfold Clean; decide, rfl⟩
/-- A ring of one slot of one slab, in the last slab of the program part. -/
theorem witness_csrw_ring : ∃ h vs h1, Meets (withRegs onAc .ac [(3, 1023 * 2 + 2 ^ 15)]) s0 [.reg 3] h vs h1 ∧ Clean vs ∧
    (nth vs 0).extractLsb' 15 8 ≠ 0 ∧ ((nth vs 0).extractLsb' 1 10).toNat + 1 ≤ h.jb.hdr.slabs - h.jb.hdr.wsa - h.jb.hdr.wsx :=
  ⟨_, _, _, ⟨rfl, nofun, rfl, nofun⟩, by unfold Clean; decide, by decide, by decide⟩
theorem witness_trap : ∃ h, queued.here = some h ∧ (h.waits ⟨true, true, 63⟩ = true → 1 ≤ h.semView 63) := ⟨_, rfl, fun _ => by decide⟩
/-- Two entries in lq1. -/
def twoQueued : State := withJob onXc fun j => { j with lq := j.lq.set 1 ⟨[⟨0, some (pv 7)⟩, ⟨0, some (pv 8)⟩], false, false⟩ }
theorem witness_reads_operands : ∃ h e e', twoQueued.here = some h ∧ h.st.isBusy 63 = false ∧ h.st.latch = [] ∧
    h.jb.lq[(1 : BitVec 2).toFin].ents = [e, e'] ∧ e.data = some (pv 7) ∧ e'.data = some (pv 8) := ⟨_, _, _, rfl, rfl, rfl, rfl, rfl, rfl⟩
/-- The numbers of 03: the largest E4M3 is 448 (R39) and 465 lies beyond its last half step; 464 on it; 2^-10 half the least subnormal
of E4M3; -1.5 between two I8; 0x7F is no finite E4M3 (R40). -/
theorem witness_numbers_range : codeRat fmtE4M3 (largest fmtE4M3) = 448 ∧ codeRat fmtE4M3 (largest fmtE4M3) < |ratOf true 465 0| ∧
    |ratOf true 448 0| ≤ codeRat fmtE4M3 (largest fmtE4M3) ∧ codeRat fmtE2M1 (largest fmtE2M1) = 6 ∧ ratOf false 1 (-10) < minNormal fmtE4M3 := by
  decide +kernel
theorem witness_numbers_codes : FinCode fmtE4M3 0x7E ∧ ¬FinCode fmtE4M3 0x7F ∧ FinCode fmtE5M2 0xFB ∧ ¬FinCode fmtE5M2 0x7C ∧
    fmtE4M3 ∈ formats ∧ fmtE2M1 ∈ formats := by decide +kernel
/-- The gap of 1.0 and 1.125 in E4M3, and a number in it. -/
theorem witness_numbers_gap : FinCode fmtE4M3 0x38 ∧ FinCode fmtE4M3 0x39 ∧ codeRat fmtE4M3 0x38 < ratOf false 33 (-5) ∧
    ratOf false 33 (-5) < codeRat fmtE4M3 0x39 ∧
    ∀ c, FinCode fmtE4M3 c → codeRat fmtE4M3 c ≤ codeRat fmtE4M3 0x38 ∨ codeRat fmtE4M3 0x39 ≤ codeRat fmtE4M3 c := by
  refine ⟨by decide +kernel, by decide +kernel, by decide +kernel, by decide +kernel, fun c h => ?_⟩
  have hc : c < 256 := h.1
  revert h
  have := (by decide +kernel : ∀ c : Fin 256, FinCode fmtE4M3 c → codeRat fmtE4M3 c ≤ codeRat fmtE4M3 0x38 ∨ codeRat fmtE4M3 0x39 ≤ codeRat fmtE4M3 c)
  exact this ⟨c, hc⟩
theorem witness_numbers_int : RoundedInt (.mode .rne) (ratOf true 3 (-1)) (-2) ∧ RoundedInt (.sr (2 ^ 31 - 1)) (ratOf true 3 (-1)) (-1) ∧
    RoundedInt (.sr (2 ^ 31)) (ratOf true 3 (-1)) (-2) := by
  refine ⟨.inr ⟨by decide +kernel, by decide⟩, by show (_ : Int) = _; decide +kernel, by show (_ : Int) = _; decide +kernel⟩
def poisoned (a b : Poison) : State := withCore onAc .ac fun c => { c with regs := (c.regs.set 3 ⟨0x2000, a, []⟩).set 4 ⟨0, b, []⟩ }
/-- Branch operands of which ra, or rb, carries the more severe kind. -/
theorem witness_branch_poison (a b : Poison) : ∃ h h1, Meets (poisoned a b) Sync.zero [.reg 3, .reg 4] h [⟨0x2000, a, []⟩, ⟨0, b, []⟩] h1 ∧
    h.st.atLoopEnd = false := by cases a <;> cases b <;> exact ⟨_, _, ⟨rfl, nofun, rfl, nofun⟩, rfl⟩
theorem witness_poison_order : Poison.peer.code ≤ Poison.peer.code ∧ ¬ Poison.data.code ≤ Poison.race.code := by decide
/-- A load in flight will write a5; a frame is spilled. -/
theorem witness_call_stalls : ∃ h vs h1, Meets (withCore (withRegs onAc .ac [(3, 0x2000)]) .ac fun c => { c with busy := 2 ^ 5 }) s0 [.reg 3] h vs h1 ∧
    h.st.atLoopEnd = false ∧ Clean vs ∧ (nth vs 0).extractLsb' 0 3 = 0 ∧ h.st.busy ≠ 0 :=
  ⟨_, _, _, ⟨rfl, nofun, rfl, nofun⟩, rfl, by unfold Clean; decide, rfl, by decide⟩
theorem witness_return_stalls (b : Bool) : ∃ h h1 r rs, Meets (withCore onAc .ac fun c => { c with
      busy := if b then 2 ^ 5 else 0, calls := [⟨0x2000, 0, List.replicate 8 (pv 9), !b⟩] }) s0 [] h [] h1 ∧ h.st.atLoopEnd = false ∧
    h.st.calls = r :: rs ∧ (h.st.busy ≠ 0 ∨ r.spilled = true) :=
  ⟨_, _, _, _, ⟨rfl, nofun, rfl, nofun⟩, rfl, rfl, match b with | true => .inl (by decide) | false => .inr rfl⟩
/-- The last iteration of a counted trip, and of an elastic one, and the iterations before them. -/
theorem witness_kloop_passes : ∃ h g k : Here, (inRegion .xc 2).here = some h ∧ h.jb.inEpilogue (h.region + 1) = true ∧ h.jb.inKernel h.region = true ∧
    (inRegion .ac 1).here = some g ∧ g.jb.inEpilogue (g.region + 1) = false ∧ g.jb.trip = .counted 2 ∧
    (withJob (inRegion .ac 2) fun j => { j with trip := .elastic 15, decisions := [(2, .stop)] }).here = some k ∧ k.jb.inKernel k.region = true ∧
    k.jb.inEpilogue (k.region + 1) = true :=
  ⟨_, _, _, rfl, rfl, rfl, rfl, rfl, rfl, rfl, by decide, by decide⟩
theorem witness_tdone_stalls : ∃ h h1, Meets (inRegion .ac 3) s0 [] h [] h1 ∧ h.jb.inEpilogue h.region = true ∧ h.st.flat = true ∧
    h.jb.committed + 3 ≤ h.region := ⟨_, _, ⟨rfl, nofun, rfl, nofun⟩, rfl, rfl, by decide⟩
/-- A ring of one slot that leaves the program part, and a write of CNT = 0. -/
theorem witness_csrw_ring_outside : ∃ h vs h1, Meets (withRegs onAc .ac [(3, 1023 * 2 + 2 ^ 15 + 2 ^ 11)]) s0 [.reg 3] h vs h1 ∧ Clean vs ∧
    h.jb.hdr.slabs - h.jb.hdr.wsa - h.jb.hdr.wsx < ((nth vs 0).extractLsb' 1 10).toNat +
      ((nth vs 0).extractLsb' 15 8).toNat * (((nth vs 0).extractLsb' 11 4).toNat + 1) :=
  ⟨_, _, _, ⟨rfl, nofun, rfl, nofun⟩, by unfold Clean; decide, by decide⟩
/-- The XC and an elastic AC whose decision is open stand on ring 15, which a write of 0 closes. -/
def ringWaiters : State := withCore (withJob onAc fun j => { j with trip := .elastic 15, ac := { j.ac with region := 1 } }) .xc fun c => { c with
  wait := some (.ringFree 15) }
theorem witness_csrw_ring_ends : ∃ h vs h1, Meets ringWaiters s0 [.reg 3] h vs h1 ∧ Clean vs ∧ (nth vs 0).extractLsb' 15 8 = 0 ∧
    OnRing h1.jb 15 h1.jb.xc.region h1.jb.xc.wait ∧ OnRing h1.jb 15 1 (some .elastic) :=
  ⟨_, _, _, ⟨rfl, nofun, rfl, nofun⟩, by unfold Clean; decide, by decide, .inl rfl, .inr (.inr ⟨rfl, rfl, rfl⟩)⟩

/-! ## Witnesses: accesses, rime, rings, semaphores, queues -/

/-- Every cell of package 0 is live, at clock step 0. -/
def alive (s : State) : State := s.modPkg 0 fun p => { p with
  ready := true, firn := { p.firn with dies := Vector.replicate 2 ⟨0, BitVec.allOnes 96, 0⟩ } }

/-- What a load of `sp` at the address of a3 needs; an access of a store or an atomic needs the same with its own kind. -/
def Loads (s : State) (dst : LdDst) (pl : Nat) (sp : Space) (bytes : Nat) (acc : Acc) : Prop :=
  ∃ h h1 t, Meets s s0 [] h [] h1 ∧ h.k = .ac ∧ LdFree h1 dst ∧ h.st.isBusy 3 = false ∧ (h.reg 3).p = .none ∧
    h1.checkAt sp pl (h.reg 3).v bytes acc = .ok t ∧ HasRoom h1 ⟨7, 0xFF, .acqrel, .fabric⟩
/-- The last doubleword of the program part. -/
theorem witness_load_s : Loads (withRegs onAc .ac [(3, 1024 * 2048 - 8)]) (.reg 63) 0 .s 8 .load :=
  ⟨_, _, _, ⟨rfl, nofun, rfl, nofun⟩, rfl, rfl, rfl, rfl, rfl, by decide, by decide⟩
/-- The last word of the page that the context maps. -/
theorem witness_load_g : Loads (withRegs onAc .ac [(3, 0x1FFFFC)]) (.lq 3) 0 .g 4 .load :=
  ⟨_, _, _, ⟨rfl, nofun, rfl, nofun⟩, rfl, ⟨rfl, rfl, by decide⟩, rfl, rfl, rfl, by decide, by decide⟩
theorem witness_load_n : Loads (alive onAc) (.reg 0) 0 .n 1 .load :=
  ⟨_, _, _, ⟨rfl, nofun, rfl, nofun⟩, rfl, rfl, rfl, rfl, rfl, by decide, by decide⟩
theorem witness_load_f : Loads (alive onAc) (.reg 1) 0 .f 2 .load :=
  ⟨_, _, _, ⟨rfl, nofun, rfl, nofun⟩, rfl, rfl, rfl, rfl, rfl, by decide, by decide⟩
theorem witness_load_c : Loads (alive (withRegs onAc .ac [(3, 0xFC)])) (.reg 1) 0 .c 4 .load :=
  ⟨_, _, _, ⟨rfl, nofun, rfl, nofun⟩, rfl, rfl, rfl, rfl, rfl, by decide, by decide⟩
theorem witness_store_mailbox : Loads (alive (withRegs onAc .ac [(3, 0x10038)])) (.reg 1) 0 .c 8 .store :=
  ⟨_, _, _, ⟨rfl, nofun, rfl, nofun⟩, rfl, rfl, rfl, rfl, rfl, by decide, by decide⟩
theorem witness_atomic_g : Loads (withRegs onAc .ac [(3, 0x1FFFF8)]) (.reg 1) 0 .g 8 .atomic :=
  ⟨_, _, _, ⟨rfl, nofun, rfl, nofun⟩, rfl, rfl, rfl, rfl, rfl, by decide, by decide⟩
/-- An atomic of N carries its place, 0:0:0, in its base. -/
theorem witness_atomic_n : ∃ h t, (alive (withRegs onAc .ac [(3, 0x100)])).here = some h ∧ AtomicAt h .n (h.reg 3).v 4 t :=
  ⟨_, _, rfl, rfl, by decide, rfl⟩
theorem witness_row_load : ∃ h t, (withRegs onAc .ac [(3, 0x1FFF00)]).here = some h ∧ h.jb.xc.live = true ∧
    h.jb.lqRow[3].ending = false ∧ h.jb.lqRow[3].ents.length < 32 ∧ h.checkAt .g 0 (h.reg 3).v 256 .load = .ok t :=
  ⟨_, _, rfl, rfl, rfl, by decide, rfl⟩
/-- A scalar and a row that the XC has pushed. -/
def pushed : State := withJob onAc fun j => { j with
  sq := j.sq.set 1 ⟨[⟨0, some (pv 7)⟩], false, false⟩, sqRow := j.sqRow.set 1 ⟨[⟨0, some RowVal.zero⟩], false, false⟩ }
theorem witness_store_sq : ∃ h d sq t, pushed.here = some h ∧ StoreData h (.sq 1) d sq ∧ d.p = .none ∧
    h.checkAt .s 0 (h.reg 3).v 8 .store = .ok t := ⟨_, _, _, _, rfl, .inr ⟨rfl, _, _, rfl, rfl, rfl⟩, rfl, rfl⟩
theorem witness_store_register : ∃ h d sq, pushed.here = some h ∧ StoreData h (.reg 4) d sq := ⟨_, _, _, rfl, rfl, rfl, rfl⟩
theorem witness_row_store : ∃ h r sq t, pushed.here = some h ∧ RowData h 1 r sq ∧ (∀ p ∈ r.p.toList, p = .none) ∧
    h.checkAt .s 0 (h.reg 3).v 256 .store = .ok t :=
  ⟨_, RowVal.zero, _, _, rfl, .inr ⟨rfl, _, _, rfl, rfl, rfl⟩, by decide, rfl⟩
theorem witness_scratchpad : ∃ j : Job, (j.hdr.slabs - j.hdr.wsa - j.hdr.wsx) * 2048 = 2 ^ 21 ∧
    checkS j (2 ^ 21 - 8) 8 = .ok (.carve (2 ^ 21 - 8)) ∧ checkS j (2 ^ 21) 8 = .error (.page .bounds) ∧
    checkS j 4 8 = .error (.page .alignment) := ⟨placeJob 1 0, rfl, rfl, rfl, rfl⟩

/-- What a rime word on the slab at a3 needs. -/
def Slab (s : State) : Prop := ∃ h h1, Meets s s0 [] h [] h1 ∧ h.st.isBusy 3 = false ∧ (h.reg 3).p = .none ∧ SlabAt h (h.reg 3).v ∧
  HasRoom h1 ⟨0, 0, .acq, .cell⟩ ∧ Unheld h1 ⟨0, 0, .acq, .cell⟩ (h.reg 3).dep ∧ h.st.granted = false ∧
  predsDone h1.ce.ops (h1.preds ⟨0, 0, .rel, .cell⟩ (h.reg 3).dep) = true
def tagged (t : Tag) : State := withJob (withRegs onAc .ac [(3, 1023 * 2048)]) fun j => { j with tags := [(1023, t)] }
theorem witness_rime : Slab (tagged ⟨.full, true, false, 0, 2048, 2048⟩) :=
  ⟨_, _, ⟨rfl, nofun, rfl, nofun⟩, rfl, rfl, ⟨by decide, by decide, by decide⟩, ⟨by decide, by decide⟩, rfl, rfl, rfl⟩
theorem witness_tags : ∃ h g k e, (tagged ⟨.full, true, false, 0, 2048, 2048⟩).here = some h ∧ (h.jb.tag 1023).st = .full ∧
    (tagged ⟨.filling, true, false, 0, 0, 8⟩).here = some g ∧ (g.jb.tag 1023).st = .filling ∧
    (tagged ⟨.error, true, false, 0, 0, 8⟩).here = some e ∧ (e.jb.tag 1023).st = .error ∧
    onAc.here = some k ∧ (k.jb.tag 0).st = .empty := ⟨_, _, _, _, rfl, rfl, rfl, rfl, rfl, rfl, rfl, rfl⟩
/-- Ring 15 with one slot. -/
def ringed (free fill : BitVec 8) (cls : Bool) : State := withJob onAc fun j => { j with rings := j.rings.set 15 ⟨cls, 0, 0, fill, free, 1, 0, 0⟩ }
def Rings (s : State) (P : Ring → Prop) : Prop := ∃ h h1, Meets s s0 [] h [] h1 ∧ h.st.isBusy 5 = false ∧
  HasRoom h1 ⟨0, 0, .acq, .cell⟩ ∧ Unheld h1 ⟨0, 0, .acq, .cell⟩ [] ∧ h.st.granted = false ∧ h.jb.rings[15].cnt ≠ 0 ∧ P h.jb.rings[15]
theorem witness_ring_free : Rings (ringed 1 0 false) fun r => r.cls = false ∧ r.free ≠ 0 ∧ r.fill = 0 :=
  ⟨_, _, ⟨rfl, nofun, rfl, nofun⟩, rfl, ⟨by decide, by decide⟩, rfl, rfl, by decide, rfl, by decide, rfl⟩
theorem witness_ring_full : Rings (ringed 0 1 false) fun r => r.cls = false ∧ r.free = 0 ∧ r.fill ≠ 0 :=
  ⟨_, _, ⟨rfl, nofun, rfl, nofun⟩, rfl, ⟨by decide, by decide⟩, rfl, rfl, by decide, rfl, rfl, by decide⟩
theorem witness_ring_closed : Rings (ringed 1 0 true) fun r => r.cls = true ∧ r.fill = 0 :=
  ⟨_, _, ⟨rfl, nofun, rfl, nofun⟩, rfl, ⟨by decide, by decide⟩, rfl, rfl, by decide, rfl, rfl⟩
theorem witness_ring_publish : ∃ h vs h1, Meets (ringed 254 254 false) s0 [.reg 3] h vs h1 ∧ Clean vs ∧
    (nth vs 0).toNat < h.jb.rings[15].cnt.toNat ∧ h.jb.rings[15].fill.toNat + ringPending h1.ce.due h1.jb 15 true + 1 ≤ 255 ∧
    h.jb.rings[15].free.toNat + ringPending h1.ce.due h1.jb 15 false + 1 ≤ 255 :=
  ⟨_, _, _, ⟨rfl, nofun, rfl, nofun⟩, by unfold Clean; decide, by decide, by decide, by decide⟩
theorem witness_semw : ∃ h h1, Meets queued s0 [] h [] h1 ∧ 1 ≤ h1.semView 63 ∧ h1.semView 62 < 1 ∧ h.st.granted = false :=
  ⟨_, _, ⟨rfl, nofun, rfl, nofun⟩, by decide, by decide, rfl⟩
/-- Semaphore 63 holds 1: an amount of 2^32 - 2 fits, and one of 2^32 - 1 overflows. -/
def amount (v : Word) : State := withRegs queued .xc [(3, v)]
theorem witness_semp : ∃ h vs h1, Meets (amount 0xFFFFFFFE) s0 [.reg 3] h vs h1 ∧ Clean vs ∧
    h1.semView 63 + (nth vs 0).toNat ≤ 2 ^ 32 - 1 ∧ (nth vs 0).toNat < 2 ^ 32 :=
  ⟨_, _, _, ⟨rfl, nofun, rfl, nofun⟩, by unfold Clean; decide, by decide, by decide⟩
theorem witness_semp_overflow : ∃ h vs h1, Meets (amount 0xFFFFFFFF) s0 [.reg 3] h vs h1 ∧ Clean vs ∧
    2 ^ 32 - 1 < h1.semView 63 + (nth vs 0).toNat := ⟨_, _, _, ⟨rfl, nofun, rfl, nofun⟩, by unfold Clean; decide, by decide⟩
theorem witness_semset_overflow : ∃ h vs h1, Meets (amount 0x100000000) s0 [.reg 3] h vs h1 ∧ Clean vs ∧ 2 ^ 32 ≤ (nth vs 0).toNat :=
  ⟨_, _, _, ⟨rfl, nofun, rfl, nofun⟩, by unfold Clean; decide, by decide⟩
/-- What RPOST of `v` needs; the greatest EXP, and one beyond it. -/
theorem witness_rpost (b : Bool) : ∃ h h1, Meets (withJob (withRegs onAc .ac [(3, 1023 * 2048), (4, if b then 2048 else 2049)]) fun j => { j with
      tags := [(1023, ⟨.filling, true, false, 0, 0, 2048⟩)] }) s0 [] h [] h1 ∧ h.st.isBusy 4 = false ∧ (h.reg 4).p = .none ∧ (h.reg 4).v = (if b then 2048 else 2049) ∧
    SlabAt h (h.reg 3).v ∧ (h.jb.tag 1023).pst = false ∧ (h.jb.tag 1023).cnt = 2048 := by
  cases b <;> exact ⟨_, _, ⟨rfl, nofun, rfl, nofun⟩, rfl, rfl, rfl, ⟨by decide, by decide, by decide⟩, rfl, rfl⟩
theorem witness_posted : (2048#64).toNat ≤ 2048 ∧ 2048 < (2049#64).toNat ∧ (2047#64).toNat < (2048#12).toNat := by decide
/-- Semaphore `n` of 62 and 63 holds `v`; a post goes to 63. -/
def full63 (n : Fin 64) (v : Int) : State := withJob (withRegs onAc .ac [(3, 1), (4, 2 ^ 32 - 1), (5, 2 ^ 32 - 2)]) fun j => { j with
  sems := (j.sems.set 63 ⟨0, []⟩).set n ⟨v, []⟩ }
def post63 : Sync := ⟨false, true, 63⟩
/-- SEMW of 63 with a post of 63: the take comes first, and makes room. -/
theorem witness_semw_post : ∃ h h1, Takes (full63 63 (2 ^ 32 - 1)) post63 [] h [] h1 ∧ 1 ≤ h1.semView 63 ∧
    PostFits { h1 with jb := h1.jb.semTake 63 h.region (h.k == Core.xc) } post63 ∧ ¬PostFits h1 post63 :=
  ⟨_, _, ⟨rfl, nofun, rfl⟩, by decide, fun _ => by decide, fun h => absurd (h rfl) (by decide)⟩
/-- SEMW of 62 with a post of 63, which is full. -/
theorem witness_semw_post_overflow : ∃ h h1, Takes (withJob (full63 63 (2 ^ 32 - 1)) fun j => { j with sems := j.sems.set 62 ⟨1, []⟩ }) post63 []
    h [] h1 ∧ 1 ≤ h1.semView 62 ∧ ¬PostFits { h1 with jb := h1.jb.semTake 62 h.region (h.k == Core.xc) } post63 :=
  ⟨_, _, ⟨rfl, nofun, rfl⟩, by decide, fun h => absurd (h rfl) (by decide)⟩
/-- SEMP and SEMSET of 63 with a post of 63: `n` is the register of the amount. -/
def Amounts (n : Fin 64) (P : Here → Here → Word → Prop) : Prop := ∃ h vs h1, Takes (full63 63 0) post63 [.reg (BitVec.ofFin n)] h vs h1 ∧
  Clean vs ∧ h1.semView 63 + (nth vs 0).toNat ≤ 2 ^ 32 - 1 ∧ P h h1 (nth vs 0)
theorem witness_semp_post : Amounts 5 (fun _ h1 v => PostFits (h1.defer (some 0) [] none (.semPost 63 v.toNat)) post63 ∧
      PostFits (h1.defer (some 0) [] none (.semSet 63 v.toNat)) post63) ∧
    Amounts 4 (fun _ h1 v => ¬PostFits (h1.defer (some 0) [] none (.semPost 63 v.toNat)) post63 ∧
      ¬PostFits (h1.defer (some 0) [] none (.semSet 63 v.toNat)) post63) :=
  ⟨⟨_, _, _, ⟨rfl, nofun, rfl⟩, by unfold Clean; decide, by decide, fun _ => by decide, fun _ => by decide⟩,
    ⟨_, _, _, ⟨rfl, nofun, rfl⟩, by unfold Clean; decide, by decide, fun h => absurd (h rfl) (by decide), fun h => absurd (h rfl) (by decide)⟩⟩
theorem witness_semrd : ∃ h h1, Meets queued s0 [] h [] h1 ∧ HasRoom h1 ⟨0, 0, .acq, .cell⟩ ∧ Unheld h1 ⟨0, 0, .acq, .cell⟩ [] ∧
    DstFree h1 (.push 1) := ⟨_, _, ⟨rfl, nofun, rfl, nofun⟩, ⟨by decide, by decide⟩, rfl, rfl, rfl, by decide⟩
theorem witness_semaphore_view : ∃ j : Job, j.deferred = [] ∧ j.me.tasks = [] ∧
    Deferred.ready [] ⟨1, 0, .ac, 0, none, [], none, .semPost 63 1⟩ = true ∧ Deferred.ready [] ⟨1, 0, .ac, 0, none, [], none, .semSet 63 1⟩ = true :=
  ⟨placeJob 1 0, rfl, rfl, rfl, rfl⟩
theorem witness_qflush : ∃ h h1, Meets queued s0 [] h [] h1 ∧ h.st.granted = false ∧ h.jb.qLen (.sq 3) = 0 ∧ h.jb.qLen (.lq 1) ≠ 0 ∧
    h.jb.consumerEnded (.lq 1) = false := ⟨_, _, ⟨rfl, nofun, rfl, nofun⟩, rfl, rfl, by decide, rfl⟩
theorem witness_qflush_ended : ∃ h, (withJob queued fun j => { j with xc := { j.xc with live := false } }).here = some h ∧
    h.jb.qLen (.lq 1) ≠ 0 ∧ h.jb.consumerEnded (.lq 1) = true := ⟨_, rfl, by decide, rfl⟩

/-! ## Witnesses: the vector unit, the matrix engine, the control of chains -/

/-- The last groups of each size. -/
theorem witness_vector : ∃ h h1, Meets onXc s0 [] h [] h1 ∧ Aligned ⟨31, .x1⟩ ∧ Aligned ⟨30, .x2⟩ ∧ Aligned ⟨28, .x4⟩ ∧
    etFmt .i4 = none ∧ etFmt .e5m2 = some fmtE5M2 := ⟨_, _, ⟨rfl, nofun, rfl, nofun⟩, rfl, rfl, rfl, rfl, rfl⟩
theorem witness_vector_register : ∃ h vs h1, Meets onXc s0 [.reg 63] h vs h1 ∧ Aligned ⟨0, .x4⟩ := ⟨_, _, _, ⟨rfl, nofun, rfl, nofun⟩, rfl⟩
theorem witness_vmvx : ∃ h vs h1, Meets onXc s0 [.reg 63] h vs h1 ∧ DstFree h1 (.reg 0) := ⟨_, _, _, ⟨rfl, nofun, rfl, nofun⟩, rfl⟩
theorem witness_mpopc : ∃ h h1, Meets onXc s0 [] h [] h1 ∧ DstFree h1 (.reg 63) := ⟨_, _, ⟨rfl, nofun, rfl, nofun⟩, rfl⟩
/-- Row queue 0 holds `n` rows. -/
def rowed (n : Nat) : State := withJob onXc fun j => { j with lqRow := j.lqRow.set 0 ⟨List.replicate n ⟨0, some RowVal.zero⟩, false, false⟩ }
theorem witness_vtld : ∃ h h1 l, Meets (rowed 9) s0 [] h [] h1 ∧
    (∀ w ∈ h1.jb.async, w.drain = none → w.lq = 0 → w.complete = true) ∧ h.st.rows.length ≤ 9 ∧
    FirstRows h.jb.lqRow[0] (9 - h.st.rows.length) l := ⟨_, _, List.replicate 9 RowVal.zero, ⟨rfl, nofun, rfl, nofun⟩, nofun, by decide, rfl, rfl⟩
/-- A load that has taken four of its rows. -/
theorem witness_vldq : ∃ h h1 l, Meets (withCore (rowed 12) .xc fun c => { c with rows := List.replicate 4 RowVal.zero }) s0 [] h [] h1 ∧
    Aligned ⟨31, .x1⟩ ∧ (∀ w ∈ h1.jb.async, w.drain = none → w.lq = 0 → w.complete = true) ∧ h.st.rows.length ≤ 16 * 1 ∧
    FirstRows h.jb.lqRow[0] (16 * 1 - h.st.rows.length) l :=
  ⟨_, _, List.replicate 12 RowVal.zero, ⟨rfl, nofun, rfl, nofun⟩, rfl, nofun, by decide, rfl, rfl⟩
theorem witness_vldq_detached : ∃ h h1, Meets onXc ⟨false, true, 63⟩ [] h [] h1 := ⟨_, _, ⟨rfl, nofun, rfl, fun _ => by decide⟩⟩
/-- A store that has pushed 48 of its 64 rows, into a queue with room for the others. -/
theorem witness_vstq : ∃ h h1, Meets (withCore (withJob onXc fun j => { j with
      sqRow := j.sqRow.set 0 ⟨List.replicate 16 ⟨0, some RowVal.zero⟩, false, false⟩ }) .xc fun c => { c with
      part := 48, rows := List.replicate 64 RowVal.zero }) s0 [] h [] h1 ∧ h.st.rows ≠ [] ∧ h.jb.ac.live = true ∧ h.jb.sqRow[0].ending = false ∧ h.st.part ≤ 16 * 4 ∧ h.jb.sqRow[0].ents.length + (16 * 4 - h.st.part) ≤ 32 :=
  ⟨_, _, ⟨rfl, nofun, rfl, nofun⟩, nofun, rfl, rfl, by decide, by decide⟩

/-- The word of the shadow bank. -/
theorem witness_mcfg : ∃ h h1, Meets (withRegs onAc .ac [(63, -1)]) s0 [] h [] h1 ∧ Base h 63 := ⟨_, _, ⟨rfl, nofun, rfl, nofun⟩, rfl, rfl⟩
/-- No chain on either engine. -/
def noChains (s : State) : State := withJob s fun j => { j with ce0 := { j.ce0 with chain := none }, ce1 := { j.ce1 with chain := none } }
/-- The last 256 bytes of the program part. -/
theorem witness_mcfgs : ∃ h h1, Meets (noChains (withRegs onAc .ac [(3, 1024 * 2048 - 256)])) s0 [] h [] h1 ∧ Base h 3 ∧ SAt h (h.reg 3).v 256 256 ∧
    HasRoom h1 ⟨7, 0xFF, .acqrel, .fabric⟩ ∧ Unheld h1 ⟨7, 0xFF, .acqrel, .fabric⟩ (h.reg 3).dep ∧ Still h1 (h.reg 3).v.toNat 256 :=
  ⟨_, _, ⟨rfl, nofun, rfl, nofun⟩, ⟨rfl, rfl⟩, ⟨by decide, by decide, by decide⟩, ⟨by decide, by decide⟩, rfl,
    ⟨rfl, rfl, rfl, ⟨rfl, rfl, rfl⟩, ⟨rfl, rfl, rfl⟩, nofun, nofun⟩⟩
theorem witness_mtab : ∃ h h1, Meets (noChains (withRegs onAc .ac [(3, 1024 * 2048 - 1024)])) s0 [] h [] h1 ∧ Base h 3 ∧ SAt h (h.reg 3).v 64 1024 ∧
    HasRoom h1 ⟨0, 0, .acq, .cell⟩ ∧ Unheld h1 ⟨0, 0, .acq, .cell⟩ (h.reg 3).dep ∧ Still h1 (h.reg 3).v.toNat 1024 ∧
    (∀ e ∈ h.jb.me.slotSaves, e.2.1 = 15 → h.region ≤ e.1) :=
  ⟨_, _, ⟨rfl, nofun, rfl, nofun⟩, ⟨rfl, rfl⟩, ⟨by decide, by decide, by decide⟩, ⟨by decide, by decide⟩, rfl,
    ⟨rfl, rfl, rfl, ⟨rfl, rfl, rfl⟩, ⟨rfl, rfl, rfl⟩, nofun, nofun⟩, nofun⟩
/-- A shadow bank whose job multiplies one BF16 by one BF16, with a lag of 2. -/
def lntOf : Vector PVal 32 :=
  (((Vector.replicate 32 (pv 0)).set 0 (pv (2 * 2 ^ 55))).set 2 (pv 1)).set 14 (pv (2 ^ 30)) |>.set 16 (pv (2 ^ 30))
/-- One low job of the matrix engine; the low queue then has `n` jobs. -/
def meOf (n : Nat) : List MeJob := (List.range n).map fun i =>
  ⟨i, false, i, 0, Vector.replicate 32 0, .arrival, 8, i, 0, .queued, [], none, true, Vector.replicate 4 none, 0, [], [], [], [], none⟩
def launched (n : Nat) : State := { withJob onAc fun j => { j with
  me := { j.me with jobs := meOf n, banks := { j.me.banks with shadow := lntOf } } } with nextId := 3 }
theorem witness_mzero : ∃ h h1, Meets (launched 3) s0 [] h [] h1 ∧ h.jb.me.tasks = [] ∧
    (∀ m ∈ h.jb.me.jobs, (launched 3).nextId ≤ m.op ∨ 63 ∉ m.names) ∧ (∀ e ∈ h.jb.me.tileSaves, e.2.1 = 63 → h.region ≤ e.1) :=
  ⟨_, _, ⟨rfl, nofun, rfl, nofun⟩, rfl, fun m hm => .inr (by revert m; decide), nofun⟩
theorem witness_mstat : ∃ h h1, Meets (launched 4) s0 [] h [] h1 ∧ h.st.isBusy 63 = false ∧
    (∀ hi, (h.jb.me.jobs.filter fun m => m.high == hi).length ≤ 4) := ⟨_, _, ⟨rfl, nofun, rfl, nofun⟩, rfl, by decide⟩
theorem witness_mgo : ∃ h h1, Meets (launched 3) s0 [] h [] h1 ∧ HasRoom h1 ⟨1, 1, .acq, .cell⟩ ∧
    (∀ i : Fin 32, h.jb.me.banks.shadow[i].p = .none) ∧
    shapeFault (h.jb.me.banks.shadow.map (·.v)) (fun r => (h.jb.ring r).cnt.toNat) true true none = none ∧
    shapeFault (h.jb.me.banks.shadow.map (·.v)) (fun r => (h.jb.ring r).cnt.toNat) true true (some (-1)) = none ∧
    (h.jb.me.jobs.filter fun m => m.high == false).length < 4 :=
  ⟨_, _, ⟨rfl, nofun, rfl, nofun⟩, ⟨by decide, by decide⟩, by decide, by decide +kernel, by decide +kernel, by decide⟩
/-- The last bytes that an MDRAIN of FP32 fits, and of I4. -/
theorem witness_mdrain : ∃ h h1, Meets (withRegs onAc .ac [(3, 1008 * 2048), (4, 1023 * 2048)]) s0 [] h [] h1 ∧ Base h 3 ∧
    SAt h (h.reg 3).v 64 (512 * vbits .f32) ∧ Base h 4 ∧ SAt h (h.reg 4).v 64 (512 * vbits .e2m1) ∧ HasRoom h1 ⟨0, 0, .rel, .cell⟩ :=
  ⟨_, _, ⟨rfl, nofun, rfl, nofun⟩, ⟨rfl, rfl⟩, ⟨by decide, by decide, by decide⟩, ⟨rfl, rfl⟩, ⟨by decide, by decide, by decide⟩, ⟨by decide, by decide⟩⟩
theorem witness_mdrain_queue : ∃ h h1, Meets onAc s0 [] h [] h1 ∧ h.st.part = 0 ∧ RowRoom h 3 (2 * vbits .bf16) ∧
    HasRoom h1 ⟨0, 0, .rel, .cell⟩ ∧ (∀ t ∈ h.jb.me.tasks, t.id ≠ onAc.nextId) :=
  ⟨_, _, ⟨rfl, nofun, rfl, nofun⟩, rfl, ⟨rfl, rfl, by decide⟩, ⟨by decide, by decide⟩, nofun⟩
theorem witness_mdrain_again : ∃ h, (withCore onAc .ac fun c => { c with part := 33 }).here = some h ∧ h.st.part ≠ 0 ∧
    h.st.part - 1 < 2 * vbits .f32 ∧ RowRoom h 0 (2 * vbits .f32 - (h.st.part - 1)) := ⟨_, rfl, by decide, by decide, rfl, rfl, by decide⟩
theorem witness_mdrain_regs : ∃ h h1, Meets onAc ⟨false, true, 0⟩ [] h [] h1 ∧ HasRoom h1 ⟨0, 0, .rel, .cell⟩ :=
  ⟨_, _, ⟨rfl, nofun, rfl, fun _ => by decide⟩, by decide, by decide⟩
theorem witness_mabort : ∃ h h1, Meets (launched 3) s0 [] h [] h1 ∧ h.jb.me.tasks = [] ∧ (h.jb.me.jobs.map (·.id)).Nodup ∧
    (h.jb.me.jobs.filter fun m => m.high == false).length = 3 := ⟨_, _, ⟨rfl, nofun, rfl, nofun⟩, rfl, by decide, rfl⟩
/-- Three kicks and seven stage entries of the second engine. -/
def kicked : State := withJob (noChains (withRegs onAc .ac [(3, 0x2002)])) fun j => { j with ce1 := { j.ce1 with
  kicks := List.replicate 3 ⟨1, .kicked 1 false, 0x2000, 0, [], Vector.replicate 4 none, [], [], [], false, false, true, none⟩
  stage := List.replicate 7 (0, 0) } }
theorem witness_kick : ∃ h h1, Meets kicked s0 [] h [] h1 ∧ h.jb.hasStream 1 = false ∧ Base h 3 ∧ (h.reg 3).v.toNat % 2 = 0 ∧
    HasRoom h1 ⟨0, 0, .acq, .cell⟩ ∧ (kicksOf (h.jb.eng 1)).length < 4 :=
  ⟨_, _, ⟨rfl, nofun, rfl, nofun⟩, rfl, ⟨rfl, rfl⟩, by decide, ⟨by decide, by decide⟩, by decide⟩
theorem witness_stage : ∃ h vs h1, Meets kicked s0 [.reg 3, .reg 4] h vs h1 ∧ h.jb.hasStream 1 = false ∧ Clean vs ∧
    (h.jb.eng 1).stage.length < 8 := ⟨_, _, _, ⟨rfl, nofun, rfl, nofun⟩, rfl, by unfold Clean; decide, by decide⟩
theorem witness_cabort : ∃ h h1, Meets kicked s0 [] h [] h1 ∧ h.jb.hasStream 1 = false ∧
    (kicksOf (h.jb.eng 1)).length = 3 := ⟨_, _, ⟨rfl, nofun, rfl, nofun⟩, rfl, rfl⟩

/-! ## Witnesses: the words of chains -/

/-- CE0 at a word of a kicked chain (`k`) or of a stream chain, with stack `l`. -/
def engineSt (k : Bool) (l : List Word) (f : Chain → Chain) (g : Job → Job) : State :=
  let s : State := { State.reset.withFetchWord 16 0x1900 with cur := (⟨0, 0⟩, .ce0) }
  withJob s fun j => g { j with
    ce0 := { j.ce0 with chain := j.ce0.chain.map fun c => f { c with stack := l, role := if k then .kicked 1 false else .stream } } }
def plain (k : Bool) (l : List Word) : State := engineSt k l id id
theorem witness_stack : ∃ h, Chains (plain true (List.replicate 7 1)) h ∧ 1 ≤ h.ch.stack.length ∧ h.ch.stack.length - 1 + 2 ≤ 8 :=
  ⟨_, ⟨rfl, rfl⟩, by decide, by decide⟩
theorem witness_stack_overflow : ∃ h, Chains (plain true (List.replicate 8 1)) h ∧ h.ch.stack.length = 8 := ⟨_, ⟨rfl, rfl⟩, rfl⟩
theorem witness_stack_underflow : ∃ h, Chains (plain false [1]) h ∧ h.ch.stack.length < 2 := ⟨_, ⟨rfl, rfl⟩, by decide⟩
theorem witness_foot : ∃ h n b rest a, Chains (engineSt true [2048, 2 ^ 60 + 2 ^ 21 - 1] (fun c => { c with begun := false }) id) h ∧
    h.ch.begun = false ∧ h.ch.foot.length < 8 ∧ h.ch.stack = n :: b :: rest ∧ rest.length ≤ 8 ∧ n ≠ 0 ∧ EngAt b a ∧ a.sp ≤ 1 :=
  ⟨_, _, _, _, ⟨1, 0, 2 ^ 21 - 1⟩, ⟨rfl, rfl⟩, rfl, by decide, rfl, by decide, by decide, .inr (.inl ⟨rfl, rfl, by decide, rfl⟩), by decide⟩
theorem witness_address_g : EngAt (2 ^ 48 - 1) ⟨0, 0, 2 ^ 48 - 1⟩ := .inl ⟨rfl, rfl, by decide, rfl⟩
theorem witness_address_n : EngAt (2 * 2 ^ 60 + 2 ^ 33 - 1) ⟨2, 2 ^ 12 - 1, 2 ^ 21 - 1⟩ :=
  .inr (.inr (.inl ⟨rfl, by decide, by decide, rfl⟩))
theorem witness_address_f : EngAt (3 * 2 ^ 60 + 2 ^ 58 - 1) ⟨3, 2 ^ 10 - 1, 2 ^ 48 - 1⟩ :=
  .inr (.inr (.inr ⟨rfl, by decide, by decide, rfl⟩))

/-- A dense record of one dimension of 64 bytes. -/
def dense : List Byte :=
  let b : List Byte := [0, 1, 7, 0] ++ List.replicate 28 0 ++ [64, 0, 0, 0] ++ [1, 0, 0, 0, 0, 0, 0, 0] ++ List.replicate 212 0
  let n := shCheck b
  b.take 4 ++ [BitVec.ofNat 8 n, BitVec.ofNat 8 (n / 256)] ++ b.drop 6
theorem witness_shape_good : shGood dense = true ∧ dense.length = 256 := ⟨by decide +kernel, by decide⟩
/-- A record in the scratchpad is read. -/
def shapely : State := engineSt true [2 ^ 60] id fun j => { j with mem := memWrite j.mem 0 dense }
theorem witness_shape : ∃ h w rest a, Chains shapely h ∧ Begins h ∧ h.ch.stack = w :: rest ∧ rest.length ≤ 8 ∧ EngAt w a ∧ a.sp ≤ 1 ∧
    w.toNat % 256 = 0 ∧
    let b : EHere := { h with ch := { h.ch with begun := true } }
    b.close.xRead ⟨b.id, b.e, b.jb.uid, b.who, { b.ch with foot := [] }⟩ a a.off 256 = .ok (dense, false) :=
  ⟨_, _, _, ⟨1, 0, 0⟩, ⟨rfl, rfl⟩, .inl rfl, rfl, by decide, .inr (.inl ⟨rfl, rfl, by decide, rfl⟩), by decide, rfl, by decide +kernel⟩
/-- A copy of the last 64 bytes of a scratchpad onto the last of G. -/
theorem witness_copy : ∃ h d src rest da sa, Chains (plain true [2 ^ 48 - 64, 2 ^ 60 + 2 ^ 21 - 64]) h ∧ Begins h ∧
    h.ch.stack = d :: src :: rest ∧ rest.length ≤ 8 ∧ EngAt d da ∧ EngAt src sa ∧ da.off + 64 * 1 ≤ spaceSize da ∧
    sa.off + 64 * 1 ≤ spaceSize sa :=
  ⟨_, _, _, _, ⟨0, 0, 2 ^ 48 - 64⟩, ⟨1, 0, 2 ^ 21 - 64⟩, ⟨rfl, rfl⟩, .inl rfl, rfl, by decide, .inl ⟨rfl, rfl, by decide, rfl⟩,
    .inr (.inl ⟨rfl, rfl, by decide, rfl⟩), by decide, by decide⟩
/-- With firmware present. -/
def armed (k : Bool) (l : List Word) : State := (plain k l).modPkg 0 fun p => { p with firmware := true }
theorem witness_copy_counted : ∃ h n d src rest da sa, Chains (armed false [2 ^ 48 - 1, 1, 0]) h ∧ Begins h ∧
    h.ch.stack = n :: d :: src :: rest ∧ rest.length ≤ 8 ∧ EngAt d da ∧ EngAt src sa ∧ n ≠ 0 ∧ n.toNat < 2 ^ 48 ∧
    da.off + n.toNat ≤ spaceSize da ∧ sa.off + n.toNat ≤ spaceSize sa ∧ h.pk.firmware = true :=
  ⟨_, _, _, _, _, ⟨0, 0, 1⟩, ⟨0, 0, 0⟩, ⟨rfl, rfl⟩, .inl rfl, rfl, by decide, .inl ⟨rfl, rfl, by decide, rfl⟩,
    .inl ⟨rfl, rfl, by decide, rfl⟩, by decide, by decide, by decide, by decide, rfl⟩
theorem witness_walk : ∃ h d src rest da sa r, Chains (engineSt true [2 ^ 60 + 64, 2 ^ 60] (fun c => { c with
      shapes := Vector.replicate 4 (some dense) }) id) h ∧ Begins h ∧ h.ch.stack = d :: src :: rest ∧ rest.length ≤ 8 ∧ EngAt d da ∧ EngAt src sa ∧
    h.ch.shapes[(3 : Fin 4)] = some r ∧ walkFits r r = true ∧ (sa.sp = 1 ∨ sa.sp = 2) :=
  ⟨_, _, _, _, ⟨1, 0, 64⟩, ⟨1, 0, 0⟩, _, ⟨rfl, rfl⟩, .inl rfl, rfl, by decide, .inr (.inl ⟨rfl, rfl, by decide, rfl⟩),
    .inr (.inl ⟨rfl, rfl, by decide, rfl⟩), rfl, by decide +kernel, .inl rfl⟩
theorem witness_walk_two_shapes_bad : ∃ h, Chains (plain true []) h ∧ h.ch.begun = true ∧ (3 : BitVec 2) ≠ 0 := ⟨_, ⟨rfl, rfl⟩, rfl, by decide⟩
/-- The cell holds 8,192 requests. -/
theorem witness_transfer_stalls : ∃ h, Chains ((plain true [2 ^ 48 - 64, 2 ^ 60 + 2 ^ 21 - 64]).modCell ⟨0, 0⟩ fun x => { x with
      ops := List.replicate 8192 ⟨1, 1, .ac, 0, 0, 0, .plain, .cell, .point, .nowhere, [], .held, 0, none, none, none, false, 0, 0, 1, false⟩ }) h ∧
    Begins h ∧ 8192 ≤ (h.ce.ops.filter fun o => o.status != .complete).length + h.jb.ce0.xfers.length + h.jb.ce1.xfers.length := by
  refine ⟨_, ⟨rfl, rfl⟩, .inl rfl, ?_⟩
  refine Nat.le_trans ?_ (Nat.le_add_right_of_le (Nat.le_add_right _ _))
  show 8192 ≤ (List.filter _ (List.replicate 8192 _)).length
  rw [List.filter_replicate_of_pos rfl, List.length_replicate]
/-- Parameter, destination and source of a routine. -/
def Coded (p d src : Word) (da sa : EAddr) (dAlign : Nat) (dSp : List Nat) (sAlign : Nat) (sSp : List Nat) : Prop :=
  ∃ h, Chains (armed true [p, d, src]) h ∧ Begins h ∧ h.ch.stack = [p, d, src] ∧ EngAt d da ∧ EngAt src sa ∧ da.sp ∈ dSp ∧ sa.sp ∈ sSp ∧
    d.toNat % dAlign = 0 ∧ src.toNat % sAlign = 0 ∧ h.pk.firmware = true
theorem witness_codec_in : Coded 0xFFFF (2 ^ 60 + 64) 4096 ⟨1, 0, 64⟩ ⟨0, 0, 4096⟩ 64 [1] 4096 [0] ∧ (0xFFFF ≠ 0 ∧ 0xFFFF < 2 ^ 16) :=
  ⟨⟨_, ⟨rfl, rfl⟩, .inl rfl, rfl, .inr (.inl ⟨rfl, rfl, by decide, rfl⟩), .inl ⟨rfl, rfl, by decide, rfl⟩, by decide, by decide, rfl, rfl, rfl⟩,
    by decide⟩
theorem witness_codec_out : Coded 0x9FFFF 8192 (2 ^ 60 + 64) ⟨0, 0, 8192⟩ ⟨1, 0, 64⟩ 4096 [0] 64 [1] ∧
    (field 0x9FFFF 0 16 ≠ 0 ∧ field 0x9FFFF 16 4 ≤ 9 ∧ 0x9FFFF < 2 ^ 20) :=
  ⟨⟨_, ⟨rfl, rfl⟩, .inl rfl, rfl, .inl ⟨rfl, rfl, by decide, rfl⟩, .inr (.inl ⟨rfl, rfl, by decide, rfl⟩), by decide, by decide, rfl, rfl, rfl⟩,
    by decide⟩
theorem witness_codec_within : Coded 0x100000000 (2 ^ 60 + 1) (2 ^ 60 + 65) ⟨1, 0, 1⟩ ⟨1, 0, 65⟩ 1 [1] 1 [1] :=
  ⟨_, ⟨rfl, rfl⟩, .inl rfl, rfl, .inr (.inl ⟨rfl, rfl, by decide, rfl⟩), .inr (.inl ⟨rfl, rfl, by decide, rfl⟩), by decide, by decide, rfl, rfl, rfl⟩
theorem witness_codec_parameters : (field 0x500000001 0 16 ≠ 0 ∧ 3 ≤ field 0x500000001 32 4 ∧ field 0x500000001 32 4 ≤ 5 ∧ 0x500000001 < 2 ^ 36) ∧
    (field 0x142000020 0 24 % 32 = 0 ∧ field 0x142000020 24 4 ≤ 2 ∧ 3 ≤ field 0x142000020 28 4 ∧ field 0x142000020 28 4 ≤ 5 ∧
      0x142000020 < 2 ^ 33 ∧ (field 0x142000020 28 4 = 5 → field 0x142000020 32 1 = 0)) ∧
    (field 0x10002 0 2 ≠ 3 ∧ field 0x10002 2 14 = 0 ∧ 0x10002 < 2 ^ 48) := by decide
/-- A custom routine numbered 127. -/
theorem witness_custom : ∃ s h p d src rest da sa k, Chains s h ∧ Begins h ∧ h.ch.stack = p :: d :: src :: rest ∧ rest.length ≤ 8 ∧
    EngAt d da ∧ EngAt src sa ∧ h.pk.routine (64 + 63) h.who.secure = some k :=
  ⟨(plain true [0, 1, 2]).modPkg 0 fun p => { p with routines := [⟨127, false, []⟩] }, _, _, _, _, _, ⟨0, 0, 1⟩, ⟨0, 0, 2⟩, _, ⟨rfl, rfl⟩, .inl rfl, rfl, by decide,
    .inl ⟨rfl, rfl, by decide, rfl⟩, .inl ⟨rfl, rfl, by decide, rfl⟩, rfl⟩
/-- Semaphore 63 of the job at `c`. -/
def counted (c : Int) : State := engineSt true [] id fun j => { j with sems := j.sems.set 63 ⟨c, []⟩ }
theorem witness_waits : ∃ h, Chains (counted 1) h ∧ Begins h ∧ 1 ≤ semView h.ce.ops h.ce.due h.jb 63 ∧
    semView h.ce.ops h.ce.due h.jb 62 < 1 := ⟨_, ⟨rfl, rfl⟩, .inl rfl, by decide, by decide⟩
theorem witness_posts : ∃ h, Chains (counted 0xFFFFFFFE) h ∧ Begins h ∧ Settled h ∧ semView h.ce.ops h.ce.due h.jb 63 < 2 ^ 32 - 1 :=
  ⟨_, ⟨rfl, rfl⟩, .inl rfl, nofun, by decide⟩
/-- The last two slabs, the first FULL. -/
def slabs (t : Tag) : State := engineSt true [2 ^ 60 + 2048 * 1022, 5] id fun j => { j with
  tags := [(1022, ⟨.full, true, false, 0, 2048, 2048⟩), (1023, t)] }
theorem witness_waitr : ∃ h w rest, Chains (slabs ⟨.full, true, false, 0, 2048, 2048⟩) h ∧ Begins h ∧ h.ch.stack = w :: rest ∧ rest.length ≤ 8 ∧
    SlabWord h w 1022 ∧ 1022 + 1 + 1 ≤ h.jb.hdr.slabs - h.jb.hdr.wsa - h.jb.hdr.wsx ∧ (∀ k, k ≤ 1 → (h.jb.tag (1022 + k)).st = .full) :=
  ⟨_, _, _, ⟨rfl, rfl⟩, .inl rfl, rfl, by decide, ⟨rfl, by decide, by decide⟩, by decide, by decide⟩
theorem witness_waitr_blocks : ∃ h w rest, Chains (slabs ⟨.filling, true, false, 0, 0, 8⟩) h ∧ Begins h ∧ h.ch.stack = w :: rest ∧
    SlabWord h w 1022 ∧ (∀ i, i < 1 → (h.jb.tag (1022 + i)).st = .full) ∧ (h.jb.tag (1022 + 1)).st = .filling :=
  ⟨_, _, _, ⟨rfl, rfl⟩, .inl rfl, rfl, ⟨rfl, by decide, by decide⟩, by decide, rfl⟩
theorem witness_waitr_error : ∃ h w rest, Chains (slabs ⟨.error, true, true, 5, 0, 8⟩) h ∧ h.ch.begun = true ∧ h.ch.stack = w :: rest ∧
    SlabWord h w 1022 ∧ 1 ≤ (1 : BitVec 8).toNat ∧ (∀ i, i < 1 → (h.jb.tag (1022 + i)).st = .full) ∧ (h.jb.tag (1022 + 1)).st = .error :=
  ⟨_, _, _, ⟨rfl, rfl⟩, rfl, rfl, ⟨rfl, by decide, by decide⟩, by decide, by decide, rfl⟩
theorem witness_postr : ∃ h n w rest, Chains (engineSt true [2048, 2 ^ 60 + 2048 * 1023] id fun j => { j with
      tags := [(1023, ⟨.filling, true, false, 0, 0, 2048⟩)] }) h ∧ Begins h ∧ h.ch.stack = n :: w :: rest ∧ rest.length ≤ 8 ∧
    SlabWord h w 1023 ∧ Settled h ∧ ((h.jb.tag 1023).post n.toNat).st = .full :=
  ⟨_, _, _, _, ⟨rfl, rfl⟩, .inl rfl, rfl, by decide, ⟨rfl, by decide, by decide⟩, nofun, rfl⟩
theorem witness_thaw : ∃ h w rest, Chains (slabs ⟨.full, true, false, 0, 2048, 2048⟩) h ∧ Begins h ∧ h.ch.stack = w :: rest ∧ rest.length ≤ 8 ∧
    SlabWord h w 1022 ∧ Settled h := ⟨_, _, _, ⟨rfl, rfl⟩, .inl rfl, rfl, by decide, ⟨rfl, by decide, by decide⟩, nofun⟩
/-- Ring 15 with one slot. -/
def slotted (free fill : BitVec 8) (cls : Bool) (l : List Word) : State := engineSt true l id fun j => { j with
  rings := j.rings.set 15 ⟨cls, 0, 0, fill, free, 1, 0, 0⟩ }
theorem witness_rnga (free fill : BitVec 8) (cls : Bool) : ∃ h, Chains (slotted free fill cls []) h ∧ Begins h ∧ h.ch.stack.length < 8 ∧
    (h.jb.rings[15]).cnt ≠ 0 ∧ (h.jb.rings[15]).cls = cls ∧ (h.jb.rings[15]).free = free :=
  ⟨_, ⟨rfl, rfl⟩, .inl rfl, by show 0 < 8; decide, by show (1 : BitVec 8) ≠ 0; decide, rfl, rfl⟩
theorem witness_rngp : ∃ h w rest, Chains (slotted 0 254 false [0]) h ∧ Begins h ∧ h.ch.stack = w :: rest ∧ rest.length ≤ 8 ∧
    (h.jb.rings[15]).cnt ≠ 0 ∧ w.toNat < (h.jb.rings[15]).cnt.toNat ∧ Settled h ∧
    (h.jb.rings[15]).fill.toNat + ringPending h.ce.due h.jb 15 true + 1 ≤ 255 :=
  ⟨_, _, _, ⟨rfl, rfl⟩, .inl rfl, rfl, by decide, by decide, by decide, nofun, by decide⟩
theorem witness_stage_pair : ∃ h a b rest, Chains (engineSt true (List.replicate 6 1) id fun j => { j with
      ce0 := { j.ce0 with stage := [(1, 2)] } }) h ∧ Begins h ∧ h.ch.stack.length ≤ 6 ∧ (h.jb.eng h.e).stage = (a, b) :: rest :=
  ⟨_, _, _, _, ⟨rfl, rfl⟩, .inl rfl, by decide, rfl⟩
theorem witness_stage_blocks : ∃ h, Chains (plain true []) h ∧ Begins h ∧ h.ch.stack.length ≤ 6 ∧ (h.jb.eng h.e).stage = [] ∧
    h.jb.ac.live = true := ⟨_, ⟨rfl, rfl⟩, .inl rfl, by decide, rfl, rfl⟩
/-- The stream chain in region `r` of an elastic job; the AC is in region 2, which has slot 7. -/
def striding (r : Nat) (t : TripSrc) (l : List Word) : State := engineSt false l (fun c => { c with region := r }) fun j => { j with
  trip := t, decisions := [(0, .take 7)], ac := { j.ac with region := 2 } }
theorem witness_stage_slot : ∃ h, Chains (striding 1 (.elastic 15) (List.replicate 7 1)) h ∧ Begins h ∧ h.ch.stack.length ≤ 7 ∧
    h.jb.inKernel h.ch.region = true ∧ h.ch.region < h.jb.ac.region ∧ look h.jb.decisions (h.ch.region - 1) = some (.take 7) :=
  ⟨_, ⟨rfl, rfl⟩, .inr rfl, by decide, by decide, by decide, rfl⟩
theorem witness_stage_prologue : ∃ h, Chains (striding 0 (.elastic 15) []) h ∧ Begins h ∧ h.jb.inKernel h.ch.region = false ∧
    h.jb.inEpilogue h.ch.region = false := ⟨_, ⟨rfl, rfl⟩, .inr rfl, rfl, rfl⟩
theorem witness_link_jump : ∃ h w rest, Chains (plain true [2 ^ 48 - 2]) h ∧ Begins h ∧ h.ch.stack = w :: rest ∧ rest.length ≤ 8 ∧
    w.toNat < 2 ^ 48 ∧ w.toNat % 2 = 0 := ⟨_, _, _, ⟨rfl, rfl⟩, .inl rfl, rfl, by decide, by decide, by decide⟩
/-- What every clause of LINK 1 needs; the header's entries for the kernel and the epilogue are `k` and `e`. -/
def Links (r : Nat) (t : TripSrc) (k e : Word) (P : EHere → Prop) : Prop := ∃ h,
  Chains (withJob (striding r t []) fun j => { j with hdr := { j.hdr with ce0 := #v[0x2000, k, e] } }) h ∧
    h.ch.role = .stream ∧ h.jb.inEpilogue h.ch.region = false ∧ Settled h ∧ h.ch.region < h.jb.committed + 3 ∧ P h
theorem witness_link_epilogue : Links 2 (.counted 2) 0 0x3000 fun h => h.jb.inEpilogue (h.ch.region + 1) = true ∧ h.jb.hdr.ce0[2] ≠ 0 :=
  ⟨_, ⟨rfl, rfl⟩, rfl, rfl, nofun, by decide, rfl, by decide⟩
theorem witness_link_no_epilogue : Links 0 (.counted 0) 0x3000 0 fun h => h.jb.inEpilogue (h.ch.region + 1) = true ∧ h.jb.hdr.ce0[2] = 0 :=
  ⟨_, ⟨rfl, rfl⟩, rfl, rfl, nofun, by decide, rfl, by decide⟩
theorem witness_link_kernel : Links 1 (.counted 2) 0x3000 0 fun h => h.jb.inEpilogue (h.ch.region + 1) = false ∧ h.jb.trip = .counted 2 ∧
    h.jb.hdr.ce0[1] ≠ 0 := ⟨_, ⟨rfl, rfl⟩, rfl, rfl, nofun, by decide, rfl, rfl, by decide⟩
theorem witness_link_no_kernel : Links 2 (.counted 9) 0 0 fun h => h.jb.inEpilogue (h.ch.region + 1) = false ∧ h.jb.trip = .counted 9 ∧
    h.jb.hdr.ce0[1] = 0 := ⟨_, ⟨rfl, rfl⟩, rfl, rfl, nofun, by decide, rfl, rfl, by decide⟩
theorem witness_link_elastic : Links 1 (.elastic 15) 0x3000 0 fun h => h.jb.inEpilogue (h.ch.region + 1) = false ∧
    h.jb.trip = .elastic 15 ∧ look h.jb.decisions (h.ch.region + 1 - 1) = none := ⟨_, ⟨rfl, rfl⟩, rfl, rfl, nofun, by decide, rfl, rfl, rfl⟩
/-- Four regions of the job are uncommitted. -/
theorem witness_link_stalls : ∃ h, Chains (striding 3 (.counted 9) []) h ∧ h.ch.role = .stream ∧ Settled h ∧ h.jb.committed + 3 ≤ h.ch.region ∧
    h.jb.inEpilogue h.ch.region = false := ⟨_, ⟨rfl, rfl⟩, rfl, nofun, by decide, rfl⟩
theorem witness_end : ∃ g h, Chains (plain false [1]) g ∧ g.ch.role = .stream ∧ Settled g ∧ g.ch.region < g.jb.committed + 3 ∧ Chains (plain true [1]) h ∧
    h.ch.role = .kicked 1 false ∧ h.ch.begun = true ∧ Settled h := ⟨_, _, ⟨rfl, rfl⟩, rfl, nofun, by decide, ⟨rfl, rfl⟩, rfl, rfl, nofun⟩

/-! ## Witnesses: tasks, crews, invalidation and sealing, the handler, traps -/

def o0 : OrdF := ⟨0, 0, .acq, .cell⟩
def o1 : OrdF := ⟨7, 0xFF, .acqrel, .fabric⟩
/-- The AC at a NOP with an address or a number in a3. -/
def a3 (v : Word) : State := withRegs onAc .ac [(3, v)]
theorem witness_tspawn : ∃ h h1 t bs, Meets (a3 0x1FFFC0) s0 [] h [] h1 ∧ Base h 3 ∧ { h1.ce with job := some h1.jb }.hasPlace = true ∧
    h1.checkAt .g 0 (h.reg 3).v 64 .load = .ok t ∧ HasRoom h1 o1 ∧ Unheld h1 o1 (h.reg 3).dep ∧
    h1.readNow o1 (h.reg 3).dep (h1.ownTarget t) (h.reg 3).v 64 = (bs, .none) ∧ recordBad bs h1.who.secure = [] :=
  ⟨_, _, _, List.replicate 64 0, ⟨rfl, nofun, rfl, nofun⟩, ⟨rfl, rfl⟩, rfl, rfl, ⟨by decide, by decide⟩, rfl, rfl, rfl⟩
theorem witness_tjoin : ∃ h h1 t bs, Meets (a3 0x1FFFF8) s0 [] h [] h1 ∧ Base h 3 ∧ h1.checkAt .g 0 (h.reg 3).v 8 .load = .ok t ∧
    HasRoom h1 o0 ∧ predsDone h1.ce.ops (h1.preds o0 (h.reg 3).dep) = true ∧ h.st.granted = false ∧
    h1.readNow o0 (h.reg 3).dep (h1.ownTarget t) (h.reg 3).v 8 = (bs, .none) ∧ leNat bs = 0 :=
  ⟨_, _, _, List.replicate 8 0, ⟨rfl, nofun, rfl, nofun⟩, ⟨rfl, rfl⟩, rfl, ⟨by decide, by decide⟩, rfl, rfl, rfl, by decide⟩
/-- The join word is the code word itself. -/
theorem witness_tjoin_waits : ∃ h h1 t bs, Meets (a3 0x1000) s0 [] h [] h1 ∧ Base h 3 ∧ h1.checkAt .g 0 (h.reg 3).v 8 .load = .ok t ∧
    HasRoom h1 o0 ∧ predsDone h1.ce.ops (h1.preds o0 (h.reg 3).dep) = true ∧ h.st.granted = false ∧
    h1.readNow o0 (h.reg 3).dep (h1.ownTarget t) (h.reg 3).v 8 = (bs, .none) ∧ leNat bs ≠ 0 :=
  ⟨_, _, _, [0, 0, 0, 0, 0, 0, 0, 1], ⟨rfl, nofun, rfl, nofun⟩, ⟨rfl, rfl⟩, rfl, ⟨by decide, by decide⟩, rfl, rfl, rfl, by decide⟩
/-- Shadow 15 is bound and has 127 entries open. -/
def shadowed : State := (a3 (1024 * 2048 - 64)).modCell ⟨0, 0⟩ fun x => { x with
  shadows := x.shadows.set 15 ⟨some ⟨1, 0, 0, 64, false⟩, List.replicate 127 [], 0, []⟩ }
theorem witness_pqpush : ∃ h h1 r, Meets shadowed s0 [] h [] h1 ∧ Base h 3 ∧ SAt h (h.reg 3).v 64 64 ∧ h.ce.shadows[15].bind ≠ none ∧
    HasRoom h1 o0 ∧ Unheld h1 o0 (h.reg 3).dep ∧ h1.readS o0 (h.reg 3).dep (h.reg 3).v.toNat 64 = r ∧ (∀ p ∈ r.2, p = Poison.none) ∧
    h1.unsent 15 < 128 :=
  ⟨_, _, (List.replicate 64 0, List.replicate 8 .none), ⟨rfl, nofun, rfl, nofun⟩, ⟨rfl, rfl⟩, ⟨by decide, by decide, by decide⟩, nofun,
    ⟨by decide, by decide⟩, rfl, rfl, by decide, by decide⟩
theorem witness_pqflush : ∃ h h1, Meets shadowed s0 [] h [] h1 ∧ h.ce.shadows[15].bind ≠ none ∧ HasRoom h1 o0 ∧ Unheld h1 o0 [] :=
  ⟨_, _, ⟨rfl, nofun, rfl, nofun⟩, nofun, ⟨by decide, by decide⟩, rfl⟩
theorem witness_tnow : ∃ h h1, Meets onAc s0 [] h [] h1 ∧ HasRoom h1 o1 ∧ Unheld h1 o1 [] ∧ h.st.isBusy 63 = false :=
  ⟨_, _, ⟨rfl, nofun, rfl, nofun⟩, ⟨by decide, by decide⟩, rfl, rfl⟩
theorem witness_tprio : ∃ h h1, Meets (a3 4) s0 [] h [] h1 ∧ Base h 3 ∧ HasRoom h1 o1 ∧ Unheld h1 o1 (h.reg 3).dep ∧
    (h.reg 3).v.extractLsb' 2 62 ≠ 0 := ⟨_, _, ⟨rfl, nofun, rfl, nofun⟩, ⟨rfl, rfl⟩, ⟨by decide, by decide⟩, rfl, by decide⟩

/-- Crew 4095 of the context of the job. -/
def crewOf (c : Crew) : State := (a3 4095).modPkg 0 fun p => p.modCrew 1 4095 fun _ => c
theorem witness_crjoin : ∃ h h1, Meets (a3 4095) s0 [] h [] h1 ∧ Base h 3 ∧ (h.reg 3).v.toNat < 4096 ∧ HasRoom h1 o0 ∧
    Unheld h1 o0 (h.reg 3).dep ∧ (h.pk.crew h.jb.ctx (h.reg 3).v.toNat).members.length < 65535 :=
  ⟨_, _, ⟨rfl, nofun, rfl, nofun⟩, ⟨rfl, rfl⟩, by decide, ⟨by decide, by decide⟩, rfl, by decide⟩
theorem witness_crjoin_full : ∃ h h1, Meets (crewOf { Crew.new 4095 with members := List.replicate 65535 (0, 0) }) s0 [] h [] h1 ∧ Base h 3 ∧
    (∀ m ∈ (h.pk.crew h.jb.ctx (h.reg 3).v.toNat).members, m.1 ≠ h.jb.uid) ∧
    65535 ≤ (h.pk.crew h.jb.ctx (h.reg 3).v.toNat).members.length := by
  refine ⟨_, _, ⟨rfl, nofun, rfl, nofun⟩, ⟨rfl, rfl⟩, ?_, ?_⟩
  · show ∀ m ∈ List.replicate 65535 ((0, 0) : Nat × Nat), m.1 ≠ 1
    intro m hm
    rw [List.eq_of_mem_replicate hm]
    decide
  · show 65535 ≤ (List.replicate 65535 ((0, 0) : Nat × Nat)).length
    exact List.length_replicate.ge
/-- What every clause of CRBAR needs. -/
def Bars (s : State) (P : Here → Crew → Prop) : Prop := ∃ h h1, Meets s s0 [] h [] h1 ∧ Base h 3 ∧ h.st.isBusy 4 = false ∧
  (h.reg 4).p = .none ∧ h.st.isBusy 63 = false ∧ (h.reg 3).v.toNat < 4096 ∧ HasRoom h1 o0 ∧
  predsDone h1.ce.ops (h1.preds o0 (unionOnce (h.reg 3).dep (h.reg 4).dep)) = true ∧ P h (h.pk.crew h.jb.ctx (h.reg 3).v.toNat)
theorem witness_crbar_stranger : Bars (a3 4095) fun h c => h.st.granted = false ∧ (∀ q ∈ c.passed, q.job ≠ h.jb.uid) ∧
    (∀ m ∈ c.members, m.1 ≠ h.jb.uid) :=
  ⟨_, _, ⟨rfl, nofun, rfl, nofun⟩, ⟨rfl, rfl⟩, rfl, rfl, rfl, by decide, ⟨by decide, by decide⟩, rfl, rfl, nofun, nofun⟩
theorem witness_crbar_granted : Bars (withCore (crewOf { Crew.new 4095 with passed := [⟨1, some 0, 0, 0, [7]⟩] }) .ac fun c => { c with
    granted := true }) fun h c => h.st.granted = true ∧ (c.passed.filter fun q => q.job == h.jb.uid).getLast? = some ⟨1, some 0, 0, 0, [7]⟩ :=
  ⟨_, _, ⟨rfl, nofun, rfl, nofun⟩, ⟨rfl, rfl⟩, rfl, rfl, rfl, by decide, ⟨by decide, by decide⟩, rfl, rfl, rfl⟩
theorem witness_crbar_passed : Bars (crewOf { Crew.new 4095 with passed := [⟨1, none, 0, 0, [7]⟩] }) fun h c => h.st.granted = false ∧
    (c.passed.filter fun q => q.job == h.jb.uid && q.region.isNone) = [⟨1, none, 0, 0, [7]⟩] :=
  ⟨_, _, ⟨rfl, nofun, rfl, nofun⟩, ⟨rfl, rfl⟩, rfl, rfl, rfl, by decide, ⟨by decide, by decide⟩, rfl, rfl, rfl⟩
theorem witness_crbar_arrives : Bars (crewOf { Crew.new 4095 with members := [(1, 0)] }) fun h c => h.st.granted = false ∧
    (∀ q ∈ c.passed, q.job ≠ h.jb.uid) ∧ (1, 0) ∈ c.members ∧ 1 = h.jb.uid ∧ (∀ m ∈ c.members, m.1 = h.jb.uid → m.2 ≤ c.gen) :=
  ⟨_, _, ⟨rfl, nofun, rfl, nofun⟩, ⟨rfl, rfl⟩, rfl, rfl, rfl, by decide, ⟨by decide, by decide⟩, rfl, rfl, nofun, by decide, rfl, by decide⟩

theorem witness_tlbinv : ∃ h vs h1, Meets (a3 (2 ^ 48 - 1)) s0 [.reg 3] h vs h1 ∧ Clean vs ∧ (nth vs 0).toNat < 2 ^ 48 ∧ HasRoom h1 o0 ∧
    predsDone h1.ce.ops (h1.preds o0 (joinDep vs)) = true :=
  ⟨_, _, _, ⟨rfl, nofun, rfl, nofun⟩, by unfold Clean; decide, by decide, ⟨by decide, by decide⟩, rfl⟩
/-- A secure context whose one page is a3 to a3 + a4. -/
def sealing (l : List SealRange) : State := (withRegs onAc .ac [(3, 0), (4, 2 ^ 21)]).modPkg 0 fun p => { p with
  ctxs := p.ctxs.map fun c => { c with secure := true, seals := l } }
def Sealing (l : List SealRange) (P : Context → List SealLeaf → Prop) : Prop := ∃ h vs h1 cx ls, Meets (sealing l) s0 [.reg 3, .reg 4] h vs h1 ∧
  Clean vs ∧ HasRoom h1 o0 ∧ predsDone h1.ce.ops (h1.preds o0 (joinDep vs)) = true ∧ h.ctx = some cx ∧ cx.secure = true ∧
  (nth vs 0).toNat = 0 ∧ (nth vs 1).toNat = 2 ^ 21 ∧ h.pk.sealLeaves cx 0 (0 + 2 ^ 21) (2 ^ 21 / 4096) 0 = .ok ls ∧ P cx ls
theorem witness_seal : Sealing [⟨2 ^ 21, 4096, []⟩] fun cx ls => (∀ r ∈ cx.seals, r.base + r.len ≤ 0 ∨ 0 + 2 ^ 21 ≤ r.base) ∧
    (∀ r ∈ cx.seals, ¬(r.base = 0 ∧ r.len = 2 ^ 21)) ∧ cx.seals.length < 64 ∧ (∀ l ∈ ls, l.e.testBit 7 = false) :=
  ⟨_, _, _, _, [_], ⟨rfl, nofun, rfl, nofun⟩, by unfold Clean; decide, ⟨by decide, by decide⟩, rfl, rfl, rfl, rfl, rfl, rfl, by decide, by decide,
    by decide, by decide⟩
theorem witness_seal_again : Sealing [⟨0, 2 ^ 21, []⟩] fun cx _ => ∃ r ∈ cx.seals, r.base = 0 ∧ r.len = 2 ^ 21 :=
  ⟨_, _, _, _, _, ⟨rfl, nofun, rfl, nofun⟩, by unfold Clean; decide, ⟨by decide, by decide⟩, rfl, rfl, rfl, rfl, rfl, rfl, by decide⟩
/-- A handler of job 7. -/
def handling (a : Option Nat) : State := withJob onAc fun j => { j with eretOf := some 7, eretAt := a }
theorem witness_eret : ∃ h h1 u bs q, Meets (handling none) s0 [] h [] h1 ∧ h.jb.eretOf = some u ∧ h.jb.eretAt = none ∧
    (∀ o ∈ h.ce.ops, o.job = h.jb.uid → o.eng = h.k.eng → o.dropped = true ∨ o.status = .complete) ∧
    h1.pk.readG h1.who (h.jb.qrec.task.frame.toNat + 0x0C0) 0x440 .load = .ok (bs, q) ∧ q ≠ .data :=
  ⟨_, _, _, List.replicate 0x440 0, .none, ⟨rfl, nofun, rfl, nofun⟩, rfl, rfl, fun o (ho : o ∈ []) => absurd ho List.not_mem_nil,
    by decide +kernel, by decide⟩
theorem witness_eret_illegal : ∃ g h, onAc.here = some g ∧ g.jb.eretOf = none ∧ (handling (some 0)).here = some h ∧ h.jb.eretAt ≠ none :=
  ⟨_, _, rfl, rfl, rfl, nofun⟩
/-- A task, a handler before the commit of its ERET and one after it. -/
theorem witness_halt : ∃ h h1, Meets onXc s0 [] h [] h1 ∧ h.jb.eretOf = none := ⟨_, _, ⟨rfl, nofun, rfl, nofun⟩, rfl⟩
theorem witness_halt_handler : ∃ g h v, (handling (some 0)).here = some g ∧ g.jb.eretOf = some v ∧ g.jb.eretAt.any (· < g.jb.committed) = false ∧
    (withJob (handling (some 0)) fun j => { j with committed := 1 }).here = some h ∧ h.jb.eretAt.any (· < h.jb.committed) = true :=
  ⟨_, _, _, rfl, rfl, by decide, rfl, by decide⟩
/-- A job in crew 4095 that halts as one that has arrived. -/
theorem witness_halt_crew : ∃ h cx, (crewOf { Crew.new 4095 with members := [(1, 0), (2, 0)], arrived := [(1, 0, some 7)] }).here = some h ∧
    h.pk.ctx h.jb.ctx = some cx ∧ ∃ c ∈ cx.crews, (1, 0) ∈ c.members := ⟨_, _, rfl, rfl, _, List.mem_cons_self .., by decide⟩
theorem witness_control_at_loop_end : ∃ h, (withCore onAc .ac fun c => { c with loops := [⟨0x1000, 0x1000, 2, 0⟩] }).here = some h ∧
    h.st.atLoopEnd = true ∧ h.st.flat = false := ⟨_, rfl, rfl, rfl⟩
theorem witness_misaligned : ∃ h vs h1, Meets (a3 0x2004) s0 [.reg 3] h vs h1 ∧ h.st.atLoopEnd = false ∧ Clean vs ∧
    (nth vs 0).extractLsb' 0 3 ≠ 0 := ⟨_, _, _, ⟨rfl, nofun, rfl, nofun⟩, rfl, by unfold Clean; decide, by decide⟩
theorem witness_poisoned_target : ∃ h vs h1, Meets (withCore onAc .ac fun c => { c with regs := c.regs.set 3 ⟨0x2000, .peer, []⟩ }) s0 [.reg 3] h vs h1 ∧
    h.st.atLoopEnd = false ∧ ((h.reg 3).p = .race ∨ (h.reg 3).p = .peer) := ⟨_, _, _, ⟨rfl, nofun, rfl, nofun⟩, rfl, .inr rfl⟩
theorem witness_out_of_place : ∃ h, onAc.here = some h ∧ h.st.calls = [] ∧ h.jb.inKernel h.region = false ∧ h.jb.inEpilogue h.region = false :=
  ⟨_, rfl, rfl, rfl, rfl⟩
theorem witness_loops_full : ∃ h, (withCore onAc .ac fun c => { c with loops := List.replicate 3 ⟨0x1000, 0x2000, 2, 0⟩ }).here = some h ∧
    3 ≤ h.st.loops.length := ⟨_, rfl, by decide⟩
theorem witness_loop_past_end : ∃ h e es, looped.here = some h ∧ h.st.loops = e :: es ∧ e.depth = h.st.calls.length ∧
    e.last.toNat < (h.st.pc + 8 * (4 : BitVec 32).setWidth 64).toNat := ⟨_, _, _, rfl, rfl, rfl, by decide⟩
theorem witness_csrw_kps : ∃ h, (inRegion .xc 1).here = some h ∧ h.region ≠ 0 := ⟨_, rfl, by decide⟩

/-! ## Witnesses: the events of operations, of waits and of the job of a cell -/

def c0 : CellId := ⟨0, 0⟩
theorem none_in {α : Type} {P : α → Prop} : ∀ x ∈ ([] : List α), P x := fun _ h => absurd h List.not_mem_nil
/-- An operation of the placed job on cell 0, 160 clk after its issue. -/
def opOf (st : OpStatus) (what : OpWhat) (t : Target) : MemOp :=
  ⟨5, 1, .ac, 0, 3, 0, .plain, .cell, what, t, [], st, 0, none, none, none, false, 0, 0, 1, false⟩
def aged (clk : Nat) (s : State) : State := s.modPkg 0 fun p => { p with dies := p.dies.set 0 { p.dies[0] with clk := clk } }
def onCell (s : State) (f : CellState → CellState) : State := s.modCell c0 f
def op1 (o : MemOp) : State := onCell (aged 160 (alive onAc)) fun x => { x with ops := [o] }
def opened (o : MemOp) (P : Package → CellState → Prop) : Prop := ∃ p x, HasOp (op1 o) c0 p x o ∧ P p x
def heldStore (t : Target) : MemOp := opOf .held (.store (List.replicate 8 7) false) t
theorem witness_departure_early : ∃ p x, HasOp (onCell (aged 159 onAc) fun x => { x with ops := [heldStore (.hbm 0 0 false)] }) c0 p x
    (heldStore (.hbm 0 0 false)) ∧ p.clkOf c0.cell < 0 + 160 := ⟨_, _, ⟨⟨rfl, rfl⟩, rfl⟩, by decide⟩
theorem witness_departure : opened (heldStore (.hbm 0 0 false)) fun p x => 0 + 160 ≤ p.clkOf c0.cell ∧
    (∀ q ∈ x.ops.takeWhile (fun q => q.id != 5), q.job = 1 → q.eng = .ac → q.os = 3 → q.status ≠ .held) ∧
    (heldStore (.hbm 0 0 false)).target.leavesDie c0.cell = false := ⟨_, _, ⟨⟨rfl, rfl⟩, rfl⟩, by decide, none_in, rfl⟩
theorem witness_departure_stamped : opened (heldStore (.cell 96 0)) fun p _ => (heldStore (.cell 96 0)).writes = true ∧
    (heldStore (.cell 96 0)).target.leavesDie c0.cell = true ∧ ∃ d, p.dies[dieOf c0.cell]? = some d :=
  ⟨_, _, ⟨⟨rfl, rfl⟩, rfl⟩, rfl, rfl, _, rfl⟩
/-- A store of the last bytes of its page. -/
def leftStore : MemOp := opOf .left (.store (List.replicate 8 7) false) (.hbm (256 * 2 ^ 21 + 0x1FFFF8) 0x1FFFF8 false)
theorem witness_store_performed : opened leftStore fun p x => Arrives (op1 leftStore) p x leftStore ∧
    p.migrating ⟨1, false, some c0.cell⟩ 0x1FFFF8 = false ∧ Memory.wf p.hbm = true :=
  ⟨_, _, ⟨⟨rfl, rfl⟩, rfl⟩, ⟨rfl, rfl, rfl, rfl⟩, rfl, rfl⟩
def leftCas (cmp : Word) : MemOp := opOf .left (.atomic .cas false 5 cmp false (.reg 63)) (.hbm (256 * 2 ^ 21 + 0x1FFFFC) 0x1FFFFC true)
theorem witness_atomic_performed : opened (leftCas 1) fun p x => Arrives (op1 (leftCas 1)) p x (leftCas 1) ∧
    ctagFmt (p.ctag ((256 * 2 ^ 21 + 0x1FFFFC) / 4096)) = 0 ∧ p.migrating ⟨1, false, some c0.cell⟩ 0x1FFFFC = false ∧
    Memory.wf p.hbm = true ∧ marked p.marks (256 * 2 ^ 21 + 0x1FFFFC) 4 = false :=
  ⟨_, _, ⟨⟨rfl, rfl⟩, rfl⟩, ⟨rfl, rfl, rfl, rfl⟩, by decide +kernel, rfl, rfl, rfl⟩
theorem witness_cas_cases : atomicTable .cas 0#32 5 0 = some 5 ∧ atomicTable .cas 0#32 5 1 = none := ⟨rfl, rfl⟩
/-- A counting store into the last slab, whose tag is `t`. -/
def countingStore : MemOp := opOf .left (.store (List.replicate 8 7) true) (.carve (1024 * 2048 - 8))
def counting (t : Tag) : State := onCell (op1 countingStore) fun x => { x with job := x.job.map fun j => { j with tags := [(1023, t)] } }
def Counts (t : Tag) (P : Job → Prop) : Prop := ∃ p x j, RunsAt (counting t) c0 p x j ∧ HasOp (counting t) c0 p x countingStore ∧
  Arrives (counting t) p x countingStore ∧ countingStore.job = j.uid ∧ (1024 * 2048 - 8) / 2048 = (1024 * 2048 - 8 + 8 - 1) / 2048 ∧
  Memory.wf j.mem = true ∧ P j
theorem witness_counting_more : Counts ⟨.filling, true, true, 0, 2048, 2032⟩ fun j => (j.tag 1023).st = .filling ∧ (j.tag 1023).pst = true ∧
    (j.tag 1023).cnt.toNat + 8 < (j.tag 1023).exp.toNat :=
  ⟨_, _, _, ⟨⟨rfl, rfl⟩, rfl⟩, ⟨⟨rfl, rfl⟩, rfl⟩, ⟨rfl, rfl, rfl, rfl⟩, rfl, rfl, rfl, rfl, rfl, by decide⟩
theorem witness_counting_full : Counts ⟨.filling, true, true, 0, 2048, 2040⟩ fun j => (j.tag 1023).st = .filling ∧ (j.tag 1023).pst = true ∧
    (j.tag 1023).cnt.toNat + 8 = (j.tag 1023).exp.toNat :=
  ⟨_, _, _, ⟨⟨rfl, rfl⟩, rfl⟩, ⟨⟨rfl, rfl⟩, rfl⟩, ⟨rfl, rfl, rfl, rfl⟩, rfl, rfl, rfl, rfl, rfl, by decide⟩
theorem witness_counting_first : Counts ⟨.filling, true, false, 0, 0, 2040⟩ fun j => (j.tag 1023).st = .filling ∧ (j.tag 1023).pst = false ∧
    (j.tag 1023).cnt.toNat + 8 ≤ 2048 :=
  ⟨_, _, _, ⟨⟨rfl, rfl⟩, rfl⟩, ⟨⟨rfl, rfl⟩, rfl⟩, ⟨rfl, rfl, rfl, rfl⟩, rfl, rfl, rfl, rfl, rfl, by decide⟩
/-- A count beyond EXP, an arrival on FULL, more than 2,048 bytes before a post, an arrival on ERROR, and one in the clk of a post. -/
theorem witness_counting_fails : Counts ⟨.filling, true, true, 0, 2047, 2040⟩ (fun j => (j.tag 1023).st = .filling ∧ (j.tag 1023).pst = true ∧
      (j.tag 1023).exp.toNat < (j.tag 1023).cnt.toNat + 8) ∧
    Counts ⟨.full, true, true, 0, 2048, 2048⟩ (fun j => (j.tag 1023).st = .full) ∧
    Counts ⟨.filling, true, false, 0, 0, 2041⟩ (fun j => (j.tag 1023).st = .filling ∧ (j.tag 1023).pst = false ∧
      2048 < (j.tag 1023).cnt.toNat + 8) ∧
    Counts ⟨.error, true, false, 1, 0, 4087⟩ (fun j => (j.tag 1023).st = .error ∧ (j.tag 1023).cnt.toNat + 8 < 4096) :=
  ⟨⟨_, _, _, ⟨⟨rfl, rfl⟩, rfl⟩, ⟨⟨rfl, rfl⟩, rfl⟩, ⟨rfl, rfl, rfl, rfl⟩, rfl, rfl, rfl, rfl, rfl, by decide⟩,
    ⟨_, _, _, ⟨⟨rfl, rfl⟩, rfl⟩, ⟨⟨rfl, rfl⟩, rfl⟩, ⟨rfl, rfl, rfl, rfl⟩, rfl, rfl, rfl, rfl⟩,
    ⟨_, _, _, ⟨⟨rfl, rfl⟩, rfl⟩, ⟨⟨rfl, rfl⟩, rfl⟩, ⟨rfl, rfl, rfl, rfl⟩, rfl, rfl, rfl, rfl, rfl, by decide⟩,
    ⟨_, _, _, ⟨⟨rfl, rfl⟩, rfl⟩, ⟨⟨rfl, rfl⟩, rfl⟩, ⟨rfl, rfl, rfl, rfl⟩, rfl, rfl, rfl, rfl, by decide⟩⟩
theorem witness_counting_posted : ∃ p x j, RunsAt (withJob (counting ⟨.filling, true, true, 0, 2048, 2040⟩) fun j => { j with posts := [(1023, 160)] })
    c0 p x j ∧ look j.posts 1023 = some (p.clkOf c0.cell) := ⟨_, _, _, ⟨⟨rfl, rfl⟩, rfl⟩, rfl⟩
theorem witness_counting_unposted : Counts ⟨.filling, true, true, 0, 2048, 2040⟩ fun j => look j.posts 1023 ≠ some 160 :=
  ⟨_, _, _, ⟨⟨rfl, rfl⟩, rfl⟩, ⟨⟨rfl, rfl⟩, rfl⟩, ⟨rfl, rfl, rfl, rfl⟩, rfl, rfl, rfl, nofun⟩
/-- A stamped store to the last bytes of the carve-out of the job itself, through another cell's place. -/
def stampedStore : MemOp := { opOf .left (.store (List.replicate 8 7) false) (.cell 0 (1024 * 2048 - 8)) with stamp := some ⟨0, 7, []⟩ }
theorem witness_stamped : opened stampedStore fun p x => Arrives (op1 stampedStore) p x stampedStore ∧ p.live 0 = true ∧
    (∃ k, (p.cell 0).bind (fun y => y.resident 1) = some k ∧ 1024 * 2048 - 8 + 8 ≤ k.limit ∧ Memory.wf k.mem = true) ∧
    ∃ g, p.dies[dieOf c0.cell]? = some g := ⟨_, _, ⟨⟨rfl, rfl⟩, rfl⟩, ⟨rfl, rfl, rfl, rfl⟩, rfl, ⟨_, rfl, by decide, rfl⟩, _, rfl⟩
def loadOp : MemOp := opOf .waiting (.load 8 true (.reg 63)) (.hbm (256 * 2 ^ 21 + 0x1000) 0x1000 false)
theorem witness_load_response : ∃ p x j, RunsAt (op1 loadOp) c0 p x j ∧ HasOp (op1 loadOp) c0 p x loadOp ∧ loadOp.job = j.uid ∧
    (∀ q ∈ x.ops, loadOp.preds.contains q.id = true → q.status = .complete) ∧ j.engineWrites = [] ∧
    marked p.marks (256 * 2 ^ 21 + 0x1000) 8 = false := ⟨_, _, _, ⟨⟨rfl, rfl⟩, rfl⟩, ⟨⟨rfl, rfl⟩, rfl⟩, rfl,
    fun _ _ h => by simp [loadOp, opOf] at h, rfl, rfl⟩
def doneStore : MemOp := { leftStore with status := .applied }
theorem witness_store_response : opened doneStore fun _ _ => doneStore.status = .applied ∧ doneStore.fail = none ∧ doneStore.value = none :=
  ⟨_, _, ⟨⟨rfl, rfl⟩, rfl⟩, rfl, rfl, rfl⟩
def doneAtomic : MemOp := { leftCas 0 with status := .applied, value := some (pv 0) }
theorem witness_atomic_response : ∃ p x j v, RunsAt (op1 doneAtomic) c0 p x j ∧ HasOp (op1 doneAtomic) c0 p x doneAtomic ∧
    doneAtomic.job = j.uid ∧ doneAtomic.value = some v := ⟨_, _, _, _, ⟨⟨rfl, rfl⟩, rfl⟩, ⟨⟨rfl, rfl⟩, rfl⟩, rfl, rfl⟩
def lostLoad : MemOp := { loadOp with fail := some .lost }
theorem witness_lost_response : ∃ p x j, RunsAt (op1 lostLoad) c0 p x j ∧ HasOp (op1 lostLoad) c0 p x lostLoad ∧ lostLoad.job = j.uid ∧
    lostLoad.fail = some .lost ∧ lostLoad.eng.core? = some .ac := ⟨_, _, _, ⟨⟨rfl, rfl⟩, rfl⟩, ⟨⟨rfl, rfl⟩, rfl⟩, rfl, rfl, rfl⟩
/-- A load through F of a page that has moved to another frame. -/
def movedLoad : MemOp := { loadOp with target := .fabric 0 0x1000 }
def forwarded : State := (op1 movedLoad).modPkg 0 fun p => { p with migrations := [⟨9, 1, 0, 3, 256 * 512, .hbm 0 (257 * 512), some 0,
  (freshLeaf placeRun false).toNat⟩] }
theorem witness_moved : ∃ p x t, HasOp forwarded c0 p x movedLoad ∧ forwarded.reach c0 movedLoad = .moved t ∧ movedLoad.status = .waiting :=
  ⟨_, _, _, ⟨⟨rfl, rfl⟩, rfl⟩, rfl, rfl⟩

/-- A stream of the placed job that stands blocked. -/
def waits (k : Core) (w : Wait) (f : Job → Job) : State :=
  withJob onAc fun j => (f j).setCore k { (f j).core k with wait := some w }
def Stands (k : Core) (w : Wait) (f : Job → Job) (P : Package → CellState → Job → Prop) : Prop :=
  ∃ p x j, Blocked (waits k w f) c0 p x j k w ∧ P p x j
theorem witness_wait_sem : Stands .xc (.sem 63 false) (fun j => { j with sems := j.sems.set 63 ⟨1, []⟩ }) fun _ x j =>
    1 ≤ semView x.ops x.due j 63 ∧ semView x.ops x.due j 62 < 1 :=
  ⟨_, _, _, ⟨⟨⟨rfl, rfl⟩, rfl⟩, rfl, rfl, none_in⟩, by decide, by decide⟩
theorem witness_wait_sem_zero : Stands .ac (.sem 0 true) id fun _ x j => semView x.ops x.due j 0 < 1 :=
  ⟨_, _, _, ⟨⟨⟨rfl, rfl⟩, rfl⟩, rfl, rfl, none_in⟩, by decide⟩
/-- A chain that stands blocked. -/
def chainWaits (w : Wait) (f : Job → Job) : State := engineSt true [] (fun c => { c with wait := some w }) f
theorem witness_chain_wait_sem : ∃ h, ChainBlocked (chainWaits (.sem 0 false) fun j => { j with sems := j.sems.set 0 ⟨1, []⟩ }) c0 0 h (.sem 0 false) ∧
    1 ≤ semView h.ce.ops h.ce.due h.jb 0 := ⟨_, ⟨rfl, rfl, rfl, rfl, none_in⟩, by decide⟩
theorem witness_wait_rime (t : Tag) : Stands .ac (.rime 1023 1023) (fun j => { j with tags := [(1023, t)] }) fun _ _ j => j.tag 1023 = t :=
  ⟨_, _, _, ⟨⟨⟨rfl, rfl⟩, rfl⟩, rfl, rfl, none_in⟩, rfl⟩
theorem witness_chain_wait_rime : ∃ h, ChainBlocked (chainWaits (.rime 1022 1023) fun j => { j with
      tags := [(1022, ⟨.full, true, false, 0, 1, 1⟩), (1023, ⟨.full, true, false, 0, 1, 1⟩)] }) c0 0 h (.rime 1022 1023) ∧
    (1023 + 1) * 2048 ≤ h.jb.limit ∧ (∀ n, 1022 ≤ n → n ≤ 1023 → (h.jb.tag n).st = .full) :=
  ⟨_, ⟨rfl, rfl, rfl, rfl, none_in⟩, by decide, fun n h1 h2 => by
    obtain rfl | rfl : n = 1022 ∨ n = 1023 := by omega
    · rfl
    · rfl⟩
/-- A wait on ring 15. -/
theorem witness_wait_ring (w : Bool) (r : Ring) : Stands .xc (if w then .ringFree 15 else .ringFill 15) (fun j => { j with
      rings := j.rings.set 15 r }) fun _ _ j => j.rings[15] = r :=
  match w with
  | true => ⟨_, _, _, ⟨⟨⟨rfl, rfl⟩, rfl⟩, rfl, rfl, none_in⟩, rfl⟩
  | false => ⟨_, _, _, ⟨⟨⟨rfl, rfl⟩, rfl⟩, rfl, rfl, none_in⟩, rfl⟩
theorem witness_chain_wait_ring : ∃ h, ChainBlocked (chainWaits (.ringFree 15) fun j => { j with rings := j.rings.set 15 ⟨false, 0, 0, 0, 1, 1, 0, 0⟩ })
    c0 0 h (.ringFree 15) ∧ (h.jb.rings[15]).cls = false ∧ (h.jb.rings[15]).free ≠ 0 := ⟨_, ⟨rfl, rfl, rfl, rfl, none_in⟩, rfl, by decide⟩
theorem witness_wait_pops : Stands .xc (.popLq 3) (fun j => { j with lq := j.lq.set 3 ⟨[⟨0, some (pv 7)⟩], false, false⟩ })
    (fun _ _ j => QueueOpen j (.popLq 3)) ∧
    Stands .xc (.popRow 3) (fun j => { j with lqRow := j.lqRow.set 3 ⟨[⟨0, some RowVal.zero⟩], false, false⟩ }) (fun _ _ j => QueueOpen j (.popRow 3)) ∧
    Stands .ac (.popSq 1) (fun j => { j with sq := j.sq.set 1 ⟨[⟨0, some (pv 7)⟩], false, false⟩ }) (fun _ _ j => QueueOpen j (.popSq 1)) ∧
    Stands .ac (.popSqRow 1) (fun j => { j with sqRow := j.sqRow.set 1 ⟨[⟨0, some RowVal.zero⟩], false, false⟩ }) fun _ _ j => QueueOpen j (.popSqRow 1) :=
  ⟨⟨_, _, _, ⟨⟨⟨rfl, rfl⟩, rfl⟩, rfl, rfl, none_in⟩, _, _, _, rfl, rfl⟩, ⟨_, _, _, ⟨⟨⟨rfl, rfl⟩, rfl⟩, rfl, rfl, none_in⟩, _, _, _, rfl, rfl⟩,
    ⟨_, _, _, ⟨⟨⟨rfl, rfl⟩, rfl⟩, rfl, rfl, none_in⟩, _, _, _, rfl, rfl⟩, ⟨_, _, _, ⟨⟨⟨rfl, rfl⟩, rfl⟩, rfl, rfl, none_in⟩, _, _, _, rfl, rfl⟩⟩
/-- Queues with seven scalars or 31 rows. -/
theorem witness_wait_pushes : Stands .xc (.pushSq 1) (fun j => { j with sq := j.sq.set 1 ⟨List.replicate 7 ⟨0, some (pv 7)⟩, false, false⟩ })
    (fun _ _ j => QueueOpen j (.pushSq 1)) ∧
    Stands .xc (.pushRow 1) (fun j => { j with sqRow := j.sqRow.set 1 ⟨List.replicate 31 ⟨0, some RowVal.zero⟩, false, false⟩ })
      (fun _ _ j => QueueOpen j (.pushRow 1)) ∧
    Stands .ac (.reserve 3) (fun j => { j with lq := j.lq.set 3 ⟨List.replicate 7 ⟨0, some (pv 7)⟩, false, false⟩ }) (fun _ _ j => QueueOpen j (.reserve 3)) ∧
    Stands .ac (.reserveRow 3) (fun j => { j with lqRow := j.lqRow.set 3 ⟨List.replicate 31 ⟨0, some RowVal.zero⟩, false, false⟩ }) fun _ _ j =>
      QueueOpen j (.reserveRow 3) :=
  ⟨⟨_, _, _, ⟨⟨⟨rfl, rfl⟩, rfl⟩, rfl, rfl, none_in⟩, by show 7 < 8; decide⟩, ⟨_, _, _, ⟨⟨⟨rfl, rfl⟩, rfl⟩, rfl, rfl, none_in⟩, by show 31 < 32; decide⟩,
    ⟨_, _, _, ⟨⟨⟨rfl, rfl⟩, rfl⟩, rfl, rfl, none_in⟩, by show 7 < 8; decide⟩, ⟨_, _, _, ⟨⟨⟨rfl, rfl⟩, rfl⟩, rfl, rfl, none_in⟩, by show 31 < 32; decide⟩⟩
theorem witness_wait_flush : Stands .ac (.flush (.sq 3)) id fun _ _ j => j.qLen (.sq 3) = 0 := ⟨_, _, _, ⟨⟨⟨rfl, rfl⟩, rfl⟩, rfl, rfl, none_in⟩, rfl⟩
theorem witness_wait_stage : ∃ h, ChainBlocked (chainWaits .stage fun j => { j with ce0 := { j.ce0 with stage := [(1, 2)] } }) c0 0 h .stage ∧
    (h.jb.eng 0).stage ≠ [] := ⟨_, ⟨rfl, rfl, rfl, rfl, none_in⟩, nofun⟩
/-- Every queue is ending, with the entry `e` in each. -/
def endingAll (b : Bool) : State := withJob onAc fun j => { j with
  lq := Vector.replicate 4 ⟨[⟨0, if b then some (pv 0) else none⟩], true, false⟩
  lqRow := Vector.replicate 4 ⟨[⟨0, if b then some RowVal.zero else none⟩], true, false⟩
  sq := Vector.replicate 2 ⟨[⟨0, if b then some (pv 0) else none⟩], true, false⟩
  sqRow := Vector.replicate 2 ⟨[⟨0, if b then some RowVal.zero else none⟩], true, false⟩ }
theorem witness_queue_end : ∃ p x j, RunsAt (endingAll true) c0 p x j ∧ (j.lq[3]).ending = true ∧ (j.lq[3]).ended = false ∧
    (∀ e ∈ (j.lq[3]).ents, e.data.isSome = true) ∧ (j.lqRow[3]).ending = true ∧ (∀ e ∈ (j.lqRow[3]).ents, e.data.isSome = true) ∧
    (j.sq[1]).ending = true ∧ (∀ e ∈ (j.sq[1]).ents, e.data.isSome = true) ∧ (j.sqRow[1]).ending = true ∧
    (∀ e ∈ (j.sqRow[1]).ents, e.data.isSome = true) :=
  ⟨_, _, _, ⟨⟨rfl, rfl⟩, rfl⟩, rfl, rfl, by decide, rfl, by decide, rfl, by decide, rfl, by decide⟩
theorem witness_queue_end_waits : ∃ p x j, RunsAt (endingAll false) c0 p x j ∧ (j.lq[0]).ending = true ∧ (j.lq[0]).ended = false ∧
    (∃ e ∈ (j.lq[0]).ents, e.data.isSome = false) := ⟨_, _, _, ⟨⟨rfl, rfl⟩, rfl⟩, rfl, rfl, by decide⟩
def bothAt (a b : Option (BitVec 8)) (l : Bool) : State := withJob onAc fun j => { j with
  ac := { j.ac with wait := a.map Wait.rdv }, xc := { j.xc with wait := b.map Wait.rdv, live := l } }
/-- Rendezvous 255 of both streams, of which the AC has completed `m` and the XC `n`; and different rendezvous. -/
def countedAt (a b : BitVec 8) (m n : Nat) (l : Bool) : State := withJob (bothAt (some a) (some b) l) fun j => { j with
  ac := { j.ac with rdv := [(a.toNat, m)] }, xc := { j.xc with rdv := [(b.toNat, n)] } }
theorem witness_rendezvous (m n : Nat) (l : Bool) : ∃ p x j, RunsAt (countedAt 255 255 m n l) c0 p x j ∧ j.ac.live = true ∧
    j.xc.live = l ∧ j.ac.wait = some (.rdv 255) ∧ j.xc.wait = some (.rdv 255) ∧ rdvNo j.ac 255 = m ∧ rdvNo j.xc 255 = n :=
  ⟨_, _, _, ⟨⟨rfl, rfl⟩, rfl⟩, rfl, rfl, rfl, rfl, rfl, rfl⟩
theorem witness_rendezvous_apart : ∃ p x j, RunsAt (countedAt 0 255 1 1 true) c0 p x j ∧ j.ac.wait = some (.rdv 0) ∧ j.xc.wait = some (.rdv 255) ∧
    rdvNo j.xc 0 ≤ rdvNo j.ac 0 ∧ rdvNo j.ac 255 ≤ rdvNo j.xc 255 := ⟨_, _, _, ⟨⟨rfl, rfl⟩, rfl⟩, rfl, rfl, by decide, by decide⟩
theorem witness_crew_complete : ∃ p cx, (crewOf { Crew.new 4095 with members := [(1, 0), (2, 1)], arrived := [(1, 0, some 7)] }).pkg 0 = some p ∧
    p.ctx 1 = some cx ∧ (p.crew 1 4095).arrived ≠ [] ∧
    (∀ m ∈ (p.crew 1 4095).members, (p.crew 1 4095).gen < m.2 ∨ ∃ a ∈ (p.crew 1 4095).arrived, a.1 = m.1) :=
  ⟨_, _, rfl, rfl, nofun, by decide⟩
theorem witness_crew_waits : ∃ p cx, (crewOf { Crew.new 4095 with members := [(1, 0), (2, 0)], arrived := [(1, 0, some 7)] }).pkg 0 = some p ∧
    p.ctx 1 = some cx ∧ (∃ m ∈ (p.crew 1 4095).members, m.2 ≤ (p.crew 1 4095).gen ∧ ∀ a ∈ (p.crew 1 4095).arrived, a.1 ≠ m.1) :=
  ⟨_, _, rfl, rfl, by decide⟩
theorem witness_join : Stands .ac (.join 0x1FFFF8) id fun p x j => ∃ t bs,
    let h : Here := ⟨waits .ac (.join 0x1FFFF8) id, c0, .ac, p, x, j, none⟩
    h.checkAt .g 0 (BitVec.ofNat 64 0x1FFFF8) 8 .load = .ok t ∧
      h.readNow OrdF.plain [] (h.ownTarget t) (BitVec.ofNat 64 0x1FFFF8) 8 = (bs, .none) :=
  ⟨_, _, _, ⟨⟨⟨rfl, rfl⟩, rfl⟩, rfl, rfl, none_in⟩, _, List.replicate 8 0, rfl, rfl⟩
/-- An elastic iteration on ring 15, with the decisions `ds`. -/
def elasticAt (r : Ring) (ds : List (Nat × Decision)) : State := waits .ac .elastic fun j => { j with
  trip := .elastic 15, decisions := ds, rings := j.rings.set 15 r, ac := { j.ac with region := 2 }, xc := { j.xc with region := 1 } }
def Elastic (r : Ring) (ds : List (Nat × Decision)) (P : Job → Prop) : Prop := ∃ p x j, Blocked (elasticAt r ds) c0 p x j .ac .elastic ∧
  j.trip = .elastic 15 ∧ (j.ac.live = true → 1 ≤ j.ac.region) ∧ (j.xc.live = true → 1 ≤ j.xc.region) ∧ j.rings[15].cnt ≠ 0 ∧ j.rings[15] = r ∧ P j
theorem witness_elastic_decided : Elastic ⟨false, 0, 0, 1, 0, 1, 0, 0⟩ [(1, .take 7)] fun j => look j.decisions (j.ac.region - 1) = some (.take 7) :=
  ⟨_, _, _, ⟨⟨⟨rfl, rfl⟩, rfl⟩, rfl, rfl, none_in⟩, rfl, fun _ => by decide, fun _ => by decide, by decide, rfl, rfl⟩
theorem witness_elastic_takes : Elastic ⟨true, 0, 0, 1, 0, 1, 0, 0⟩ [] fun j => look j.decisions (j.ac.region - 1) = none ∧
    (j.rings[15]).fill ≠ 0 ∧ j.slotError 15 (j.rings[15]).cix.toNat = none :=
  ⟨_, _, _, ⟨⟨⟨rfl, rfl⟩, rfl⟩, rfl, rfl, none_in⟩, rfl, fun _ => by decide, fun _ => by decide, by decide, rfl, rfl, by decide, rfl⟩
theorem witness_elastic_stops : Elastic ⟨true, 0, 0, 0, 0, 1, 0, 0⟩ [] fun j => look j.decisions (j.ac.region - 1) = none ∧
    (j.rings[15]).fill = 0 ∧ (j.rings[15]).cls = true ∧ ¬ItemAlive j (j.ac.region - 1) :=
  ⟨_, _, _, ⟨⟨⟨rfl, rfl⟩, rfl⟩, rfl, rfl, none_in⟩, rfl, fun _ => by decide, fun _ => by decide, by decide, rfl, rfl, rfl, rfl,
    fun ⟨_, h, _⟩ => absurd h List.not_mem_nil⟩
/-- The item of iteration 0 has a stage to go in iteration 1. -/
theorem witness_elastic_drains : ∃ p x j, Blocked (withJob (elasticAt ⟨true, 0, 0, 0, 0, 1, 0, 0⟩ [(0, .take 7)]) fun j => { j with
      xc := { j.xc with kps := { j.xc.kps with stg := 1 } } }) c0 p x j .ac .elastic ∧ look j.decisions (j.ac.region - 1) = none ∧
    (j.rings[15]).fill = 0 ∧ (j.rings[15]).cls = true ∧ ItemAlive j (j.ac.region - 1) :=
  ⟨_, _, _, ⟨⟨⟨rfl, rfl⟩, rfl⟩, rfl, rfl, none_in⟩, rfl, rfl, rfl, _, List.mem_singleton.2 rfl, ⟨7, rfl⟩, by decide, .inr (by decide)⟩
theorem witness_elastic_drain_decided : Elastic ⟨true, 0, 0, 0, 0, 1, 0, 0⟩ [(1, .drain)] fun j => look j.decisions (j.ac.region - 1) = some .drain :=
  ⟨_, _, _, ⟨⟨⟨rfl, rfl⟩, rfl⟩, rfl, rfl, none_in⟩, rfl, fun _ => by decide, fun _ => by decide, by decide, rfl, rfl⟩
theorem witness_elastic_stop_decided : Elastic ⟨true, 0, 0, 0, 0, 1, 0, 0⟩ [(1, .stop)] fun j => look j.decisions (j.ac.region - 1) = some .stop :=
  ⟨_, _, _, ⟨⟨⟨rfl, rfl⟩, rfl⟩, rfl, rfl, none_in⟩, rfl, fun _ => by decide, fun _ => by decide, by decide, rfl, rfl⟩
/-- The slab of the slot that would be taken is in ERROR. -/
theorem witness_elastic_error : ∃ p x j, Blocked (withJob (elasticAt ⟨false, 0, 0, 1, 0, 1, 0, 1023⟩ []) fun j => { j with
      tags := [(1023, ⟨.error, true, false, 1, 0, 0⟩)] }) c0 p x j .ac .elastic ∧ look j.decisions (j.ac.region - 1) = none ∧
    (j.rings[15]).fill ≠ 0 ∧ j.slotError 15 (j.rings[15]).cix.toNat = some 1023 :=
  ⟨_, _, _, ⟨⟨⟨rfl, rfl⟩, rfl⟩, rfl, rfl, none_in⟩, rfl, by decide, rfl⟩
theorem witness_elastic_waits : Elastic ⟨false, 0, 0, 0, 0, 1, 0, 0⟩ [] fun j => look j.decisions (j.ac.region - 1) = none ∧
    (j.rings[15]).fill = 0 ∧ (j.rings[15]).cls = false :=
  ⟨_, _, _, ⟨⟨⟨rfl, rfl⟩, rfl⟩, rfl, rfl, none_in⟩, rfl, fun _ => by decide, fun _ => by decide, by decide, rfl, rfl, rfl, rfl⟩

/-- Calls of the AC: 17 hidden registers spilled or not, below 16 resident ones. -/
def called (sp b : Bool) : State := withCore (withJob onAc fun j => { j with hdr := { j.hdr with wsa := 1 } }) .ac fun c => { c with
  calls := [⟨0x2000, 0, List.replicate 16 (pv 7), false⟩, ⟨0x3000, 1, List.replicate 17 (pv 9), b⟩], spilling := sp }
theorem witness_spill : ∃ p x j, RunsAt (called true false) c0 p x j ∧ j.ac.calls = [⟨0x2000, 0, List.replicate 16 (pv 7), false⟩] ++ ⟨0x3000, 1, List.replicate 17 (pv 9), false⟩ :: [] ∧
    Memory.wf j.mem = true ∧ j.ac.spilling = true ∧ 32 < residents j.ac.calls ∧ j.spillFits .ac = true ∧ 64 + 8 * 17 ≤ stackAt j .ac :=
  ⟨_, _, _, ⟨⟨rfl, rfl⟩, rfl⟩, rfl, rfl, rfl, by decide, by decide, by decide⟩
theorem witness_fill : ∃ p x j, RunsAt (called false true) c0 p x j ∧ j.ac.calls = [⟨0x2000, 0, List.replicate 16 (pv 7), false⟩] ++ ⟨0x3000, 1, List.replicate 17 (pv 9), true⟩ :: [] ∧
    j.ac.spilling = false ∧ residents j.ac.calls < 32 :=
  ⟨_, _, _, ⟨⟨rfl, rfl⟩, rfl⟩, rfl, rfl, by decide⟩
/-- A detached VLDQ of v31, its sixteen rows in queue 0. -/
def write1 : AsyncWrite := ⟨5, none, 0, [31], none, .none, false, 0, 0, 0, [], some 3, false, none⟩
theorem witness_async : ∃ p x j es, RunsAt (withJob (rowed 17) fun j => { j with async := [write1] }) c0 p x j ∧ j.traps = [] ∧
    j.async.find? (fun x => x.id == 5) = some write1 ∧ j.async.find? (fun x => x.drain.isNone && !x.complete && x.lq == 0) = some write1 ∧
    j.lqRow[0].ents.map (·.data) = (Vector.replicate 16 RowVal.zero).toList.map some ++ es :=
  ⟨_, _, _, _, ⟨⟨rfl, rfl⟩, rfl⟩, rfl, rfl, rfl, rfl⟩
/-- A TLBINV, and a TLBINV of everything, that wait for an operation of the cell. -/
def invalid (all sl : Bool) (st : OpStatus) : State := onCell onAc fun x => { x with
  ops := [{ loadOp with status := st }], invals := [⟨5, sl, all, 1, 5, [(0, 0, 5)]⟩] }
theorem witness_inval_waits : ∃ p x i, CellAt (invalid false true .waiting) c0 p x ∧ i ∈ x.invals ∧ i.isSeal = true ∧
    (∃ w ∈ i.waits, ∃ y, (invalid false true .waiting).cell ⟨w.1, w.2.1⟩ = some y ∧ opPerformed y.ops w.2.2 = false) :=
  ⟨_, _, _, ⟨rfl, rfl⟩, List.mem_singleton.2 rfl, rfl, _, List.mem_singleton.2 rfl, _, rfl, rfl⟩
theorem witness_inval : ∃ p x i o, CellAt (invalid true false .complete) c0 p x ∧ i ∈ x.invals ∧ (∀ k ∈ x.invals, k.id = i.id → k = i) ∧
    i.all = true ∧ x.op i.op = some o ∧
    (∀ w ∈ i.waits, ∀ y, (invalid true false .complete).cell ⟨w.1, w.2.1⟩ = some y → opPerformed y.ops w.2.2 = true) := by
  refine ⟨_, _, _, _, ⟨rfl, rfl⟩, List.mem_singleton.2 rfl, ?_, rfl, rfl, ?_⟩
  · intro k hk _
    exact List.mem_singleton.1 hk
  · intro w hw y hy
    obtain rfl := List.mem_singleton.1 hw
    cases hy
    rfl
/-- The job has passed the end of its region: its last result came 160 clk ago, and it has an effect to make. -/
def passedAll (r trip : Nat) (l : Bool) : State := withJob (aged 160 onAc) fun j => { j with
  committed := r, trip := .counted trip, results := [(r, 0)], deferred := [⟨0, r, .ac, 0, none, [], none, .semPost 3 1⟩],
  ac := { j.ac with region := r + 1, live := l }, xc := { j.xc with region := r + 1, live := l }, ce0 := { j.ce0 with chain := none } }
theorem witness_commit : ∃ p x j, RunsAt (passedAll 0 2 true) c0 p x j ∧ j.canCommit x.ops (p.clkOf c0.cell) = true ∧
    j.inEpilogue j.committed = false := ⟨_, _, _, ⟨⟨rfl, rfl⟩, rfl⟩, by decide, rfl⟩
theorem witness_commit_last : ∃ p x j, RunsAt (passedAll 3 2 false) c0 p x j ∧ j.canCommit x.ops (p.clkOf c0.cell) = true ∧
    j.inEpilogue j.committed = true ∧ j.noneLive = true ∧ j.eretOf = none := ⟨_, _, _, ⟨⟨rfl, rfl⟩, rfl⟩, by decide, rfl, rfl, rfl⟩
/-- A result 159 clk ago, a trap, a load that has not returned. -/
theorem witness_commit_early : ∃ p x j, RunsAt (withJob (aged 159 onAc) fun j => { j with results := [(0, 0)] }) c0 p x j ∧
    (∃ e ∈ j.results, e.1 ≤ j.committed ∧ p.clkOf c0.cell < e.2 + 160) := ⟨_, _, _, ⟨⟨rfl, rfl⟩, rfl⟩, _, List.mem_singleton.2 rfl, by decide, by decide⟩
theorem witness_commit_load : ∃ p x j, RunsAt (op1 loadOp) c0 p x j ∧ (∃ o ∈ x.ops, o.job = j.uid ∧ o.region ≤ j.committed ∧ o.writesBack = true) :=
  ⟨_, _, _, ⟨⟨rfl, rfl⟩, rfl⟩, _, List.mem_singleton.2 rfl, rfl, by decide, rfl⟩
theorem witness_commit_waits : ∃ p x j, RunsAt onAc c0 p x j ∧ (∃ k, (j.core k).live = true ∧ (j.core k).region ≤ j.committed) :=
  ⟨_, _, _, ⟨⟨rfl, rfl⟩, rfl⟩, .ac, rfl, by decide⟩
/-- A due effect `e` of the placed job, which waits for the operations `l`. -/
def dueOf (l : List Nat) (e : Effect) : Due := ⟨1, 1, ⟨0, 0, .ac, 0, none, l, none, e⟩⟩
def dueSt (d : Due) (f : Job → Job) : State := onCell (withJob onAc f) fun x => { x with due := [d], ops := [{ loadOp with id := 9 }] }
def DueAt (d : Due) (f : Job → Job) (P : Package → CellState → Job → Prop) : Prop := ∃ p x j, RunsAt (dueSt d f) c0 p x j ∧
  x.due.find? (fun e => e.job == j.uid) = some d ∧ P p x j
theorem witness_due_waits : DueAt (dueOf [9] (.semPost 3 1)) id fun _ x _ => (dueOf [9] (.semPost 3 1)).d.ready x.ops = false :=
  ⟨_, _, _, ⟨⟨rfl, rfl⟩, rfl⟩, rfl, rfl⟩
theorem witness_due_post : DueAt (dueOf [] (.semPost 63 1)) (fun j => { j with sems := j.sems.set 63 ⟨2 ^ 32 - 2, []⟩ }) fun _ x j =>
    (dueOf [] (.semPost 63 1)).d.ready x.ops = true ∧ j.sems[(63 : Fin 64)].c + 1 ≤ 2 ^ 32 - 1 :=
  ⟨_, _, _, ⟨⟨rfl, rfl⟩, rfl⟩, rfl, rfl, by decide⟩
theorem witness_due_ring : DueAt (dueOf [] (.ringPublish 15 true)) (fun j => { j with rings := j.rings.set 15 ⟨false, 0, 0, 254, 254, 1, 0, 0⟩ })
    fun _ x j => (dueOf [] (.ringPublish 15 true)).d.ready x.ops = true ∧ (j.rings[15]).fill ≠ 255 ∧ (j.rings[15]).free ≠ 255 :=
  ⟨_, _, _, ⟨⟨rfl, rfl⟩, rfl⟩, rfl, rfl, by decide⟩
theorem witness_due_other (e : Effect) : DueAt (dueOf [] e) id fun _ x _ => (dueOf [] e).d.ready x.ops = true :=
  ⟨_, _, _, ⟨⟨rfl, rfl⟩, rfl⟩, rfl, rfl⟩
theorem witness_due_spawn : DueAt (dueOf [] (.spawn placeTask)) id fun _ x _ => (dueOf [] (.spawn placeTask)).d.ready x.ops = true :=
  ⟨_, _, _, ⟨⟨rfl, rfl⟩, rfl⟩, rfl, rfl⟩
/-- The join word is the code word: it is not 0. -/
def joinDue : Due := dueOf [] (.joinDec 0x1000 none)
theorem witness_due_join : ∃ p x a va, CellAt (dueSt joinDue id) c0 p x ∧ x.due.find? (fun e => e.job == joinDue.job) = some joinDue ∧
    joinDue.d.ready x.ops = true ∧ p.migrating ⟨1, false, some 0⟩ 0x1000 = false ∧
    p.translate ⟨1, ((p.ctx 1).map (·.secure)).getD false, some c0.cell⟩ 0x1000 8 .atomic = .ok (.hbm a va false) ∧ Memory.wf p.hbm = true ∧
    leNat (memRead p.hbm a 8) ≠ 0 := ⟨_, _, _, _, ⟨rfl, rfl⟩, rfl, rfl, rfl, rfl, rfl, by decide⟩

/-! ## Witnesses: the events of the matrix engine -/

/-- The LNT of one pass of one element, and one whose only level takes slots of ring 15. -/
def lntOne : Vector Word 32 := ((((Vector.replicate 32 (0 : Word)).set 0 (2 * 2 ^ 55)).set 2 1).set 14 (2 ^ 30)).set 16 (2 ^ 30)
def lntSlotted : Vector Word 32 := (lntOne.set 0 (2 * 2 ^ 55 + 2 ^ 52)).set 4 (2 ^ 62 + 15 * 2 ^ 58)
def meJob (id : Nat) (high : Bool) (l : Vector Word 32) (o : OrderMode) (ph : MePhase) : MeJob :=
  ⟨id, high, id, 0, l, o, 8, id, 0, ph, [], none, true, Vector.replicate 4 none, 0, [], [], [], [], none⟩
def engined (l : List MeJob) : State := withJob (aged (2 ^ 24) onAc) fun j => { j with me := { j.me with jobs := l } }
def Engined (l : List MeJob) (P : CellState → Job → Prop) : Prop := ∃ p x j, RunsAt (engined l) c0 p x j ∧ P x j
theorem witness_me_high : Engined [meJob 2 false lntOne .arrival .queued, meJob 3 true lntSlotted .arrival .queued] fun _ j =>
    j.running = none ∧ (j.me.jobs.map (·.id)).Nodup ∧ (∃ m, MeHead j false m) ∧ ∃ m, j.me.jobs.find? (fun m => m.high == true) = some m :=
  ⟨_, _, _, ⟨⟨rfl, rfl⟩, rfl⟩, rfl, by decide, ⟨_, rfl, .inl rfl, by decide +kernel⟩, _, rfl⟩
/-- A low job that has a partial to deliver holds back a high one. -/
theorem witness_me_not_quiet : Engined [{ meJob 3 false lntOne .arrival .suspended with buffers := #v[none, some (5, 0, default), none, none] },
    meJob 2 true lntOne .arrival .queued] fun _ j => j.running = none ∧ (j.me.jobs.map (·.id)).Nodup ∧ (∃ m, MeHead j true m) ∧
    ∃ r ∈ j.me.jobs, r.high = false ∧ r.buffers[(1 : Fin 4)] ≠ none :=
  ⟨_, _, _, ⟨⟨rfl, rfl⟩, rfl⟩, rfl, by decide, ⟨_, rfl, .inl rfl, by decide +kernel⟩, _, List.mem_cons_self, rfl, by decide⟩
theorem witness_me_high_only : Engined [meJob 3 true lntOne .arrival .queued] fun _ j => j.running = none ∧ (∃ m, MeHead j true m) ∧
    (j.me.jobs.map (·.id)).Nodup ∧ ∀ r ∈ j.me.jobs, r.high = false → ∀ b : Fin 4, r.buffers[b] = none :=
  ⟨_, _, _, ⟨⟨rfl, rfl⟩, rfl⟩, rfl, ⟨_, rfl, .inl rfl, by decide +kernel⟩, by decide, fun r hr _ => by
    obtain rfl := List.mem_singleton.1 hr
    decide⟩
theorem witness_me_low : Engined [meJob 2 false lntOne .arrival .suspended] fun _ j => j.running = none ∧ (∀ m, ¬ MeHead j true m) ∧
    ∃ m, MeHead j false m := ⟨_, _, _, ⟨⟨rfl, rfl⟩, rfl⟩, rfl, (fun m h => nomatch (show (none : Option MeJob) = some m from h.1)), _, rfl, .inr rfl, by decide +kernel⟩
/-- A high job pre-empts a low one that waits for a slot of its ring. -/
theorem witness_me_preempts : Engined [meJob 2 true lntOne .arrival .queued, meJob 3 false lntSlotted .arrival .running] fun _ j =>
    ∃ r m, j.running = some r ∧ r.high = false ∧ r.needsSlot = true ∧ (∀ b : Fin 4, m.buffers[b] = none ∧ r.buffers[b] = none) ∧
    MeHead j true m ∧ (j.me.jobs.map (·.id)).Nodup ∧ ∀ y ∈ j.me.jobs, y.phase = .running → y.id = r.id :=
  ⟨_, _, _, ⟨⟨rfl, rfl⟩, rfl⟩, _, _, rfl, rfl, by decide +kernel, by decide, ⟨rfl, .inl rfl, by decide +kernel⟩, by decide, by decide⟩
theorem witness_me_within (b : Bool) : Engined [meJob 2 true lntOne .arrival .queued, meJob 3 b lntOne .arrival .running] fun _ j =>
    ∃ r, j.running = some r ∧ r.high = b ∧ r.needsSlot = false ∧ (j.me.jobs.map (·.id)).Nodup :=
  ⟨_, _, _, ⟨⟨rfl, rfl⟩, rfl⟩, meJob 3 b lntOne .arrival .running, by cases b <;> rfl, by cases b <;> rfl, by cases b <;> decide +kernel, by cases b <;> decide⟩
theorem witness_pass : Engined [meJob 2 false lntOne .arrival .running] fun x j => ∃ m, j.running = some m ∧
    Sole j m ∧ j.passOpen x.ops m = true ∧ lntPlog m.lnt = false ∧ m.logGot = [] ∧
    (∃ part folds, (j.walk m).pass = ([], part, folds)) ∧ lntNlev m.lnt = 0 :=
  ⟨_, _, _, ⟨⟨rfl, rfl⟩, rfl⟩, _, rfl, ⟨rfl, by decide⟩, by decide +kernel, by decide +kernel, rfl, ⟨_, _, Prod.ext (by decide +kernel) rfl⟩, by decide +kernel⟩
/-- A high job waits: the low one is suspended at the pass's end. -/
theorem witness_pass_preempted : Engined [meJob 3 false lntOne .arrival .running, meJob 2 true lntOne .arrival .queued] fun _ j => ∃ m,
    j.running = some m ∧ Sole j m ∧ m.high = false ∧ ∃ h, MeHead j true h :=
  ⟨_, _, _, ⟨⟨rfl, rfl⟩, rfl⟩, _, rfl, ⟨rfl, by decide⟩, rfl, _, rfl, .inl rfl, by decide +kernel⟩
/-- A level of two passes, at the first of them. -/
def lntTwo : Vector Word 32 := (lntOne.set 0 (2 * 2 ^ 55 + 2 ^ 52)).set 4 2
theorem witness_pass_level : Engined [{ meJob 2 false lntTwo .arrival .running with ix := [0] }] fun x j => ∃ m, j.running = some m ∧
    j.passOpen x.ops m = true ∧ m.ix = 0 :: [] ∧ 1 ≤ lntNlev m.lnt ∧ levElastic m.lnt 1 = false ∧ 0 + 1 < levTrip m.lnt 1 :=
  ⟨_, _, _, ⟨⟨rfl, rfl⟩, rfl⟩, _, rfl, by decide +kernel, rfl, by decide +kernel, by decide +kernel, by decide +kernel⟩
theorem witness_pass_waits : Engined [{ meJob 2 false lntOne .arrival .running with buffers := #v[some (0, 0, default), none, none, none] }]
    fun x j => ∃ m, j.running = some m ∧ j.passOpen x.ops m = false := ⟨_, _, _, ⟨⟨rfl, rfl⟩, rfl⟩, _, rfl, by decide +kernel⟩
/-- An elastic level of one job over ring 15. -/
def elasticMe (r : Ring) : State := withJob (engined [{ meJob 2 false lntSlotted .arrival .running with ix := [0] }]) fun j => { j with
  rings := j.rings.set 15 r }
theorem witness_level (r : Ring) : ∃ p x j m, RunsAt (elasticMe r) c0 p x j ∧ Quiet j ∧ j.running = some m ∧ m.more = true ∧ m.slot = none ∧
    lntElastic m.lnt = some 1 ∧ levRing m.lnt 1 = 15 ∧ j.rings[15] = r ∧ 1 = lntNlev m.lnt :=
  ⟨_, _, _, _, ⟨⟨rfl, rfl⟩, rfl⟩, none_in, rfl, rfl, rfl, by decide +kernel, by decide +kernel, rfl, by decide +kernel⟩
/-- A partial of pass `i` of tile 63 in buffer 3, with pass 0 next. -/
def partialed (o : OrderMode) (i : Nat) (held : List (Nat × Part)) : MeJob := { meJob 2 false lntOne o .running with
  buffers := #v[none, none, none, some (63, i, default)], tiles := [⟨63, 2, 0, held, []⟩] }
theorem witness_partial (o : OrderMode) : Engined [partialed o 0 []] fun _ j => ∃ m, Quiet j ∧ j.me.jobs.find? (fun x => x.id == 2) = some m ∧ m.id = 2 ∧
    m.buffers[(3 : Fin 4)] = some (63, 0, default) ∧ m.toFree = [] ∧ m.order = o ∧ 0 = (m.prog 63).next ∧ (m.prog 63).held = [] ∧
    j.tileOpen m.region 63 = true := ⟨_, _, _, ⟨⟨rfl, rfl⟩, rfl⟩, _, none_in, rfl, rfl, rfl, rfl, rfl, rfl, rfl, rfl⟩
theorem witness_partial_held : Engined [partialed .ordered 1 (List.replicate 7 default)] fun _ j => ∃ m, Quiet j ∧
    j.me.jobs.find? (fun x => x.id == 2) = some m ∧ m.id = 2 ∧ m.buffers[(3 : Fin 4)] = some (63, 1, default) ∧ m.order = .ordered ∧
    1 ≠ (m.prog 63).next ∧ (m.prog 63).held.length < 8 := ⟨_, _, _, ⟨⟨rfl, rfl⟩, rfl⟩, _, none_in, rfl, rfl, rfl, rfl, by decide, by decide⟩
theorem witness_partial_full : Engined [partialed .ordered 1 (List.replicate 8 default)] fun _ j => ∃ m, Quiet j ∧
    j.me.jobs.find? (fun x => x.id == 2) = some m ∧ m.id = 2 ∧ m.order = .ordered ∧ 1 ≠ (m.prog 63).next ∧ 8 ≤ (m.prog 63).held.length :=
  ⟨_, _, _, ⟨⟨rfl, rfl⟩, rfl⟩, _, none_in, rfl, rfl, rfl, by decide, by decide⟩
theorem witness_partial_pairwise : Engined [partialed .pairwise 0 []] fun _ j => ∃ m, j.me.jobs.find? (fun x => x.id == 2) = some m ∧ m.id = 2 ∧
    m.order = .pairwise ∧ m.canMerge (m.prog 63) 0 = true := ⟨_, _, _, ⟨⟨rfl, rfl⟩, rfl⟩, _, rfl, rfl, rfl, by decide +kernel⟩
theorem witness_me_complete : Engined [meJob 2 false lntOne .arrival .drained] fun _ j => ∃ m, Quiet j ∧ j.me.jobs.find? (fun x => x.id == 2) = some m ∧ m.id = 2 ∧
    m.phase = .drained ∧ (∀ b : Fin 4, m.buffers[b] = none) ∧ m.toFree = [] ∧ m.logPub = [] ∧ m.order ≠ .pairwise ∧ j.me.tasks = [] :=
  ⟨_, _, _, ⟨⟨rfl, rfl⟩, rfl⟩, _, none_in, rfl, rfl, rfl, by decide, rfl, rfl, by decide, rfl⟩
/-- A PAIRWISE job of one pass to tile 63. -/
theorem witness_me_complete_pairwise : Engined [{ meJob 2 false lntOne .pairwise .drained with tiles := [⟨63, 1, 1, [(0, default)], [(0, 1)]⟩] }]
    fun _ j => ∃ m, Quiet j ∧ j.me.jobs.find? (fun x => x.id == 2) = some m ∧ m.id = 2 ∧ m.phase = .drained ∧
    (∀ b : Fin 4, m.buffers[b] = none) ∧ m.toFree = [] ∧ m.logPub = [] ∧ m.order = .pairwise ∧ j.me.tasks = [] ∧
    (m.tiles.map (·.tile)).Nodup ∧ (∀ t ∈ m.tiles, j.tileOpen m.region t.tile = true) ∧ ∃ t ∈ m.tiles,
    t.tile = 63 ∧ pairTotal (lntInt m.lnt) t.held = some default :=
  ⟨_, _, _, ⟨⟨rfl, rfl⟩, rfl⟩, _, none_in, rfl, rfl, rfl, by decide, rfl, rfl, rfl, rfl, by decide, by decide, _,
    List.mem_singleton.2 rfl, rfl, rfl⟩
theorem witness_me_incomplete : Engined [meJob 2 false lntOne .arrival .running] fun _ j => ∃ m, Quiet j ∧
    j.me.jobs.find? (fun x => x.id == 2) = some m ∧ m.id = 2 ∧ m.phase ≠ .drained := ⟨_, _, _, ⟨⟨rfl, rfl⟩, rfl⟩, _, none_in, rfl, rfl, nofun⟩
theorem witness_path_log : Engined [{ meJob 2 false lntOne .arrival .drained with logPub := [15] }] fun x j => ∃ m rest,
    j.me.jobs.find? (fun x => x.id == 2) = some m ∧ m.id = 2 ∧ m.logPub = 15 :: rest ∧ (j.rings[15]).fill.toNat + ringPending x.due j 15 true + 1 ≤ 255 :=
  ⟨_, _, _, ⟨⟨rfl, rfl⟩, rfl⟩, _, _, rfl, rfl, rfl, by decide +kernel⟩
/-- A ZBM row of A whose element lies past the end of the row. -/
def badMe : State := withJob (engined [meJob 2 false ((lntOne.set 2 64).set 14 (2 ^ 30 + 2 ^ 34)) .arrival .running]) fun j => { j with mem := [(0, 1)] }
theorem witness_metadata : ∃ p x j m r, RunsAt badMe c0 p x j ∧ j.running = some m ∧ j.passOpen x.ops m = true ∧ j.meFault m = some r := by
  refine ⟨_, _, _, _, (Job.meFault _ _).get (?_ : _ = true), ⟨⟨rfl, rfl⟩, rfl⟩, rfl, by decide +kernel, (Option.some_get _).symm⟩
  decide +kernel
/-- A rime-gated operand whose slab is EMPTY. -/
def starved : State := engined [{ meJob 2 false (lntOne.set 14 (2 ^ 30 + 2 ^ 40)) .arrival .running with stall := some 0 }]
theorem witness_me_starves : ∃ p x j m, RunsAt starved c0 p x j ∧ j.running = some m ∧ m.stall = some 0 ∧ 0 + 2 ^ 24 ≤ p.clkOf c0.cell ∧
    ∃ w, j.walkerWait x.ops = some w ∧ w ≠ .log := ⟨_, _, _, _, ⟨⟨rfl, rfl⟩, rfl⟩, rfl, rfl, by decide, .slab 0, by decide +kernel, nofun⟩
/-- A drain of tile 63, its launch the operation 5. -/
def draining (d : DrainDst) (f : Job → Job) : State := withJob onAc fun j => f { j with
  me := { j.me with tasks := [⟨5, 5, 0, 63, .drain .f32 .rne false 0 d, 0, 0⟩] } }
def Drains (d : DrainDst) (f : Job → Job) (P : CellState → Job → MeTask → Prop) : Prop := ∃ p x j t, RunsAt (draining d f) c0 p x j ∧
  j.me.tasks = [t] ∧ j.drainReady x.ops t = true ∧ t.tile < 64 ∧ t.at_ = 0 ∧ t.work = .drain .f32 .rne false 0 d ∧ P x j t
theorem witness_drain_queue : Drains (.queue 3 (List.range' 6 64)) id fun _ _ _ => (List.range' 6 64).length = 2 * etBits .f32 ∧
    (List.range' 6 64).Nodup :=
  ⟨_, _, _, _, ⟨⟨rfl, rfl⟩, rfl⟩, rfl, by decide +kernel, by decide, rfl, rfl, by decide, by decide⟩
def drainWrite (b : Bool) : AsyncWrite := ⟨6, some 5, 0, [28, 29, 30, 31], none, .none, false, 0, 0, 0, [], none, b, none⟩
theorem witness_drain_regs (b : Bool) : Drains (.regs 6) (fun j => { j with async := [drainWrite b] }) fun _ j t => ∃ w,
    j.async.find? (fun w => w.id == 6) = some w ∧ w.complete = b ∧ w.drain = some t.id ∧ w.mask = none ∧ w.regs = [28, 29, 30, 31] ∧
    w.regs.Nodup ∧ ∀ b ∈ w.regs, b < 32 :=
  ⟨_, _, _, _, ⟨⟨rfl, rfl⟩, rfl⟩, rfl, by cases b <;> decide +kernel, by decide, rfl, rfl, _, rfl, rfl, rfl, rfl, rfl,
    by show [28, 29, 30, 31].Nodup; decide, by show ∀ b ∈ [28, 29, 30, 31], b < 32; decide⟩
/-- The last slabs of a carve-out. -/
theorem witness_drain_slabs : Drains (.slabs (1016 * 2048)) id fun _ j t => (∀ n : Fin 64, (j.tile t.tile).p[n] = .none) ∧ Memory.wf j.mem = true ∧
    (∀ sl, sl * 2048 < 1016 * 2048 + 512 * etBits .f32 → 1016 * 2048 < sl * 2048 + 2048 → j.tag sl = Tag.zero ∧
      look j.posts sl ≠ some 0) :=
  ⟨_, _, _, _, ⟨⟨rfl, rfl⟩, rfl⟩, rfl, by decide +kernel, by decide, rfl, rfl, by decide +kernel, rfl, fun _ _ _ => ⟨rfl, nofun⟩⟩
/-- Elements of the processing elements: 1.5 and -2 over 1.0; integers; indices of a table. -/
theorem witness_steps : ∃ (v : PeEnv) (a b : El), v.int = false ∧ v.tabled = false ∧ IsRat a.x (3 / 2) ∧ IsRat b.x (-2) ∧
    IsRat (fmtF32.decode 0x3F800000) 1 ∧ |(3 / 2 : ℚ) * -2 + 1| ≤ codeRat fmtF32 (largest fmtF32) :=
  ⟨⟨false, false, none, [0]⟩, ⟨0, 0, .fin false 3 (-1), 0, false⟩, ⟨0, 0, .fin true 1 1, 0, false⟩, rfl, rfl,
    ⟨_, _, _, rfl, by decide +kernel⟩, ⟨_, _, _, rfl, by decide +kernel⟩, ⟨_, _, _, rfl, by decide +kernel⟩, by decide +kernel⟩
theorem witness_steps_table : ∃ (v : PeEnv) (t : TabSlot), v.tabled = true ∧ v.table = some t ∧ v.int = true ∧ tableWord t 15 15 = 1 :=
  ⟨⟨true, true, some ⟨.product, List.replicate 1020 0 ++ [1, 0, 0, 0], .none⟩, [0]⟩, _, rfl, rfl, rfl, by decide +kernel⟩
/-- A codebook of 16 entries in slot 15. -/
theorem witness_codebook : ∃ (w : Walk) (o : Opnd) (t : TabSlot), o.fmt = 2 ∧ w.codebook o.table = some t ∧ 15 < leNat ((t.bytes.drop 32).take 1) :=
  ⟨⟨{ placeJob 1 0 with me := { (placeJob 1 0).me with slots := (placeJob 1 0).me.slots.set 15 (some ⟨.codebook, List.replicate 32 0 ++ [16], .none⟩) } }, lntOne, 0, []⟩, { opnd lntOne 0 with fmt := 2, table := 15 }, _, rfl, rfl, by decide⟩
theorem witness_product : ∃ w : Walk, lntTree w.l = false ∧ (opnd w.l 0).fmt = 0 ∧ (opnd w.l 0).rg = false ∧ (opnd w.l 0).sc = false ∧
    0 < lntK w.l ∧ w.opBase 0 % 2 ^ 21 + (32 + 7) / 8 ≤ w.j.limit := ⟨⟨placeJob 1 0, lntOne, 0, []⟩, by decide +kernel⟩
theorem witness_pairwise : ∃ m : MeJob, m.order = .pairwise ∧ [2, 0, 1].Perm (List.range 3) := ⟨meJob 2 false lntOne .pairwise .running, rfl, by decide⟩
theorem witness_drain_row : ∃ t : Tile, ET.f32 = (if t.int then .i32 else .f32) ∧ ET.bf16 ≠ (if t.int then .i32 else .f32) :=
  ⟨Tile.zero, rfl, nofun⟩

/-! ## Witnesses: transfers, batches, selection, traps, loss -/

theorem some_of {α : Type} {o : Option α} (h : o.isSome = true) : ∃ a, o = some a := Option.isSome_iff_exists.1 h
theorem ok_of {ε α : Type} {e : Except ε α} (h : e.toBool = true) : ∃ a, e = .ok a := by
  cases e with
  | error _ => cases h
  | ok a => exact ⟨a, rfl⟩

/-- A transfer of CE0, its chain in flight: over a carve-out that holds `m`, its slabs as `ts` says. -/
def xferOf (kd : Xfer) (src dst : Word) : Transfer := ⟨5, 4, 0, 0x1000, kd, src, dst, 0, [], 0, false, false, [], []⟩
def xferSt (kd : Xfer) (src dst : Word) (ts : List (Nat × Tag)) (m : List Byte) : State := engineSt true [] (fun c => { c with id := 4 })
  fun j => { j with ce0 := { j.ce0 with xfers := [xferOf kd src dst] }, tags := ts, mem := memWrite j.mem 0 m }
/-- Nothing holds the transfer; what `P` asks of the carve-out. -/
def Begun (kd : Xfer) (src dst : Word) (ts : List (Nat × Tag)) (m : List Byte) (P : EHere → Prop) : Prop :=
  ∃ h, Unbegun (xferSt kd src dst ts m) c0 0 h (xferOf kd src dst) ∧ P h
theorem begun_of (kd : Xfer) (src dst : Word) (ts : List (Nat × Tag)) (m : List Byte) (hm : Memory.wf (memWrite [] 0 m) = true) (P : EHere → Prop)
    (hP : ∀ h : EHere, h.id = c0 → h.jb.limit = 1024 * 2048 → h.jb.tags = ts → h.jb.posts = [] → h.jb.marks = [] → h.jb.mem = memWrite [] 0 m → P h) :
    Begun kd src dst ts m P :=
  ⟨_, ⟨rfl, rfl, nofun, rfl, rfl, rfl, rfl, nofun, rfl, rfl, rfl, rfl, rfl, Nat.le_trans (Nat.le_of_eq (rfl : _ = 1024 * 2048)) (by decide), hm⟩, hP _ rfl rfl rfl rfl rfl rfl⟩
theorem fresh_of {h : EHere} (h1 : h.jb.tags = []) (h2 : h.jb.posts = []) (sl : Nat) : Fresh h sl := by
  refine ⟨?_, ?_⟩
  · unfold Job.tag
    rw [h1]
    rfl
  · rw [h2]
    exact nofun
theorem tag_none {j : Job} (h : j.tags = []) (n : Nat) : (j.tag n).st = .empty := by
  unfold Job.tag
  rw [h]
  rfl
/-- A copy of a byte of slab 0 and those after it onto the last 64 bytes of the carve-out. -/
theorem witness_copy_complete : Begun (.copy 64) (2 ^ 60 + 1) (2 ^ 60 + (1024 * 2048 - 64)) [] [] fun h =>
    (2 ^ 60 + 1 : Word).toNat = 2 ^ 60 + 1 ∧ (2 ^ 60 + (1024 * 2048 - 64) : Word).toNat = 2 ^ 60 + (1024 * 2048 - 64) ∧
    1024 * 2048 - 64 + 64 ≤ h.jb.limit ∧ (∀ i < 64, Readable h.jb [.full, .empty] (Touches (1024 * 2048 - 64) 64) (1 + i)) ∧
    ∀ sl, Touches (1024 * 2048 - 64) 64 sl → Fresh h sl :=
  begun_of _ _ _ _ _ rfl _ fun h _ hl ht hp hm _ => ⟨by decide, by decide, by omega,
    fun i hi => ⟨by omega, by rw [tag_none ht]; decide, by rw [hm]; exact nofun, fun g => by unfold Touches at g; omega⟩,
    fun sl _ => fresh_of ht hp sl⟩
/-- A dense record of no element. -/
def noneRec : List Byte :=
  let b : List Byte := [0, 1, 7, 0] ++ List.replicate 28 0 ++ [0, 0, 0, 0] ++ [1, 0, 0, 0, 0, 0, 0, 0] ++ List.replicate 212 0
  let n := shCheck b
  b.take 4 ++ [BitVec.ofNat 8 n, BitVec.ofNat 8 (n / 256)] ++ b.drop 6
theorem witness_walk_empty : Begun (.walk noneRec none) (2 ^ 60) (2 ^ 60) [] [] fun _ => shGood noneRec = true ∧ (walkNibs noneRec + 1) / 2 = 0 :=
  begun_of _ _ _ _ _ rfl _ fun _ _ _ _ _ _ _ => ⟨by decide +kernel, by decide +kernel⟩
theorem point_dense {ix : List Nat} (h : IsPoint (Claims.spaceOf dense) ix) : ∃ i, i < 64 ∧ ix = [i] := by
  have hs : Claims.spaceOf dense = [64] := by decide +kernel
  rw [hs] at h
  obtain ⟨h1, h2⟩ := h
  match ix, h1 with
  | [i], _ => exact ⟨i, h2 0 (by decide), rfl⟩
theorem reads_dense {j : Job} {ts : List TagSt} {D : Nat → Prop} (hl : j.limit = 1024 * 2048) (ht : (j.tag 0).st ∈ ts) (hm : j.marks = []) (hD : ¬D 0) :
    WalkReads dense 0 j ts D := by
  have hk : recNibs dense = 2 := by decide +kernel
  have key : ∀ i : Fin 64, ∀ k : Fin 2, 0 ≤ sourceNib dense 0 [i.val] + k.val ∧ (sourceNib dense 0 [i.val] + k.val).toNat / 2 < 2048 := by
    decide +kernel
  intro ix hx _ k h
  obtain ⟨i, hi, rfl⟩ := point_dense hx
  obtain ⟨h1, h2⟩ := key ⟨i, hi⟩ ⟨k, by omega⟩
  replace h2 : (sourceNib dense 0 [i] + (k : Int)).toNat / 2 < 2048 := h2
  refine ⟨h1, ?_, ?_, ?_, ?_⟩
  · omega
  · rw [Nat.div_eq_of_lt h2]
    exact ht
  · rw [hm]
    exact nofun
  · rw [Nat.div_eq_of_lt h2]
    exact hD
/-- The record's 64 bytes of slab 0 onto the last of the carve-out. -/
theorem witness_walk_packed : Begun (.walk dense none) (2 ^ 60) (2 ^ 60 + (1024 * 2048 - 64)) [] [] fun h => shGood dense = true ∧
    (walkNibs dense + 1) / 2 = 64 ∧ 1024 * 2048 - 64 + 64 ≤ h.jb.limit ∧ (∀ sl, Touches (1024 * 2048 - 64) 64 sl → Fresh h sl) ∧
    WalkReads dense 0 h.jb [.full, .empty] (Touches (1024 * 2048 - 64) 64) :=
  begun_of _ _ _ _ _ rfl _ fun h _ hl ht hp hm _ => ⟨by decide +kernel, by decide +kernel, by omega, fun sl _ => fresh_of ht hp sl,
    reads_dense hl (by rw [tag_none ht]; decide) hm (by unfold Touches; decide)⟩
def full0 : List (Nat × Tag) := [(0, ⟨.full, true, false, 0, 1, 1⟩)]
theorem witness_halo : Begun (.halo dense) (2 ^ 60) (2 ^ 60 + (1024 * 2048 - 64)) full0 [] fun h =>
    (∀ sl, Touches (1024 * 2048 - 64) 64 sl → Fresh h sl) ∧ WalkReads dense 0 h.jb [.full] (Touches (1024 * 2048 - 64) 64) := by
  refine begun_of _ _ _ _ _ rfl _ fun h _ hl ht hp hm _ => ⟨fun sl hs => ⟨?_, by rw [hp]; exact nofun⟩, reads_dense hl ?_ hm (by unfold Touches; decide)⟩
  · obtain rfl : sl = 1023 := by
      unfold Touches at hs
      omega
    unfold Job.tag
    rw [ht]
    rfl
  · unfold Job.tag
    rw [ht]
    decide
/-- The HALO's first slab is EMPTY. -/
theorem witness_halo_stands : Begun (.halo dense) (2 ^ 60) (2 ^ 60 + (1024 * 2048 - 64)) [] [] fun h =>
    IsPoint (Claims.spaceOf dense) [0] ∧ (∀ i ∈ [0], i = 0) ∧ inTensor dense [0] = true ∧ 0 ≤ sourceNib dense 0 [0] ∧
    (sourceNib dense 0 [0]).toNat / 2 < h.jb.limit ∧ (h.jb.tag ((sourceNib dense 0 [0]).toNat / 2 / 2048)).st ∈ [.empty, .filling] :=
  begun_of _ _ _ _ _ rfl _ fun h _ hl ht _ _ _ => ⟨by unfold IsPoint; decide +kernel, by decide, by decide +kernel, by decide +kernel,
    by rw [hl]; decide +kernel, by rw [tag_none ht]; decide⟩
theorem witness_walk_to_record : Begun (.walk dense (some dense)) (2 ^ 60) (2 ^ 60 + 1023 * 2048) [] [] fun h => Fits dense dense ∧
    0 < walkNibs dense ∧ walkNibs dense ≤ 2048 ∧
    let D (sl : Nat) : Prop := ∃ ix k, IsPoint (Claims.spaceOf dense) ix ∧ k < recNibs dense ∧
      sl = (destNib dense dense (1023 * 2048) ix + k).toNat / 2 / 2048
    (∀ ix, IsPoint (Claims.spaceOf dense) ix → 0 ≤ destNib dense dense (1023 * 2048) ix ∧
      destNib dense dense (1023 * 2048) ix + recNibs dense ≤ 2 * h.jb.limit) ∧
    (∀ ix iy, IsPoint (Claims.spaceOf dense) ix → IsPoint (Claims.spaceOf dense) iy → ix ≠ iy →
      destNib dense dense (1023 * 2048) ix + recNibs dense ≤ destNib dense dense (1023 * 2048) iy ∨
      destNib dense dense (1023 * 2048) iy + recNibs dense ≤ destNib dense dense (1023 * 2048) ix) ∧
    (∀ sl, D sl → Fresh h sl) ∧ WalkReads dense 0 h.jb [.full, .empty] D := by
  have hk : recNibs dense = 2 := by decide +kernel
  have hd : ∀ i : Fin 64, destNib dense dense (1023 * 2048) [i.val] = 2 * 1023 * 2048 + 2 * i.val := by decide +kernel
  refine begun_of _ _ _ _ _ rfl _ fun h _ hl ht hp hm _ => ⟨by unfold Fits; decide +kernel, by decide +kernel, by decide +kernel, ?_, ?_,
    fun sl _ => fresh_of ht hp sl, reads_dense hl (by rw [tag_none ht]; decide) hm ?_⟩
  · intro ix hx
    obtain ⟨i, hi, rfl⟩ := point_dense hx
    rw [hd ⟨i, hi⟩, hk, hl]
    omega
  · intro ix iy hx hy hne
    obtain ⟨i, hi, rfl⟩ := point_dense hx
    obtain ⟨k, hk', rfl⟩ := point_dense hy
    rw [hd ⟨i, hi⟩, hd ⟨k, hk'⟩, hk]
    have : i ≠ k := fun e => hne (by rw [e])
    dsimp only
    omega
  · rintro ⟨ix, k, hx, h2, h3⟩
    obtain ⟨i, hi, rfl⟩ := point_dense hx
    rw [hd ⟨i, hi⟩] at h3
    dsimp only at h3
    omega
/-- The transpose of a tile of bytes, its rows 64 bytes apart, onto the last 4,096 bytes of the carve-out. -/
def transP : Word := 2 + 64 * 2 ^ 16 + 64 * 2 ^ 32
theorem witness_transpose : Begun (.codec 9 transP) (2 ^ 60) (2 ^ 60 + 1022 * 2048) [] [] fun h => transP.extractLsb' 0 2 ≠ 3 ∧
    4 / 2 ^ (transP.extractLsb' 0 2).toNat = 1 ∧ (transP.extractLsb' 16 16).toNat = 64 ∧ (transP.extractLsb' 32 16).toNat = 64 ∧
    1022 * 2048 + 63 * 64 + 64 * 1 ≤ h.jb.limit ∧
    let D (sl : Nat) : Prop := ∃ j < 64, Touches (1022 * 2048 + j * 64) (64 * 1) sl
    (∀ i < 64, ∀ k < 64 * 1, Readable h.jb [.full, .empty] D (0 + i * 64 + k)) ∧ ∀ sl, D sl → Fresh h sl :=
  begun_of _ _ _ _ _ rfl _ fun h _ hl ht hp hm _ => ⟨by decide, by decide, by decide, by decide, by omega,
    fun i hi k hk => ⟨by omega, by rw [tag_none ht]; decide, by rw [hm]; exact nofun, fun ⟨_, _, g⟩ => by unfold Touches at g; omega⟩,
    fun sl _ => fresh_of ht hp sl⟩
/-- A tile of zero bytes has a ZBM payload of its bitmaps alone. -/
theorem witness_payload : ZbmPayload [] 0 1 (List.replicate 512 0) := by
  have h : ∀ i, memRead [] i 1 = [0] := fun _ => rfl
  refine ⟨List.replicate 512 0, by decide, fun i hi => ?_, ?_⟩
  · rw [h, List.getD_replicate _ (by omega)]
    simp
  · simp [zbmKept, h]
/-- With page 1 of the context a compressed one over frames 257 x 512 on. -/
def compressed (s : State) (tag : BitVec 16) (m : List Byte) : State := s.modPkg 0 fun p => { p.modCtx 1 (fun cx => { cx with
  table := [(0, freshLeaf 256 false), (1, freshLeaf 257 false ||| 64)] }) with
    ctags := if tag = 0 then [] else [(257 * 512, tag)], hbm := memWrite p.hbm (257 * 2 ^ 21) m }
theorem maps_compressed (p : Package) (w : Who) (acc : Acc) (cx : Context) (k n : Nat) (h1 : p.ctx w.ctx = some cx) (h2 : cx.seals = [])
    (h3 : p.tlbHit w (2 ^ 21 + k) = none) (h4 : cx.ptBase = 0)
    (h5 : cx.table = [(0, freshLeaf 256 false), (1, freshLeaf 257 false ||| 64)]) (h6 : k < 4096)
    (h7 : ∀ c, leafFail (freshLeaf 257 false ||| 64).toNat w acc false c = none) (h8 : ∀ f, p.frameSealed f = false) :
    p.translate w (2 ^ 21 + k) n acc = .ok (.hbm (257 * 2 ^ 21 + k) (2 ^ 21 + k) true) := by
  have d : (2 ^ 21 + k) / 2 ^ 21 = 1 := by omega
  have e : (2 ^ 21 + k) % 2 ^ 21 = k := by omega
  have hl : p.leafOf w (2 ^ 21 + k) = .ok ((freshLeaf 257 false ||| 64).toNat, 3) := by
    simp only [Package.leafOf, h1, Context.sealLeaf, h2, h3, Package.walk, h4, h5, d]
    rfl
  have f1 : fld (freshLeaf 257 false ||| 64).toNat 12 40 = 257 * 512 := by decide
  have f2 : fld (freshLeaf 257 false ||| 64).toNat 9 2 = 0 := by decide
  have f3 : bitAt (freshLeaf 257 false ||| 64).toNat 6 = true := by decide
  have f4 : pageBytes 3 = 2 ^ 21 := rfl
  unfold Package.translate
  rw [if_neg (by unfold firnBase; simp only [Bool.and_eq_true, decide_eq_true_eq]; omega), hl]
  simp only [f1, f2, f3, f4, e]
  rw [h8, Bool.and_false, h7]
  simp only
  rw [if_neg (by unfold dumpBase hbmBytes dumpBytes; omega), show 257 * 512 * 4096 = 257 * 2 ^ 21 from by norm_num]
def blockSt (code : Nat) (p : Word) (tag : BitVec 16) (m : List Byte) : State :=
  compressed (xferSt (.codec code p) (2 ^ 21) (2 ^ 60 + 1022 * 2048) [] []) tag m
theorem source_blocks (code : Nat) (p : Word) (tag : BitVec 16) (m : List Byte) (ht : tag ≠ 0) : ∃ h,
    Unbegun (blockSt code p tag m) c0 0 h (xferOf (.codec code p) (2 ^ 21) (2 ^ 60 + 1022 * 2048)) ∧ h.id = c0 ∧
    h.jb.limit = 1024 * 2048 ∧ (∀ sl, Fresh h sl) ∧ SourceBlocks h (2 ^ 21) 1 (fun _ => 257 * 2 ^ 21) ∧ h.pk.ctag (257 * 512) = tag ∧
    ∃ old, h.pk.hbm = memWrite old (257 * 2 ^ 21) m := by
  have hc : (if tag = 0 then [] else [(257 * 512, tag)]) = [(257 * 512, tag)] := if_neg ht
  refine ⟨_, ⟨rfl, rfl, nofun, rfl, rfl, rfl, rfl, nofun, rfl, rfl, rfl, rfl, rfl,
    Nat.le_trans (Nat.le_of_eq (rfl : _ = 1024 * 2048)) (by decide), rfl⟩, rfl, rfl, fun sl => fresh_of rfl rfl sl,
    ⟨by decide, fun _ _ => by decide, ?_, fun _ _ => nofun⟩, ?_, _, rfl⟩
  · intro i hi k n hn hk
    obtain rfl : i = 0 := by omega
    exact maps_compressed _ _ _ _ k n rfl rfl rfl rfl rfl (by omega) (fun c => by cases c <;> rfl) (fun _ => rfl)
  · show (look (if tag = 0 then [] else [(257 * 512, tag)]) _).getD 0 = tag
    rw [hc]
    rfl
/-- The first of three kicks, a CLINK, with nothing running. -/
theorem witness_kick_start : ∃ p x j ch rest, RunsAt kicked c0 p x j ∧ (j.eng 1).kicks = ch :: rest ∧ (j.eng 1).chain = none ∧
    ch.role = .kicked 1 false := ⟨_, _, _, _, _, ⟨⟨rfl, rfl⟩, rfl⟩, rfl, rfl, rfl⟩
theorem witness_kick_waits : ∃ p x j ch rest, RunsAt (engineSt true [] id fun j => { j with ce0 := { j.ce0 with
      kicks := [⟨1, .kicked 1 true, 0x2000, 0, [], Vector.replicate 4 none, [], [], [], false, false, true, none⟩] } }) c0 p x j ∧
    (j.eng 0).kicks = ch :: rest ∧ (j.eng 0).chain ≠ none := ⟨_, _, _, _, _, ⟨⟨rfl, rfl⟩, rfl⟩, rfl, nofun⟩
/-- The launch of the kick stands after a load that has not come back. -/
def launchWaits (s : State) : State := onCell s fun x => { x with ops := [{ loadOp with id := 9 },
  { loadOp with id := 1, what := .point, preds := [9] }] }
theorem witness_kick_held : ∃ p x j ch rest, RunsAt (launchWaits kicked) c0 p x j ∧ (j.eng 1).kicks = ch :: rest ∧ (j.eng 1).chain = none ∧
    ch.role = .kicked 1 false ∧ launchReady x.ops 1 false = false := ⟨_, _, _, _, _, ⟨⟨rfl, rfl⟩, rfl⟩, rfl, rfl, rfl, rfl⟩
def unbegun : State := engineSt true [] (fun c => { c with begun := false }) id
theorem witness_chain_begin_held : ∃ h, (launchWaits unbegun).ehereAt c0 0 = some h ∧ h.ch.role = .kicked 1 false ∧ h.ch.begun = false ∧
    h.ch.live = true ∧ launchReady h.ce.ops 1 false = false := ⟨_, rfl, rfl, rfl, rfl, by decide +kernel⟩
theorem witness_chain_begin : ∃ h, unbegun.ehereAt c0 0 = some h ∧ h.ch.role = .kicked 1 false ∧ h.ch.begun = false ∧ h.ch.live = true ∧
    h.atBody = true ∧ launchReady h.ce.ops 1 false = true ∧
    h.jb.edgesClear 1 [⟨0, 0, 2 ^ 48, true, false⟩, ⟨1, 0, 2 ^ 21, true, false⟩] = true :=
  ⟨_, rfl, rfl, rfl, rfl, by decide +kernel, by decide +kernel, by decide +kernel⟩
/-- A chain that waits for its semaphore for 2^24 clk. -/
def idling : State := aged (2 ^ 24) (chainWaits (.sem 0 false) fun j => { j with ce0 := { j.ce0 with starve := some 0 } })
theorem witness_ce_starves : ∃ h, idling.ehereAt c0 0 = some h ∧ h.ch.live = true ∧ (h.jb.eng 0).starve = some 0 ∧ 0 + 2 ^ 24 ≤ h.pk.clkOf c0.cell ∧
    h.stalled = true := ⟨_, rfl, rfl, rfl, by decide, by decide +kernel⟩
def batched (n : Nat) (now : Nat) (l : List Batch) : State := { onCell (alive (aged 160 onAc)) (fun x => { x with
  shadows := x.shadows.set 15 ⟨some ⟨1, 0x10000, 0x1FFFF8, 64, false⟩, List.replicate n (List.replicate 64 7), 0, l⟩ }) with now := now }
theorem witness_batch_waits : ∃ p x, CellAt (batched 63 (2000 * 252 - 1) []) c0 p x ∧
    (batched 63 (2000 * 252 - 1) []).now < (x.shadows[15]).openedAt + 2000 * 252 ∧ (x.shadows[15]).opened.length < 64 :=
  ⟨_, _, ⟨rfl, rfl⟩, by decide, by decide⟩
theorem witness_batch_closes : ∃ p x b, CellAt (batched 64 0 []) c0 p x ∧ (x.shadows[15]).opened ≠ [] ∧ 64 ≤ (x.shadows[15]).opened.length ∧
    (x.shadows[15]).bind = some b := ⟨_, _, _, ⟨rfl, rfl⟩, nofun, by decide, rfl⟩
theorem witness_batch_closes_late : ∃ p x, CellAt (batched 1 (2000 * 252) []) c0 p x ∧ (x.shadows[15]).opened ≠ [] ∧
    (x.shadows[15]).openedAt + 2000 * 252 ≤ (batched 1 (2000 * 252) []).now := ⟨_, _, ⟨rfl, rfl⟩, nofun, by decide⟩
/-- A batch of one entry for a queue of this package. -/
def batch1 (sent : Option Nat) (lost : Bool := false) : Batch := ⟨⟨1, 0x10000, 0x1FFFF8, 64, false⟩, [List.replicate 64 7], sent, 0, [], lost⟩
theorem witness_batch_send : ∃ p x b rest, CellAt (batched 0 0 [batch1 none]) c0 p x ∧ (x.shadows[15]).batches = b :: rest ∧ b.sent = none ∧
    b.sentAt + 160 ≤ p.clkOf c0.cell ∧ Memory.wf p.hbm = true ∧
    ∃ w a va, (batched 0 0 [batch1 none]).fabricAt 0 b.bind.ctx b.bind.secure b.bind.taila 8 .atomic = .ok (0, w, .hbm a va false) :=
  ⟨_, _, _, _, ⟨rfl, rfl⟩, rfl, rfl, by decide, rfl, _, _, _, rfl⟩
theorem witness_batch_complete : ∃ p x b rest, CellAt (batched 0 0 [batch1 (some 64)]) c0 p x ∧ (x.shadows[15]).batches = b :: rest ∧
    b.sent = some 64 ∧ b.sentAt + 160 ≤ p.clkOf c0.cell ∧ b.entries = [List.replicate 64 7] ∧ b.flush = [] ∧ Memory.wf p.hbm = true ∧
    ∃ w a va, (batched 0 0 [batch1 (some 64)]).fabricAt 0 b.bind.ctx b.bind.secure (b.bind.qbase + BitVec.ofNat 64 (64 * (64 % b.bind.cap))) 64
      .store = .ok (0, w, .hbm a va false) := ⟨_, _, _, _, ⟨rfl, rfl⟩, rfl, rfl, by decide, rfl, rfl, rfl, _, _, _, rfl⟩

/-- A port died under it. -/
theorem witness_batch_lost : ∃ p x b rest, CellAt (batched 0 0 [batch1 (some 64) true]) c0 p x ∧ (x.shadows[15]).batches = b :: rest ∧
    b.sent = some 64 ∧ b.lost = true ∧ b.entries = [List.replicate 64 7] ∧ b.flush = [] := ⟨_, _, _, _, ⟨rfl, rfl⟩, rfl, rfl, rfl, rfl, rfl⟩
/-- Eight bytes that a COPY to G has formed: 159 clk, and 160, after. -/
def formed8 (clk : Nat) : State := aged clk (engineSt true [] (fun c => { c with id := 4 }) fun j => { j with ce0 := { j.ce0 with
  xfers := [{ xferOf (.copy 8) (2 ^ 60) 0x3FF8 with at_ := 1, formed := [.piece 0 ((List.replicate 8 7).map fun y => (y, false))] }] } })
theorem witness_held_write (clk : Nat) (hc : clk = 159 ∨ clk = 160) : ∃ h x a, (formed8 clk).ehereAt c0 0 = some h ∧ (h.jb.eng 0).xfers.find? (fun y => y.id == 5) = some x ∧
    x.id = 5 ∧ x.chain = h.ch.id ∧ (∀ y ∈ (h.jb.eng 0).xfers.takeWhile (fun y => y.id != x.id), y.chain ≠ x.chain) ∧ h.ch.live = true ∧
    h.ch.halted = false ∧ h.ch.foot = [] ∧ (∀ t ∈ h.jb.traps, t.dlv ≠ h.ch.dlv 0) ∧ x.kind = .copy 8 ∧ x.dst.toNat = 0x3FF8 ∧
    0x3FF8 / 8 = (0x3FF8 + 8 - 1) / 8 ∧ x.at_ = 1 ∧ x.formed = [.piece 0 ((List.replicate 8 7).map fun y => (y, false))] ∧
    x.marked = [] ∧ x.halted = false ∧ h.pk.clkOf c0.cell = clk ∧ x.formedAt = 0 ∧ h.id = c0 ∧
    h.pk.translate h.who 0x3FF8 8 .engWrite = .ok (.hbm a 0x3FF8 false) ∧ h.pk.migrating h.who 0x3FF8 = false ∧
    Memory.wf h.pk.hbm = true := by
  obtain rfl | rfl := hc <;>
    exact ⟨_, _, _, rfl, rfl, rfl, rfl, nofun, rfl, rfl, rfl, nofun, rfl, rfl, by decide, rfl, rfl, rfl, rfl, rfl, rfl, rfl, rfl, rfl, rfl⟩
/-- A tile of bytes for a compressed page. -/
def encodes : State := compressed (xferSt (.codec 2 (1 + 7 * 2 ^ 16)) (2 ^ 60) (2 ^ 21) [] []) 0 []
theorem witness_encode : ∃ h x, Unbegun encodes c0 0 h x ∧ h.id = c0 ∧ x.kind = .codec 2 (BitVec.ofNat 64 (1 + 7 * 2 ^ 16)) ∧
    x.src.toNat = 2 ^ 60 + 0 ∧ x.dst.toNat = 2 ^ 21 ∧ 2 ≤ etNibs 7 ∧ (∃ ad, h.pk.translate h.who (2 ^ 21) 1 .engWrite = .ok (.hbm ad (2 ^ 21) true)) ∧
    (∀ i < 4096, Readable h.jb [.full, .empty] (fun _ => False) (0 + i)) ∧ h.jb.mem = [] :=
  ⟨_, xferOf (.codec 2 (1 + 7 * 2 ^ 16)) (2 ^ 60) (2 ^ 21), ⟨rfl, rfl, nofun, rfl, rfl, rfl, rfl, nofun, rfl, rfl, rfl, rfl, rfl,
      Nat.le_trans (Nat.le_of_eq (rfl : _ = 1024 * 2048)) (by decide), rfl⟩, rfl, rfl, rfl, rfl, by decide,
    ⟨_, maps_compressed _ _ _ _ 0 1 rfl rfl rfl rfl rfl (by decide) (fun c => by cases c <;> rfl) (fun _ => rfl)⟩,
    fun i hi => ⟨Nat.lt_of_lt_of_eq (by omega) (rfl : 1024 * 2048 = _), by
      rw [tag_none rfl]
      decide, nofun, nofun⟩, rfl⟩
theorem witness_decode_blocks : (∃ h, Unbegun (blockSt 1 1 0x1107 []) c0 0 h (xferOf (.codec 1 1) (2 ^ 21) (2 ^ 60 + 1022 * 2048)) ∧
      SourceBlocks h (2 ^ 21) 1 (fun _ => 257 * 2 ^ 21) ∧ 1022 * 2048 + 4096 * 1 ≤ h.jb.limit ∧ (∀ sl, Fresh h sl) ∧
      h.pk.ctag (257 * 512) = 0x1107) ∧
    ∃ h, Unbegun (blockSt 3 1 0x2427 (List.replicate 32 0 ++ [16])) c0 0 h (xferOf (.codec 3 1) (2 ^ 21) (2 ^ 60 + 1022 * 2048)) ∧
      SourceBlocks h (2 ^ 21) 1 (fun _ => 257 * 2 ^ 21) ∧ 1022 * 2048 + (64 + 2048 / 1) * 1 ≤ h.jb.limit ∧ (∀ sl, Fresh h sl) ∧
      h.pk.ctag (257 * 512) = 0x2427 := by
  refine ⟨?_, ?_⟩
  · obtain ⟨h, h1, _, h2, h3, h4, h5, _⟩ := source_blocks 1 1 0x1107 [] (by decide)
    exact ⟨h, h1, h4, by omega, h3, h5⟩
  · obtain ⟨h, h1, _, h2, h3, h4, h5, _⟩ := source_blocks 3 1 0x2427 (List.replicate 32 0 ++ [16]) (by decide)
    exact ⟨h, h1, h4, by omega, h3, h5⟩
/-- A RAW block; a ZBM block of zero bytes, of 8 x 64 bytes of bitmaps; a CB4 block of 33 x 64 bytes with 16 entries. -/
theorem witness_raw_good (m : List Host.Cell) (f : Nat) : ZbmGood 0x0007 m f := ⟨by decide, .inl (by decide)⟩
theorem witness_zbm_good : ZbmGood 0x1107 [] 0 := by
  have h : zbmRank [] 0 4096 = 0 := by
    have : ∀ i, zbmBit [] 0 i = false := fun i => by simp [zbmBit, show ∀ a, memGet [] a = 0 from fun _ => rfl]
    simp [zbmRank, this]
  refine ⟨by decide, .inr ⟨by decide, by decide, by decide, ?_, by decide⟩⟩
  show (512 / 1 + 1 * zbmRank [] 0 4096 + 63) / 64 = 8
  rw [h]
theorem witness_cb4_good : Cb4Good 0x2427 1 [(32, 16)] 0 := by unfold Cb4Good; decide +kernel

/-- A record that is ready. -/
def ready1 (t : TaskRec) : QRec := { newRecord t 1 0 with ready := some 0 }
/-- A live cell 0 whose job is set aside, with records in its queue and budget for them. -/
def idle (l : List QRec) (h : Bool) : State :=
  (onCell (alive onAc) fun x => { x with queue := l, job := none, heldJob := if h then x.job else none }).modPkg 0 fun p => { p with
    dies := p.dies.set 0 { p.dies[0] with budget := 10 ^ 9 } }
/-- A header of 1,024 slabs, its six core entries 8 bytes after it. -/
def header1 : List Byte := (List.replicate 6 [8, 0, 0, 0]).flatten ++ List.replicate 46 0 ++ [0, 4] ++ List.replicate 10 0 ++ [1, 0] ++
  List.replicate 44 0
def headed (l : List QRec) : State := (idle l false).modPkg 0 fun p => { p with hbm := memWrite p.hbm (256 * 2 ^ 21 + 0x800) header1 }
theorem witness_select_none : ∃ p x, CellAt (idle [] false) c0 p x ∧ x.trapped = none ∧ p.selectFor (idle [] false).now c0.cell x = none :=
  ⟨_, _, ⟨rfl, rfl⟩, rfl, rfl⟩
theorem witness_select_held : ∃ p x j cx, CellAt (idle [] true) c0 p x ∧ x.job = none ∧ x.trapped = none ∧ p.live c0.cell = true ∧
    x.bindable = true ∧ p.selectFor (idle [] true).now c0.cell x = some (.held j, false) ∧ p.ctx j.ctx = some cx :=
  ⟨_, _, _, _, ⟨rfl, rfl⟩, rfl, rfl, rfl, rfl, rfl, rfl⟩
theorem witness_select_record : ∃ p x r cx j, CellAt (headed [ready1 placeTask]) c0 p x ∧
    p.selectFor (headed [ready1 placeTask]).now c0.cell x = some (.rec_ r, false) ∧ p.ctx r.ctx = some cx ∧ r.save = none ∧
    p.newJob (headed [ready1 placeTask]).nextId c0.cell x cx r = .ok j := by
  refine ⟨_, _, _, _, _, ⟨rfl, rfl⟩, rfl, rfl, rfl, (ok_of ?_).choose_spec⟩
  decide +kernel
theorem witness_select_rejects : ∃ p x r cx, CellAt (idle [ready1 placeTask] false) c0 p x ∧
    p.selectFor (idle [ready1 placeTask] false).now c0.cell x = some (.rec_ r, false) ∧ p.ctx r.ctx = some cx ∧ r.save = none ∧
    p.newJob (idle [ready1 placeTask] false).nextId c0.cell x cx r = .error .reject := ⟨_, _, _, _, ⟨rfl, rfl⟩, rfl, rfl, rfl, rfl⟩
/-- A continuation, its job in save area 9. -/
def saved9 : State := (idle [{ ready1 placeTask with save := some 9 }] false).modPkg 0 fun p => p.modCtx 1 fun c => { c with
  saved := [(9, placeJob 7 0)] }
theorem witness_select_continues : ∃ p x r cx j, CellAt saved9 c0 p x ∧ p.selectFor saved9.now c0.cell x = some (.rec_ r, false) ∧
    p.ctx r.ctx = some cx ∧ r.save = some 9 ∧ look cx.saved 9 = some j := ⟨_, _, _, _, _, ⟨rfl, rfl⟩, rfl, rfl, rfl, rfl⟩
def stepped (step : BitVec 3) (budget : Nat) : State := onAc.modPkg 0 fun p => { p with
  firn := { p.firn with level := 1, dies := p.firn.dies.set 0 { p.firn.dies[0] with step := step } }
  dies := p.dies.set 0 { p.dies[0] with budget := budget } }
theorem witness_step : ∃ p q, (stepped 4 (10 ^ 9)).pkg 0 = some p ∧ p.firn.level ≠ 0 ∧ 0 < p.firn.dies[(0 : Fin 2)].step.toNat ∧
    p.draws 0 (p.firn.dies[(0 : Fin 2)].step.toNat - 1) none ≤ p.dies[(0 : Fin 2)].budget ∧ (stepped 0 0).pkg 0 = some q ∧
    q.firn.dies[(0 : Fin 2)].step.toNat = 0 := ⟨_, _, rfl, by decide, by decide, by decide +kernel, rfl, rfl⟩
/-- Cell 11, in the row of cell 0, has three ready records. -/
def robbed : State := (idle [] false).modCell ⟨0, 11⟩ fun x => { x with queue := List.replicate 3 (ready1 placeTask) }
theorem witness_steal : ∃ p x v z, CellAt robbed c0 p x ∧ x.job = none ∧ x.trapped = none ∧ p.live c0.cell = true ∧
    p.selectFor robbed.now c0.cell x = none ∧ (∀ r ∈ x.queue, p.recReady robbed.now r = false) ∧
    bestVictim (p.victims 0 (rowColumn c0.cell) (p.backlog robbed.now)) = some v ∧ p.cell v.cell = some z := by
  have h : ∃ v, bestVictim (((robbed.pkgs[0]?).map fun p => p.victims 0 (rowColumn c0.cell) (p.backlog robbed.now)).getD []) = some v ∧ v.cell = 11 :=
    Option.map_eq_some_iff.1 (by decide +kernel)
  obtain ⟨v, hv, hc⟩ := h
  exact ⟨_, _, v, _, ⟨rfl, rfl⟩, rfl, rfl, rfl, rfl, none_in, hv, by rw [hc]; rfl⟩
/-- The job of cell 0 with a record of priority 3 behind it. -/
def outranked1 : State := (onCell (alive onAc) fun x => { x with queue := [ready1 { placeTask with prio := 3 }] }).modPkg 0 fun p => { p with
  dies := p.dies.set 0 { p.dies[0] with budget := 10 ^ 9 } }
theorem witness_preemption_request : ∃ p x j, RunsAt outranked1 c0 p x j ∧ x.preempt = false ∧ p.outranked outranked1.now c0.cell x j = true :=
  ⟨_, _, _, ⟨⟨rfl, rfl⟩, rfl⟩, rfl, by decide +kernel⟩
theorem witness_preemption : ∃ p x j, RunsAt (onCell onAc fun x => { x with preempt := true }) c0 p x j ∧ x.preempt = true ∧ j.traps = [] ∧
    x.heldJob = none := ⟨_, _, _, ⟨⟨rfl, rfl⟩, rfl⟩, rfl, rfl, rfl⟩
def trap1 : Trap := ⟨1, 0, 0, List.replicate 32 0, .xc, 0, false, 0, 0x1000⟩
theorem witness_trap_taken : ∃ p x j, RunsAt (withJob onAc fun j => { j with traps := [trap1, { trap1 with dlv := .ac }] }) c0 p x j ∧
    j.traps ≠ [] ∧ x.heldJob = none := ⟨_, _, _, ⟨⟨rfl, rfl⟩, rfl⟩, nofun, rfl⟩
theorem witness_watchdog : ∃ p x j, RunsAt (aged (2 ^ 26) onAc) c0 p x j ∧ j.progress + 2 ^ 26 ≤ p.clkOf c0.cell :=
  ⟨_, _, _, ⟨⟨rfl, rfl⟩, rfl⟩, by decide⟩
/-- A held job with a trap whose frame is due, in a context with one frame and a handler. -/
def held1 : Held := ⟨trap1, none, false, false, Vector.replicate 4 0, 0, Vector.replicate 8 0, Vector.replicate 8 0, false⟩
def trapHeld1 : State := (onCell onAc fun x => { x with job := none, heldJob := x.job.map fun j => { j with held := some held1 } }).modPkg 0 fun p =>
  p.modCtx 1 fun c => { c with frameBase := 0x1FF800, frameCount := 1, handler := 0x1C0 }
theorem witness_frame : ∃ p x j cx a, CellAt trapHeld1 c0 p x ∧ x.heldJob = some j ∧ x.job = none ∧ x.trapped = none ∧
    p.frameDue c0.cell = some (.held c0.cell j) ∧ j.held = some held1 ∧ held1.trap.krec.length = 32 ∧ p.ctx j.ctx = some cx ∧
    cx.frameFree = some 0 ∧ (cx.frameAt 0).toNat < 2 ^ 48 ∧ (cx.frameAt 0).toNat % 4096 + 1536 ≤ 4096 ∧
    p.translate cx.who (cx.frameAt 0).toNat 1536 .store = .ok (.hbm a (cx.frameAt 0).toNat false) ∧ Memory.wf p.hbm = true ∧
    x.hasPlace = true ∧ cx.handler.toNat % 64 = 0 ∧
    (p.fillFrame cx (.held c0.cell j) held1).readG cx.who cx.handler.toNat 64 .load = .ok (List.replicate 64 0, .none) ∧
    recordBad (handlerBytes (List.replicate 64 0) (cx.frameAt 0).toNat) cx.secure = [] :=
  ⟨_, _, _, _, _, ⟨rfl, rfl⟩, rfl, rfl, rfl, rfl, rfl, rfl, rfl, rfl, by decide, by decide, rfl, rfl, rfl, rfl, by decide +kernel, by decide +kernel⟩
def losing (st : CtxSt) : State := onAc.modPkg 0 fun p => { p.modCtx 1 (fun c => { c with st := st }) with losses := [⟨1, 1, 0, 0, 0⟩], marks := [256 * 2 ^ 15] }
theorem witness_lost : ∃ p cx f, (losing .running).pkg 0 = some p ∧ p.losses = ⟨1, 1, 0, 0, 0⟩ :: [] ∧ p.ctx 1 = some cx ∧ cx.st ≠ .lost ∧
    p.fns[cx.owner]? = some f ∧ (f.lostWritten + 2 ^ 32 - leNat (memRead f.mem (cx.lostRing.toNat + 8) 4)) % 2 ^ 32 < 63 :=
  ⟨_, _, _, rfl, rfl, rfl, by decide, rfl, by decide +kernel⟩
theorem witness_lost_again : ∃ p cx, (losing .lost).pkg 0 = some p ∧ p.losses = ⟨1, 1, 0, 0, 0⟩ :: [] ∧ p.ctx 1 = some cx ∧ cx.st = .lost :=
  ⟨_, _, rfl, rfl, rfl, rfl⟩

/-! ## Witnesses: the host -/

/-- Package 0 with what it holds for function 0 changed, and itself. -/
def hosted (g : Package → Package) (f : FnState → FnState) : State := (alive onAc).modPkg 0 fun p => (g p).modFn 0 f
def Hosted (g : Package → Package) (f : FnState → FnState) (P : Package → FnState → Prop) : Prop :=
  ∃ p y, FnAt (hosted g f) 0 p 0 y ∧ P p y
theorem owns_one (p : Package) (c : Context) (h : p.ctx 1 = some c) (ho : c.owner = 0) (hs : c.st = .running) : Owns p 0 1 :=
  ⟨c, h, ho, by rw [hs]; decide⟩
theorem witness_bar2_closed : Hosted id id fun p y => ¬ Owns p 0 y.w2ctx.toNat :=
  ⟨_, _, ⟨rfl, rfl⟩, fun ⟨_, h, _⟩ => nomatch (show none = some _ from h)⟩
/-- The last bytes of the page. -/
theorem witness_bar2_read : Hosted id (fun y => { y with w2ctx := 1 }) fun p y => ∃ c b va, p.ctx y.w2ctx.toNat = some c ∧
    Owns p 0 y.w2ctx.toNat ∧ 0x1FFFF8 % 4096 + 8 ≤ 4096 ∧ 0x1FFFF8 + 8 ≤ y.bar2 ∧ y.bar2 ≤ 2 ^ 36 ∧
    p.translate ⟨c.id, Config.fnSecure 0, none⟩ 0x1FFFF8 8 .load = .ok (.hbm b va false) :=
  ⟨_, _, ⟨rfl, rfl⟩, _, 256 * 2 ^ 21 + 0x1FFFF8, 0x1FFFF8, rfl, owns_one _ _ rfl rfl rfl, by decide, by decide +kernel, by decide +kernel, by decide +kernel⟩
theorem witness_bar2_unmapped : Hosted id (fun y => { y with w2ctx := 1 }) fun p y => ∃ c f, 0x200000 + 8 ≤ y.bar2 ∧ p.ctx y.w2ctx.toNat = some c ∧
    Owns p 0 y.w2ctx.toNat ∧ p.translate ⟨c.id, Config.fnSecure 0, none⟩ 0x200000 8 .load = .error f ∧ f ≠ .noFrame ∧ f ≠ .poisoned :=
  ⟨_, _, ⟨rfl, rfl⟩, _, .page .notPresent, by decide +kernel, rfl, owns_one _ _ rfl rfl rfl, by decide +kernel, nofun, nofun⟩
theorem witness_bar2_write : Hosted id (fun y => { y with w2ctx := 1 }) fun p y => ∃ c b va cm, p.ctx y.w2ctx.toNat = some c ∧
    Owns p 0 y.w2ctx.toNat ∧ p.translate ⟨c.id, Config.fnSecure 0, none⟩ 0x1FFFF8 8 .store = .ok (.hbm b va cm) ∧
    p.migrating ⟨c.id, Config.fnSecure 0, none⟩ 0x1FFFF8 = false ∧ Memory.wf p.hbm = true :=
  ⟨_, _, ⟨rfl, rfl⟩, _, 256 * 2 ^ 21 + 0x1FFFF8, 0x1FFFF8, false, rfl, owns_one _ _ rfl rfl rfl, by decide +kernel, by decide +kernel, rfl⟩
theorem witness_bar2_write_fails : Hosted id (fun y => { y with w2ctx := 1 }) fun p y => ∃ c k, 0x200000 + 8 ≤ y.bar2 ∧ p.ctx y.w2ctx.toNat = some c ∧
    Owns p 0 y.w2ctx.toNat ∧ p.translate ⟨c.id, Config.fnSecure 0, none⟩ 0x200000 8 .store = .error (.page k) :=
  ⟨_, _, ⟨rfl, rfl⟩, _, .notPresent, by decide +kernel, rfl, owns_one _ _ rfl rfl rfl, by decide +kernel⟩
theorem witness_bar2_write_sealed : Hosted (fun p => p.modCtx 1 fun c => { c with table := [(0, freshLeaf placeRun false ||| 0x20)] })
    (fun y => { y with w2ctx := 1 }) fun p y => ∃ c, p.ctx y.w2ctx.toNat = some c ∧ Owns p 0 y.w2ctx.toNat ∧
    p.translate ⟨c.id, Config.fnSecure 0, none⟩ 0 8 .store = .error .sealedWrite := ⟨_, _, ⟨rfl, rfl⟩, _, rfl, owns_one _ _ rfl rfl rfl, rfl⟩
theorem witness_ldoor : Hosted id id fun p y => p.ready = true ∧ (y.status 191).getLsbD 0 = false := ⟨_, _, ⟨rfl, rfl⟩, rfl, rfl⟩
theorem witness_ldoor_not_ready : ∃ p y, FnAt onAc 0 p 0 y ∧ p.ready = false ∧ (y.status 191).getLsbD 0 = false := ⟨_, _, ⟨rfl, rfl⟩, rfl, rfl⟩
/-- A packet of `n` records in slot 191, its copy under way. -/
def packet (n ctx : Byte) (x : List Byte) (f : FnState → FnState) (y : FnState) : FnState :=
  f { y with slots := memWrite y.slots (1024 * 191) ([ctx, n] ++ x), lstat := [(191, 1)] }
def Packeted (n ctx : Byte) (x : List Byte) (P : Package → FnState → List Byte → Prop) : Prop := Hosted id (packet n ctx x id) fun p y =>
  (y.status 191).getLsbD 0 = true ∧ P p y (memRead y.slots (1024 * 191) 1024)
def GoodPacket (b : List Byte) : Prop := 1 ≤ leNat ((b.drop 1).take 1) ∧ leNat ((b.drop 1).take 1) ≤ 15 ∧
  (b.drop 2).take 6 = List.replicate 6 0 ∧ (b.drop 16).take 48 = List.replicate 48 0
/-- Fifteen records, the last of them bad. -/
theorem witness_packet : Packeted 15 1 (List.replicate (62 + 64 * 14 + 0x30) 0 ++ [1]) fun p _ b => leNat (b.take 1) = 1 ∧ Owns p 0 1 ∧
    GoodPacket b ∧ p.live 191 = true ∧ (recordBad (packetRecord b 14) false ≠ []) ∧ recordBad (packetRecord b 13) false = [] ∧
    ∃ x, p.cell 191 = some x ∧ x.queue.length + x.reserved + 15 ≤ 65536 :=
  ⟨_, _, ⟨rfl, rfl⟩, rfl, by decide +kernel, owns_one _ _ rfl rfl rfl, ⟨by decide +kernel, by decide +kernel, by decide +kernel, by decide +kernel⟩,
    rfl, by decide +kernel, by decide +kernel, _, rfl, by decide⟩
theorem witness_packet_malformed : Packeted 0 1 [] fun p _ b => leNat (b.take 1) = 1 ∧ Owns p 0 1 ∧ ¬ GoodPacket b :=
  ⟨_, _, ⟨rfl, rfl⟩, rfl, by decide +kernel, owns_one _ _ rfl rfl rfl, fun h => absurd h.1 (by decide +kernel)⟩
theorem witness_packet_foreign : Packeted 1 2 [] fun p _ b => leNat (b.take 1) = 2 ∧ ¬ Owns p 0 2 :=
  ⟨_, _, ⟨rfl, rfl⟩, rfl, by decide +kernel, fun ⟨_, h, _⟩ => nomatch (show none = some _ from h)⟩
theorem witness_mbox : Hosted id id fun p _ => ∃ x, p.cell 0 = some x ∧ (∃ j ∈ x.jobs, Mine p 0 j.ctx) :=
  ⟨_, _, ⟨rfl, rfl⟩, _, rfl, _, List.mem_singleton.2 rfl, _, rfl, rfl⟩
theorem witness_mbox_closed : Hosted id id fun p y => ∃ x, p.cell 191 = some x ∧ ¬ ((∃ j ∈ x.jobs, Mine p 0 j.ctx) ∨ (∃ r ∈ x.queue, Mine p 0 r.ctx) ∨
    ((y.status 191).getLsbD 0 = true ∧ Mine p 0 (leNat ((memRead y.slots (1024 * 191) 1024).take 1)))) :=
  ⟨_, _, ⟨rfl, rfl⟩, _, rfl, fun
    | .inl ⟨_, h, _⟩ => absurd (show _ ∈ [] from h) List.not_mem_nil
    | .inr (.inl ⟨_, h, _⟩) => absurd (show _ ∈ [] from h) List.not_mem_nil
    | .inr (.inr h) => absurd h.1 (by decide)⟩
/-- A word of the slot written during the copy: its old form stands beside the new one, and a copy may take either. -/
theorem witness_slot_old : Hosted id (packet 1 1 [] fun y => { y with slotOld := [(1024 * 191, [1, 2, 0, 0, 0, 0, 0, 0])] }) fun _ y =>
    (∀ e ∈ y.slotOld, e.2.length = 8) ∧ (y.status 191).getLsbD 0 = true ∧ IsPacket y 191 (memRead y.slots (1024 * 191) 1024) ∧
    look y.slotOld (1024 * 191 + 8 * 0) = some [1, 2, 0, 0, 0, 0, 0, 0] :=
  ⟨_, _, ⟨rfl, rfl⟩, by decide, rfl, ⟨by simp [memRead], by decide +kernel⟩, rfl⟩
/-- A register write of eight bytes, the last of CMD, and one of the last bytes of the slots. -/
theorem witness_registers_written : Hosted id id fun _ y => 0x10F8 + 8 ≤ 0x1100 ∧ 251 % 16 < 12 ∧ 1016 + 8 ≤ 1024 ∧ Memory.wf y.slots = true :=
  ⟨_, _, ⟨rfl, rfl⟩, by decide, by decide, by decide, rfl⟩

/-- The command `code` with the bytes `args` in CMD. -/
def commanded (g : Package → Package) (code : Byte) (args : List Byte) : State := hosted g fun y => { y with
  cmd := Vector.ofFn fun i => (([code, 0, 0, 0, 0, 0, 0, 0] ++ args)[i.val]?).getD 0 }
def Commanded (g : Package → Package) (code : Byte) (args : List Byte) (P : Package → FnState → Prop) : Prop :=
  ∃ p y, CmdAt (commanded g code args) 0 p 0 y code.toNat ∧ P p y
theorem witness_command_not_ready : ∃ p y, FnAt onAc 0 p 0 y ∧ p.ready = false := ⟨_, _, ⟨rfl, rfl⟩, rfl⟩
theorem witness_command_unknown : Commanded id 8 [] fun _ _ => True := ⟨_, _, ⟨⟨rfl, rfl⟩, rfl, by decide +kernel⟩, trivial⟩
/-- A descriptor with base `b`, id `i` and `n` save areas. -/
def descriptor (b : Byte) (i : Byte) (n : List Byte) : List Byte :=
  [0, b] ++ List.replicate 22 0 ++ [16, 0, 0, 0] ++ List.replicate 12 0 ++ [0, 0, 1, 0] ++ List.replicate 12 0 ++ [32, 0, 0, 0] ++ (n ++ [0, 0, 0, 0]).take 4 ++
    List.replicate 16 0 ++ [0, i]
def argBytes (y : FnState) : List Byte := (y.cmd.toList.drop 8).take 128
theorem witness_ctxnew (b : Bool) : Commanded id 1 (descriptor (if b then 0x10 else 0) 255 [0, 0x10]) fun p y => DescriptorGood (argBytes y) 0 ∧
    GivesId p (numAt (argBytes y) 0x51 1) 255 ∧ p.savesUsed + numAt (argBytes y) 0x3C 4 ≤ Config.saveAreas ∧
    (numAt (argBytes y) 0 8 / 4096 = if b then 1 else 0) ∧ p.retired = [] ∧ 0 < y.bar2 / 2 ^ 21 ∧ (p.nextFrame + y.bar2 / 2 ^ 21) * 2 ^ 21 ≤ hbmBytes - 64 * 2 ^ 20 ∧
    Memory.wf p.hbm = true := by
  cases b <;> exact ⟨_, _, ⟨⟨rfl, rfl⟩, rfl, by decide +kernel⟩,
    ⟨by decide +kernel, by decide +kernel, by decide +kernel, by decide +kernel, by decide +kernel, by decide +kernel, by decide +kernel,
      by decide +kernel⟩, ⟨rfl, by
        rw [if_neg (by decide +kernel)]
        decide +kernel⟩, by decide +kernel, by decide +kernel, rfl, by decide +kernel, by decide +kernel, rfl⟩
theorem witness_ctxnew_first : Commanded id 1 (descriptor 0x10 0 []) fun p y => GivesId p (numAt (argBytes y) 0x51 1) 2 :=
  ⟨_, _, ⟨⟨rfl, rfl⟩, rfl, by decide +kernel⟩, rfl, by
    rw [if_pos (by decide +kernel)]
    exact ⟨by decide, by decide, fun i h1 h2 => by
      obtain rfl : i = 1 := by omega
      exact nofun⟩⟩
theorem witness_ctxnew_bad : Commanded id 1 [] fun _ y => ¬ DescriptorGood (argBytes y) 0 :=
  ⟨_, _, ⟨⟨rfl, rfl⟩, rfl, by decide +kernel⟩, fun h => absurd h.faults (by decide +kernel)⟩
theorem witness_ctxnew_taken : Commanded id 1 (descriptor 0x10 1 []) fun p y => ∀ id, ¬ GivesId p (numAt (argBytes y) 0x51 1) id :=
  ⟨_, _, ⟨⟨rfl, rfl⟩, rfl, by decide +kernel⟩, fun i h => by
    unfold GivesId at h
    rw [if_neg (by decide +kernel)] at h
    rw [h.2] at h
    exact absurd h.1 (by decide +kernel)⟩
theorem witness_ctxnew_no_saves : Commanded (fun p => { p with savesUsed := Config.saveAreas }) 1 (descriptor 0x10 2 [1]) fun p y =>
    Config.saveAreas < p.savesUsed + numAt (argBytes y) 0x3C 4 := ⟨_, _, ⟨⟨rfl, rfl⟩, rfl, by decide +kernel⟩, by decide +kernel⟩
theorem witness_argument_bad : Commanded id 2 [0, 1] fun _ y => 255 < cmdArg y 0 := ⟨_, _, ⟨⟨rfl, rfl⟩, rfl, by decide +kernel⟩, by decide +kernel⟩
theorem witness_argument_foreign : Commanded id 3 [255] fun p y => 1 ≤ cmdArg y 0 ∧ cmdArg y 0 ≤ 255 ∧
    ∀ c, p.ctx (cmdArg y 0) = some c → c.owner ≠ 0 :=
  ⟨_, _, ⟨⟨rfl, rfl⟩, rfl, by decide +kernel⟩, by decide +kernel, by decide +kernel, fun c h =>
    nomatch (h.symm.trans (by decide +kernel) : some c = none)⟩
theorem witness_ctxkill : Commanded (fun p => p.modCtx 1 fun c => { c with seals := [⟨0, 4096, [(0, 0x23)]⟩] }) 2 [1] fun p y => ∃ c,
    cmdArg y 0 = 1 ∧ p.ctx 1 = some c ∧ c.owner = 0 ∧ c.st ≠ .lost ∧ c.seals ≠ [] ∧ Memory.wf y.mem = true ∧
    (y.lostWritten + 2 ^ 32 - leNat (memRead y.mem (c.lostRing.toNat + 8) 4)) % 2 ^ 32 < 63 :=
  ⟨_, _, ⟨⟨rfl, rfl⟩, rfl, by decide +kernel⟩, _, by decide +kernel, rfl, rfl, by decide, nofun, rfl, by decide +kernel⟩
/-- A context in the state `st`. -/
def inState (st : CtxSt) (p : Package) : Package := p.modCtx 1 fun c => { c with st := st }
theorem witness_resume : (Commanded (inState .suspended) 3 [1] fun p y => ∃ c, cmdArg y 0 = 1 ∧ p.ctx 1 = some c ∧ c.owner = 0 ∧ c.st = .suspended) ∧
    (Commanded (inState .running) 3 [1] fun p y => ∃ c, cmdArg y 0 = 1 ∧ p.ctx 1 = some c ∧ c.owner = 0 ∧ c.st = .running) ∧
    Commanded (inState .lost) 3 [1] fun p y => ∃ c, cmdArg y 0 = 1 ∧ p.ctx 1 = some c ∧ c.owner = 0 ∧ c.st = .lost :=
  ⟨⟨_, _, ⟨⟨rfl, rfl⟩, rfl, by decide +kernel⟩, _, by decide +kernel, rfl, rfl, rfl⟩,
    ⟨_, _, ⟨⟨rfl, rfl⟩, rfl, by decide +kernel⟩, _, by decide +kernel, rfl, rfl, rfl⟩,
    ⟨_, _, ⟨⟨rfl, rfl⟩, rfl, by decide +kernel⟩, _, by decide +kernel, rfl, rfl, rfl⟩⟩
theorem witness_preempt : Commanded id 4 [1] fun p y => ∃ c x, cmdArg y 0 = 1 ∧ p.ctx 1 = some c ∧ c.owner = 0 ∧ p.cell 0 = some x ∧
    (!x.preempt && x.job.any fun j => j.ctx == 1) = true := ⟨_, _, ⟨⟨rfl, rfl⟩, rfl, by decide +kernel⟩, _, _, by decide +kernel, rfl, rfl, rfl, rfl⟩
/-- A routine numbered 127 of 49,152 bytes; one too many beside another; one of no bytes. -/
def customRuns (p : Package) : Bool := p.cells.toList.any fun x => x.jobs.any fun j => (j.ce0.xfers ++ j.ce1.xfers).any fun t =>
  (match t.kind with | .codec r _ => 64 ≤ r | _ => false)
def routineArgs (num : Byte) (l : List Byte) : List Byte := [num, 0, 0, 0, 0, 0, 0, 0] ++ List.replicate 8 0 ++ l
theorem witness_routine : Commanded id 5 (routineArgs 127 [0, 0xC0]) fun p y => customRuns p = false ∧ 64 ≤ cmdArg y 0 ∧ cmdArg y 0 ≤ 127 ∧ cmdArg y 2 ≤ 49152 ∧
    ((p.routines.filter fun r => !(r.num == cmdArg y 0 && r.secure == Config.fnSecure 0)).map fun r => r.bytes.length).sum + cmdArg y 2 ≤ 49152 :=
  ⟨_, _, ⟨⟨rfl, rfl⟩, rfl, by decide +kernel⟩, by decide +kernel, by decide +kernel, by decide +kernel, by decide +kernel, by decide +kernel⟩
theorem witness_routine_full : Commanded (fun p => { p with routines := [⟨64, false, [0]⟩] }) 5 (routineArgs 127 [0, 0xC0]) fun p y => customRuns p = false ∧
    64 ≤ cmdArg y 0 ∧ cmdArg y 0 ≤ 127 ∧ cmdArg y 2 ≤ 49152 ∧
    49152 < ((p.routines.filter fun r => !(r.num == cmdArg y 0 && r.secure == Config.fnSecure 0)).map fun r => r.bytes.length).sum + cmdArg y 2 :=
  ⟨_, _, ⟨⟨rfl, rfl⟩, rfl, by decide +kernel⟩, by decide +kernel, by decide +kernel, by decide +kernel, by decide +kernel, by decide +kernel⟩
theorem witness_routine_bad : Commanded id 5 (routineArgs 63 []) fun p y => customRuns p = false ∧ cmdArg y 0 < 64 := ⟨_, _, ⟨⟨rfl, rfl⟩, rfl, by decide +kernel⟩, by decide +kernel, by decide +kernel⟩
/-- A transfer runs a custom routine. -/
theorem witness_routine_waits : Commanded (fun p => p.modCell 0 fun x => { x with job := x.job.map fun j => { j with ce0 := { j.ce0 with
      xfers := [xferOf (.codec 64 0) 0 0] } } }) 5 (routineArgs 127 []) fun p _ => customRuns p = true :=
  ⟨_, _, ⟨⟨rfl, rfl⟩, rfl, by decide +kernel⟩, by decide +kernel⟩
theorem witness_attest : Commanded id 6 [] fun _ _ => True := ⟨_, _, ⟨⟨rfl, rfl⟩, rfl, by decide +kernel⟩, trivial⟩
theorem witness_dump : Commanded (fun p => { p with fatal := true }) 7 ([0, 0xFF, 0xFF, 3, 0, 0, 0, 0] ++ [0, 1]) fun p y => p.fatal = true ∧
    cmdArg y 1 ≤ 256 ∧ cmdArg y 0 + cmdArg y 1 ≤ 2 ^ 26 :=
  ⟨_, _, ⟨⟨rfl, rfl⟩, rfl, by decide +kernel⟩, rfl, by decide +kernel, by decide +kernel⟩
theorem witness_suspend : ∃ p c, onAc.pkg 0 = some p ∧ p.ctx 1 = some c ∧ c.st = .running := ⟨_, _, rfl, rfl, rfl⟩
theorem witness_suspend_again : ∃ p c, (onAc.modPkg 0 (inState .suspended)).pkg 0 = some p ∧ p.ctx 1 = some c ∧ c.st ≠ .running :=
  ⟨_, _, rfl, rfl, by decide⟩

/-! ## Witnesses: the management core, links, repair, migration, steps -/

theorem witness_power_on : ∃ p, State.reset.pkg 0 = some p ∧ p.level = 0 := ⟨_, rfl, rfl⟩
def levelled (l : BitVec 2) : State := onAc.modPkg 0 fun p => { p with level := l }
theorem witness_full_service : ∃ p, (levelled 1).pkg 0 = some p ∧ p.level = 1 := ⟨_, rfl, rfl⟩
theorem witness_full_service_early : ∃ p, (levelled 2).pkg 0 = some p ∧ p.level ≠ 1 := ⟨_, rfl, by decide⟩
theorem witness_budget : ∃ p, (alive onAc).pkg 0 = some p ∧ p.ready = true := ⟨_, rfl, rfl⟩
theorem witness_budget_unready : ∃ p, onAc.pkg 0 = some p ∧ p.ready = false := ⟨_, rfl, rfl⟩
/-- A job runs on a die without budget, 50 us after its last fall. -/
def drained : State := { stepped 3 0 with now := 50000 * 252 }
theorem witness_step_down : ∃ p, drained.pkg 0 = some p ∧ p.firn.dies[(0 : Fin 2)].step.toNat < 4 ∧
    p.dies[(0 : Fin 2)].budget < p.draws 0 p.firn.dies[(0 : Fin 2)].step.toNat none ∧ p.dies[(0 : Fin 2)].lastDown + 50000 * 252 ≤ drained.now :=
  ⟨_, rfl, by decide, by decide +kernel, by decide⟩
/-- Die 1 has stood at step 4 since time 0. -/
def tripping (now : Nat) : State := { (alive (stepped 0 0)).modPkg 0 fun p => { p with firn := { p.firn with
  dies := p.firn.dies.set 1 { p.firn.dies[1] with step := 4 } } } with now := now }
theorem witness_power_trip : ∃ p, (tripping (1000000 * 252)).pkg 0 = some p ∧ p.ready = true ∧ p.firn.dies[(1 : Fin 2)].step = 4 ∧
    p.dies[(1 : Fin 2)].since + 1000000 * 252 ≤ (tripping (1000000 * 252)).now := ⟨_, rfl, rfl, rfl, by decide⟩
theorem witness_power_trip_early : ∃ p, (tripping (1000000 * 252 - 1)).pkg 0 = some p ∧ ∀ d : Fin 2, p.firn.dies[d].step ≠ 4 ∨
    (tripping (1000000 * 252 - 1)).now < p.dies[d].since + 1000000 * 252 := ⟨_, rfl, by decide +kernel⟩
theorem witness_cell_lost : ∃ p x y, (alive onAc).pkg 0 = some p ∧ p.cell 0 = some x ∧ p.live 0 = true ∧ p.live 191 = true ∧ p.cell 191 = some y ∧
    p.live 1 = true ∧ (∀ i, i / 96 = 0 / 96 → i ≠ 0 → p.live i = true → 1 ≤ i) ∧ (∀ j ∈ x.jobs, j.eretOf = none) :=
  ⟨_, _, _, rfl, rfl, rfl, rfl, rfl, rfl, fun _ _ h _ => Nat.one_le_iff_ne_zero.2 h, fun j hj => by
    obtain rfl := List.mem_singleton.1 hj
    rfl⟩
theorem witness_cell_world : ∃ p x y, (alive onAc).pkg 0 = some p ∧ p.cell 191 = some x ∧ p.live 191 = true ∧ x.secure ≠ true ∧ x.jobs = [] ∧
    x.queue = [] ∧ x.due = [] ∧ x.ops = [] ∧ p.cell 0 = some y ∧ y.jobs ≠ [] := ⟨_, _, _, rfl, rfl, rfl, by decide, rfl, rfl, rfl, rfl, rfl, nofun⟩
theorem witness_peer_lost : ∃ p, (alive onAc).pkg 0 = some p ∧ p.ready = true ∧ 1023 ∉ p.firn.lost ∧ coordOfIndex 1023 ≠ p.firn.self :=
  ⟨_, rfl, rfl, by decide, by decide +kernel⟩
theorem witness_ack_deadline (st : CtxSt) (t : Nat) : ∃ p c, ((onAc.modPkg 0 (inState st)).modPkg 0 fun p => p.modCtx 1 fun c => { c with
      deadlines := [(3, t)] }).pkg 0 = some p ∧ p.ctx 1 = some c ∧ c.st = st ∧ c.deadlines = [(3, t)] := ⟨_, _, rfl, rfl, rfl, rfl⟩

def flit (n : BitVec 12) : Flit := flitSealed ⟨n, 0, Vector.replicate 6 0, 8, List.replicate 232 0, 0⟩
theorem witness_flit_bytes : (flit 0).payload.length = 232 := rfl
theorem witness_flit_bad : flitGood { flit 0 with crc := ~~~(flit 0).crc } = false := by decide +kernel
/-- Port 5's second link. -/
def linked (l : Link) : State := onAc.modPkg 0 fun p => { p with links := p.links.set 5 (p.links[5].set 1 l) }
def link1 (st : LinkSt) (fails : Nat) (replays : Nat := 0) : Link :=
  ⟨st, replays, fails, 10, 0xFFF, [flit 7, flit 8, flit 9], Vector.replicate 6 0, Vector.replicate 6 0, Vector.replicate 6 0⟩
theorem witness_flit : ∃ p l, LinkAt (linked (link1 .up 0)) 0 p 5 1 l ∧ l.st = .up ∧ flitGood (flit 0) = true ∧ (flit 0).fseq = l.rxSeq + 1 ∧
    l.unacked = [flit 7] ++ flit 8 :: [flit 9] ∧ (flit 8).fseq = (flit 0).ack ∧ (∀ h ∈ [flit 7], h.fseq ≠ (flit 0).ack) :=
  ⟨_, _, ⟨rfl, rfl⟩, rfl, beq_self_eq_true _, rfl, rfl, rfl, by decide⟩
theorem witness_flit_refused : ∃ p l, LinkAt (linked (link1 .up 0)) 0 p 5 1 l ∧ (flit 1).fseq ≠ l.rxSeq + 1 := ⟨_, _, ⟨rfl, rfl⟩, by decide⟩
theorem witness_link (st : LinkSt) (fails replays : Nat) : ∃ p l, LinkAt (linked (link1 st fails replays)) 0 p 5 1 l ∧ l.st = st ∧
    l.fails = fails ∧ l.replays = replays := ⟨_, _, ⟨rfl, rfl⟩, rfl, rfl, rfl⟩
def banked (b : BitVec 68) (r : Bool) (w : BitVec 4) : State := (alive onAc).modPkg 0 fun p => { p with
  firn := { p.firn with stackMaps := p.firn.stackMaps.set 7 ⟨b, r, w, true⟩ } }
theorem witness_bank : ∃ p, (banked (BitVec.allOnes 68 <<< 3) false 0).pkg 0 = some p ∧ p.ready = true ∧
    p.firn.stackMaps[(7 : Fin 8)].banks.getLsbD 67 = true ∧ deadBanks p.firn.stackMaps[(7 : Fin 8)] = 3 := ⟨_, rfl, rfl, by decide, by decide⟩
theorem witness_bank_fatal : ∃ p, (banked (BitVec.allOnes 68 <<< 4) false 0).pkg 0 = some p ∧
    p.firn.stackMaps[(7 : Fin 8)].banks.getLsbD 67 = true ∧ 4 ≤ deadBanks p.firn.stackMaps[(7 : Fin 8)] := ⟨_, rfl, by decide, by decide⟩
theorem witness_restripe (w : BitVec 4) : ∃ p, (banked 0 true w).pkg 0 = some p ∧ p.firn.stackMaps[(7 : Fin 8)].restriping = true ∧
    p.firn.stackMaps[(7 : Fin 8)].wmark = w := ⟨_, rfl, rfl, rfl⟩
theorem witness_scrub : ∃ p, onAc.pkg 0 = some p ∧ hbmBytes / 64 - 1 < hbmBytes / 64 := ⟨_, rfl, by decide⟩
/-- The page of the context migrates, or not (`mg`), in frames 131,072 on. -/
def moving (mg : Bool) (l : List Migration) (sl : List SealRange := []) : State := onAc.modPkg 0 fun p => { p.modCtx 1 (fun c => { c with
  seals := sl, table := [(0, freshLeaf placeRun false ||| if mg then 0x80 else 0)] }) with migrations := l }
theorem witness_migration_start (mg : Bool) : ∃ p c, (moving mg []).pkg 0 = some p ∧ p.ctx 1 = some c ∧ c.id = 1 ∧ c.st ≠ .lost ∧ c.ptBase = 0 ∧
    p.walk c 0x1FFFFF = .ok ((freshLeaf placeRun false ||| if mg then 0x80 else 0).toNat, 3) ∧
    look c.table (0x1FFFFF / 2 ^ 21) = some (BitVec.ofNat 64 (freshLeaf placeRun false ||| if mg then 0x80 else 0).toNat) ∧
    (∀ k ∈ p.ctxs, k.seals = []) := by
  cases mg <;> exact ⟨_, _, rfl, rfl, rfl, by decide, rfl, by decide +kernel, by decide +kernel, by decide +kernel⟩
theorem witness_migration_leaf (mg : Bool) : let leaf := (freshLeaf placeRun false ||| if mg then 0x80 else 0).toNat
    fld leaf 9 2 = 0 ∧ bitAt leaf 5 = false ∧ fld leaf 12 40 = 131072 ∧ bitAt leaf 7 = mg ∧ leaf < 2 ^ 52 ∧ (131072 + 512) * 4096 ≤ hbmBytes - 2 ^ 26 := by
  cases mg <;> decide +kernel
/-- The context has sealed a frame of the page. -/
theorem witness_migration_listed : ∃ p, (moving true [⟨9, 1, 0, 3, 131072, .hbm 0 (131072 + 512), none, 0⟩]
    [⟨0, 4096, [(0, 131075 * 4096 + 0x23)]⟩]).pkg 0 = some p ∧ ∃ k ∈ p.ctxs, ∃ r ∈ k.seals, ∃ f ∈ r.frames,
    131072 ≤ fld f.2 12 40 ∧ fld f.2 12 40 < 131072 + 512 :=
  ⟨_, rfl, _, List.mem_singleton.2 rfl, _, List.mem_singleton.2 rfl, _, List.mem_singleton.2 rfl, by decide, by decide⟩
theorem witness_migration_switch : ∃ p c m, (moving true [⟨9, 1, 0, 3, 131072, .hbm 0 (131072 + 512), none, 0⟩]).pkg 0 = some p ∧
    p.ctx 1 = some c ∧ c.id = 1 ∧ c.st ≠ .lost ∧ c.ptBase = 0 ∧ p.migrations.find? (fun k => k.id == 9 && k.switched.isNone) = some m ∧ m.ctx = c.id ∧
    m.level = 3 ∧ m.va % 2 ^ 21 = 0 ∧ m.target = .hbm 0 (131072 + 512) ∧ p.walk c m.va = .ok ((freshLeaf placeRun false ||| 0x80).toNat, 3) ∧
    131072 + 512 ≤ m.source + 512 ∧ Memory.wf p.hbm = true :=
  ⟨_, _, _, rfl, rfl, rfl, by decide, rfl, rfl, rfl, rfl, rfl, rfl, by decide +kernel, by decide, rfl⟩
theorem witness_forwarding (now : Nat) : ∃ p, { moving false [⟨9, 1, 0, 3, 131072, .hbm 0 (131072 + 512), some 0, 0⟩] with now := now }.pkg 0 = some p ∧
    (∃ m ∈ p.migrations, m.id = 9 ∧ m.switched = some 0) := ⟨_, rfl, _, List.mem_singleton.2 rfl, rfl, rfl⟩

theorem witness_next (a : Act) : ∃ u, Next { onAc with agenda := [⟨7, a⟩] } 7 a u := ⟨_, rfl, .inl ⟨_, rfl, rfl⟩⟩
/-- A word of the AC, a word that the core has not, and bits that are no instruction. -/
theorem witness_step_core : ∃ h, ((at_ 0x0100_0000_0000_0000).advance 0).here = some h ∧ h.st.live = true ∧ h.st.wait = none ∧
    h.jb.trapPending .ac = false ∧ h.jb.atPrologueEnd h.k = false ∧ h.fetch = .ok (0x0100_0000_0000_0000, .none) ∧
    (∃ i, decodeCore 0x0100_0000_0000_0000 = .ok i ∧ i.allowedOn .ac = true) ∧ ∃ i, decodeCore 0xC081_1246_20A8_4A00 = .ok i ∧ i.allowedOn .ac = false :=
  ⟨_, rfl, rfl, rfl, rfl, rfl, rfl, ⟨_, rfl, rfl⟩, _, rfl, rfl⟩
theorem witness_step_blocked : ∃ h, (waits .xc (.rdv 0) id).cur.2 = .ac ∧ ({ waits .xc (.rdv 0) id with cur := (c0, .xc) } : State).here = some h ∧
    h.st.wait ≠ none := ⟨_, rfl, rfl, nofun⟩
theorem witness_step_engine : ∃ h, (plain true []).ehereAt c0 0 = some h ∧ h.ch.live = true ∧ h.ch.halted = false ∧ h.jb.trapPending h.dlv = false ∧
    h.ch.wait = none ∧ h.fetch = .ok (0x1900, .none) ∧ decodeEngine 0x1900 = .ok .wEnd := ⟨_, rfl, rfl, rfl, rfl, rfl, rfl, rfl⟩
theorem witness_step_loss : ∃ n, (losing .running).lossPending = some n := ⟨_, rfl⟩
theorem witness_round_trip : (Instr.nop s0).wf = true ∧ (Instr.nop s0).bits = 64 ∧ Instr.wEnd.bits = 16 := ⟨rfl, rfl, rfl⟩
/-- The placed state is canonical, and a step of it answers a next state. -/
theorem witness_canonical : ∃ s', onAc.memOk ∧ step onAc = .next s' := by
  have h : ∃ s', step onAc = .next s' := by
    have e : (match step onAc with | .next _ => true | _ => false) = true := by decide +kernel
    revert e
    cases step onAc with
    | next t => exact fun _ => ⟨t, rfl⟩
    | fault _ => exact nofun
    | refused _ => exact nofun
  obtain ⟨t, ht⟩ := h
  refine ⟨t, ?_, ht⟩
  unfold State.memOk Package.memOk
  decide +kernel

end Sys2Proof.Tests
end

/-!
Proofs for 11 R143, the forms of opcode 0x11: the meaning of a register form from its function alone, and the functions of the
model against the products, quotients and carry-less products of the rule.
-/
namespace Sys2Proof.Claims
open Sys2Proof Sys2Proof.Machine

/-! ## Register forms (11 R139) -/

/-- A word of the scalar shape with two operands is known once its function is. -/
theorem rrr_of_exec {c : OpRRR → Instr} {f g : Word → Word → Word} (hexec : ∀ o s, exec (c o) s = onCore s (alu2 o g))
    (hfun : ∀ x y, g x y = f x y) : Rrr c f := by
  obtain rfl : g = f := funext₂ hfun
  intro o s h vs h1 hmeets hfree
  rw [hexec]
  exact scalar_next hmeets hfree (of2 g)

/-! ## Products -/

/-- The high half of a number written in 128 bits, in two's complement. -/
theorem ofInt_div_eq_extractLsb' (z : Int) : BitVec.ofInt 64 (z / 2 ^ 64) = (BitVec.ofInt 128 z).extractLsb' 64 64 := by
  apply BitVec.eq_of_toNat_eq
  simp only [BitVec.toNat_ofInt, BitVec.extractLsb'_toNat, Nat.shiftRight_eq_div_pow]
  omega

theorem ofNat_div_eq_extractLsb' (n : Nat) : BitVec.ofNat 64 (n / 2 ^ 64) = (BitVec.ofNat 128 n).extractLsb' 64 64 := by
  rw [← BitVec.ofInt_natCast 128, ← ofInt_div_eq_extractLsb', ← BitVec.ofInt_natCast, Int.natCast_ediv, Nat.cast_pow,
    Nat.cast_ofNat]

theorem ofNat_eq_extractLsb' (n : Nat) : BitVec.ofNat 64 n = (BitVec.ofNat 128 n).extractLsb' 0 64 := by
  rw [← BitVec.setWidth_eq_extractLsb' (by decide), BitVec.setWidth_ofNat_of_le (by decide)]

theorem sprod_eq_ofInt (x y : Word) : sprod x y = BitVec.ofInt 128 (x.toInt * y.toInt) :=
  (BitVec.ofInt_mul _ _).symm

theorem uprod_eq_ofNat (x y : Word) : uprod x y = BitVec.ofNat 128 (x.toNat * y.toNat) := by
  rw [BitVec.ofNat_mul, BitVec.ofNat_toNat, BitVec.ofNat_toNat, uprod]

theorem mulHigh_eq_sprod (x y : Word) : mulHigh x y = (sprod x y).extractLsb' 64 64 := by
  rw [sprod_eq_ofInt, ← ofInt_div_eq_extractLsb', mulHigh]

theorem mulHighU_eq_uprod (x y : Word) : mulHighU x y = (uprod x y).extractLsb' 64 64 := by
  rw [uprod_eq_ofNat, ← ofNat_div_eq_extractLsb', mulHighU]

/-! ## Quotients and remainders -/

theorem sdiv_eq_ofInt (x y : Word) : x.sdiv y = BitVec.ofInt 64 (x.toInt.tdiv y.toInt) :=
  BitVec.eq_of_toInt_eq (by rw [BitVec.toInt_sdiv, BitVec.toInt_ofInt])

/-- In the spelling of the model, where -1 is the negated literal of `Word`. -/
theorem neg_one_eq_allOnes : (-1 : Word) = BitVec.allOnes 64 := BitVec.neg_one_eq_allOnes

theorem divS_eq_quot (x y : Word) : divS x y = quot x y := by
  rw [divS, quot, sdiv_eq_ofInt, neg_one_eq_allOnes]

theorem divU_eq (x y : Word) : divU x y = if y = 0 then BitVec.allOnes 64 else x / y := by
  rw [divU, BitVec.udiv_def, neg_one_eq_allOnes]

/-- The remainder is what the quotient leaves, the wrapped quotient of -2^63 by -1 included. -/
theorem remS_eq_sub_quot_mul (x y : Word) : remS x y = x - quot x y * y := by
  unfold remS quot
  split
  case isTrue h => simp [h]
  case isFalse =>
    rw [sdiv_eq_ofInt, eq_sub_iff_add_eq]
    calc BitVec.ofInt 64 (x.toInt.tmod y.toInt) + BitVec.ofInt 64 (x.toInt.tdiv y.toInt) * y
        = BitVec.ofInt 64 (x.toInt.tmod y.toInt + x.toInt.tdiv y.toInt * y.toInt) := by
          rw [BitVec.ofInt_add, BitVec.ofInt_mul, BitVec.ofInt_toInt]
      _ = x := by rw [Int.tmod_add_tdiv_mul, BitVec.ofInt_toInt]

theorem remU_eq (x y : Word) : remU x y = if y = 0 then x else x % y := by
  rw [remU, BitVec.umod_def]

/-! ## Carry-less products -/

theorem bitAt_toNat (x : Word) (i : Nat) : bitAt x.toNat i = x.getLsbD i := by
  rw [BitVec.getLsbD, Nat.testBit_eq_decide_div_mod_eq]
  rfl

theorem ofNat_mul_two_pow (x : Word) (i : Nat) : BitVec.ofNat 128 (x.toNat * 2 ^ i) = x.setWidth 128 <<< i := by
  apply BitVec.eq_of_toNat_eq
  simp [Nat.shiftLeft_eq]

/-- To cut a number to 128 bits commutes with each step of the product. -/
theorem xprod_eq_ofNat (x y : Word) : xprod x y = BitVec.ofNat 128 (clmulNat x.toNat y.toNat) := by
  unfold xprod clmulNat
  refine List.foldl_hom (BitVec.ofNat 128) (init := 0) fun a i => ?_
  rw [bitAt_toNat, apply_ite (BitVec.ofNat 128), BitVec.ofNat_xor, ofNat_mul_two_pow]

theorem clmulLo_eq_xprod (x y : Word) : clmulLo x y = (xprod x y).extractLsb' 0 64 := by
  rw [xprod_eq_ofNat, ← ofNat_eq_extractLsb', clmulLo]

theorem clmulHi_eq_xprod (x y : Word) : clmulHi x y = (xprod x y).extractLsb' 64 64 := by
  rw [xprod_eq_ofNat, ← ofNat_div_eq_extractLsb', clmulHi]

/-! ## The forms -/

/-- Settles O2: each form has the scalar shape, and its function is that of the rule. -/
theorem multiplyDivide : Obligations.MultiplyDivide := by
  unfold Obligations.MultiplyDivide
  refine ⟨?mul, ?mulh, ?mulhu, ?div, ?divu, ?rem, ?remu, ?clmul, ?clmulh⟩
  case mul => exact rrr_of_exec (fun _ _ => rfl) (fun _ _ => rfl)
  case mulh => exact rrr_of_exec (fun _ _ => rfl) mulHigh_eq_sprod
  case mulhu => exact rrr_of_exec (fun _ _ => rfl) mulHighU_eq_uprod
  case div => exact rrr_of_exec (fun _ _ => rfl) divS_eq_quot
  case divu => exact rrr_of_exec (fun _ _ => rfl) divU_eq
  case rem => exact rrr_of_exec (fun _ _ => rfl) remS_eq_sub_quot_mul
  case remu => exact rrr_of_exec (fun _ _ => rfl) remU_eq
  case clmul => exact rrr_of_exec (fun _ _ => rfl) clmulLo_eq_xprod
  case clmulh => exact rrr_of_exec (fun _ _ => rfl) clmulHi_eq_xprod

end Sys2Proof.Claims

/-!
Proofs for 23 R357 and R362: TRAP and WORLD. Both read the stream at their word, and what they read is not what a sync wait or
an operand changes.
-/
namespace Sys2Proof.Claims
open Sys2Proof Sys2Proof.Machine

/-! ## What the operands and the sync wait of a word leave unchanged -/

@[simp] theorem alt_ctx (h : Here) (x : Parts) : (h.alt x).ctx = h.ctx := by
  obtain ⟨_, _, k, _, _, _, _⟩ := h
  cases k <;> rfl

theorem same_ce {h h1 : Here} {sy : Sync} {l : List Src} (m : Same h h1 sy l) : h1.ce = h.ce := by
  obtain ⟨x, _, _, rfl, -⟩ := m
  rfl

theorem same_ctx {h h1 : Here} {sy : Sync} {l : List Src} (m : Same h h1 sy l) : h1.ctx = h.ctx := by
  obtain ⟨x, _, _, rfl, -⟩ := m
  exact alt_ctx h x

theorem same_k {h h1 : Here} {sy : Sync} {l : List Src} (m : Same h h1 sy l) : h1.k = h.k := by
  obtain ⟨x, _, _, rfl, -⟩ := m
  rfl

theorem same_pc {h h1 : Here} {sy : Sync} {l : List Src} (m : Same h h1 sy l) : h1.st.pc = h.st.pc := by
  obtain ⟨_, _, hst⟩ := same_st m
  rw [hst]

theorem same_region {h h1 : Here} {sy : Sync} {l : List Src} (m : Same h h1 sy l) : h1.region = h.region := by
  obtain ⟨_, _, hst⟩ := same_st m
  rw [Here.region, hst]
  rfl

/-- All but the job is as it was. -/
theorem same_eq {h h1 : Here} {sy : Sync} {l : List Src} (m : Same h h1 sy l) : h1 = { h with jb := h1.jb } := by
  obtain ⟨x, _, _, rfl, -⟩ := m
  rfl

/-! ## WORLD (23 R362) -/

/-- The number that WORLD forms, as the bits of the rule. -/
theorem ofNat_bit1_add_two_mul_bit1 (w c : Bool) :
    BitVec.ofNat 64 (bit1 w + 2 * bit1 c) = (0 : BitVec 62) ++ BitVec.ofBool c ++ BitVec.ofBool w := by
  cases w <;> cases c <;> rfl

/-- A word of the scalar shape whose result depends on the stream that it finds computes it, where its sync wait and its
operands do not change that result. -/
theorem computes_of_exec {i : Instr} {sy : Sync} {rd : Dst} {l : List Src} {f g : Here → List PVal → PVal}
    (hexec : ∀ s, exec i s = onCore s fun h => h.scalar sy rd l (g h))
    (hfun : ∀ h h1 vs, Same h h1 sy l → g h vs = f h1 vs) : Computes i sy rd l f := by
  intro s h vs h1 hmeets hfree
  have hrun : exec i s = onCore s fun h' => h'.scalar sy rd l (g h) := by
    rw [hexec, onCore, onCore, hmeets.here]
  rw [hrun, ← hfun h h1 vs (meets_same hmeets)]
  exact scalar_next hmeets hfree (g h)

/-- Settles O12: the worlds stand in the context and in the cell, which the word's sync wait leaves as they are. -/
theorem worldBits : Obligations.WorldBits := by
  unfold Obligations.WorldBits
  intro rd sy
  refine computes_of_exec (fun _ => rfl) fun h h1 vs hsame => ?_
  rw [same_ce hsame, same_ctx hsame, ofNat_bit1_add_two_mul_bit1, Here.who]

/-! ## TRAP (23 R357) -/

/-- A word that does nothing after its sync wait but raise a trap adds it to those of its job, and leaves all else to the
sync wait. -/
theorem raise_next {s : State} {h : Here} {sy : Sync} (hhere : s.here = some h)
    (hsync : h.waits sy = true → 1 ≤ h.semView sy.sem) (t : Here → Trap) :
    onCore s (fun h => h.withSync sy fun h => h.raise (t h)) =
      .next (s.putJob { (h.synced sy).jb with traps := (h.synced sy).jb.traps ++ [t (h.synced sy)] }) := by
  have hrest : (h.synced sy).raise (t (h.synced sy)) = { h with jb := ((h.synced sy).raise (t (h.synced sy))).jb } := by
    rw [Here.raise, same_eq (synced_same h sy)]
  calc onCore s (fun h => h.withSync sy fun h => h.raise (t h))
      = ((h.synced sy).raise (t (h.synced sy))).outcome := by
        simp only [onCore, hhere, withSync_met hsync]
    _ = _ := close_putJob hhere hrest

/-- Settles O14: the sync wait moves neither the stream nor its region, so that the trap names the word at pc. -/
theorem softwareTrap : Obligations.SoftwareTrap := by
  unfold Obligations.SoftwareTrap
  intro n sy s h hhere hsync h1
  have hsame : Same h h1 sy [] := synced_same h sy
  have hrun : exec (.trap n sy) s = .next (s.putJob { h1.jb with
      traps := h1.jb.traps ++ [trapOf 0x0F h1.k.eng h1.region h1.st.pc (natLe n.toNat 2)] }) :=
    raise_next hhere hsync fun h => trapOf 0x0F h.k.eng h.region h.st.pc (natLe n.toNat 2)
  rw [hrun, same_k hsame, same_region hsame, same_pc hsame]
  rfl

end Sys2Proof.Claims
